-- ==== Sys2Proof/Word.lean ====
section
/-! DEFINITION. The word types of the machine: an 8-bit datum and a 16-bit address (spec/00_scope.md R9, R10). -/

namespace Sys2Proof

/-- An 8-bit value, 0..255 (R10). -/
abbrev Byte := BitVec 8

/-- A 16-bit value, 0..65535: a CPU address or a program counter (R10, R38). -/
abbrev Word := BitVec 16

end Sys2Proof
end

