-- ==== Sys2Proof/Machine/Bits.lean ====
section
/-! DEFINITION. Bit and byte helpers shared by the decoder and the machine
(spec/00_scope.md R11, R12; spec/20_memory.md R44). -/

namespace Sys2Proof.Machine

/-- `(hi ++ lo)`: the word of two bytes (R11). -/
def mkWord (hi lo : Byte) : Word := hi ++ lo

/-- `v[15:8]`. -/
def hiByte (w : Word) : Byte := w.extractLsb' 8 8

/-- `v[7:0]`. -/
def loByte (w : Word) : Byte := w.extractLsb' 0 8

/-- `zext_16` (R12). -/
def zext16 (b : Byte) : Word := b.setWidth 16

/-- `sext_16` (R12). -/
def sext16 (b : Byte) : Word := b.signExtend 16

/-- Whether two addresses lie in different pages (R17). -/
def crosses (a b : Word) : Bool := hiByte a != hiByte b

/-- `v` with bit `k` set to `b`. -/
def putBit {n : Nat} (v : BitVec n) (k : Nat) (b : Bool) : BitVec n :=
  if b then v ||| (1#n <<< k) else v &&& ~~~(1#n <<< k)

/-- The bit `b` at position `k` of an `n`-bit value, the other bits 0. -/
def bitAt (n : Nat) (k : Nat) (b : Bool) : BitVec n := if b then 1#n <<< k else 0#n

/-- The byte with its bits in the opposite order (R201). -/
def reverseBits (b : Byte) : Byte := b.reverse

end Sys2Proof.Machine
end

