-- ==== Sys2Proof/Syntax.lean ====
section
/-! DEFINITION. The instructions of spec/opcode_table.json.  There is one constructor per instruction
rule of 41_load_store_transfer.md to 46_flags_nop.md, plus the unlisted opcodes of R148.  The rows of
one rule differ only in the addressing mode, which is the constructor's operand; an unofficial NOP also
keeps its opcode byte, because several opcodes share one rule and mode (log entry 24). -/

namespace Sys2Proof

/-- An operand in memory, by addressing mode, with its instruction bytes
(spec/30_encoding.md R58, spec/40_addressing_modes.md R71 to R80). -/
inductive MemOperand where
  /-- zero-page (R71) -/
  | zp (addr : Byte)
  /-- zero-page-X (R72) -/
  | zpx (base : Byte)
  /-- zero-page-Y (R73) -/
  | zpy (base : Byte)
  /-- absolute (R75) -/
  | abs (addr : Word)
  /-- absolute-X (R76) -/
  | abx (base : Word)
  /-- absolute-Y (R77) -/
  | aby (base : Word)
  /-- indexed-indirect, `(zp,X)` (R79) -/
  | izx (ptr : Byte)
  /-- indirect-indexed, `(zp),Y` (R80) -/
  | izy (ptr : Byte)
deriving DecidableEq, Repr

/-- The source of a read instruction: an immediate (R70) or a memory byte. -/
inductive Source where
  | imm (value : Byte)
  | mem (m : MemOperand)
deriving DecidableEq, Repr

/-- The operand of a read-modify-write instruction: the accumulator (R69) or a memory byte. -/
inductive Target where
  | acc
  | mem (m : MemOperand)
deriving DecidableEq, Repr

/-- The operand of JMP: an absolute target (R75) or a pointer to it (R78). -/
inductive JumpOperand where
  | abs (target : Word)
  | ind (ptr : Word)
deriving DecidableEq, Repr

/-- The instruction set. -/
inductive Instr where
  -- 41_load_store_transfer.md
  /-- R82 -/
  | lda (src : Source)
  /-- R83 -/
  | ldx (src : Source)
  /-- R84 -/
  | ldy (src : Source)
  /-- R85 -/
  | sta (m : MemOperand)
  /-- R86 -/
  | stx (m : MemOperand)
  /-- R87 -/
  | sty (m : MemOperand)
  /-- R88 -/
  | tax
  /-- R89 -/
  | tay
  /-- R90 -/
  | txa
  /-- R91 -/
  | tya
  /-- R92 -/
  | tsx
  /-- R93 -/
  | txs
  -- 42_stack.md
  /-- R94 -/
  | pha
  /-- R95 -/
  | php
  /-- R96 -/
  | pla
  /-- R97 -/
  | plp
  -- 43_arith_logic.md
  /-- R99 -/
  | adc (src : Source)
  /-- R100 -/
  | sbc (src : Source)
  /-- R101 -/
  | and (src : Source)
  /-- R102 -/
  | ora (src : Source)
  /-- R103 -/
  | eor (src : Source)
  /-- R104 -/
  | bit (m : MemOperand)
  /-- R105 -/
  | cmp (src : Source)
  /-- R106 -/
  | cpx (src : Source)
  /-- R107 -/
  | cpy (src : Source)
  -- 44_incdec_shift.md
  /-- R108 -/
  | inc (m : MemOperand)
  /-- R109 -/
  | dec (m : MemOperand)
  /-- R110 -/
  | inx
  /-- R111 -/
  | iny
  /-- R112 -/
  | dex
  /-- R113 -/
  | dey
  /-- R114 -/
  | asl (t : Target)
  /-- R115 -/
  | lsr (t : Target)
  /-- R116 -/
  | rol (t : Target)
  /-- R117 -/
  | ror (t : Target)
  -- 45_control_transfer.md
  /-- R120 -/
  | bpl (offset : Byte)
  /-- R121 -/
  | bmi (offset : Byte)
  /-- R122 -/
  | bvc (offset : Byte)
  /-- R123 -/
  | bvs (offset : Byte)
  /-- R124 -/
  | bcc (offset : Byte)
  /-- R125 -/
  | bcs (offset : Byte)
  /-- R126 -/
  | bne (offset : Byte)
  /-- R127 -/
  | beq (offset : Byte)
  /-- R128 -/
  | jmp (j : JumpOperand)
  /-- R129 -/
  | jsr (target : Word)
  /-- R130 -/
  | rts
  /-- R131 -/
  | brk
  /-- R132 -/
  | rti
  -- 46_flags_nop.md
  /-- R133 -/
  | clc
  /-- R134 -/
  | sec
  /-- R135 -/
  | cli
  /-- R136 -/
  | sei
  /-- R137 -/
  | clv
  /-- R138 -/
  | cld
  /-- R139 -/
  | sed
  /-- R140 -/
  | nop
  /-- R141: an unofficial one-byte NOP, with its opcode -/
  | nopImp (op : Byte)
  /-- R142: an unofficial immediate NOP, with its opcode and its ignored byte -/
  | nopImm (op : Byte) (value : Byte)
  /-- R143: an unofficial zero-page NOP, with its opcode -/
  | nopZp (op : Byte) (addr : Byte)
  /-- R144: an unofficial zero-page-X NOP, with its opcode -/
  | nopZpx (op : Byte) (base : Byte)
  /-- R145: the unofficial absolute NOP -/
  | nopAbs (addr : Word)
  /-- R146: an unofficial absolute-X NOP, with its opcode -/
  | nopAbx (op : Byte) (base : Word)
  /-- R147: the unofficial SBC immediate alias 0xEB -/
  | sbcAlias (value : Byte)
  /-- R148: one of the 77 unlisted opcodes -/
  | unlisted (op : Byte)
deriving DecidableEq, Repr

end Sys2Proof
end

