-- ==== Sys2Proof/WellFormed.lean ====
section
/-! DEFINITION. Which operands each instruction admits: the mode table of
spec/40_addressing_modes.md R81, and the opcode lists of spec/30_encoding.md R63 for the instructions
that keep their opcode byte. -/

namespace Sys2Proof

/-- R63: the unofficial one-byte NOPs. -/
def nopImpOpcodes : List Byte := [0x1A, 0x3A, 0x5A, 0x7A, 0xDA, 0xFA]

/-- R63: the unofficial immediate NOPs. -/
def nopImmOpcodes : List Byte := [0x80, 0x82, 0x89, 0xC2, 0xE2]

/-- R63: the unofficial zero-page NOPs. -/
def nopZpOpcodes : List Byte := [0x04, 0x44, 0x64]

/-- R63: the unofficial zero-page-X NOPs. -/
def nopZpxOpcodes : List Byte := [0x14, 0x34, 0x54, 0x74, 0xD4, 0xF4]

/-- R63: the unofficial absolute-X NOPs. -/
def nopAbxOpcodes : List Byte := [0x1C, 0x3C, 0x5C, 0x7C, 0xDC, 0xFC]

/-- R63: the 77 unlisted opcodes. -/
def unlistedOpcodes : List Byte :=
  [0x02, 0x03, 0x07, 0x0B, 0x0F, 0x12, 0x13, 0x17, 0x1B, 0x1F, 0x22, 0x23, 0x27, 0x2B, 0x2F] ++
  [0x32, 0x33, 0x37, 0x3B, 0x3F, 0x42, 0x43, 0x47, 0x4B, 0x4F, 0x52, 0x53, 0x57, 0x5B, 0x5F] ++
  [0x62, 0x63, 0x67, 0x6B, 0x6F, 0x72, 0x73, 0x77, 0x7B, 0x7F, 0x83, 0x87, 0x8B, 0x8F, 0x92] ++
  [0x93, 0x97, 0x9B, 0x9C, 0x9E, 0x9F, 0xA3, 0xA7, 0xAB, 0xAF, 0xB2, 0xB3, 0xB7, 0xBB, 0xBF] ++
  [0xC3, 0xC7, 0xCB, 0xCF, 0xD2, 0xD3, 0xD7, 0xDB, 0xDF, 0xE3, 0xE7, 0xEF, 0xF2, 0xF3, 0xF7] ++
  [0xFB, 0xFF]

/-- The memory modes of LDA, STA and the accumulator's arithmetic and logic: all but zero-page-Y (R81). -/
def MemOperand.accMode : MemOperand → Bool
  | .zpy _ => false
  | _ => true

/-- zero-page and absolute only: BIT and the compares of X and Y (R81). -/
def MemOperand.plainMode : MemOperand → Bool
  | .zp _ | .abs _ => true
  | _ => false

/-- The memory modes of LDX (R81). -/
def MemOperand.ldxMode : MemOperand → Bool
  | .zp _ | .zpy _ | .abs _ | .aby _ => true
  | _ => false

/-- The memory modes of LDY and of the read-modify-write instructions (R81). -/
def MemOperand.xMode : MemOperand → Bool
  | .zp _ | .zpx _ | .abs _ | .abx _ => true
  | _ => false

/-- The memory modes of STX (R81). -/
def MemOperand.stxMode : MemOperand → Bool
  | .zp _ | .zpy _ | .abs _ => true
  | _ => false

/-- The memory modes of STY (R81). -/
def MemOperand.styMode : MemOperand → Bool
  | .zp _ | .zpx _ | .abs _ => true
  | _ => false

/-- A source whose memory form satisfies `ok`; the immediate form is admitted. -/
def Source.admits (ok : MemOperand → Bool) : Source → Bool
  | .imm _ => true
  | .mem m => ok m

/-- A target whose memory form satisfies `ok`; the accumulator form is admitted. -/
def Target.admits (ok : MemOperand → Bool) : Target → Bool
  | .acc => true
  | .mem m => ok m

/-- The instruction has an encoding: its mode is one R81 lists for it, and its opcode byte, where it
keeps one, is of its group in R63. -/
def Instr.wf : Instr → Bool
  | .lda src | .adc src | .sbc src | .and src | .ora src | .eor src | .cmp src =>
    src.admits MemOperand.accMode
  | .ldx src => src.admits MemOperand.ldxMode
  | .ldy src => src.admits MemOperand.xMode
  | .cpx src | .cpy src => src.admits MemOperand.plainMode
  | .sta m => m.accMode
  | .stx m => m.stxMode
  | .sty m => m.styMode
  | .bit m => m.plainMode
  | .inc m | .dec m => m.xMode
  | .asl t | .lsr t | .rol t | .ror t => t.admits MemOperand.xMode
  | .nopImp op => nopImpOpcodes.contains op
  | .nopImm op _ => nopImmOpcodes.contains op
  | .nopZp op _ => nopZpOpcodes.contains op
  | .nopZpx op _ => nopZpxOpcodes.contains op
  | .nopAbx op _ => nopAbxOpcodes.contains op
  | .unlisted op => unlistedOpcodes.contains op
  | .tax | .tay | .txa | .tya | .tsx | .txs | .pha | .php | .pla | .plp => true
  | .inx | .iny | .dex | .dey => true
  | .bpl _ | .bmi _ | .bvc _ | .bvs _ | .bcc _ | .bcs _ | .bne _ | .beq _ => true
  | .jmp _ | .jsr _ | .rts | .brk | .rti => true
  | .clc | .sec | .cli | .sei | .clv | .cld | .sed | .nop | .nopAbs _ | .sbcAlias _ => true

end Sys2Proof
end

