-- ==== Sys2Proof/Decode.lean ====
section
/-! DEFINITION. The decoder, total on any bytes, and after it the encoder: the opcode map of
spec/30_encoding.md R61 with the lengths of R58 and the operand assembly of R59. -/

namespace Sys2Proof

open Sys2Proof.Machine

/-- Why a list of bytes holds no whole instruction. -/
inductive DecodeError where
  /-- no byte at all -/
  | empty
  /-- the opcode's operand bytes (R58) are missing -/
  | missingOperand (opcode : Byte)
deriving DecidableEq, Repr

/-- The instruction of an opcode and the two bytes after it (R61); the bytes past its length are
ignored.  An opcode with no row of its own in the map is one of the 77 unlisted ones. -/
def decodeOp (op b1 b2 : Byte) : Instr :=
  match op with
  | 0x00 => .brk
  | 0x01 => .ora (.mem (.izx b1))
  | 0x04 => .nopZp 0x04 b1
  | 0x05 => .ora (.mem (.zp b1))
  | 0x06 => .asl (.mem (.zp b1))
  | 0x08 => .php
  | 0x09 => .ora (.imm b1)
  | 0x0A => .asl .acc
  | 0x0C => .nopAbs (mkWord b2 b1)
  | 0x0D => .ora (.mem (.abs (mkWord b2 b1)))
  | 0x0E => .asl (.mem (.abs (mkWord b2 b1)))
  | 0x10 => .bpl b1
  | 0x11 => .ora (.mem (.izy b1))
  | 0x14 => .nopZpx 0x14 b1
  | 0x15 => .ora (.mem (.zpx b1))
  | 0x16 => .asl (.mem (.zpx b1))
  | 0x18 => .clc
  | 0x19 => .ora (.mem (.aby (mkWord b2 b1)))
  | 0x1A => .nopImp 0x1A
  | 0x1C => .nopAbx 0x1C (mkWord b2 b1)
  | 0x1D => .ora (.mem (.abx (mkWord b2 b1)))
  | 0x1E => .asl (.mem (.abx (mkWord b2 b1)))
  | 0x20 => .jsr (mkWord b2 b1)
  | 0x21 => .and (.mem (.izx b1))
  | 0x24 => .bit (.zp b1)
  | 0x25 => .and (.mem (.zp b1))
  | 0x26 => .rol (.mem (.zp b1))
  | 0x28 => .plp
  | 0x29 => .and (.imm b1)
  | 0x2A => .rol .acc
  | 0x2C => .bit (.abs (mkWord b2 b1))
  | 0x2D => .and (.mem (.abs (mkWord b2 b1)))
  | 0x2E => .rol (.mem (.abs (mkWord b2 b1)))
  | 0x30 => .bmi b1
  | 0x31 => .and (.mem (.izy b1))
  | 0x34 => .nopZpx 0x34 b1
  | 0x35 => .and (.mem (.zpx b1))
  | 0x36 => .rol (.mem (.zpx b1))
  | 0x38 => .sec
  | 0x39 => .and (.mem (.aby (mkWord b2 b1)))
  | 0x3A => .nopImp 0x3A
  | 0x3C => .nopAbx 0x3C (mkWord b2 b1)
  | 0x3D => .and (.mem (.abx (mkWord b2 b1)))
  | 0x3E => .rol (.mem (.abx (mkWord b2 b1)))
  | 0x40 => .rti
  | 0x41 => .eor (.mem (.izx b1))
  | 0x44 => .nopZp 0x44 b1
  | 0x45 => .eor (.mem (.zp b1))
  | 0x46 => .lsr (.mem (.zp b1))
  | 0x48 => .pha
  | 0x49 => .eor (.imm b1)
  | 0x4A => .lsr .acc
  | 0x4C => .jmp (.abs (mkWord b2 b1))
  | 0x4D => .eor (.mem (.abs (mkWord b2 b1)))
  | 0x4E => .lsr (.mem (.abs (mkWord b2 b1)))
  | 0x50 => .bvc b1
  | 0x51 => .eor (.mem (.izy b1))
  | 0x54 => .nopZpx 0x54 b1
  | 0x55 => .eor (.mem (.zpx b1))
  | 0x56 => .lsr (.mem (.zpx b1))
  | 0x58 => .cli
  | 0x59 => .eor (.mem (.aby (mkWord b2 b1)))
  | 0x5A => .nopImp 0x5A
  | 0x5C => .nopAbx 0x5C (mkWord b2 b1)
  | 0x5D => .eor (.mem (.abx (mkWord b2 b1)))
  | 0x5E => .lsr (.mem (.abx (mkWord b2 b1)))
  | 0x60 => .rts
  | 0x61 => .adc (.mem (.izx b1))
  | 0x64 => .nopZp 0x64 b1
  | 0x65 => .adc (.mem (.zp b1))
  | 0x66 => .ror (.mem (.zp b1))
  | 0x68 => .pla
  | 0x69 => .adc (.imm b1)
  | 0x6A => .ror .acc
  | 0x6C => .jmp (.ind (mkWord b2 b1))
  | 0x6D => .adc (.mem (.abs (mkWord b2 b1)))
  | 0x6E => .ror (.mem (.abs (mkWord b2 b1)))
  | 0x70 => .bvs b1
  | 0x71 => .adc (.mem (.izy b1))
  | 0x74 => .nopZpx 0x74 b1
  | 0x75 => .adc (.mem (.zpx b1))
  | 0x76 => .ror (.mem (.zpx b1))
  | 0x78 => .sei
  | 0x79 => .adc (.mem (.aby (mkWord b2 b1)))
  | 0x7A => .nopImp 0x7A
  | 0x7C => .nopAbx 0x7C (mkWord b2 b1)
  | 0x7D => .adc (.mem (.abx (mkWord b2 b1)))
  | 0x7E => .ror (.mem (.abx (mkWord b2 b1)))
  | 0x80 => .nopImm 0x80 b1
  | 0x81 => .sta (.izx b1)
  | 0x82 => .nopImm 0x82 b1
  | 0x84 => .sty (.zp b1)
  | 0x85 => .sta (.zp b1)
  | 0x86 => .stx (.zp b1)
  | 0x88 => .dey
  | 0x89 => .nopImm 0x89 b1
  | 0x8A => .txa
  | 0x8C => .sty (.abs (mkWord b2 b1))
  | 0x8D => .sta (.abs (mkWord b2 b1))
  | 0x8E => .stx (.abs (mkWord b2 b1))
  | 0x90 => .bcc b1
  | 0x91 => .sta (.izy b1)
  | 0x94 => .sty (.zpx b1)
  | 0x95 => .sta (.zpx b1)
  | 0x96 => .stx (.zpy b1)
  | 0x98 => .tya
  | 0x99 => .sta (.aby (mkWord b2 b1))
  | 0x9A => .txs
  | 0x9D => .sta (.abx (mkWord b2 b1))
  | 0xA0 => .ldy (.imm b1)
  | 0xA1 => .lda (.mem (.izx b1))
  | 0xA2 => .ldx (.imm b1)
  | 0xA4 => .ldy (.mem (.zp b1))
  | 0xA5 => .lda (.mem (.zp b1))
  | 0xA6 => .ldx (.mem (.zp b1))
  | 0xA8 => .tay
  | 0xA9 => .lda (.imm b1)
  | 0xAA => .tax
  | 0xAC => .ldy (.mem (.abs (mkWord b2 b1)))
  | 0xAD => .lda (.mem (.abs (mkWord b2 b1)))
  | 0xAE => .ldx (.mem (.abs (mkWord b2 b1)))
  | 0xB0 => .bcs b1
  | 0xB1 => .lda (.mem (.izy b1))
  | 0xB4 => .ldy (.mem (.zpx b1))
  | 0xB5 => .lda (.mem (.zpx b1))
  | 0xB6 => .ldx (.mem (.zpy b1))
  | 0xB8 => .clv
  | 0xB9 => .lda (.mem (.aby (mkWord b2 b1)))
  | 0xBA => .tsx
  | 0xBC => .ldy (.mem (.abx (mkWord b2 b1)))
  | 0xBD => .lda (.mem (.abx (mkWord b2 b1)))
  | 0xBE => .ldx (.mem (.aby (mkWord b2 b1)))
  | 0xC0 => .cpy (.imm b1)
  | 0xC1 => .cmp (.mem (.izx b1))
  | 0xC2 => .nopImm 0xC2 b1
  | 0xC4 => .cpy (.mem (.zp b1))
  | 0xC5 => .cmp (.mem (.zp b1))
  | 0xC6 => .dec (.zp b1)
  | 0xC8 => .iny
  | 0xC9 => .cmp (.imm b1)
  | 0xCA => .dex
  | 0xCC => .cpy (.mem (.abs (mkWord b2 b1)))
  | 0xCD => .cmp (.mem (.abs (mkWord b2 b1)))
  | 0xCE => .dec (.abs (mkWord b2 b1))
  | 0xD0 => .bne b1
  | 0xD1 => .cmp (.mem (.izy b1))
  | 0xD4 => .nopZpx 0xD4 b1
  | 0xD5 => .cmp (.mem (.zpx b1))
  | 0xD6 => .dec (.zpx b1)
  | 0xD8 => .cld
  | 0xD9 => .cmp (.mem (.aby (mkWord b2 b1)))
  | 0xDA => .nopImp 0xDA
  | 0xDC => .nopAbx 0xDC (mkWord b2 b1)
  | 0xDD => .cmp (.mem (.abx (mkWord b2 b1)))
  | 0xDE => .dec (.abx (mkWord b2 b1))
  | 0xE0 => .cpx (.imm b1)
  | 0xE1 => .sbc (.mem (.izx b1))
  | 0xE2 => .nopImm 0xE2 b1
  | 0xE4 => .cpx (.mem (.zp b1))
  | 0xE5 => .sbc (.mem (.zp b1))
  | 0xE6 => .inc (.zp b1)
  | 0xE8 => .inx
  | 0xE9 => .sbc (.imm b1)
  | 0xEA => .nop
  | 0xEB => .sbcAlias b1
  | 0xEC => .cpx (.mem (.abs (mkWord b2 b1)))
  | 0xED => .sbc (.mem (.abs (mkWord b2 b1)))
  | 0xEE => .inc (.abs (mkWord b2 b1))
  | 0xF0 => .beq b1
  | 0xF1 => .sbc (.mem (.izy b1))
  | 0xF4 => .nopZpx 0xF4 b1
  | 0xF5 => .sbc (.mem (.zpx b1))
  | 0xF6 => .inc (.zpx b1)
  | 0xF8 => .sed
  | 0xF9 => .sbc (.mem (.aby (mkWord b2 b1)))
  | 0xFA => .nopImp 0xFA
  | 0xFC => .nopAbx 0xFC (mkWord b2 b1)
  | 0xFD => .sbc (.mem (.abx (mkWord b2 b1)))
  | 0xFE => .inc (.abx (mkWord b2 b1))
  | op => .unlisted op

/-- The bytes of a memory operand (R58). -/
def MemOperand.bytes : MemOperand → List Byte
  | .zp b | .zpx b | .zpy b | .izx b | .izy b => [b]
  | .abs w | .abx w | .aby w => [loByte w, hiByte w]

/-- The bytes of a source (R58). -/
def Source.bytes : Source → List Byte
  | .imm b => [b]
  | .mem m => m.bytes

/-- The bytes of a target (R58). -/
def Target.bytes : Target → List Byte
  | .acc => []
  | .mem m => m.bytes

/-- The bytes of a JMP operand, low byte first (R59). -/
def JumpOperand.bytes : JumpOperand → List Byte
  | .abs w | .ind w => [loByte w, hiByte w]

/-- The operand bytes of an instruction (R58). -/
def Instr.operandBytes : Instr → List Byte
  | .lda src | .ldx src | .ldy src | .adc src | .sbc src | .and src | .ora src | .eor src => src.bytes
  | .cmp src | .cpx src | .cpy src => src.bytes
  | .sta m | .stx m | .sty m | .bit m | .inc m | .dec m => m.bytes
  | .asl t | .lsr t | .rol t | .ror t => t.bytes
  | .bpl b | .bmi b | .bvc b | .bvs b | .bcc b | .bcs b | .bne b | .beq b => [b]
  | .jmp j => j.bytes
  | .jsr w | .nopAbs w | .nopAbx _ w => [loByte w, hiByte w]
  | .nopImm _ b | .nopZp _ b | .nopZpx _ b | .sbcAlias b => [b]
  | .tax | .tay | .txa | .tya | .tsx | .txs | .pha | .php | .pla | .plp => []
  | .inx | .iny | .dex | .dey | .rts | .brk | .rti => []
  | .clc | .sec | .cli | .sei | .clv | .cld | .sed | .nop | .nopImp _ | .unlisted _ => []

/-- The length of an instruction in bytes (R57, R58). -/
def Instr.length (i : Instr) : Nat := 1 + i.operandBytes.length

/-- The length is a function of the opcode byte alone (R64). -/
def opcodeLength (op : Byte) : Nat := (decodeOp op 0 0).length

/-- Decode the instruction at the head of a list of bytes and return it with the rest (R64). -/
def decode : List Byte → Except DecodeError (Instr × List Byte)
  | [] => .error .empty
  | op :: rest =>
    match opcodeLength op, rest with
    | 1, rest => .ok (decodeOp op 0 0, rest)
    | 2, b1 :: rest => .ok (decodeOp op b1 0, rest)
    | 3, b1 :: b2 :: rest => .ok (decodeOp op b1 b2, rest)
    | _, _ => .error (.missingOperand op)

/-- The instruction of a table word: its bytes laid out as the CPU space stores them, byte 0 the
opcode, every bit above `nbits` zero. -/
def decodeTableWord (nbits w : Nat) : Option Instr :=
  let bits := w % 2 ^ nbits
  match decode [BitVec.ofNat 8 bits, BitVec.ofNat 8 (bits / 256), BitVec.ofNat 8 (bits / 65536)] with
  | .ok (i, _) => some i
  | .error _ => none

/-- R61: the opcodes of LDA; 0 for a mode it lacks. -/
def ldaOpcode : Source → Byte
  | .imm _ => 0xA9
  | .mem (.zp _) => 0xA5
  | .mem (.zpx _) => 0xB5
  | .mem (.abs _) => 0xAD
  | .mem (.abx _) => 0xBD
  | .mem (.aby _) => 0xB9
  | .mem (.izx _) => 0xA1
  | .mem (.izy _) => 0xB1
  | _ => 0

/-- R61: the opcodes of LDX; 0 for a mode it lacks. -/
def ldxOpcode : Source → Byte
  | .imm _ => 0xA2
  | .mem (.zp _) => 0xA6
  | .mem (.zpy _) => 0xB6
  | .mem (.abs _) => 0xAE
  | .mem (.aby _) => 0xBE
  | _ => 0

/-- R61: the opcodes of LDY; 0 for a mode it lacks. -/
def ldyOpcode : Source → Byte
  | .imm _ => 0xA0
  | .mem (.zp _) => 0xA4
  | .mem (.zpx _) => 0xB4
  | .mem (.abs _) => 0xAC
  | .mem (.abx _) => 0xBC
  | _ => 0

/-- R61: the opcodes of ADC; 0 for a mode it lacks. -/
def adcOpcode : Source → Byte
  | .imm _ => 0x69
  | .mem (.zp _) => 0x65
  | .mem (.zpx _) => 0x75
  | .mem (.abs _) => 0x6D
  | .mem (.abx _) => 0x7D
  | .mem (.aby _) => 0x79
  | .mem (.izx _) => 0x61
  | .mem (.izy _) => 0x71
  | _ => 0

/-- R61: the opcodes of SBC; 0 for a mode it lacks. -/
def sbcOpcode : Source → Byte
  | .imm _ => 0xE9
  | .mem (.zp _) => 0xE5
  | .mem (.zpx _) => 0xF5
  | .mem (.abs _) => 0xED
  | .mem (.abx _) => 0xFD
  | .mem (.aby _) => 0xF9
  | .mem (.izx _) => 0xE1
  | .mem (.izy _) => 0xF1
  | _ => 0

/-- R61: the opcodes of AND; 0 for a mode it lacks. -/
def andOpcode : Source → Byte
  | .imm _ => 0x29
  | .mem (.zp _) => 0x25
  | .mem (.zpx _) => 0x35
  | .mem (.abs _) => 0x2D
  | .mem (.abx _) => 0x3D
  | .mem (.aby _) => 0x39
  | .mem (.izx _) => 0x21
  | .mem (.izy _) => 0x31
  | _ => 0

/-- R61: the opcodes of ORA; 0 for a mode it lacks. -/
def oraOpcode : Source → Byte
  | .imm _ => 0x09
  | .mem (.zp _) => 0x05
  | .mem (.zpx _) => 0x15
  | .mem (.abs _) => 0x0D
  | .mem (.abx _) => 0x1D
  | .mem (.aby _) => 0x19
  | .mem (.izx _) => 0x01
  | .mem (.izy _) => 0x11
  | _ => 0

/-- R61: the opcodes of EOR; 0 for a mode it lacks. -/
def eorOpcode : Source → Byte
  | .imm _ => 0x49
  | .mem (.zp _) => 0x45
  | .mem (.zpx _) => 0x55
  | .mem (.abs _) => 0x4D
  | .mem (.abx _) => 0x5D
  | .mem (.aby _) => 0x59
  | .mem (.izx _) => 0x41
  | .mem (.izy _) => 0x51
  | _ => 0

/-- R61: the opcodes of CMP; 0 for a mode it lacks. -/
def cmpOpcode : Source → Byte
  | .imm _ => 0xC9
  | .mem (.zp _) => 0xC5
  | .mem (.zpx _) => 0xD5
  | .mem (.abs _) => 0xCD
  | .mem (.abx _) => 0xDD
  | .mem (.aby _) => 0xD9
  | .mem (.izx _) => 0xC1
  | .mem (.izy _) => 0xD1
  | _ => 0

/-- R61: the opcodes of CPX; 0 for a mode it lacks. -/
def cpxOpcode : Source → Byte
  | .imm _ => 0xE0
  | .mem (.zp _) => 0xE4
  | .mem (.abs _) => 0xEC
  | _ => 0

/-- R61: the opcodes of CPY; 0 for a mode it lacks. -/
def cpyOpcode : Source → Byte
  | .imm _ => 0xC0
  | .mem (.zp _) => 0xC4
  | .mem (.abs _) => 0xCC
  | _ => 0

/-- R61: the opcodes of STA; 0 for a mode it lacks. -/
def staOpcode : MemOperand → Byte
  | .zp _ => 0x85
  | .zpx _ => 0x95
  | .abs _ => 0x8D
  | .abx _ => 0x9D
  | .aby _ => 0x99
  | .izx _ => 0x81
  | .izy _ => 0x91
  | _ => 0

/-- R61: the opcodes of STX; 0 for a mode it lacks. -/
def stxOpcode : MemOperand → Byte
  | .zp _ => 0x86
  | .zpy _ => 0x96
  | .abs _ => 0x8E
  | _ => 0

/-- R61: the opcodes of STY; 0 for a mode it lacks. -/
def styOpcode : MemOperand → Byte
  | .zp _ => 0x84
  | .zpx _ => 0x94
  | .abs _ => 0x8C
  | _ => 0

/-- R61: the opcodes of BIT; 0 for a mode it lacks. -/
def bitOpcode : MemOperand → Byte
  | .zp _ => 0x24
  | .abs _ => 0x2C
  | _ => 0

/-- R61: the opcodes of INC; 0 for a mode it lacks. -/
def incOpcode : MemOperand → Byte
  | .zp _ => 0xE6
  | .zpx _ => 0xF6
  | .abs _ => 0xEE
  | .abx _ => 0xFE
  | _ => 0

/-- R61: the opcodes of DEC; 0 for a mode it lacks. -/
def decOpcode : MemOperand → Byte
  | .zp _ => 0xC6
  | .zpx _ => 0xD6
  | .abs _ => 0xCE
  | .abx _ => 0xDE
  | _ => 0

/-- R61: the opcodes of ASL; 0 for a mode it lacks. -/
def aslOpcode : Target → Byte
  | .acc => 0x0A
  | .mem (.zp _) => 0x06
  | .mem (.zpx _) => 0x16
  | .mem (.abs _) => 0x0E
  | .mem (.abx _) => 0x1E
  | _ => 0

/-- R61: the opcodes of LSR; 0 for a mode it lacks. -/
def lsrOpcode : Target → Byte
  | .acc => 0x4A
  | .mem (.zp _) => 0x46
  | .mem (.zpx _) => 0x56
  | .mem (.abs _) => 0x4E
  | .mem (.abx _) => 0x5E
  | _ => 0

/-- R61: the opcodes of ROL; 0 for a mode it lacks. -/
def rolOpcode : Target → Byte
  | .acc => 0x2A
  | .mem (.zp _) => 0x26
  | .mem (.zpx _) => 0x36
  | .mem (.abs _) => 0x2E
  | .mem (.abx _) => 0x3E
  | _ => 0

/-- R61: the opcodes of ROR; 0 for a mode it lacks. -/
def rorOpcode : Target → Byte
  | .acc => 0x6A
  | .mem (.zp _) => 0x66
  | .mem (.zpx _) => 0x76
  | .mem (.abs _) => 0x6E
  | .mem (.abx _) => 0x7E
  | _ => 0

/-- R61: the opcode byte of an instruction. -/
def Instr.opcode : Instr → Byte
  | .lda src => ldaOpcode src
  | .ldx src => ldxOpcode src
  | .ldy src => ldyOpcode src
  | .adc src => adcOpcode src
  | .sbc src => sbcOpcode src
  | .and src => andOpcode src
  | .ora src => oraOpcode src
  | .eor src => eorOpcode src
  | .cmp src => cmpOpcode src
  | .cpx src => cpxOpcode src
  | .cpy src => cpyOpcode src
  | .sta m => staOpcode m
  | .stx m => stxOpcode m
  | .sty m => styOpcode m
  | .bit m => bitOpcode m
  | .inc m => incOpcode m
  | .dec m => decOpcode m
  | .asl t => aslOpcode t
  | .lsr t => lsrOpcode t
  | .rol t => rolOpcode t
  | .ror t => rorOpcode t
  | .bpl _ => 0x10
  | .bmi _ => 0x30
  | .bvc _ => 0x50
  | .bvs _ => 0x70
  | .bcc _ => 0x90
  | .bcs _ => 0xB0
  | .bne _ => 0xD0
  | .beq _ => 0xF0
  | .jmp (.abs _) => 0x4C
  | .jmp (.ind _) => 0x6C
  | .jsr _ => 0x20
  | .tax => 0xAA
  | .tay => 0xA8
  | .txa => 0x8A
  | .tya => 0x98
  | .tsx => 0xBA
  | .txs => 0x9A
  | .pha => 0x48
  | .php => 0x08
  | .pla => 0x68
  | .plp => 0x28
  | .inx => 0xE8
  | .iny => 0xC8
  | .dex => 0xCA
  | .dey => 0x88
  | .rts => 0x60
  | .brk => 0x00
  | .rti => 0x40
  | .clc => 0x18
  | .sec => 0x38
  | .cli => 0x58
  | .sei => 0x78
  | .clv => 0xB8
  | .cld => 0xD8
  | .sed => 0xF8
  | .nop => 0xEA
  | .nopImp op => op
  | .nopImm op _ => op
  | .nopZp op _ => op
  | .nopZpx op _ => op
  | .nopAbs _ => 0x0C
  | .nopAbx op _ => op
  | .sbcAlias _ => 0xEB
  | .unlisted op => op

/-- The bytes of a well-formed instruction: the opcode, then its operand bytes (R57). -/
def encode (i : Instr) : List Byte := i.opcode :: i.operandBytes

end Sys2Proof
end

