-- ==== Sys2Proof/Config.lean ====
section
/-! DEFINITION. What an implementation fixes: the parameters of spec/00_scope.md R9 with their
defaults, the constants the spec gives, and the free values, which stand for the spec's draws and
for the tables the spec leaves open.  A free value is an opaque constant: nothing in Lean can
evaluate it, so a statement about it holds for every value it could have. -/

namespace Sys2Proof

/-- The open parameters of R9 that have a default.  They are plain data carried by the state and no
step changes them, so every statement about all states holds for every choice of them (log entry 6). -/
structure Params where
  /-- `IRQ_ENTRY_CYCLES` (D7). -/
  irqEntryCycles : Nat
  /-- `ODD_FRAME_SKIP` (D27). -/
  oddFrameSkip : Bool
  /-- `ZAPPER_PRESENT` (D59). -/
  zapperPresent : Bool
  /-- `CPU_HZ` (D49). -/
  cpuHz : Nat
  /-- `SAMPLE_HZ` (D49). -/
  sampleHz : Nat
deriving DecidableEq, Repr

/-- The defaults of R9. -/
def Params.default : Params :=
  { irqEntryCycles := 8, oddFrameSkip := false, zapperPresent := false,
    cpuHz := 1789773, sampleHz := 44100 }

/-- A 24-bit colour (spec/62_ppu.md R196). -/
structure Rgb where
  r : Byte
  g : Byte
  b : Byte
deriving DecidableEq, Repr, Inhabited

namespace Config

/-- `NMI_ENTRY_CYCLES` (R9, R153). -/
def nmiEntryCycles : Nat := 8

/-- `DMC_DMA_STALL` (R9, R226). -/
def dmcDmaStall : Nat := 4

/-- Free value: bits 4..0 of the n-th draw, read by PPUSTATUS (R187, D20; log entry 7). -/
opaque busLatch : Nat → BitVec 5

/-- Free value: the buttons of controller 1 at the n-th draw, bit 0 = A ... bit 7 = RIGHT
(R174, D58; log entry 8). -/
opaque buttons1 : Nat → Byte

/-- Free value: the buttons of controller 2 at the n-th draw (R174, D58; log entry 8). -/
opaque buttons2 : Nat → Byte

/-- Free value: where the Zapper aims at the n-th draw, `(x, y)` (R176, D59; log entry 9). -/
opaque zapperAim : Nat → Int × Int

/-- Free value: whether the Zapper's trigger is pressed at the n-th draw (R176, D59; log entry 9). -/
opaque zapperPressed : Nat → Bool

/-- Free value: `PALETTE_RGB`, the colour of each of the 64 indices (R9, D36; log entry 10). -/
opaque paletteRgb : BitVec 6 → Rgb

/-- `MIX`: the non-linear mix of R228 in IEEE binary64, in the order written (D48; log entry 11). -/
def mix (p1 p2 t n d : Nat) : Float :=
  let pulseOut : Float :=
    if p1 + p2 > 0 then 95.88 / (8128.0 / (Float.ofNat (p1 + p2)) + 100.0) else 0.0
  let tndIn : Float := Float.ofNat t / 8227.0 + Float.ofNat n / 12241.0 + Float.ofNat d / 22638.0
  let tndOut : Float := if tndIn > 0.0 then 159.79 / (1.0 / tndIn + 100.0) else 0.0
  pulseOut + tndOut

/-- The 64 bits of a mixed sample, the form in which the state keeps it (log entry 11). -/
def mixBits (p1 p2 t n d : Nat) : BitVec 64 := (mix p1 p2 t n d).toBits.toBitVec

end Config

end Sys2Proof
end

