-- ==== Sys2Proof/Machine/State.lean ====
section
/-! DEFINITION. The state of the machine as plain data: everything spec/10_state.md, 61_bus.md,
62_ppu.md, 63_apu.md and 64_cartridge.md give it; the reasons a step can stop; and the state right after
a reset (spec/70_reset_and_hazards.md R250). -/

namespace Sys2Proof.Machine

/-- A memory of `w`-bit cells: the listed (address, value) pairs, addresses strictly rising, no value 0.
An unlisted address reads 0 (log entry 1). -/
abbrev Cells (w : Nat) := List (Nat × BitVec w)

/-- A memory of bytes. -/
abbrev Mem := List Host.Cell

/-- The mark an unlisted opcode leaves (spec/10_state.md R35, spec/60_exceptions.md R151). -/
structure RefusalMark where
  opcode : Byte
  address : Word
deriving DecidableEq, Repr

/-- The CPU (spec/10_state.md R19, R35). -/
structure Cpu where
  /-- accumulator (R20) -/
  a : Byte
  /-- index X (R20) -/
  x : Byte
  /-- index Y (R20) -/
  y : Byte
  /-- stack pointer (R21) -/
  sp : Byte
  /-- program counter (R22) -/
  pc : Word
  /-- status: C Z I D B U V N from bit 0 (R23) -/
  p : Byte
  /-- `cycles_remaining`; 0 means instruction-aligned (R35) -/
  cyclesRemaining : Nat
  /-- `stall_remaining` (R35) -/
  stallRemaining : Nat
  /-- `nmi_pending` (R35) -/
  nmiPending : Bool
  /-- `irq_pending` (R35) -/
  irqPending : Bool
  /-- `total_cycles` (R35) -/
  totalCycles : Nat
  /-- the opcode of the current window; scratch (R35) -/
  opcode : Byte
  /-- the latched effective address; scratch (R35) -/
  ea : Word
  /-- set once by an unlisted opcode, never cleared (R35, R36) -/
  refused : Option RefusalMark
deriving DecidableEq, Repr

/-- What the bus holds besides the components it owns (spec/61_bus.md R168). -/
structure Bus where
  /-- CPU RAM, 2048 bytes (spec/20_memory.md R41) -/
  ram : Mem
  /-- the system clock counter -/
  clock : Nat
  /-- the audio resample accumulator, in units of 1 / `sampleHz` (log entry 12) -/
  resampleAcc : Nat
  /-- the controller strobe (R173) -/
  strobe : Bool
  /-- the shift register of port 1 (R174) -/
  shift1 : Byte
  /-- the shift register of port 2 (R174) -/
  shift2 : Byte
deriving DecidableEq, Repr

/-- One sprite of primary or secondary OAM: its four bytes (spec/62_ppu.md R199). -/
structure SpriteEntry where
  y : Byte
  tile : Byte
  attr : Byte
  x : Byte
deriving DecidableEq, Repr

/-- One sprite unit: the pattern shifters, X counter and attribute latch (spec/62_ppu.md R180). -/
structure SpriteUnit where
  lo : Byte
  hi : Byte
  x : Byte
  attr : Byte
deriving DecidableEq, Repr

/-- How the four logical nametables lie on the two physical pages (spec/62_ppu.md R183). -/
inductive Mirror where
  | horizontal
  | vertical
  | oneScreenLow
  | oneScreenHigh
deriving DecidableEq, Repr

/-- The 2C02 (spec/62_ppu.md R180); its `mirror` is the cartridge's (spec/64_cartridge.md R234). -/
structure Ppu where
  /-- the two 1 KB nametables -/
  vram : Mem
  /-- palette RAM, 32 bytes -/
  palette : Mem
  /-- primary OAM, 256 bytes -/
  oam : Mem
  /-- secondary OAM, 8 entries of 4 bytes (log entry 25) -/
  secOam : Vector SpriteEntry 8
  /-- entries of `secOam` in use for the next scanline -/
  spriteCount : Nat
  /-- PPUCTRL (R185) -/
  ctrl : Byte
  /-- PPUMASK (R186) -/
  mask : Byte
  /-- PPUSTATUS bit 7 (R187) -/
  vblank : Bool
  /-- PPUSTATUS bit 6 (R187) -/
  sprite0Hit : Bool
  /-- PPUSTATUS bit 5 (R187) -/
  spriteOverflow : Bool
  /-- OAMADDR (R188) -/
  oamAddr : Byte
  /-- current VRAM address (R181) -/
  v : BitVec 15
  /-- temporary VRAM address (R181) -/
  t : BitVec 15
  /-- fine X scroll -/
  fineX : BitVec 3
  /-- write toggle -/
  w : Bool
  /-- PPUDATA read buffer (R192) -/
  readBuffer : Byte
  /-- next-tile ID latch (R197) -/
  ntLatch : Byte
  /-- next-tile attribute latch (R197) -/
  atLatch : BitVec 2
  /-- next-tile low pattern latch (R197) -/
  loLatch : Byte
  /-- next-tile high pattern latch (R197) -/
  hiLatch : Byte
  /-- background pattern shifter, low plane -/
  bgLo : BitVec 16
  /-- background pattern shifter, high plane -/
  bgHi : BitVec 16
  /-- attribute shifter, low bit (D38) -/
  atLo : BitVec 16
  /-- attribute shifter, high bit (D38) -/
  atHi : BitVec 16
  /-- `spr_lo`, `spr_hi`, `spr_x`, `spr_attr` for i = 0..7 -/
  sprites : Vector SpriteUnit 8
  /-- sprites loaded into the sprite units for the current line -/
  sprCount : Nat
  /-- sprite 0 is on the next line -/
  sprite0Next : Bool
  /-- sprite 0 is on the current line -/
  sprite0Line : Bool
  /-- current scanline, -1..260 (R195) -/
  scanline : Int
  /-- current dot, 0..340 (R195) -/
  dot : Nat
  /-- frame parity -/
  oddFrame : Bool
  /-- internal NMI-pending edge (R204) -/
  nmiEdge : Bool
  /-- frame-completion flag (R196) -/
  frameComplete : Bool
  /-- the picture being drawn: the colour index of pixel (x, y) at `y * 256 + x` (R203) -/
  framebuffer : Cells 6
deriving DecidableEq, Repr

/-- An envelope unit (spec/63_apu.md R206, R218). -/
structure Envelope where
  start : Bool
  divider : BitVec 4
  decay : BitVec 4
  constant : Bool
  volume : BitVec 4
deriving DecidableEq, Repr

/-- A pulse channel (spec/63_apu.md R206). -/
structure Pulse where
  enabled : Bool
  duty : BitVec 2
  seq : BitVec 3
  period : BitVec 11
  timer : BitVec 11
  length : Byte
  halt : Bool
  env : Envelope
  swEnabled : Bool
  swPeriod : BitVec 3
  swNegate : Bool
  swShift : BitVec 3
  swReload : Bool
  swDivider : BitVec 3
deriving DecidableEq, Repr

/-- The triangle channel (spec/63_apu.md R206). -/
structure Triangle where
  enabled : Bool
  period : BitVec 11
  timer : BitVec 11
  seq : BitVec 5
  length : Byte
  control : Bool
  linReloadValue : BitVec 7
  linCounter : BitVec 7
  linReload : Bool
deriving DecidableEq, Repr

/-- The noise channel (spec/63_apu.md R206). -/
structure Noise where
  enabled : Bool
  mode : Bool
  periodIndex : BitVec 4
  timer : BitVec 12
  lfsr : BitVec 15
  length : Byte
  halt : Bool
  env : Envelope
deriving DecidableEq, Repr

/-- The delta modulation channel (spec/63_apu.md R206). -/
structure Dmc where
  irqEnable : Bool
  loop : Bool
  rateIndex : BitVec 4
  timer : BitVec 9
  level : BitVec 7
  sampleAddr : Word
  sampleLen : BitVec 12
  curAddr : Word
  remaining : BitVec 12
  buffer : Byte
  bufferEmpty : Bool
  shift : Byte
  bits : Nat
  silence : Bool
  /-- the DMC IRQ flag `dmc_irq` -/
  irq : Bool
deriving DecidableEq, Repr

/-- The frame sequencer (spec/63_apu.md R206, R216). -/
structure FrameSeq where
  /-- false: 4-step; true: 5-step -/
  fiveStep : Bool
  counter : Nat
  inhibit : Bool
  /-- `frame_irq` -/
  irq : Bool
deriving DecidableEq, Repr

/-- The APU (spec/63_apu.md R206). -/
structure Apu where
  apuCycle : Nat
  pulse1 : Pulse
  pulse2 : Pulse
  triangle : Triangle
  noise : Noise
  dmc : Dmc
  frame : FrameSeq
deriving DecidableEq, Repr

/-- The registers of mapper 1 (spec/64_cartridge.md R238). -/
structure Mmc1 where
  shift : BitVec 5
  count : Nat
  control : BitVec 5
  chr0 : BitVec 5
  chr1 : BitVec 5
  prg : BitVec 5
deriving DecidableEq, Repr

/-- The registers of mapper 4 (spec/64_cartridge.md R243). -/
structure Mmc3 where
  target : BitVec 3
  prgMode : Bool
  chrInv : Bool
  r : Vector Byte 8
  irqLatch : Byte
  irqCounter : Byte
  irqReload : Bool
  irqEnable : Bool
  irqLine : Bool
deriving DecidableEq, Repr

/-- The six mappers with their registers (spec/64_cartridge.md R229, sections 3 to 8). -/
inductive Mapper where
  /-- mapper 0 (R237) -/
  | nrom
  /-- mapper 1 (R238) -/
  | mmc1 (m : Mmc1)
  /-- mapper 2 (R241) -/
  | uxrom (bank : Byte)
  /-- mapper 3 (R242) -/
  | cnrom (chrBank : Byte)
  /-- mapper 4 (R243) -/
  | mmc3 (m : Mmc3)
  /-- mapper 66 (R247) -/
  | gxrom (prgBank chrBank : BitVec 2)
deriving DecidableEq, Repr

/-- The cartridge (spec/64_cartridge.md R229). -/
structure Cartridge where
  /-- count of 16 KB PRG ROM banks -/
  prgBanks : Nat
  /-- count of 8 KB CHR ROM banks; 0 means CHR RAM -/
  chrBanks : Nat
  /-- PRG ROM -/
  prg : Mem
  /-- PRG RAM, 8192 bytes -/
  prgRam : Mem
  /-- CHR ROM or CHR RAM -/
  chr : Mem
  /-- the mirror mode of the header (R230, R236) -/
  headerMirror : Mirror
  /-- the current mirror mode, the PPU's too (R234) -/
  mirror : Mirror
  mapper : Mapper
deriving DecidableEq, Repr

/-- The whole machine. -/
structure State where
  cpu : Cpu
  bus : Bus
  ppu : Ppu
  apu : Apu
  cart : Cartridge
  /-- the parameters, which no step changes (log entry 6) -/
  params : Params
  /-- the model's own: draws taken so far, the argument of the free values (log entry 7) -/
  draws : Nat
  /-- what the last `tick()` returned (spec/61_bus.md R169, R179; log entry 19) -/
  retired : Bool
  /-- the audio samples emitted so far, newest first (spec/61_bus.md R177, R179; log entry 19) -/
  samples : List (BitVec 64)
  /-- the CPU's bus writes to a device so far, newest first (spec/61_bus.md R179; log entry 19) -/
  deviceWrites : List (Word × Byte)
deriving DecidableEq, Repr

/-- Why the machine stops with a fault.  The type has no constructor: nothing raises a fault, because
"Inside the emulation loop no errors are raised" (spec/60_exceptions.md R155; log entry 21), so
there is nothing safe or unsafe to say of one. -/
inductive Fault : Type
deriving DecidableEq, Repr

/-- Why a step has no meaning. -/
inductive Refusal where
  /-- Raised by the refused arms of `exec` only: an instruction the model has not reached.  Safe. -/
  | notModelled (mnemonic : String)
  /-- Raised by `step` on a state whose refusal mark is set, with the mark's opcode and address: "no
  further `clock()` step exists" (spec/60_exceptions.md R151).  Safe: the spec ends the run there. -/
  | unlistedOpcode (opcode : Byte) (address : Word)
deriving DecidableEq, Repr

/-- The CPU right after a reset (spec/70_reset_and_hazards.md R248); the registers the spec leaves
to a draw hold 0 (log entry 2). -/
def Cpu.reset (vector : Word) (mark : Option RefusalMark) : Cpu :=
  { a := 0, x := 0, y := 0, sp := 0xFD, pc := vector, p := 0x24, cyclesRemaining := 7,
    stallRemaining := 0, nmiPending := false, irqPending := false, totalCycles := 0, opcode := 0,
    ea := 0, refused := mark }

/-- The PPU right after a reset, which keeps its four memories (spec/62_ppu.md R180, D33). -/
def Ppu.reset (vram palette oam : Mem) (framebuffer : Cells 6) : Ppu :=
  { vram, palette, oam, secOam := Vector.replicate 8 ⟨0xFF, 0xFF, 0xFF, 0xFF⟩, spriteCount := 0,
    ctrl := 0, mask := 0, vblank := false, sprite0Hit := false, spriteOverflow := false, oamAddr := 0,
    v := 0, t := 0, fineX := 0, w := false, readBuffer := 0, ntLatch := 0, atLatch := 0, loLatch := 0,
    hiLatch := 0, bgLo := 0, bgHi := 0, atLo := 0, atHi := 0,
    sprites := Vector.replicate 8 ⟨0, 0, 0, 0⟩, sprCount := 0, sprite0Next := false,
    sprite0Line := false, scanline := -1, dot := 0, oddFrame := false, nmiEdge := false,
    frameComplete := false, framebuffer }

/-- An envelope after reset (R206). -/
def Envelope.reset : Envelope :=
  { start := false, divider := 0, decay := 0, constant := false, volume := 0 }

/-- A pulse channel after reset (R206). -/
def Pulse.reset : Pulse :=
  { enabled := false, duty := 0, seq := 0, period := 0, timer := 0, length := 0, halt := false,
    env := Envelope.reset, swEnabled := false, swPeriod := 0, swNegate := false, swShift := 0,
    swReload := false, swDivider := 0 }

/-- The triangle after reset (R206). -/
def Triangle.reset : Triangle :=
  { enabled := false, period := 0, timer := 0, seq := 0, length := 0, control := false,
    linReloadValue := 0, linCounter := 0, linReload := false }

/-- The noise channel after reset (R206): the LFSR starts at 1. -/
def Noise.reset : Noise :=
  { enabled := false, mode := false, periodIndex := 0, timer := 0, lfsr := 1, length := 0,
    halt := false, env := Envelope.reset }

/-- The DMC after reset (R206, D47). -/
def Dmc.reset : Dmc :=
  { irqEnable := false, loop := false, rateIndex := 0, timer := 0, level := 0, sampleAddr := 0,
    sampleLen := 0, curAddr := 0, remaining := 0, buffer := 0, bufferEmpty := true, shift := 0,
    bits := 8, silence := true, irq := false }

/-- The APU right after a reset (spec/63_apu.md R206, D47). -/
def Apu.reset : Apu :=
  { apuCycle := 0, pulse1 := Pulse.reset, pulse2 := Pulse.reset, triangle := Triangle.reset,
    noise := Noise.reset, dmc := Dmc.reset,
    frame := { fiveStep := false, counter := 0, inhibit := false, irq := false } }

/-- The bus right after a reset, which keeps CPU RAM (spec/70_reset_and_hazards.md R249). -/
def Bus.reset (ram : Mem) : Bus :=
  { ram, clock := 0, resampleAcc := 0, strobe := false, shift1 := 0, shift2 := 0 }

/-- The cartridge of `State.reset`: an NROM header with one PRG bank, one CHR ROM bank, horizontal
mirroring and no byte of an image (log entry 4). -/
def Cartridge.empty : Cartridge :=
  { prgBanks := 1, chrBanks := 1, prg := [], prgRam := [], chr := [], headerMirror := .horizontal,
    mirror := .horizontal, mapper := .nrom }

/-- The machine right after a reset (spec/70_reset_and_hazards.md R250), with no image loaded and
nothing listed in any memory, so that the word at 0xFFFC/0xFFFD is 0x0000 (log entries 1, 2, 4). -/
def State.reset : State :=
  { cpu := Cpu.reset 0x0000 none, bus := Bus.reset [], ppu := Ppu.reset [] [] [] [], apu := Apu.reset,
    cart := Cartridge.empty, params := Params.default, draws := 0, retired := false, samples := []
    deviceWrites := [] }

end Sys2Proof.Machine
end

