-- ==== Sys2Proof/Machine/Apu.lean ====
section
/-! DEFINITION. The APU: its tables, registers, units, channels and mix inputs (spec/63_apu.md).  The DMC
memory reader, which uses the bus, is in Machine/Tick.lean. -/

namespace Sys2Proof.Machine

/-! The tables (R207). -/

/-- `LENGTH_TABLE` -/
def lengthTable : List Byte :=
  [10, 254, 20, 2, 40, 4, 80, 6, 160, 8, 60, 10, 14, 12, 26, 14] ++
  [12, 16, 24, 18, 48, 20, 96, 22, 192, 24, 72, 26, 16, 28, 32, 30]

/-- `DUTY` -/
def dutyTable : List (List Bool) :=
  [[false, true, false, false, false, false, false, false],
   [false, true, true, false, false, false, false, false],
   [false, true, true, true, true, false, false, false],
   [true, false, false, true, true, true, true, true]]

/-- `TRI_SEQ` -/
def triSeq : List Nat :=
  [15, 14, 13, 12, 11, 10, 9, 8, 7, 6, 5, 4, 3, 2, 1, 0] ++
  [0, 1, 2, 3, 4, 5, 6, 7, 8, 9, 10, 11, 12, 13, 14, 15]

/-- `NOISE_PERIOD`, in CPU cycles (D42) -/
def noisePeriod : List Nat :=
  [4, 8, 16, 32, 64, 96, 128, 160, 202, 254, 380, 508, 762, 1016, 2034, 4068]

/-- `DMC_RATE`, in CPU cycles -/
def dmcRate : List Nat :=
  [428, 380, 340, 320, 286, 254, 226, 214, 190, 160, 142, 128, 106, 84, 72, 54]

/-- The length a channel loads for a register byte: `LENGTH_TABLE[d[7:3]]`. -/
def lengthOf (d : Byte) : Byte := lengthTable.getD (d.extractLsb' 3 5).toNat 0

/-! The registers (section 3). -/

/-- Pulse `b+0` (R208). -/
def pulseWrite0 (p : Pulse) (d : Byte) : Pulse :=
  { p with
    duty := d.extractLsb' 6 2, halt := d.getLsbD 5
    env := { p.env with constant := d.getLsbD 4, volume := d.extractLsb' 0 4 } }

/-- Pulse `b+1` (R208). -/
def pulseWrite1 (p : Pulse) (d : Byte) : Pulse :=
  { p with
    swEnabled := d.getLsbD 7, swPeriod := d.extractLsb' 4 3, swNegate := d.getLsbD 3
    swShift := d.extractLsb' 0 3, swReload := true }

/-- The low byte of an 11-bit period (R208, R209). -/
def periodLow (period : BitVec 11) (d : Byte) : BitVec 11 := (period &&& 0x700) ||| d.setWidth 11

/-- The high three bits of an 11-bit period (R208, R209). -/
def periodHigh (period : BitVec 11) (d : Byte) : BitVec 11 :=
  (period &&& 0x0FF) ||| ((d.extractLsb' 0 3).setWidth 11 <<< 8)

/-- Pulse `b+2` (R208). -/
def pulseWrite2 (p : Pulse) (d : Byte) : Pulse := { p with period := periodLow p.period d }

/-- Pulse `b+3` (R208). -/
def pulseWrite3 (p : Pulse) (d : Byte) : Pulse :=
  { p with
    period := periodHigh p.period d
    length := if p.enabled then lengthOf d else p.length
    seq := 0
    env := { p.env with start := true } }

/-- 0x4008 (R209). -/
def triangleWrite0 (t : Triangle) (d : Byte) : Triangle :=
  { t with control := d.getLsbD 7, linReloadValue := d.extractLsb' 0 7 }

/-- 0x400A (R209). -/
def triangleWrite2 (t : Triangle) (d : Byte) : Triangle := { t with period := periodLow t.period d }

/-- 0x400B (R209). -/
def triangleWrite3 (t : Triangle) (d : Byte) : Triangle :=
  { t with
    period := periodHigh t.period d
    length := if t.enabled then lengthOf d else t.length
    linReload := true }

/-- 0x400C (R210). -/
def noiseWrite0 (n : Noise) (d : Byte) : Noise :=
  { n with
    halt := d.getLsbD 5
    env := { n.env with constant := d.getLsbD 4, volume := d.extractLsb' 0 4 } }

/-- 0x400E (R210). -/
def noiseWrite2 (n : Noise) (d : Byte) : Noise :=
  { n with mode := d.getLsbD 7, periodIndex := d.extractLsb' 0 4 }

/-- 0x400F (R210). -/
def noiseWrite3 (n : Noise) (d : Byte) : Noise :=
  { n with
    length := if n.enabled then lengthOf d else n.length
    env := { n.env with start := true } }

/-- 0x4010 (R211, D45). -/
def dmcWrite0 (m : Dmc) (d : Byte) : Dmc :=
  { m with
    irqEnable := d.getLsbD 7, loop := d.getLsbD 6, rateIndex := d.extractLsb' 0 4
    irq := m.irq && d.getLsbD 7 }

/-- 0x4011 (R211). -/
def dmcWrite1 (m : Dmc) (d : Byte) : Dmc := { m with level := d.extractLsb' 0 7 }

/-- 0x4012 (R211). -/
def dmcWrite2 (m : Dmc) (d : Byte) : Dmc := { m with sampleAddr := 0xC000 + d.setWidth 16 * 64 }

/-- 0x4013 (R211). -/
def dmcWrite3 (m : Dmc) (d : Byte) : Dmc := { m with sampleLen := d.setWidth 12 * 16 + 1 }

/-- Start the sample again (R212, R226). -/
def dmcRestart (m : Dmc) : Dmc := { m with curAddr := m.sampleAddr, remaining := m.sampleLen }

/-- The DMC's part of a 0x4015 write (R212, D45). -/
def dmcEnable (m : Dmc) (on : Bool) : Dmc :=
  let m := { m with irq := false }
  if on then (if m.remaining = 0 then dmcRestart m else m) else { m with remaining := 0 }

/-- A pulse's part of a 0x4015 write (R212). -/
def pulseEnable (p : Pulse) (on : Bool) : Pulse :=
  { p with enabled := on, length := if on then p.length else 0 }

/-- 0x4015 write (R212). -/
def apuWriteEnable (a : Apu) (d : Byte) : Apu :=
  { a with
    pulse1 := pulseEnable a.pulse1 (d.getLsbD 0)
    pulse2 := pulseEnable a.pulse2 (d.getLsbD 1)
    triangle := { a.triangle with
      enabled := d.getLsbD 2, length := if d.getLsbD 2 then a.triangle.length else 0 }
    noise := { a.noise with
      enabled := d.getLsbD 3, length := if d.getLsbD 3 then a.noise.length else 0 }
    dmc := dmcEnable a.dmc (d.getLsbD 4) }

/-- The value of a 0x4015 read (R213, D66). -/
def apuStatus (a : Apu) : Byte :=
  bitAt 8 7 a.dmc.irq ||| bitAt 8 6 a.frame.irq ||| bitAt 8 4 (decide (a.dmc.remaining ≠ 0)) |||
    bitAt 8 3 (decide (a.noise.length ≠ 0)) ||| bitAt 8 2 (decide (a.triangle.length ≠ 0)) |||
    bitAt 8 1 (decide (a.pulse2.length ≠ 0)) ||| bitAt 8 0 (decide (a.pulse1.length ≠ 0))

/-- The APU after a 0x4015 read: the frame IRQ flag is cleared (R213). -/
def afterStatusReadApu (a : Apu) : Apu := { a with frame := { a.frame with irq := false } }

/-! Clocking the units (section 4). -/

/-- Clock an envelope whose loop flag is `halt` (R218). -/
def clockEnvelope (halt : Bool) (e : Envelope) : Envelope :=
  if e.start then { e with start := false, decay := 15, divider := e.volume }
  else if e.divider = 0 then
    { e with
      divider := e.volume
      decay := if e.decay ≠ 0 then e.decay - 1 else if halt then 15 else e.decay }
  else { e with divider := e.divider - 1 }

/-- An envelope's output (R218). -/
def envelopeOut (e : Envelope) : Nat := if e.constant then e.volume.toNat else e.decay.toNat

/-- Clock a length counter (R219). -/
def clockLength (halt : Bool) (length : Byte) : Byte :=
  if length ≠ 0 && !halt then length - 1 else length

/-- Clock the triangle's linear counter (R220). -/
def clockLinear (t : Triangle) : Triangle :=
  { t with
    linCounter :=
      if t.linReload then t.linReloadValue
      else if t.linCounter ≠ 0 then t.linCounter - 1 else t.linCounter
    linReload := t.linReload && t.control }

/-- The sweep's target period (R221): pulse 1 negates in ones' complement. -/
def sweepTarget (first : Bool) (p : Pulse) : Int :=
  let period : Int := p.period.toNat
  let change : Int := (p.period >>> p.swShift.toNat).toNat
  if p.swNegate then period - change - (if first then 1 else 0) else period + change

/-- The sweep mutes the channel (R221). -/
def sweepMutes (first : Bool) (p : Pulse) : Bool :=
  decide (p.period.toNat < 8) || decide (0x7FF < sweepTarget first p)

/-- Clock the sweep (R221). -/
def clockSweep (first : Bool) (p : Pulse) : Pulse :=
  let period :=
    if p.swDivider = 0 ∧ p.swEnabled ∧ p.swShift ≠ 0 ∧ ¬ sweepMutes first p then
      BitVec.ofInt 11 (sweepTarget first p)
    else p.period
  if p.swDivider = 0 || p.swReload then { p with period, swDivider := p.swPeriod, swReload := false }
  else { p with period, swDivider := p.swDivider - 1 }

/-- A quarter-frame: the envelopes and the linear counter (R217). -/
def quarterFrame (a : Apu) : Apu :=
  { a with
    pulse1 := { a.pulse1 with env := clockEnvelope a.pulse1.halt a.pulse1.env }
    pulse2 := { a.pulse2 with env := clockEnvelope a.pulse2.halt a.pulse2.env }
    noise := { a.noise with env := clockEnvelope a.noise.halt a.noise.env }
    triangle := clockLinear a.triangle }

/-- A pulse's part of a half-frame: its length counter and its sweep (R217). -/
def pulseHalf (first : Bool) (p : Pulse) : Pulse :=
  clockSweep first { p with length := clockLength p.halt p.length }

/-- A half-frame: the length counters and the sweeps (R217). -/
def halfFrame (a : Apu) : Apu :=
  { a with
    pulse1 := pulseHalf true a.pulse1
    pulse2 := pulseHalf false a.pulse2
    triangle := { a.triangle with length := clockLength a.triangle.control a.triangle.length }
    noise := { a.noise with length := clockLength a.noise.halt a.noise.length } }

/-- 0x4017 write (R214, D44). -/
def apuWriteFrame (a : Apu) (d : Byte) : Apu :=
  let a := { a with frame :=
    { fiveStep := d.getLsbD 7, inhibit := d.getLsbD 6, counter := 0, irq := a.frame.irq && !d.getLsbD 6 } }
  if d.getLsbD 7 then halfFrame (quarterFrame a) else a

/-- `apu.cpu_write(addr, d)` (R208 to R214). -/
def apuWrite (a : Apu) (addr : Word) (d : Byte) : Apu :=
  match addr.toNat with
  | 0x4000 => { a with pulse1 := pulseWrite0 a.pulse1 d }
  | 0x4001 => { a with pulse1 := pulseWrite1 a.pulse1 d }
  | 0x4002 => { a with pulse1 := pulseWrite2 a.pulse1 d }
  | 0x4003 => { a with pulse1 := pulseWrite3 a.pulse1 d }
  | 0x4004 => { a with pulse2 := pulseWrite0 a.pulse2 d }
  | 0x4005 => { a with pulse2 := pulseWrite1 a.pulse2 d }
  | 0x4006 => { a with pulse2 := pulseWrite2 a.pulse2 d }
  | 0x4007 => { a with pulse2 := pulseWrite3 a.pulse2 d }
  | 0x4008 => { a with triangle := triangleWrite0 a.triangle d }
  | 0x400A => { a with triangle := triangleWrite2 a.triangle d }
  | 0x400B => { a with triangle := triangleWrite3 a.triangle d }
  | 0x400C => { a with noise := noiseWrite0 a.noise d }
  | 0x400E => { a with noise := noiseWrite2 a.noise d }
  | 0x400F => { a with noise := noiseWrite3 a.noise d }
  | 0x4010 => { a with dmc := dmcWrite0 a.dmc d }
  | 0x4011 => { a with dmc := dmcWrite1 a.dmc d }
  | 0x4012 => { a with dmc := dmcWrite2 a.dmc d }
  | 0x4013 => { a with dmc := dmcWrite3 a.dmc d }
  | 0x4015 => apuWriteEnable a d
  | 0x4017 => apuWriteFrame a d
  | _ => a

/-- Set the frame IRQ flag unless inhibited (R216). -/
def raiseFrameIrq (a : Apu) : Apu :=
  { a with frame := { a.frame with irq := a.frame.irq || !a.frame.inhibit } }

/-- The frame counter set to 0 (R216). -/
def restartFrame (a : Apu) : Apu := { a with frame := { a.frame with counter := 0 } }

/-- `frame_step()` (R216). -/
def frameStep (a : Apu) : Apu :=
  let a := { a with frame := { a.frame with counter := a.frame.counter + 1 } }
  match a.frame.fiveStep, a.frame.counter with
  | _, 7457 => quarterFrame a
  | _, 14913 => halfFrame (quarterFrame a)
  | _, 22371 => quarterFrame a
  | false, 29828 => raiseFrameIrq a
  | false, 29829 => raiseFrameIrq (halfFrame (quarterFrame a))
  | false, 29830 => restartFrame (raiseFrameIrq a)
  | true, 37281 => halfFrame (quarterFrame a)
  | true, 37282 => restartFrame a
  | _, _ => a

/-! Channels (section 5). -/

/-- A pulse's timer and sequencer (R215, R222, D41). -/
def pulseTimer (p : Pulse) : Pulse :=
  if p.timer = 0 then { p with timer := p.period, seq := p.seq + 1 } else { p with timer := p.timer - 1 }

/-- A pulse's output (R222). -/
def pulseOut (first : Bool) (p : Pulse) : Nat :=
  if p.period.toNat < 8 || decide (p.length = 0) || sweepMutes first p ||
      !((dutyTable.getD p.duty.toNat []).getD p.seq.toNat false) then 0
  else envelopeOut p.env

/-- The triangle is silenced: a period below 2 (R223, D43; spec/93_implementation_defined.md I2). -/
def triangleSilenced (t : Triangle) : Bool := decide (t.period.toNat < 2)

/-- The triangle's timer and sequencer (R215, R223); the sequence index is not advanced while the channel is
silenced (spec/93_implementation_defined.md I2). -/
def triangleTimer (t : Triangle) : Triangle :=
  if t.timer = 0 then
    { t with
      timer := t.period
      seq := if t.length ≠ 0 && decide (t.linCounter ≠ 0) && !triangleSilenced t then t.seq + 1 else t.seq }
  else { t with timer := t.timer - 1 }

/-- The triangle's output (R223, D43). -/
def triangleOut (t : Triangle) : Nat := if triangleSilenced t then 0 else triSeq.getD t.seq.toNat 0

/-- One step of the noise LFSR (R224). -/
def lfsrStep (mode : Bool) (lfsr : BitVec 15) : BitVec 15 :=
  let fb := xor (lfsr.getLsbD 0) (if mode then lfsr.getLsbD 6 else lfsr.getLsbD 1)
  (lfsr >>> 1) ||| bitAt 15 14 fb

/-- The noise channel's timer and LFSR (R215, R224, D42). -/
def noiseTimer (n : Noise) : Noise :=
  if n.timer = 0 then
    { n with
      timer := BitVec.ofNat 12 (noisePeriod.getD n.periodIndex.toNat 0 / 2 - 1)
      lfsr := lfsrStep n.mode n.lfsr }
  else { n with timer := n.timer - 1 }

/-- The noise channel's output (R224). -/
def noiseOut (n : Noise) : Nat := if decide (n.length = 0) || n.lfsr.getLsbD 0 then 0 else envelopeOut n.env

/-- The DMC level after one output bit (R225, D65). -/
def dmcLevel (level : BitVec 7) (bit : Bool) : BitVec 7 :=
  if bit then (if level.toNat ≤ 125 then level + 2 else level)
  else if 2 ≤ level.toNat then level - 2 else level

/-- The DMC output unit (R225). -/
def dmcOutput (m : Dmc) : Dmc :=
  let m :=
    { m with
      level := if m.silence then m.level else dmcLevel m.level (m.shift.getLsbD 0)
      shift := m.shift >>> 1
      bits := m.bits - 1 }
  if m.bits = 0 then
    if m.bufferEmpty then { m with bits := 8, silence := true }
    else { m with bits := 8, silence := false, shift := m.buffer, bufferEmpty := true }
  else m

/-- The DMC's timer (R215, R225). -/
def dmcTimer (m : Dmc) : Dmc :=
  if m.timer = 0 then
    dmcOutput { m with timer := BitVec.ofNat 9 (dmcRate.getD m.rateIndex.toNat 0 - 1) }
  else { m with timer := m.timer - 1 }

/-- The DMC reader's own effect once it has read the byte `b` (R226). -/
def dmcTakeByte (m : Dmc) (b : Byte) : Dmc :=
  let m :=
    { m with
      buffer := b, bufferEmpty := false
      curAddr := if m.curAddr = 0xFFFF then 0x8000 else m.curAddr + 1
      remaining := m.remaining - 1 }
  if m.remaining = 0 then
    if m.loop then dmcRestart m else { m with irq := m.irq || m.irqEnable }
  else m

/-- The units of one APU tick before the DMC reader (R215, D40). -/
def apuUnits (a : Apu) : Apu :=
  let a := frameStep a
  let a := { a with triangle := triangleTimer a.triangle }
  let a :=
    if a.apuCycle % 2 = 0 then
      { a with pulse1 := pulseTimer a.pulse1, pulse2 := pulseTimer a.pulse2, noise := noiseTimer a.noise }
    else a
  { a with dmc := dmcTimer a.dmc }

/-- `poll_irq()` (R227, D45). -/
def apuIrq (a : Apu) : Bool := a.frame.irq || a.dmc.irq

/-- `sample()`: the mix of the five outputs (R228). -/
def apuSample (a : Apu) : BitVec 64 :=
  Config.mixBits (pulseOut true a.pulse1) (pulseOut false a.pulse2) (triangleOut a.triangle)
    (noiseOut a.noise) a.dmc.level.toNat

end Sys2Proof.Machine
end

