-- ==== Sys2Proof/Machine/Flags.lean ====
section
/-! DEFINITION. The status byte and every flag computation of the instruction set
(spec/10_state.md R23 to R32, spec/00_scope.md R15, spec/43_arith_logic.md R98). -/

namespace Sys2Proof.Machine

/-! The flags of a status byte (R23). -/

/-- carry, bit 0 (R24) -/
def flagC (p : Byte) : Bool := p.getLsbD 0

/-- zero, bit 1 (R25) -/
def flagZ (p : Byte) : Bool := p.getLsbD 1

/-- interrupt disable, bit 2 (R26) -/
def flagI (p : Byte) : Bool := p.getLsbD 2

/-- decimal, bit 3 (R27) -/
def flagD (p : Byte) : Bool := p.getLsbD 3

/-- break, bit 4 (R28) -/
def flagB (p : Byte) : Bool := p.getLsbD 4

/-- unused, bit 5 (R29) -/
def flagU (p : Byte) : Bool := p.getLsbD 5

/-- overflow, bit 6 (R30) -/
def flagV (p : Byte) : Bool := p.getLsbD 6

/-- negative, bit 7 (R31) -/
def flagN (p : Byte) : Bool := p.getLsbD 7

/-- write C -/
def putC (p : Byte) (b : Bool) : Byte := putBit p 0 b

/-- write Z -/
def putZ (p : Byte) (b : Bool) : Byte := putBit p 1 b

/-- write I -/
def putI (p : Byte) (b : Bool) : Byte := putBit p 2 b

/-- write D -/
def putD (p : Byte) (b : Bool) : Byte := putBit p 3 b

/-- write V -/
def putV (p : Byte) (b : Bool) : Byte := putBit p 6 b

/-- write N -/
def putN (p : Byte) (b : Bool) : Byte := putBit p 7 b

/-- `NZ(v)` (R15). -/
def putNZ (p : Byte) (v : Byte) : Byte := putZ (putN p (v.getLsbD 7)) (decide (v = 0))

/-- The status byte loaded from a pulled byte: `(m & 0xCF) | 0x20` (R32). -/
def pulledStatus (m : Byte) : Byte := (m &&& 0xCF) ||| 0x20

/-- The copy PHP and BRK push: B and U set (R28, R95, R131). -/
def softwareStatus (p : Byte) : Byte := p ||| 0x30

/-- The copy NMI and IRQ entry push: B clear, U set (R152). -/
def hardwareStatus (p : Byte) : Byte := (p &&& 0xEF) ||| 0x20

/-! The arithmetic (R98). -/

/-- What an addition gives: the byte, the carry out and the signed overflow. -/
structure AddResult where
  value : Byte
  carry : Bool
  overflow : Bool
deriving DecidableEq, Repr

/-- `a + m + c` on integers, reduced (R98, R99). -/
def addBytes (a m : Byte) (c : Bool) : AddResult :=
  let s := a.toNat + m.toNat + c.toNat
  let r := BitVec.ofNat 8 s
  { value := r, carry := decide (s > 0xFF), overflow := decide (((a ^^^ r) &&& (m ^^^ r) &&& 0x80) ≠ 0) }

/-- The status after ADC or SBC: C, V, N and Z (R99, R100). -/
def putAdd (p : Byte) (r : AddResult) : Byte := putNZ (putV (putC p r.carry) r.overflow) r.value

/-- The status after a compare of `reg` with `m`: C, N and Z (R105). -/
def putCompare (p : Byte) (reg m : Byte) : Byte := putNZ (putC p (decide (m.toNat ≤ reg.toNat))) (reg - m)

/-- The status after BIT: Z from the AND, N and V from the operand (R104). -/
def putBitTest (p : Byte) (a m : Byte) : Byte :=
  putV (putN (putZ p (decide (a &&& m = 0))) (m.getLsbD 7)) (m.getLsbD 6)

/-- The status after a shift or rotate: C the bit shifted out, N and Z of the result (R114 to R117). -/
def putShift (p : Byte) (out : Bool) (r : Byte) : Byte := putNZ (putC p out) r

end Sys2Proof.Machine
end

