-- ==== Sys2Proof/Machine/Memory.lean ====
section
/-! DEFINITION. Reading and writing one cell of a memory in its canonical form: addresses strictly
rising, no entry equal to what an unlisted address reads as. -/

namespace Sys2Proof.Machine

/-- What an unlisted cell reads as (log entry 1). -/
def unlistedCell (w : Nat) : BitVec w := 0#w

/-- The value of a cell. -/
def readCell {w : Nat} : Cells w → Nat → BitVec w
  | [], _ => unlistedCell w
  | (b, u) :: rest, a => if b = a then u else readCell rest a

/-- The memory with no entry for `a`. -/
def eraseCell {w : Nat} (m : Cells w) (a : Nat) : Cells w := m.filter (fun c => c.1 != a)

/-- Put an entry before the first one with a greater address. -/
def insertCell {w : Nat} (a : Nat) (v : BitVec w) : Cells w → Cells w
  | [] => [(a, v)]
  | (b, u) :: rest => if a < b then (a, v) :: (b, u) :: rest else (b, u) :: insertCell a v rest

/-- The memory after the value `v` is written to `a`; writing what an unlisted cell reads as removes
the entry. -/
def writeCell {w : Nat} (m : Cells w) (a : Nat) (v : BitVec w) : Cells w :=
  if v = unlistedCell w then eraseCell m a else insertCell a v (eraseCell m a)

/-- The canonical form from address `lo` on: strictly rising, nothing listed that reads as unlisted. -/
def cellsWfFrom {w : Nat} : Nat → Cells w → Bool
  | _, [] => true
  | lo, (a, v) :: rest => decide (lo ≤ a) && decide (v ≠ unlistedCell w) && cellsWfFrom (a + 1) rest

/-- The canonical form of a memory. -/
def cellsWf {w : Nat} (m : Cells w) : Bool := cellsWfFrom 0 m

/-- Every listed address is below `size`. -/
def cellsBelow {w : Nat} (size : Nat) (m : Cells w) : Bool := m.all (fun c => decide (c.1 < size))

/-- The cells of a list of bytes laid from address `a` on, in canonical form. -/
def cellsOfBytes : Nat → List Byte → Mem
  | _, [] => []
  | a, b :: rest => if b = unlistedCell 8 then cellsOfBytes (a + 1) rest else (a, b) :: cellsOfBytes (a + 1) rest

end Sys2Proof.Machine
end

