-- ==== Sys2Proof/Machine/Cartridge.lean ====
section
/-! DEFINITION. The cartridge and its six mappers (spec/64_cartridge.md): address translation, control
writes, the scanline counter, reset and loading. -/

namespace Sys2Proof.Machine

/-- The size of CHR memory in bytes (R229). -/
def chrSize (c : Cartridge) : Nat := if c.chrBanks = 0 then 8192 else 8192 * c.chrBanks

/-- The 16 KB bank MMC1 selects for a CPU address at or above 0x8000 (R239). -/
def mmc1PrgBank (m : Mmc1) (n : Nat) (addr : Word) : Nat :=
  let b := (m.prg.extractLsb' 0 4).toNat
  let low := addr.toNat < 0xC000
  match (m.control.extractLsb' 2 2).toNat with
  | 2 => if low then 0 else b % n
  | 3 => if low then b % n else n - 1
  | _ => if low then (b / 2 * 2) % n else (b / 2 * 2 + 1) % n

/-- The 8 KB unit MMC3 selects for a CPU address at or above 0x8000 (R244). -/
def mmc3PrgUnit (m : Mmc3) (prgBanks : Nat) (addr : Word) : Nat :=
  let k := 2 * prgBanks
  let r6 := m.r[6].toNat % k
  let r7 := m.r[7].toNat % k
  match (addr.extractLsb' 13 2).toNat with
  | 0 => if m.prgMode then k - 2 else r6
  | 1 => r7
  | 2 => if m.prgMode then r6 else k - 2
  | _ => k - 1

/-- `prg_offset(addr)` for `addr` at or above 0x8000 (R237, R239, R241, R242, R244, R247). -/
def prgOffset (c : Cartridge) (addr : Word) : Nat :=
  let size := 16384 * c.prgBanks
  match c.mapper with
  | .nrom => (addr.toNat - 0x8000) % size
  | .mmc1 m => mmc1PrgBank m c.prgBanks addr * 16384 + addr.toNat % 16384
  | .uxrom bank =>
    (if addr.toNat < 0xC000 then bank.toNat % c.prgBanks else c.prgBanks - 1) * 16384 + addr.toNat % 16384
  | .cnrom _ => (addr.toNat - 0x8000) % size
  | .mmc3 m => mmc3PrgUnit m c.prgBanks addr * 8192 + addr.toNat % 8192
  | .gxrom prgBank _ =>
    (prgBank.toNat % max 1 (c.prgBanks / 2) * 32768 + (addr.toNat - 0x8000)) % size

/-- The 4 KB unit MMC1 selects for a PPU address below 0x2000 (R240). -/
def mmc1ChrUnit (m : Mmc1) (c4 : Nat) (a : Nat) : Nat :=
  if m.control.getLsbD 4 then
    if a < 0x1000 then m.chr0.toNat % c4 else m.chr1.toNat % c4
  else if a < 0x1000 then (m.chr0.toNat / 2 * 2) % c4 else (m.chr0.toNat / 2 * 2 + 1) % c4

/-- The 1 KB unit MMC3 selects for a PPU address below 0x2000, before the reduction (R245). -/
def mmc3ChrUnit (m : Mmc3) (a : Nat) : Nat :=
  match (if m.chrInv then a ^^^ 0x1000 else a) / 0x400 with
  | 0 => (m.r[0] &&& 0xFE).toNat
  | 1 => (m.r[0] ||| 0x01).toNat
  | 2 => (m.r[1] &&& 0xFE).toNat
  | 3 => (m.r[1] ||| 0x01).toNat
  | 4 => m.r[2].toNat
  | 5 => m.r[3].toNat
  | 6 => m.r[4].toNat
  | _ => m.r[5].toNat

/-- `chr_offset(a)` for `a` below 0x2000 (R237, R240, R241, R242, R245, R247). -/
def chrOffset (c : Cartridge) (a : Nat) : Nat :=
  match c.mapper with
  | .nrom => a
  | .mmc1 m => mmc1ChrUnit m (chrSize c / 4096) a * 4096 + a % 4096
  | .uxrom _ => a
  | .cnrom bank => bank.toNat % (chrSize c / 8192) * 8192 + a
  | .mmc3 m => mmc3ChrUnit m a % (chrSize c / 1024) * 1024 + a % 1024
  | .gxrom _ bank => bank.toNat % (chrSize c / 8192) * 8192 + a

/-- `cpu_read(addr)`: the byte, where the address is the cartridge's (R232). -/
def cartCpuRead (c : Cartridge) (addr : Word) : Option Byte :=
  if addr.toNat < 0x6000 then none
  else if addr.toNat ≤ 0x7FFF then some (readCell c.prgRam (addr.toNat - 0x6000))
  else some (readCell c.prg (prgOffset c addr))

/-- `ppu_read(a)` of CHR memory, for `a` below 0x2000 (R233). -/
def chrRead (c : Cartridge) (a : Nat) : Byte := readCell c.chr (chrOffset c a)

/-- `ppu_write(a, d)` of CHR memory: stored only if it is RAM (R233, D52). -/
def chrWrite (c : Cartridge) (a : Nat) (d : Byte) : Cartridge :=
  if c.chrBanks = 0 then { c with chr := writeCell c.chr (chrOffset c a) d } else c

/-- `MMC1_MIRROR` (R238). -/
def mmc1Mirror (control : BitVec 5) : Mirror :=
  match (control.extractLsb' 0 2).toNat with
  | 0 => .oneScreenLow
  | 1 => .oneScreenHigh
  | 2 => .vertical
  | _ => .horizontal

/-- The MMC1 serial port: the registers after a control write (R238). -/
def mmc1Write (m : Mmc1) (addr : Word) (d : Byte) : Mmc1 :=
  if d.getLsbD 7 then { m with shift := 0, count := 0, control := m.control ||| 0x0C }
  else
    let shift := (m.shift >>> 1) ||| bitAt 5 4 (d.getLsbD 0)
    if m.count + 1 = 5 then
      let m := { m with shift := 0, count := 0 }
      match (addr.extractLsb' 13 2).toNat with
      | 0 => { m with control := shift }
      | 1 => { m with chr0 := shift }
      | 2 => { m with chr1 := shift }
      | _ => { m with prg := shift }
    else { m with shift, count := m.count + 1 }

/-- Whether a control write is the fifth of a load of the control register, which sets the mirror
mode (R238). -/
def mmc1LoadsControl (m : Mmc1) (addr : Word) (d : Byte) : Bool :=
  !d.getLsbD 7 && decide (m.count + 1 = 5) && decide ((addr.extractLsb' 13 2).toNat = 0)

/-- The MMC3 registers after a control write (R243). -/
def mmc3Write (m : Mmc3) (addr : Word) (d : Byte) : Mmc3 :=
  match (addr.extractLsb' 13 2).toNat, addr.getLsbD 0 with
  | 0, false => { m with target := d.extractLsb' 0 3, prgMode := d.getLsbD 6, chrInv := d.getLsbD 7 }
  | 0, true => { m with r := m.r.setIfInBounds m.target.toNat d }
  | 1, _ => m
  | 2, false => { m with irqLatch := d }
  | 2, true => { m with irqCounter := 0, irqReload := true }
  | _, false => { m with irqEnable := false, irqLine := false }
  | _, true => { m with irqEnable := true }

/-- Whether a control write is MMC3's mirroring register, 0xA000-0xBFFF even (R243). -/
def mmc3IsMirroring (addr : Word) : Bool :=
  decide ((addr.extractLsb' 13 2).toNat = 1) && !addr.getLsbD 0

/-- `mapper.control_write(addr, d)` for `addr` at or above 0x8000 (R237, R238, R241, R242, R243, R247);
a change of mirror mode takes effect in the same write (R234). -/
def controlWrite (c : Cartridge) (addr : Word) (d : Byte) : Cartridge :=
  match c.mapper with
  | .nrom => c
  | .mmc1 m =>
    let m' := mmc1Write m addr d
    { c with mapper := .mmc1 m', mirror := if mmc1LoadsControl m addr d then mmc1Mirror m'.control else c.mirror }
  | .uxrom _ => { c with mapper := .uxrom d }
  | .cnrom _ => { c with mapper := .cnrom d }
  | .mmc3 m =>
    { c with
      mapper := .mmc3 (mmc3Write m addr d)
      mirror := if mmc3IsMirroring addr then (if d.getLsbD 0 then .horizontal else .vertical) else c.mirror }
  | .gxrom _ _ => { c with mapper := .gxrom (d.extractLsb' 4 2) (d.extractLsb' 0 2) }

/-- `cpu_write(addr, d)` for `addr` at or above 0x6000: PRG RAM is stored, PRG ROM never changes (R232, D67). -/
def cartCpuWrite (c : Cartridge) (addr : Word) (d : Byte) : Cartridge :=
  if addr.toNat ≤ 0x7FFF then { c with prgRam := writeCell c.prgRam (addr.toNat - 0x6000) d }
  else controlWrite c addr d

/-- MMC3's counter (R246). -/
def mmc3Tick (m : Mmc3) : Mmc3 :=
  let m :=
    if m.irqCounter = 0 || m.irqReload then { m with irqCounter := m.irqLatch, irqReload := false }
    else { m with irqCounter := m.irqCounter - 1 }
  if m.irqCounter = 0 && m.irqEnable then { m with irqLine := true } else m

/-- `scanline_tick()`: a no-op for every mapper but 4 (R235, R246). -/
def scanlineTick (c : Cartridge) : Cartridge :=
  match c.mapper with
  | .mmc3 m => { c with mapper := .mmc3 (mmc3Tick m) }
  | _ => c

/-- `irq_asserted()` (R235). -/
def cartIrq (c : Cartridge) : Bool :=
  match c.mapper with
  | .mmc3 m => m.irqLine
  | _ => false

/-- MMC1's registers after reset (R236, D54). -/
def Mmc1.reset : Mmc1 := { shift := 0, count := 0, control := 0x0C, chr0 := 0, chr1 := 0, prg := 0 }

/-- MMC3's registers after reset (R236, D57). -/
def Mmc3.reset : Mmc3 :=
  { target := 0, prgMode := false, chrInv := false, r := Vector.replicate 8 0, irqLatch := 0,
    irqCounter := 0, irqReload := false, irqEnable := false, irqLine := false }

/-- A mapper after reset (R236, D54, D57). -/
def mapperReset : Mapper → Mapper
  | .nrom => .nrom
  | .mmc1 _ => .mmc1 Mmc1.reset
  | .uxrom _ => .uxrom 0
  | .cnrom _ => .cnrom 0
  | .mmc3 _ => .mmc3 Mmc3.reset
  | .gxrom _ _ => .gxrom 0 0

/-- The cartridge's `reset()` (R236): PRG RAM and CHR RAM are unchanged. -/
def cartReset (c : Cartridge) : Cartridge :=
  { c with
    mapper := mapperReset c.mapper
    mirror := match c.mapper with
      | .mmc1 _ => mmc1Mirror Mmc1.reset.control
      | _ => c.headerMirror }

/-- Why an image builds no machine (R231). -/
inductive LoadError where
  /-- wrong magic, a short file, or no PRG bank -/
  | romMalformed
  /-- a mapper other than 0, 1, 2, 3, 4 and 66 -/
  | unsupportedMapper
deriving DecidableEq, Repr

/-- The mapper of a header's number, in its reset state (R229, R231). -/
def mapperOfId : Nat → Option Mapper
  | 0 => some .nrom
  | 1 => some (.mmc1 Mmc1.reset)
  | 2 => some (.uxrom 0)
  | 3 => some (.cnrom 0)
  | 4 => some (.mmc3 Mmc3.reset)
  | 66 => some (.gxrom 0 0)
  | _ => none

/-- Loading an iNES image (R230, R231): a configuration step, before the machine runs. -/
def loadINes (f : List Byte) : Except LoadError Cartridge :=
  match f with
  | 0x4E :: 0x45 :: 0x53 :: 0x1A :: prgCount :: chrCount :: flags6 :: flags7 :: _ =>
    let body := f.drop (16 + if flags6.getLsbD 2 then 512 else 0)
    let prgBytes := 16384 * prgCount.toNat
    let chrBytes := 8192 * chrCount.toNat
    let mirror : Mirror := if flags6.getLsbD 0 then .vertical else .horizontal
    if f.length < 16 + (if flags6.getLsbD 2 then 512 else 0) + prgBytes + chrBytes then .error .romMalformed
    else if prgCount = 0 then .error .romMalformed
    else
      match mapperOfId ((flags7 &&& 0xF0) ||| (flags6 >>> 4)).toNat with
      | none => .error .unsupportedMapper
      | some mapper =>
        .ok
          { prgBanks := prgCount.toNat, chrBanks := chrCount.toNat
            prg := cellsOfBytes 0 (body.take prgBytes), prgRam := []
            chr := cellsOfBytes 0 ((body.drop prgBytes).take chrBytes)
            headerMirror := mirror, mirror, mapper }
  | _ => .error .romMalformed

end Sys2Proof.Machine
end

