-- ==== Sys2Proof/Machine/Ppu.lean ====
section
/-! DEFINITION. The 2C02: its address space, the registers' own effects and the dot state machine
(spec/62_ppu.md). -/

namespace Sys2Proof.Machine

/-- A PPU address: 14 bits, so every address is reduced `a & 0x3FFF` (R182). -/
abbrev PpuAddr := BitVec 14

/-- The physical page of logical nametable `n` (R183). -/
def ntPage (m : Mirror) (n : Nat) : Nat :=
  match m with
  | .horizontal => n / 2
  | .vertical => n % 2
  | .oneScreenLow => 0
  | .oneScreenHigh => 1

/-- `nt_index(a)` (R183). -/
def ntIndex (m : Mirror) (a : PpuAddr) : Nat :=
  ntPage m (a.extractLsb' 10 2).toNat * 1024 + (a.extractLsb' 0 10).toNat

/-- `pal_index(a)` (R184). -/
def palIndex (a : PpuAddr) : Nat :=
  let i := (a.extractLsb' 0 5).toNat
  if i = 0x10 || i = 0x14 || i = 0x18 || i = 0x1C then i - 0x10 else i

/-- `ppu_read(a)` (R182). -/
def ppuRead (c : Cartridge) (p : Ppu) (a : PpuAddr) : Byte :=
  if a.toNat ≤ 0x1FFF then chrRead c a.toNat
  else if a.toNat ≤ 0x3EFF then readCell p.vram (ntIndex c.mirror a)
  else readCell p.palette (palIndex a)

/-- `ppu_write(a, d)` (R182). -/
def ppuWrite (c : Cartridge) (p : Ppu) (a : PpuAddr) (d : Byte) : Cartridge × Ppu :=
  if a.toNat ≤ 0x1FFF then (chrWrite c a.toNat d, p)
  else if a.toNat ≤ 0x3EFF then (c, { p with vram := writeCell p.vram (ntIndex c.mirror a) d })
  else (c, { p with palette := writeCell p.palette (palIndex a) d })

/-- Rendering enabled: PPUMASK bit 3 or bit 4 (R186). -/
def renderingEnabled (p : Ppu) : Bool := p.mask.getLsbD 3 || p.mask.getLsbD 4

/-- The cursor is on a visible scanline (R195). -/
def onVisibleLine (p : Ppu) : Bool := decide (0 ≤ p.scanline) && decide (p.scanline ≤ 239)

/-- The cursor is on the pre-render scanline (R195). -/
def onPreRenderLine (p : Ppu) : Bool := decide (p.scanline = -1)

/-! The fields of `v` and `t` (R181). -/

/-- coarse-X, bits 4..0 -/
def coarseX (v : BitVec 15) : BitVec 5 := v.extractLsb' 0 5

/-- coarse-Y, bits 9..5 -/
def coarseY (v : BitVec 15) : BitVec 5 := v.extractLsb' 5 5

/-- fine-Y, bits 14..12 -/
def fineY (v : BitVec 15) : BitVec 3 := v.extractLsb' 12 3

/-- write coarse-X -/
def withCoarseX (v : BitVec 15) (c : BitVec 5) : BitVec 15 := (v &&& 0x7FE0) ||| c.setWidth 15

/-- write coarse-Y -/
def withCoarseY (v : BitVec 15) (c : BitVec 5) : BitVec 15 := (v &&& 0x7C1F) ||| (c.setWidth 15 <<< 5)

/-- write fine-Y -/
def withFineY (v : BitVec 15) (f : BitVec 3) : BitVec 15 := (v &&& 0x0FFF) ||| (f.setWidth 15 <<< 12)

/-! The registers' effects on the PPU alone (section 3). -/

/-- PPUCTRL write (R185). -/
def writeCtrl (p : Ppu) (d : Byte) : Ppu :=
  { p with ctrl := d, t := (p.t &&& 0x73FF) ||| ((d &&& 0x03).setWidth 15 <<< 10) }

/-- PPUMASK write (R186). -/
def writeMask (p : Ppu) (d : Byte) : Ppu := { p with mask := d }

/-- OAMDATA write, which is also the DMA's (R189, R194). -/
def writeOam (p : Ppu) (d : Byte) : Ppu :=
  { p with oam := writeCell p.oam p.oamAddr.toNat d, oamAddr := p.oamAddr + 1 }

/-- PPUSCROLL write (R190). -/
def writeScroll (p : Ppu) (d : Byte) : Ppu :=
  if p.w then
    { p with t := withCoarseY (withFineY p.t (d.extractLsb' 0 3)) (d.extractLsb' 3 5), w := false }
  else { p with t := withCoarseX p.t (d.extractLsb' 3 5), fineX := d.extractLsb' 0 3, w := true }

/-- PPUADDR write (R191). -/
def writeAddr (p : Ppu) (d : Byte) : Ppu :=
  if p.w then
    let t := (p.t &&& 0x7F00) ||| d.setWidth 15
    { p with t, v := t, w := false }
  else { p with t := (p.t &&& 0x00FF) ||| ((d &&& 0x3F).setWidth 15 <<< 8), w := true }

/-- The step of PPUDATA: 32 if PPUCTRL bit 2, else 1 (R185, R192). -/
def dataIncrement (p : Ppu) : BitVec 15 := if p.ctrl.getLsbD 2 then 32 else 1

/-- The PPU address of a 15-bit `v` (R181, R192). -/
def vAddr (v : BitVec 15) : PpuAddr := v.setWidth 14

/-- What a PPUDATA read returns (R192, D30). -/
def dataReadValue (c : Cartridge) (p : Ppu) : Byte :=
  if 0x3F00 ≤ (vAddr p.v).toNat then ppuRead c p (vAddr p.v) else p.readBuffer

/-- The PPU after a PPUDATA read (R192). -/
def afterDataRead (c : Cartridge) (p : Ppu) : Ppu :=
  { p with readBuffer := ppuRead c p (vAddr p.v), v := p.v + dataIncrement p }

/-- PPUDATA write (R193). -/
def writeData (c : Cartridge) (p : Ppu) (d : Byte) : Cartridge × Ppu :=
  let (c', p') := ppuWrite c p (vAddr p.v) d
  (c', { p' with v := p.v + dataIncrement p })

/-- The PPUSTATUS byte, with the five draw bits (R187). -/
def statusByte (p : Ppu) (latch : BitVec 5) : Byte :=
  bitAt 8 7 p.vblank ||| bitAt 8 6 p.sprite0Hit ||| bitAt 8 5 p.spriteOverflow ||| latch.setWidth 8

/-- The PPU after a PPUSTATUS read (R187). -/
def afterStatusRead (p : Ppu) : Ppu := { p with vblank := false, w := false }

/-! The background pipeline (section 5). -/

/-- Shift the four background shifters by one (R197). -/
def shiftBackground (p : Ppu) : Ppu :=
  { p with bgLo := p.bgLo <<< 1, bgHi := p.bgHi <<< 1, atLo := p.atLo <<< 1, atHi := p.atHi <<< 1 }

/-- The low byte of a shifter replaced (R197). -/
def loadLow (shifter : BitVec 16) (b : Byte) : BitVec 16 := (shifter &&& 0xFF00) ||| b.setWidth 16

/-- `load_shifters()` (R197). -/
def loadShifters (p : Ppu) : Ppu :=
  { p with
    bgLo := loadLow p.bgLo p.loLatch
    bgHi := loadLow p.bgHi p.hiLatch
    atLo := loadLow p.atLo (if p.atLatch.getLsbD 0 then 0xFF else 0x00)
    atHi := loadLow p.atHi (if p.atLatch.getLsbD 1 then 0xFF else 0x00) }

/-- `increment_coarse_x()` (R198). -/
def incrementCoarseX (p : Ppu) : Ppu :=
  if coarseX p.v = 31 then { p with v := withCoarseX p.v 0 ^^^ 0x0400 }
  else { p with v := withCoarseX p.v (coarseX p.v + 1) }

/-- `increment_y()` (R198). -/
def incrementY (p : Ppu) : Ppu :=
  if fineY p.v ≠ 7 then { p with v := withFineY p.v (fineY p.v + 1) }
  else
    let v := withFineY p.v 0
    if coarseY v = 29 then { p with v := withCoarseY v 0 ^^^ 0x0800 }
    else if coarseY v = 31 then { p with v := withCoarseY v 0 }
    else { p with v := withCoarseY v (coarseY v + 1) }

/-- `copy_x()`: coarse-X and nametable-X from `t` (R198). -/
def copyX (p : Ppu) : Ppu := { p with v := (p.v &&& 0x7BE0) ||| (p.t &&& 0x041F) }

/-- `copy_y()`: fine-Y, coarse-Y and nametable-Y from `t` (R198). -/
def copyY (p : Ppu) : Ppu := { p with v := (p.v &&& 0x041F) ||| (p.t &&& 0x7BE0) }

/-- The nametable address of the tile at `v` (R197). -/
def tileAddr (v : BitVec 15) : PpuAddr := 0x2000 ||| (v &&& 0x0FFF).setWidth 14

/-- The attribute address of the tile at `v` (R197). -/
def attrAddr (v : BitVec 15) : PpuAddr :=
  (0x23C0 ||| (v &&& 0x0C00) ||| ((v >>> 4) &&& 0x38) ||| ((v >>> 2) &&& 0x07)).setWidth 14

/-- The two palette bits of the tile at `v` in its attribute byte (R197). -/
def attrBits (v : BitVec 15) (b : Byte) : BitVec 2 :=
  (b >>> ((coarseY v &&& 2).toNat * 2 + (coarseX v &&& 2).toNat)).setWidth 2

/-- The pattern address of the fetched tile's low plane (R197). -/
def patternAddr (p : Ppu) : PpuAddr :=
  (if p.ctrl.getLsbD 4 then 0x1000 else 0x0000) + p.ntLatch.setWidth 14 * 16 + (fineY p.v).setWidth 14

/-- The fetch of one dot of the 8-dot window, by `(dot - 1) mod 8` (R197). -/
def fetchBackground (c : Cartridge) (p : Ppu) : Ppu :=
  match (p.dot - 1) % 8 with
  | 0 =>
    let p := loadShifters p
    { p with ntLatch := ppuRead c p (tileAddr p.v) }
  | 2 => { p with atLatch := attrBits p.v (ppuRead c p (attrAddr p.v)) }
  | 4 => { p with loLatch := ppuRead c p (patternAddr p) }
  | 6 => { p with hiLatch := ppuRead c p (patternAddr p + 8) }
  | 7 => incrementCoarseX p
  | _ => p

/-- `f` where the condition holds. -/
def applyIf {α : Type} (cond : Bool) (f : α → α) (x : α) : α := if cond then f x else x

/-- `lo <= dot <= hi` -/
def dotIn (p : Ppu) (lo hi : Nat) : Bool := decide (lo ≤ p.dot) && decide (p.dot ≤ hi)

/-- The background pipeline at the current dot (R197); the flag clear of its last line is `verticalBlank`. -/
def background (c : Cartridge) (p : Ppu) : Ppu :=
  if (onVisibleLine p || onPreRenderLine p) && renderingEnabled p then
    let p := applyIf (dotIn p 2 257 || dotIn p 322 337) shiftBackground p
    let p := applyIf (dotIn p 1 256 || dotIn p 321 336) (fetchBackground c) p
    let p := applyIf (decide (p.dot = 256)) incrementY p
    let p := applyIf (decide (p.dot = 257)) (fun p => copyX (loadShifters p)) p
    applyIf (onPreRenderLine p && dotIn p 280 304) copyY p
  else p

/-! Sprites (section 6). -/

/-- Primary OAM's entry `k` (R199). -/
def oamEntry (p : Ppu) (k : Nat) : SpriteEntry :=
  { y := readCell p.oam (4 * k), tile := readCell p.oam (4 * k + 1)
    attr := readCell p.oam (4 * k + 2), x := readCell p.oam (4 * k + 3) }

/-- The sprite height: PPUCTRL bit 5 (R185). -/
def spriteHeight (p : Ppu) : Int := if p.ctrl.getLsbD 5 then 16 else 8

/-- Whether an entry's rows include the next scanline's (R200). -/
def spriteInRange (p : Ppu) (e : SpriteEntry) : Bool :=
  decide (0 ≤ p.scanline - (e.y.toNat : Int)) && decide (p.scanline - (e.y.toNat : Int) < spriteHeight p)

/-- The scan of primary OAM in order, from the given entries on (R200, D29). -/
def scanOam (p : Ppu) : List Nat → Ppu
  | [] => p
  | k :: rest =>
    if spriteInRange p (oamEntry p k) then
      if p.spriteCount < 8 then
        scanOam
          { p with
            secOam := p.secOam.setIfInBounds p.spriteCount (oamEntry p k)
            sprite0Next := p.sprite0Next || decide (k = 0)
            spriteCount := p.spriteCount + 1 } rest
      else { p with spriteOverflow := true }
    else scanOam p rest

/-- Sprite evaluation at dot 256 of a visible scanline (R200, D28). -/
def evaluateSprites (p : Ppu) : Ppu :=
  if onVisibleLine p && decide (p.dot = 256) then
    let p := { p with spriteCount := 0, sprite0Next := false }
    if renderingEnabled p then
      scanOam { p with secOam := Vector.replicate 8 ⟨0xFF, 0xFF, 0xFF, 0xFF⟩ } (List.range 64)
    else p
  else p

/-- The pattern row of a sprite on the current scanline, flipped if attribute bit 7 (R201).  It is an
integer: a change of PPUCTRL between evaluation and fetch can leave it outside the sprite. -/
def spriteRow (p : Ppu) (e : SpriteEntry) : Int :=
  let row := p.scanline - (e.y.toNat : Int)
  if e.attr.getLsbD 7 then spriteHeight p - 1 - row else row

/-- The pattern address of a sprite's low plane (R201), reduced to 14 bits (R182). -/
def spriteAddr (p : Ppu) (e : SpriteEntry) : PpuAddr :=
  let row := spriteRow p e
  if p.ctrl.getLsbD 5 then
    BitVec.ofInt 14 ((if e.tile.getLsbD 0 then 0x1000 else 0) +
      (((e.tile &&& 0xFE).toNat : Int) + if 8 ≤ row then 1 else 0) * 16 + row % 8)
  else BitVec.ofInt 14 ((if p.ctrl.getLsbD 3 then 0x1000 else 0) + (e.tile.toNat : Int) * 16 + row)

/-- The unit loaded for a sprite (R201). -/
def fetchSprite (c : Cartridge) (p : Ppu) (e : SpriteEntry) : SpriteUnit :=
  let lo := ppuRead c p (spriteAddr p e)
  let hi := ppuRead c p (spriteAddr p e + 8)
  let flip := e.attr.getLsbD 6
  { lo := if flip then reverseBits lo else lo, hi := if flip then reverseBits hi else hi
    x := e.x, attr := e.attr }

/-- Entry `i` of secondary OAM. -/
def secEntry (p : Ppu) (i : Nat) : SpriteEntry := p.secOam[i]?.getD ⟨0xFF, 0xFF, 0xFF, 0xFF⟩

/-- Sprite pattern fetch at dot 320 (R201, D28). -/
def fetchSprites (c : Cartridge) (p : Ppu) : Ppu :=
  if decide (p.dot = 320) && (onVisibleLine p || onPreRenderLine p) then
    if onVisibleLine p && renderingEnabled p then
      { p with
        sprCount := p.spriteCount
        sprite0Line := p.sprite0Next
        sprites := p.sprites.mapIdx (fun i u => if i < p.spriteCount then fetchSprite c p (secEntry p i) else u) }
    else { p with sprCount := 0, sprite0Line := false }
  else p

/-- One dot of a sprite unit (R202). -/
def advanceUnit (u : SpriteUnit) : SpriteUnit :=
  if u.x = 0 then { u with lo := u.lo <<< 1, hi := u.hi <<< 1 } else { u with x := u.x - 1 }

/-- The sprite counters and shifters at dots 2-257 of a visible scanline (R202). -/
def advanceSprites (p : Ppu) : Ppu :=
  if onVisibleLine p && dotIn p 2 257 && p.mask.getLsbD 4 then
    { p with sprites := p.sprites.mapIdx (fun i u => if i < p.sprCount then advanceUnit u else u) }
  else p

/-! Pixel composition (section 7). -/

/-- Bit pair of two 16-bit shifters under the mask `0x8000 >> fine_x` (R203). -/
def shifterBits (hi lo : BitVec 16) (fineX : BitVec 3) : Nat :=
  2 * (hi.getLsbD (15 - fineX.toNat)).toNat + (lo.getLsbD (15 - fineX.toNat)).toNat

/-- The background pixel and its palette at column `x` (R203). -/
def backgroundPixel (p : Ppu) (x : Nat) : Nat × Nat :=
  if p.mask.getLsbD 3 && (p.mask.getLsbD 1 || decide (8 ≤ x)) then
    (shifterBits p.bgHi p.bgLo p.fineX, shifterBits p.atHi p.atLo p.fineX)
  else (0, 0)

/-- The pixel of a sprite unit: bit 7 of its two shifters (R203). -/
def unitPixel (u : SpriteUnit) : Nat := 2 * (u.hi.getLsbD 7).toNat + (u.lo.getLsbD 7).toNat

/-- The first active non-transparent unit, with its index, counting from `i` (R203). -/
def firstOpaque : Nat → List SpriteUnit → Option (Nat × SpriteUnit)
  | _, [] => none
  | i, u :: rest => if u.x = 0 ∧ unitPixel u ≠ 0 then some (i, u) else firstOpaque (i + 1) rest

/-- The sprite pixel's unit at column `x`, if any (R203, D39). -/
def spritePixel (p : Ppu) (x : Nat) : Option (Nat × SpriteUnit) :=
  if p.mask.getLsbD 4 && (p.mask.getLsbD 2 || decide (8 ≤ x)) then
    firstOpaque 0 (p.sprites.toList.take p.sprCount)
  else none

/-- Pixel and palette put out, from the background's and the sprite's (R203). -/
def choosePixel (bg bgPal : Nat) (fg : Option (Nat × SpriteUnit)) : Nat × Nat :=
  match fg with
  | none => if bg = 0 then (0, 0) else (bg, bgPal)
  | some (_, u) =>
    if bg = 0 || !u.attr.getLsbD 5 then (unitPixel u, (u.attr &&& 3).toNat + 4) else (bg, bgPal)

/-- Whether column `x` sets the sprite-0 hit (R203). -/
def hitsSprite0 (p : Ppu) (x : Nat) (bg : Nat) (fg : Option (Nat × SpriteUnit)) : Bool :=
  match fg with
  | none => false
  | some (i, _) =>
    decide (bg ≠ 0) && decide (i = 0) && p.sprite0Line && p.mask.getLsbD 3 && p.mask.getLsbD 4 &&
      decide (x ≠ 255) && (decide (8 ≤ x) || (p.mask.getLsbD 1 && p.mask.getLsbD 2))

/-- The 6-bit colour put out for a palette byte, `& 0x30` in greyscale (R186, R203, D31). -/
def outputColour (p : Ppu) (b : Byte) : BitVec 6 :=
  if p.mask.getLsbD 0 then b.setWidth 6 &&& 0x30 else b.setWidth 6

/-- Write pixel `x` of the current scanline. -/
def putPixel (p : Ppu) (x : Nat) (colour : BitVec 6) : Ppu :=
  { p with framebuffer := writeCell p.framebuffer (p.scanline.toNat * 256 + x) colour }

/-- Pixel composition at dots 1-256 of a visible scanline (R203, D32). -/
def composePixel (c : Cartridge) (p : Ppu) : Ppu :=
  if onVisibleLine p && dotIn p 1 256 then
    let x := p.dot - 1
    if renderingEnabled p then
      let (bg, bgPal) := backgroundPixel p x
      let fg := spritePixel p x
      let (pixel, pal) := choosePixel bg bgPal fg
      let p := { p with sprite0Hit := p.sprite0Hit || hitsSprite0 p x bg fg }
      putPixel p x (outputColour p (ppuRead c p (0x3F00 + BitVec.ofNat 14 (pal * 4 + pixel))))
    else putPixel p x (outputColour p (readCell p.palette (palIndex 0)))
  else p

/-! NMI, the mapper tick and the cursor (sections 4 and 8). -/

/-- The events of (241, 1) and (-1, 1) (R204). -/
def verticalBlank (p : Ppu) : Ppu :=
  if p.scanline = 241 ∧ p.dot = 1 then
    { p with vblank := true, nmiEdge := p.nmiEdge || p.ctrl.getLsbD 7 }
  else if p.scanline = -1 ∧ p.dot = 1 then
    { p with vblank := false, sprite0Hit := false, spriteOverflow := false }
  else p

/-- The cursor's advance (R195, R196, D27). -/
def advanceCursor (params : Params) (p : Ppu) : Ppu :=
  if p.dot + 1 > 340 then
    if p.scanline + 1 > 260 then
      { p with dot := 0, scanline := -1, frameComplete := true, oddFrame := !p.oddFrame }
    else
      { p with
        scanline := p.scanline + 1
        dot := if params.oddFrameSkip && p.oddFrame && renderingEnabled p && decide (p.scanline + 1 = 0)
          then 1 else 0 }
  else { p with dot := p.dot + 1 }

/-- The cartridge after the dot: one scanline tick at dot 260 of a visible scanline when rendering is
enabled (R205). -/
def mapperTick (c : Cartridge) (p : Ppu) : Cartridge :=
  if onVisibleLine p && decide (p.dot = 260) && renderingEnabled p then scanlineTick c else c

/-- `ppu.tick()`: one dot (R195).  Evaluation runs after the pixel of its dot, as R200 says (log entry 16). -/
def ppuDot (params : Params) (c : Cartridge) (p : Ppu) : Cartridge × Ppu :=
  let p := background c p
  let p := advanceSprites p
  let p := composePixel c p
  let p := evaluateSprites p
  let p := fetchSprites c p
  let p := verticalBlank p
  (mapperTick c p, advanceCursor params p)

end Sys2Proof.Machine
end

