-- ==== Sys2Proof/Machine/Ops.lean ====
section
/-! DEFINITION. The named operations over registers and memory: register writes, stalls, the bus read and
write of spec/20_memory.md R40 with the PPU registers, controllers and OAM DMA behind them, the memory
primitives of spec/00_scope.md R14, taking an exception (spec/60_exceptions.md R152) and returning from
one (R159). -/

namespace Sys2Proof.Machine

/-! Register writes. -/

/-- `A <- v` -/
def State.setA (s : State) (v : Byte) : State := { s with cpu := { s.cpu with a := v } }

/-- `X <- v` -/
def State.setX (s : State) (v : Byte) : State := { s with cpu := { s.cpu with x := v } }

/-- `Y <- v` -/
def State.setY (s : State) (v : Byte) : State := { s with cpu := { s.cpu with y := v } }

/-- `SP <- v` -/
def State.setSP (s : State) (v : Byte) : State := { s with cpu := { s.cpu with sp := v } }

/-- `PC <- v` -/
def State.setPC (s : State) (v : Word) : State := { s with cpu := { s.cpu with pc := v } }

/-- `P <- v` -/
def State.setP (s : State) (v : Byte) : State := { s with cpu := { s.cpu with p := v } }

/-- Latch the effective address (spec/10_state.md R35). -/
def State.setEA (s : State) (v : Word) : State := { s with cpu := { s.cpu with ea := v } }

/-- Set the length of the window (spec/40_addressing_modes.md R67). -/
def State.setCycles (s : State) (n : Nat) : State := { s with cpu := { s.cpu with cyclesRemaining := n } }

/-- `NZ(v)` (spec/00_scope.md R15). -/
def State.setNZ (s : State) (v : Byte) : State := s.setP (putNZ s.cpu.p v)

/-- `stall(n)` (spec/60_exceptions.md R149). -/
def State.stall (s : State) (n : Nat) : State :=
  { s with cpu := { s.cpu with stallRemaining := s.cpu.stallRemaining + n } }

/-! The PPU registers on the CPU bus (spec/62_ppu.md section 3). -/

/-- `ppu.cpu_read(reg, read_only)` (R185 to R193). -/
def ppuRegRead (readOnly : Bool) (reg : BitVec 3) (s : State) : Byte × State :=
  match reg.toNat with
  | 2 =>
    (statusByte s.ppu (Config.busLatch s.draws),
      if readOnly then s else { s with ppu := afterStatusRead s.ppu, draws := s.draws + 1 })
  | 4 => (readCell s.ppu.oam s.ppu.oamAddr.toNat, s)
  | 7 =>
    (dataReadValue s.cart s.ppu, if readOnly then s else { s with ppu := afterDataRead s.cart s.ppu })
  | _ => (0x00, s)

/-- `ppu.cpu_write(reg, d)` (R185 to R193). -/
def ppuRegWrite (reg : BitVec 3) (d : Byte) (s : State) : State :=
  match reg.toNat with
  | 0 => { s with ppu := writeCtrl s.ppu d }
  | 1 => { s with ppu := writeMask s.ppu d }
  | 3 => { s with ppu := { s.ppu with oamAddr := d } }
  | 4 => { s with ppu := writeOam s.ppu d }
  | 5 => { s with ppu := writeScroll s.ppu d }
  | 6 => { s with ppu := writeAddr s.ppu d }
  | 7 => { s with cart := (writeData s.cart s.ppu d).1, ppu := (writeData s.cart s.ppu d).2 }
  | _ => s

/-! The controllers (spec/61_bus.md section 4). -/

/-- Latch both controllers: a draw of their buttons (R174, D58). -/
def latchControllers (s : State) : State :=
  { s with
    bus := { s.bus with shift1 := Config.buttons1 s.draws, shift2 := Config.buttons2 s.draws }
    draws := s.draws + 1 }

/-- A write to 0x4016 (R173). -/
def controllerStrobe (d : Byte) (s : State) : State :=
  let s := { s with bus := { s.bus with strobe := d.getLsbD 0 } }
  if d.getLsbD 0 then latchControllers s else s

/-- The colour of framebuffer pixel `(x, y)` (spec/62_ppu.md R196). -/
def samplePixel (p : Ppu) (x y : Nat) : Rgb := Config.paletteRgb (readCell p.framebuffer (y * 256 + x))

/-- Luminance of at least 180, in integers (R176, D62). -/
def bright (c : Rgb) : Bool := decide (299 * c.r.toNat + 587 * c.g.toNat + 114 * c.b.toNat ≥ 180000)

/-- The Zapper's light bit for an aim: 0 when it sees light (R176). -/
def zapperLight (p : Ppu) (aim : Int × Int) : Bool :=
  !(decide (0 ≤ aim.1) && decide (aim.1 < 256) && decide (0 ≤ aim.2) && decide (aim.2 < 240) &&
    bright (samplePixel p aim.1.toNat aim.2.toNat))

/-- Bits 3 and 4 of a 0x4017 read when a Zapper is present, for draw `n` (R175, R176). -/
def zapperBits (s : State) (n : Nat) : Byte :=
  bitAt 8 3 (zapperLight s.ppu (Config.zapperAim n)) ||| bitAt 8 4 (!Config.zapperPressed n)

/-- The register of a port after a read: shifted, with a 1 coming in, unless the strobe is high (R175). -/
def shiftedPort (strobe : Bool) (v : Byte) : Byte := if strobe then v else (v >>> 1) ||| 0x80

/-- The machine whose registers a read of a port returns: freshly latched while the strobe is high (R175). -/
def latchedForRead (s : State) : State := if s.bus.strobe then latchControllers s else s

/-- A read of port 1, 0x4016.  With `read_only` the value is the same, and nothing is latched or shifted
(R175, spec/20_memory.md R48; log entry 18). -/
def controllerRead1 (readOnly : Bool) (s : State) : Byte × State :=
  let u := latchedForRead s
  (bitAt 8 0 (u.bus.shift1.getLsbD 0),
    if readOnly then s
    else { u with bus := { u.bus with shift1 := shiftedPort u.bus.strobe u.bus.shift1 } })

/-- A read of port 2, 0x4017, with the Zapper's bits when it is present (R175, R176).  With `read_only` the
value is the same, and nothing is latched, shifted or drawn (spec/20_memory.md R48; log entry 18). -/
def controllerRead2 (readOnly : Bool) (s : State) : Byte × State :=
  let u := latchedForRead s
  (bitAt 8 0 (u.bus.shift2.getLsbD 0) ||| (if u.params.zapperPresent then zapperBits u u.draws else 0),
    if readOnly then s
    else
      { u with
        bus := { u.bus with shift2 := shiftedPort u.bus.strobe u.bus.shift2 }
        draws := if u.params.zapperPresent then u.draws + 1 else u.draws })

/-! The bus (spec/20_memory.md R40). -/

/-- `read(addr, read_only)`: the byte and the machine after the read. -/
def busReadWith (readOnly : Bool) (addr : Word) (s : State) : Byte × State :=
  if 0x2000 ≤ addr.toNat ∧ addr.toNat ≤ 0x3FFF then ppuRegRead readOnly (addr.extractLsb' 0 3) s
  else if addr.toNat = 0x4015 then
    (apuStatus s.apu, if readOnly then s else { s with apu := afterStatusReadApu s.apu })
  else if addr.toNat = 0x4016 then controllerRead1 readOnly s
  else if addr.toNat = 0x4017 then controllerRead2 readOnly s
  else if 0x4000 ≤ addr.toNat ∧ addr.toNat ≤ 0x4014 then (0x00, s)
  else
    match cartCpuRead s.cart addr with
    | some v => (v, s)
    | none => if addr.toNat ≤ 0x1FFF then (readCell s.bus.ram (addr.toNat % 2048), s) else (0x00, s)

/-- `MemRead(addr, 1)`: the CPU's read, with its side effects (spec/00_scope.md R14). -/
def busRead (addr : Word) (s : State) : Byte × State := busReadWith false addr s

/-- The value a read of `addr` with `read_only = true` returns; it has no side effect (R48). -/
def peek (s : State) (addr : Word) : Byte := (busReadWith true addr s).1

/-- Copy `n` bytes from CPU address `addr` on into OAM (spec/61_bus.md R172, spec/62_ppu.md R194). -/
def oamCopy : Nat → Word → State → State
  | 0, _, s => s
  | n + 1, addr, s =>
    let (b, s) := busRead addr s
    oamCopy n (addr + 1) { s with ppu := writeOam s.ppu b }

/-- A write of `v` to 0x4014 (spec/61_bus.md R172, D17, D18). -/
def oamDma (v : Byte) (s : State) : State :=
  let s := oamCopy 256 (mkWord v 0) s
  s.stall (513 + s.cpu.totalCycles % 2)

/-- A write of `v` to `addr` routed to what lies there: `write(addr, v)` of spec/20_memory.md R40. -/
def routeWrite (addr : Word) (v : Byte) (s : State) : State :=
  if 0x2000 ≤ addr.toNat ∧ addr.toNat ≤ 0x3FFF then ppuRegWrite (addr.extractLsb' 0 3) v s
  else if addr.toNat = 0x4014 then oamDma v s
  else if addr.toNat = 0x4016 then controllerStrobe v s
  else if 0x4000 ≤ addr.toNat ∧ addr.toNat ≤ 0x4017 then { s with apu := apuWrite s.apu addr v }
  else if 0x6000 ≤ addr.toNat then { s with cart := cartCpuWrite s.cart addr v }
  else if addr.toNat ≤ 0x1FFF then
    { s with bus := { s.bus with ram := writeCell s.bus.ram (addr.toNat % 2048) v } }
  else s

/-- Whether `addr` is a device's: the PPU's, APU's and controllers' registers and OAM DMA
(spec/60_exceptions.md R164), and the cartridge, which is the device behind 0x6000 to 0xFFFF
(spec/64_cartridge.md, its opening). -/
def isDevice (addr : Word) : Bool :=
  decide (0x2000 ≤ addr.toNat) && decide (addr.toNat ≤ 0x4017) || decide (0x6000 ≤ addr.toNat)

/-- Every CPU bus write to a device is an output of the machine (spec/61_bus.md R179; log entry 19). -/
def noteWrite (addr : Word) (v : Byte) (s : State) : State :=
  { s with deviceWrites := if isDevice addr then (addr, v) :: s.deviceWrites else s.deviceWrites }

/-- `MemWrite(addr, 1, v)`: the CPU's write, routed and put out. -/
def busWrite (addr : Word) (v : Byte) (s : State) : State := noteWrite addr v (routeWrite addr v s)

/-! The memory primitives (spec/00_scope.md R14). -/

/-- The stack address of a stack pointer: `0x0100 + SP` (spec/10_state.md R21). -/
def stackAddr (sp : Byte) : Word := mkWord 0x01 sp

/-- `Push(v)` -/
def push (v : Byte) (s : State) : State :=
  let s := busWrite (stackAddr s.cpu.sp) v s
  s.setSP (s.cpu.sp - 1)

/-- `Pull()` -/
def pull (s : State) : Byte × State :=
  let s := s.setSP (s.cpu.sp + 1)
  busRead (stackAddr s.cpu.sp) s

/-- `Read16(lo_addr, hi_addr)`: low byte first. -/
def read16 (loAddr hiAddr : Word) (s : State) : Word × State :=
  let (lo, s) := busRead loAddr s
  let (hi, s) := busRead hiAddr s
  (mkWord hi lo, s)

/-- `Fetch()` -/
def fetchByte (s : State) : Byte × State :=
  let (b, s) := busRead s.cpu.pc s
  (b, s.setPC (s.cpu.pc + 1))

/-- Push a word, high byte first, so that the low byte lies at the lower address (spec/20_memory.md R44). -/
def pushWord (w : Word) (s : State) : State := push (loByte w) (push (hiByte w) s)

/-- Pull a word, low byte first. -/
def pullWord (s : State) : Word × State :=
  let (lo, s) := pull s
  let (hi, s) := pull s
  (mkWord hi lo, s)

/-! Taking an exception and returning from one. -/

/-- Taking an exception through the vector at `vector`: push PC and the given copy of P, set I, load PC
(spec/60_exceptions.md R152; spec/45_control_transfer.md R131 for BRK). -/
def takeException (vector : Word) (status : Byte) (s : State) : State :=
  let s := push status (pushWord s.cpu.pc s)
  let s := s.setP (putI s.cpu.p true)
  let (target, s) := read16 vector (vector + 1) s
  s.setPC target

/-- `interrupt_entry(vector)`: the pushed copy of P has B clear and U set (spec/60_exceptions.md R152). -/
def interruptEntry (vector : Word) (s : State) : State := takeException vector (hardwareStatus s.cpu.p) s

/-- The return from BRK, NMI and IRQ: pull P, then PC (spec/60_exceptions.md R159). -/
def returnFromException (s : State) : State :=
  let (m, s) := pull s
  let s := s.setP (pulledStatus m)
  let (target, s) := pullWord s
  s.setPC target

/-! The latches of the CPU (spec/60_exceptions.md R149). -/

/-- `nmi()` -/
def cpuNmi (s : State) : State := { s with cpu := { s.cpu with nmiPending := true } }

/-- `irq()`: queued only when I = 0 (D8). -/
def cpuIrq (s : State) : State :=
  if flagI s.cpu.p then s else { s with cpu := { s.cpu with irqPending := true } }

end Sys2Proof.Machine
end

