-- ==== Sys2Proof/Machine/Operands.lean ====
section
/-! DEFINITION. Every addressing mode (spec/40_addressing_modes.md), the three operand operations of R66,
and the length of an instruction's window by mode (spec/30_encoding.md R61, R62, R67). -/

namespace Sys2Proof.Machine

/-- `Mem(ea, crossed)`: an effective address and its page-cross bit. -/
structure Located where
  ea : Word
  crossed : Bool
deriving DecidableEq, Repr

/-- A base indexed with carry into the high byte (R76, R77, R80). -/
def indexed (base : Word) (index : Byte) : Located :=
  { ea := base + zext16 index, crossed := crosses (base + zext16 index) base }

/-- A pointer in page 0, its second byte wrapping within the page (R79, R80). -/
def zeroPagePointer (z : Byte) (s : State) : Word × State := read16 (zext16 z) (zext16 (z + 1)) s

/-- The effective address of a memory mode, before it is latched (R71 to R80). -/
def effectiveAddress (m : MemOperand) (s : State) : Located × State :=
  match m with
  | .zp b => (⟨zext16 b, false⟩, s)
  | .zpx b => (⟨zext16 (b + s.cpu.x), false⟩, s)
  | .zpy b => (⟨zext16 (b + s.cpu.y), false⟩, s)
  | .abs w => (⟨w, false⟩, s)
  | .abx w => (indexed w s.cpu.x, s)
  | .aby w => (indexed w s.cpu.y, s)
  | .izx b =>
    let (w, s) := zeroPagePointer (b + s.cpu.x) s
    (⟨w, false⟩, s)
  | .izy b =>
    let (w, s) := zeroPagePointer b s
    (indexed w s.cpu.y, s)

/-- `decode_mode` of a memory mode: the effective address, latched (spec/10_state.md R35). -/
def locate (m : MemOperand) (s : State) : Located × State :=
  let (l, s) := effectiveAddress m s
  (l, s.setEA l.ea)

/-- What a load gives: the byte and the page-cross bit of its address. -/
structure Loaded where
  value : Byte
  crossed : Bool
deriving DecidableEq, Repr

/-- `Load()` of a source (R66, R70). -/
def loadSource (src : Source) (s : State) : Loaded × State :=
  match src with
  | .imm b => (⟨b, false⟩, s)
  | .mem m =>
    let (l, s) := locate m s
    let (v, s) := busRead l.ea s
    (⟨v, l.crossed⟩, s)

/-- `Store(v)` to a memory mode (R66). -/
def storeOperand (m : MemOperand) (v : Byte) (s : State) : State :=
  let (l, s) := locate m s
  busWrite l.ea v s

/-- `Modify(f)`: one read and one write at the same place; the old value is returned (R66, D4). -/
def modifyTarget (t : Target) (f : Byte → Byte) (s : State) : Byte × State :=
  match t with
  | .acc => (s.cpu.a, s.setA (f s.cpu.a))
  | .mem m =>
    let (l, s) := locate m s
    let (old, s) := busRead l.ea s
    (old, busWrite l.ea (f old) s)

/-- `Rel(target, crossed)`: the target of a branch from `next` and its page-cross bit (R74). -/
def branchTarget (next : Word) (offset : Byte) : Located :=
  { ea := next + sext16 offset, crossed := crosses (next + sext16 offset) next }

/-- The target of JMP indirect, with the page-wrap bug (R78). -/
def indirectTarget (p : Word) (s : State) : Word × State :=
  read16 p ((p &&& 0xFF00) ||| ((p + 1) &&& 0x00FF)) s

/-! Window lengths (spec/30_encoding.md R61, R62; spec/40_addressing_modes.md R67). -/

/-- A read instruction: one more cycle where an absolute-indexed or indirect-indexed read crosses a page. -/
def readCycles (src : Source) (crossed : Bool) : Nat :=
  match src with
  | .imm _ => 2
  | .mem (.zp _) => 3
  | .mem (.zpx _) | .mem (.zpy _) | .mem (.abs _) => 4
  | .mem (.abx _) | .mem (.aby _) => 4 + crossed.toNat
  | .mem (.izx _) => 6
  | .mem (.izy _) => 5 + crossed.toNat

/-- A store: the indexed forms always pay the penalty. -/
def storeCycles : MemOperand → Nat
  | .zp _ => 3
  | .zpx _ | .zpy _ | .abs _ => 4
  | .abx _ | .aby _ => 5
  | .izx _ | .izy _ => 6

/-- A read-modify-write: the indexed forms always pay the penalty.  The official modes are those of
R81; the figure for a mode no opcode has is never used by a decoded instruction (log entry 24). -/
def modifyCycles : Target → Nat
  | .acc => 2
  | .mem (.zp _) => 5
  | .mem (.zpx _) | .mem (.zpy _) | .mem (.abs _) => 6
  | .mem (.abx _) | .mem (.aby _) => 7
  | .mem (.izx _) | .mem (.izy _) => 8

/-- A branch (spec/45_control_transfer.md R118). -/
def branchCycles (taken crossed : Bool) : Nat := if taken then 3 + crossed.toNat else 2

/-! The shapes of the instruction families. -/

/-- An instruction's outcome: the next state with its window's length set. -/
def finish (cycles : Nat) (s : State) : Host.Outcome State Fault Refusal := .next (s.setCycles cycles)

/-- A read instruction: load the operand, then act on it (R66, R67). -/
def execRead (src : Source) (act : Byte → State → State) (s : State) : Host.Outcome State Fault Refusal :=
  let (l, s) := loadSource src s
  finish (readCycles src l.crossed) (act l.value s)

/-- A store instruction (R66, R67). -/
def execStore (m : MemOperand) (v : Byte) (s : State) : Host.Outcome State Fault Refusal :=
  finish (storeCycles m) (storeOperand m v s)

/-- A read-modify-write instruction: `Modify(f)`, then the status from the old value (R66, R67). -/
def execModify (t : Target) (f : Byte → Byte) (status : Byte → Byte → Byte) (s : State) :
    Host.Outcome State Fault Refusal :=
  let (old, s) := modifyTarget t f s
  finish (modifyCycles t) (s.setP (status s.cpu.p old))

/-- A branch on a condition; `s.cpu.pc` is the address of the next instruction
(spec/45_control_transfer.md R118, R119). -/
def execBranch (taken : Bool) (offset : Byte) (s : State) : Host.Outcome State Fault Refusal :=
  let t := branchTarget s.cpu.pc offset
  finish (branchCycles taken t.crossed) (if taken then s.setPC t.ea else s)

end Sys2Proof.Machine
end

