-- ==== Sys2Proof/Machine/Arith.lean ====
section
/-! DEFINITION. Arithmetic, logic and compare (spec/43_arith_logic.md R99 to R107) and the SBC alias
(spec/46_flags_nop.md R147). Each meaning runs after the fetch of the whole instruction,
with PC at the next sequential address (spec/10_state.md R22). -/

namespace Sys2Proof.Machine

/-- ADC's effect on A and P, with `m` the operand (R99); SBC's with the operand inverted (R100). -/
def accumulateAdd (m : Byte) (s : State) : State :=
  let r := addBytes s.cpu.a m (flagC s.cpu.p)
  (s.setA r.value).setP (putAdd s.cpu.p r)

/-- SBC's effect: the addition of the operand's one's complement (R98, R100). -/
def accumulateSub (m : Byte) (s : State) : State := accumulateAdd (m ^^^ 0xFF) s

/-- ADC (R99). -/
def execAdc (src : Source) (s : State) : Host.Outcome State Fault Refusal :=
  execRead src accumulateAdd s

/-- SBC (R100). -/
def execSbc (src : Source) (s : State) : Host.Outcome State Fault Refusal :=
  execRead src accumulateSub s

/-- AND (R101): `A <- A & m; NZ(A)`. -/
def execAnd (src : Source) (s : State) : Host.Outcome State Fault Refusal :=
  execRead src (fun m s => (s.setA (s.cpu.a &&& m)).setNZ (s.cpu.a &&& m)) s

/-- ORA (R102): `A <- A | m; NZ(A)`. -/
def execOra (src : Source) (s : State) : Host.Outcome State Fault Refusal :=
  execRead src (fun m s => (s.setA (s.cpu.a ||| m)).setNZ (s.cpu.a ||| m)) s

/-- EOR (R103): `A <- A ^ m; NZ(A)`. -/
def execEor (src : Source) (s : State) : Host.Outcome State Fault Refusal :=
  execRead src (fun m s => (s.setA (s.cpu.a ^^^ m)).setNZ (s.cpu.a ^^^ m)) s

/-- BIT (R104): Z from `A & m`, N and V from `m`; A is not written. -/
def execBit (m : MemOperand) (s : State) : Host.Outcome State Fault Refusal :=
  execRead (.mem m) (fun v s => s.setP (putBitTest s.cpu.p s.cpu.a v)) s

/-- CMP (R105): C, N and Z of A - m; no register is written. -/
def execCmp (src : Source) (s : State) : Host.Outcome State Fault Refusal :=
  execRead src (fun m s => s.setP (putCompare s.cpu.p s.cpu.a m)) s

/-- CPX (R106): C, N and Z of X - m; no register is written. -/
def execCpx (src : Source) (s : State) : Host.Outcome State Fault Refusal :=
  execRead src (fun m s => s.setP (putCompare s.cpu.p s.cpu.x m)) s

/-- CPY (R107): C, N and Z of Y - m; no register is written. -/
def execCpy (src : Source) (s : State) : Host.Outcome State Fault Refusal :=
  execRead src (fun m s => s.setP (putCompare s.cpu.p s.cpu.y m)) s

/-- SBC's unofficial alias 0xEB (spec/46_flags_nop.md R147): exactly R100 on the immediate byte. -/
def execSbcAlias (value : Byte) (s : State) : Host.Outcome State Fault Refusal :=
  execRead (.imm value) accumulateSub s

end Sys2Proof.Machine
end

