-- ==== Sys2Proof/Machine/Control.lean ====
section
/-! DEFINITION. Branches, jumps, calls and returns (spec/45_control_transfer.md R118 to R132). Each meaning runs after the fetch of the whole instruction,
with PC at the next sequential address (spec/10_state.md R22). -/

namespace Sys2Proof.Machine

/-- BPL (R120): branch if N = 0. -/
def execBpl (offset : Byte) (s : State) : Host.Outcome State Fault Refusal :=
  execBranch (!flagN s.cpu.p) offset s

/-- BMI (R121): branch if N = 1. -/
def execBmi (offset : Byte) (s : State) : Host.Outcome State Fault Refusal :=
  execBranch (flagN s.cpu.p) offset s

/-- BVC (R122): branch if V = 0. -/
def execBvc (offset : Byte) (s : State) : Host.Outcome State Fault Refusal :=
  execBranch (!flagV s.cpu.p) offset s

/-- BVS (R123): branch if V = 1. -/
def execBvs (offset : Byte) (s : State) : Host.Outcome State Fault Refusal :=
  execBranch (flagV s.cpu.p) offset s

/-- BCC (R124): branch if C = 0. -/
def execBcc (offset : Byte) (s : State) : Host.Outcome State Fault Refusal :=
  execBranch (!flagC s.cpu.p) offset s

/-- BCS (R125): branch if C = 1. -/
def execBcs (offset : Byte) (s : State) : Host.Outcome State Fault Refusal :=
  execBranch (flagC s.cpu.p) offset s

/-- BNE (R126): branch if Z = 0. -/
def execBne (offset : Byte) (s : State) : Host.Outcome State Fault Refusal :=
  execBranch (!flagZ s.cpu.p) offset s

/-- BEQ (R127): branch if Z = 1. -/
def execBeq (offset : Byte) (s : State) : Host.Outcome State Fault Refusal :=
  execBranch (flagZ s.cpu.p) offset s

/-- JMP (R128): absolute, or through a pointer with the page-wrap bug; the target is the latched `ea`. -/
def execJmp (j : JumpOperand) (s : State) : Host.Outcome State Fault Refusal :=
  match j with
  | .abs w => finish 3 ((s.setEA w).setPC w)
  | .ind p =>
    let (w, s) := indirectTarget p s
    finish 5 ((s.setEA w).setPC w)

/-- JSR (R129): push the address of its last byte, high byte first, and jump. -/
def execJsr (target : Word) (s : State) : Host.Outcome State Fault Refusal :=
  finish 6 ((pushWord (s.cpu.pc - 1) (s.setEA target)).setPC target)

/-- RTS (R130): pull PC and add one. -/
def execRts (s : State) : Host.Outcome State Fault Refusal :=
  let (w, s) := pullWord s
  finish 6 (s.setPC (w + 1))

/-- BRK (R131): skip the padding byte and take the exception at 0xFFFE with B set in the pushed copy. -/
def execBrk (s : State) : Host.Outcome State Fault Refusal :=
  finish 7 (takeException 0xFFFE (softwareStatus s.cpu.p) (s.setPC (s.cpu.pc + 1)))

/-- RTI (R132). -/
def execRti (s : State) : Host.Outcome State Fault Refusal :=
  finish 6 (returnFromException s)

end Sys2Proof.Machine
end

