-- ==== Sys2Proof/Machine/FlagNop.lean ====
section
/-! DEFINITION. Flag instructions, NOPs, the unofficial NOPs and the unlisted opcodes (spec/46_flags_nop.md). Each meaning runs after the fetch of the whole instruction,
with PC at the next sequential address (spec/10_state.md R22). -/

namespace Sys2Proof.Machine

/-- CLC (R133): `P.C <- 0`. -/
def execClc (s : State) : Host.Outcome State Fault Refusal :=
  finish 2 (s.setP (putC s.cpu.p false))

/-- SEC (R134): `P.C <- 1`. -/
def execSec (s : State) : Host.Outcome State Fault Refusal :=
  finish 2 (s.setP (putC s.cpu.p true))

/-- CLI (R135): `P.I <- 0`. -/
def execCli (s : State) : Host.Outcome State Fault Refusal :=
  finish 2 (s.setP (putI s.cpu.p false))

/-- SEI (R136): `P.I <- 1`. -/
def execSei (s : State) : Host.Outcome State Fault Refusal :=
  finish 2 (s.setP (putI s.cpu.p true))

/-- CLV (R137): `P.V <- 0`. -/
def execClv (s : State) : Host.Outcome State Fault Refusal :=
  finish 2 (s.setP (putV s.cpu.p false))

/-- CLD (R138): `P.D <- 0`. -/
def execCld (s : State) : Host.Outcome State Fault Refusal :=
  finish 2 (s.setP (putD s.cpu.p false))

/-- SED (R139): `P.D <- 1`. -/
def execSed (s : State) : Host.Outcome State Fault Refusal :=
  finish 2 (s.setP (putD s.cpu.p true))

/-- NOP (R140). -/
def execNop (s : State) : Host.Outcome State Fault Refusal :=
  finish 2 s

/-- Unofficial one-byte NOP (R141). -/
def execNopImp (s : State) : Host.Outcome State Fault Refusal :=
  finish 2 s

/-- Unofficial immediate NOP (R142): the byte is ignored. -/
def execNopImm (s : State) : Host.Outcome State Fault Refusal :=
  finish 2 s

/-- Unofficial zero-page NOP (R143): `ea` is computed and not read. -/
def execNopZp (addr : Byte) (s : State) : Host.Outcome State Fault Refusal :=
  finish 3 (locate (.zp addr) s).2

/-- Unofficial zero-page-X NOP (R144): `ea` is computed and not read. -/
def execNopZpx (base : Byte) (s : State) : Host.Outcome State Fault Refusal :=
  finish 4 (locate (.zpx base) s).2

/-- Unofficial absolute NOP (R145): `ea` is computed and not read. -/
def execNopAbs (addr : Word) (s : State) : Host.Outcome State Fault Refusal :=
  finish 4 (locate (.abs addr) s).2

/-- Unofficial absolute-X NOP (R146): `4 + crossed` cycles; `ea` is not read. -/
def execNopAbx (base : Word) (s : State) : Host.Outcome State Fault Refusal :=
  let (l, s) := locate (.abx base) s
  finish (4 + l.crossed.toNat) s

/-- An unlisted opcode (R148; spec/60_exceptions.md R151): record the opcode and its address, PC still at
it, and change no other register, memory or counter (log entry 13). -/
def execUnlisted (op : Byte) (s : State) : Host.Outcome State Fault Refusal :=
  .next { s with cpu := { s.cpu with refused := some { opcode := op, address := s.cpu.pc } } }

end Sys2Proof.Machine
end

