-- ==== Sys2Proof/Machine/IncDecShift.lean ====
section
/-! DEFINITION. Increment, decrement, shift and rotate (spec/44_incdec_shift.md R108 to R117). Each meaning runs after the fetch of the whole instruction,
with PC at the next sequential address (spec/10_state.md R22). -/

namespace Sys2Proof.Machine

/-- INC (R108): `(_, r) <- Modify(v + 1); NZ(r)`. -/
def execInc (m : MemOperand) (s : State) : Host.Outcome State Fault Refusal :=
  execModify (.mem m) (fun v => v + 1) (fun p v => putNZ p (v + 1)) s

/-- DEC (R109): `(_, r) <- Modify(v - 1); NZ(r)`. -/
def execDec (m : MemOperand) (s : State) : Host.Outcome State Fault Refusal :=
  execModify (.mem m) (fun v => v - 1) (fun p v => putNZ p (v - 1)) s

/-- INX (R110): `X <- (X + 1) mod 256; NZ(X)`. -/
def execInx (s : State) : Host.Outcome State Fault Refusal :=
  finish 2 ((s.setX (s.cpu.x + 1)).setNZ (s.cpu.x + 1))

/-- INY (R111): `Y <- (Y + 1) mod 256; NZ(Y)`. -/
def execIny (s : State) : Host.Outcome State Fault Refusal :=
  finish 2 ((s.setY (s.cpu.y + 1)).setNZ (s.cpu.y + 1))

/-- DEX (R112): `X <- (X - 1) mod 256; NZ(X)`. -/
def execDex (s : State) : Host.Outcome State Fault Refusal :=
  finish 2 ((s.setX (s.cpu.x - 1)).setNZ (s.cpu.x - 1))

/-- DEY (R113): `Y <- (Y - 1) mod 256; NZ(Y)`. -/
def execDey (s : State) : Host.Outcome State Fault Refusal :=
  finish 2 ((s.setY (s.cpu.y - 1)).setNZ (s.cpu.y - 1))

/-- `(v << 1) | c` (R114, R116). -/
def shiftLeft (c : Bool) (v : Byte) : Byte := (v <<< 1) ||| bitAt 8 0 c

/-- `(v >> 1) | (c << 7)` (R115, R117). -/
def shiftRight (c : Bool) (v : Byte) : Byte := (v >>> 1) ||| bitAt 8 7 c

/-- ASL (R114): C is the old bit 7; bit 0 of the result is 0. -/
def execAsl (t : Target) (s : State) : Host.Outcome State Fault Refusal :=
  execModify t (shiftLeft false) (fun p v => putShift p (v.getLsbD 7) (shiftLeft false v)) s

/-- ROL (R116): C is the old bit 7; the old C comes in at bit 0. -/
def execRol (t : Target) (s : State) : Host.Outcome State Fault Refusal :=
  execModify t (shiftLeft (flagC s.cpu.p)) (fun p v => putShift p (v.getLsbD 7) (shiftLeft (flagC s.cpu.p) v)) s

/-- LSR (R115): C is the old bit 0; bit 7 of the result is 0. -/
def execLsr (t : Target) (s : State) : Host.Outcome State Fault Refusal :=
  execModify t (shiftRight false) (fun p v => putShift p (v.getLsbD 0) (shiftRight false v)) s

/-- ROR (R117): C is the old bit 0; the old C comes in at bit 7. -/
def execRor (t : Target) (s : State) : Host.Outcome State Fault Refusal :=
  execModify t (shiftRight (flagC s.cpu.p)) (fun p v => putShift p (v.getLsbD 0) (shiftRight (flagC s.cpu.p) v)) s

end Sys2Proof.Machine
end

