-- ==== Sys2Proof/Machine/LoadStore.lean ====
section
/-! DEFINITION. Loads, stores and register transfers (spec/41_load_store_transfer.md R82 to R93). Each meaning runs after the fetch of the whole instruction,
with PC at the next sequential address (spec/10_state.md R22). -/

namespace Sys2Proof.Machine

/-- LDA (R82): `v <- Load(); A <- v; NZ(v)`. -/
def execLda (src : Source) (s : State) : Host.Outcome State Fault Refusal :=
  execRead src (fun v s => (s.setA v).setNZ v) s

/-- LDX (R83): `v <- Load(); X <- v; NZ(v)`. -/
def execLdx (src : Source) (s : State) : Host.Outcome State Fault Refusal :=
  execRead src (fun v s => (s.setX v).setNZ v) s

/-- LDY (R84): `v <- Load(); Y <- v; NZ(v)`. -/
def execLdy (src : Source) (s : State) : Host.Outcome State Fault Refusal :=
  execRead src (fun v s => (s.setY v).setNZ v) s

/-- STA (R85): `Store(A)`; no flag. -/
def execSta (m : MemOperand) (s : State) : Host.Outcome State Fault Refusal :=
  execStore m s.cpu.a s

/-- STX (R86): `Store(X)`; no flag. -/
def execStx (m : MemOperand) (s : State) : Host.Outcome State Fault Refusal :=
  execStore m s.cpu.x s

/-- STY (R87): `Store(Y)`; no flag. -/
def execSty (m : MemOperand) (s : State) : Host.Outcome State Fault Refusal :=
  execStore m s.cpu.y s

/-- TAX (R88): `X <- A; NZ(X)`. -/
def execTax (s : State) : Host.Outcome State Fault Refusal :=
  finish 2 ((s.setX s.cpu.a).setNZ s.cpu.a)

/-- TAY (R89): `Y <- A; NZ(Y)`. -/
def execTay (s : State) : Host.Outcome State Fault Refusal :=
  finish 2 ((s.setY s.cpu.a).setNZ s.cpu.a)

/-- TXA (R90): `A <- X; NZ(A)`. -/
def execTxa (s : State) : Host.Outcome State Fault Refusal :=
  finish 2 ((s.setA s.cpu.x).setNZ s.cpu.x)

/-- TYA (R91): `A <- Y; NZ(A)`. -/
def execTya (s : State) : Host.Outcome State Fault Refusal :=
  finish 2 ((s.setA s.cpu.y).setNZ s.cpu.y)

/-- TSX (R92): `X <- SP; NZ(X)`. -/
def execTsx (s : State) : Host.Outcome State Fault Refusal :=
  finish 2 ((s.setX s.cpu.sp).setNZ s.cpu.sp)

/-- TXS (R93): `SP <- X`; the only transfer that sets no flag. -/
def execTxs (s : State) : Host.Outcome State Fault Refusal :=
  finish 2 (s.setSP s.cpu.x)

end Sys2Proof.Machine
end

