-- ==== Sys2Proof/Machine/Stack.lean ====
section
/-! DEFINITION. Stack instructions (spec/42_stack.md R94 to R97). Each meaning runs after the fetch of the whole instruction,
with PC at the next sequential address (spec/10_state.md R22). -/

namespace Sys2Proof.Machine

/-- PHA (R94): `Push(A)`. -/
def execPha (s : State) : Host.Outcome State Fault Refusal :=
  finish 3 (push s.cpu.a s)

/-- PHP (R95): `Push(P | 0x30)`. -/
def execPhp (s : State) : Host.Outcome State Fault Refusal :=
  finish 3 (push (softwareStatus s.cpu.p) s)

/-- PLA (R96): `v <- Pull(); A <- v; NZ(v)`. -/
def execPla (s : State) : Host.Outcome State Fault Refusal :=
  let (v, s) := pull s
  finish 4 ((s.setA v).setNZ v)

/-- PLP (R97): `m <- Pull(); P <- (m & 0xCF) | 0x20`. -/
def execPlp (s : State) : Host.Outcome State Fault Refusal :=
  let (m, s) := pull s
  finish 4 (s.setP (pulledStatus m))

end Sys2Proof.Machine
end

