-- ==== Sys2Proof/Machine/Tick.lean ====
section
/-! DEFINITION. One CPU cycle and one bus tick: the fetch, `clock()` (spec/60_exceptions.md R150), the APU
tick with its DMC reader (spec/63_apu.md R215, R226), the resampler (spec/61_bus.md R177) and `tick()`
(spec/61_bus.md R169). -/

namespace Sys2Proof.Machine

/-- Fetch the operand bytes of an opcode, as many as its length asks for (spec/30_encoding.md R58, R64). -/
def fetchOperands (op : Byte) (s : State) : Instr × State :=
  match opcodeLength op with
  | 1 => (decodeOp op 0 0, s)
  | 2 =>
    let (b1, s) := fetchByte s
    (decodeOp op b1 0, s)
  | _ =>
    let (b1, s) := fetchByte s
    let (b2, s) := fetchByte s
    (decodeOp op b1 b2, s)

/-- Fetch and decode the instruction at PC.  For an unlisted opcode PC stays at the opcode
(spec/60_exceptions.md R150, R151; 90_conflicts.md C14). -/
def fetchInstr (s : State) : Instr × State :=
  let (op, s) := busRead s.cpu.pc s
  if unlistedOpcodes.contains op then (decodeOp op 0 0, s)
  else
    let s := { s with cpu := { s.cpu with opcode := op, pc := s.cpu.pc + 1 } }
    fetchOperands op s

/-- The end of a CPU cycle inside a window: count it and say whether the window has ended
(spec/60_exceptions.md R150, D23). -/
def countCycle (s : State) : State :=
  { s with
    cpu := { s.cpu with
      cyclesRemaining := s.cpu.cyclesRemaining - 1, totalCycles := s.cpu.totalCycles + 1 }
    retired := decide (s.cpu.cyclesRemaining - 1 = 0) }

/-- A stall cycle (spec/60_exceptions.md R150). -/
def stallCycle (s : State) : State :=
  { s with
    cpu := { s.cpu with
      stallRemaining := s.cpu.stallRemaining - 1, totalCycles := s.cpu.totalCycles + 1 }
    retired := false }

/-- The outcome of the instruction at PC in the first cycle of its window: the fetch, the meaning, and
the count of the cycle, which a refused fetch does not reach (spec/60_exceptions.md R150, R151). -/
def runInstr (s : State) : Host.Outcome State Fault Refusal :=
  let (i, s) := fetchInstr s
  match exec i s with
  | .next t => if t.cpu.refused.isSome then .next { t with retired := false } else .next (countCycle t)
  | .fault f => .fault f
  | .refused r => .refused r

/-- NMI entry (spec/60_exceptions.md R153). -/
def nmiEntry (s : State) : State :=
  (interruptEntry 0xFFFA { s with cpu := { s.cpu with nmiPending := false } }).setCycles Config.nmiEntryCycles

/-- IRQ entry (spec/60_exceptions.md R154). -/
def irqEntry (s : State) : State :=
  (interruptEntry 0xFFFE { s with cpu := { s.cpu with irqPending := false } }).setCycles s.params.irqEntryCycles

/-- `clock()`: one CPU cycle (spec/60_exceptions.md R150, R158). -/
def clock (s : State) : Host.Outcome State Fault Refusal :=
  if s.cpu.cyclesRemaining ≠ 0 then .next (countCycle s)
  else if s.cpu.stallRemaining ≠ 0 then .next (stallCycle s)
  else if s.cpu.nmiPending then .next (countCycle (nmiEntry s))
  else if s.cpu.irqPending && !flagI s.cpu.p then .next (countCycle (irqEntry s))
  else runInstr { s with cpu := { s.cpu with irqPending := false } }

/-- One PPU tick (spec/62_ppu.md R195). -/
def ppuTick (s : State) : State :=
  { s with cart := (ppuDot s.params s.cart s.ppu).1, ppu := (ppuDot s.params s.cart s.ppu).2 }

/-- Step 2 of the tick: `poll_nmi()` consumes the edge and queues the NMI (spec/61_bus.md R170). -/
def nmiCheck (s : State) : State :=
  if s.ppu.nmiEdge then cpuNmi { s with ppu := { s.ppu with nmiEdge := false } } else s

/-- `dmc_reader()` (spec/63_apu.md R226). -/
def dmcReader (s : State) : State :=
  if s.apu.dmc.bufferEmpty && decide (s.apu.dmc.remaining ≠ 0) then
    let (b, s) := busRead s.apu.dmc.curAddr (s.stall Config.dmcDmaStall)
    { s with apu := { s.apu with dmc := dmcTakeByte s.apu.dmc b } }
  else s

/-- `apu.tick()` (spec/63_apu.md R215). -/
def apuTick (s : State) : State :=
  let s := dmcReader { s with apu := apuUnits s.apu }
  { s with apu := { s.apu with apuCycle := s.apu.apuCycle + 1 } }

/-- `resample()`: in units of 1 / `SAMPLE_HZ` a tick adds `SAMPLE_HZ` and a fire takes `CPU_HZ`
(spec/61_bus.md R177, D61; log entry 12). -/
def resample (s : State) : State :=
  let acc := s.bus.resampleAcc + s.params.sampleHz
  if s.params.cpuHz ≤ acc then
    { s with
      bus := { s.bus with resampleAcc := acc - s.params.cpuHz }, samples := apuSample s.apu :: s.samples }
  else { s with bus := { s.bus with resampleAcc := acc } }

/-- Step 6 of the tick (spec/61_bus.md R171). -/
def irqCheck (s : State) : State := if apuIrq s.apu || cartIrq s.cart then cpuIrq s else s

/-- Steps 1 and 2: three dots and the NMI check (spec/61_bus.md R169). -/
def tickBefore (s : State) : State := nmiCheck (ppuTick (ppuTick (ppuTick s)))

/-- Steps 4 to 6 and the system clock (spec/61_bus.md R169). -/
def tickAfter (s : State) : State :=
  let s := irqCheck (resample (apuTick s))
  { s with bus := { s.bus with clock := s.bus.clock + 1 } }

/-- `tick()` (spec/61_bus.md R169).  A recorded refusal admits no further step; the tick in which the
refusal is recorded ends with it (spec/60_exceptions.md R151; log entry 13). -/
def tick (s : State) : Host.Outcome State Fault Refusal :=
  match s.cpu.refused with
  | some m => .refused (.unlistedOpcode m.opcode m.address)
  | none =>
    match clock (tickBefore s) with
    | .next t => if t.cpu.refused.isSome then .next t else .next (tickAfter t)
    | .fault f => .fault f
    | .refused r => .refused r

/-! Placing an instruction where the next tick fetches it. -/

/-- Put a byte where a CPU read of `addr` finds it: CPU RAM, PRG RAM or PRG ROM; nothing elsewhere. -/
def pokeByte (addr : Word) (v : Byte) (s : State) : State :=
  if addr.toNat ≤ 0x1FFF then
    { s with bus := { s.bus with ram := writeCell s.bus.ram (addr.toNat % 2048) v } }
  else if addr.toNat < 0x6000 then s
  else if addr.toNat ≤ 0x7FFF then
    { s with cart := { s.cart with prgRam := writeCell s.cart.prgRam (addr.toNat - 0x6000) v } }
  else { s with cart := { s.cart with prg := writeCell s.cart.prg (prgOffset s.cart addr) v } }

/-- Put bytes at `addr` and on. -/
def pokeBytes : Word → List Byte → State → State
  | _, [], s => s
  | addr, b :: rest, s => pokeBytes (addr + 1) rest (pokeByte addr b s)

/-- Whether the three bytes from `addr` on are all memory, not a device or a hole. -/
def holdsCode (addr : Word) : Bool :=
  [addr, addr + 1, addr + 2].all (fun a => decide (a.toNat ≤ 0x1FFF) || decide (0x6000 ≤ a.toNat))

/-- The state at an instruction boundary with nothing pending, so that the next tick fetches: no
window, stall, queued interrupt, NMI edge or refusal is left, PC is in memory, and PPUCTRL's NMI enable
is cleared if one of the next three dots would raise the NMI (log entry 4). -/
def atBoundary (s : State) : State :=
  let s : State :=
    { s with
      cpu := { s.cpu with
        cyclesRemaining := 0, stallRemaining := 0, nmiPending := false, irqPending := false
        refused := none, pc := if holdsCode s.cpu.pc then s.cpu.pc else 0x0000 }
      ppu := { s.ppu with nmiEdge := false } }
  if (ppuTick (ppuTick (ppuTick s))).ppu.nmiEdge then
    { s with ppu := { s.ppu with ctrl := putBit s.ppu.ctrl 7 false } }
  else s

/-- The bytes of a table word, the first at the lowest address, every bit above `nbits` zero. -/
def tableBytes (nbits w : Nat) : List Byte :=
  let bits := w % 2 ^ nbits
  [BitVec.ofNat 8 bits, BitVec.ofNat 8 (bits / 256), BitVec.ofNat 8 (bits / 65536)]

end Sys2Proof.Machine
end

