-- ==== Sys2Proof/Machine/Step.lean ====
section
/-! DEFINITION. One step of the machine, which is one bus tick (spec/61_bus.md R169; log entry 5), and
the state in which a given instruction is the next one fetched. -/

namespace Sys2Proof.Machine

/-- One step: one bus tick, one CPU cycle, three PPU dots. -/
def step (s : State) : Host.Outcome State Fault Refusal := tick s

/-- `s` with the instruction of a table word placed where the next step fetches it (log entry 4). -/
def State.withFetchWord (s : State) (nbits w : Nat) : State :=
  let s := atBoundary s
  pokeBytes s.cpu.pc (tableBytes nbits w) s

end Sys2Proof.Machine
end

