-- ==== Sys2Proof/Machine/HostOps.lean ====
section
/-! DEFINITION. What the host may do between ticks (spec/61_bus.md R178): the bus reset
(spec/70_reset_and_hazards.md R248, R249), inserting a cartridge, and reading frames
(spec/62_ppu.md R196). -/

namespace Sys2Proof.Machine

/-- `cpu.reset()`: the vector is read through the bus (R248). -/
def cpuReset (s : State) : State :=
  let (vector, s) := read16 0xFFFC 0xFFFD s
  { s with cpu := Cpu.reset vector s.cpu.refused }

/-- The host's `reset()` on the bus, in the order of R249; every memory array keeps its contents and the
refusal mark is not cleared. -/
def busReset (s : State) : State :=
  let s := { s with cart := cartReset s.cart }
  let s := cpuReset s
  { s with
    ppu := Ppu.reset s.ppu.vram s.ppu.palette s.ppu.oam s.ppu.framebuffer
    apu := Apu.reset
    bus := Bus.reset s.bus.ram }

/-- `insert_cartridge(c)`: drop the previous cartridge, install the new one, reset (R178). -/
def insertCartridge (c : Cartridge) (s : State) : State := busReset { s with cart := c }

/-- `is_frame_complete()` (R196). -/
def isFrameComplete (s : State) : Bool := s.ppu.frameComplete

/-- `clear_frame_flag()` (R196). -/
def clearFrameFlag (s : State) : State := { s with ppu := { s.ppu with frameComplete := false } }

/-- `copy_screen_rgb(buffer)`: the 256 x 240 picture, row by row (R196). -/
def copyScreenRgb (s : State) : List Rgb :=
  (List.range 240).flatMap (fun y => (List.range 256).map (fun x => samplePixel s.ppu x y))

end Sys2Proof.Machine
end

