-- ==== Sys2Proof/Safety.lean ====
section
/-! DEFINITION. What counts as a safe run, in the terms claims use: the invariants of the machine's state
between ticks, and the end of a run (spec/70_reset_and_hazards.md R252). -/

namespace Sys2Proof.Machine

/-- An address of CPU RAM or of the cartridge: a read of it has no side effect and does not depend on a
draw (spec/20_memory.md R40, R48). -/
def IsMemory (addr : Word) : Prop := addr.toNat ≤ 0x1FFF ∨ 0x6000 ≤ addr.toNat

/-- P.B = 0 and P.U = 1 (spec/10_state.md R28, R29, R36). -/
def StatusOk (s : State) : Prop := flagB s.cpu.p = false ∧ flagU s.cpu.p = true

/-- The parameter `IRQ_ENTRY_CYCLES` fits the window counter (spec/10_state.md R35, D7). -/
def ParamsOk (s : State) : Prop := 1 ≤ s.params.irqEntryCycles ∧ s.params.irqEntryCycles ≤ 8

/-- `cycles_remaining <= 8` (spec/10_state.md R36). -/
def WindowOk (s : State) : Prop := s.cpu.cyclesRemaining ≤ 8

/-- The PPU cursor is within a frame (spec/62_ppu.md R195). -/
def CursorOk (s : State) : Prop :=
  -1 ≤ s.ppu.scanline ∧ s.ppu.scanline ≤ 260 ∧ s.ppu.dot ≤ 340

/-- At most eight sprites are in use (spec/62_ppu.md R180). -/
def SpritesOk (s : State) : Prop := s.ppu.spriteCount ≤ 8 ∧ s.ppu.sprCount ≤ 8

/-- Every byte the DMC reads is memory: its samples start at 0xC000 or above and wrap to 0x8000 or, before
0x4012 is written, start at the reset value 0 and are too short to leave CPU RAM (spec/63_apu.md R206, R211,
R226; log entry 14). -/
def DmcReadsMemory (m : Dmc) : Prop :=
  (m.sampleAddr.toNat = 0 ∨ 0x8000 ≤ m.sampleAddr.toNat) ∧ m.sampleLen.toNat ≤ 0xFF1 ∧
  (m.curAddr.toNat + m.remaining.toNat ≤ 0xFF1 ∨ 0x8000 ≤ m.curAddr.toNat)

/-- The noise LFSR is never 0, the DMC bit counter is in 1..8 and the DMC reads memory
(spec/63_apu.md R206, R224 to R226). -/
def ApuOk (s : State) : Prop :=
  s.apu.noise.lfsr ≠ 0 ∧ 1 ≤ s.apu.dmc.bits ∧ s.apu.dmc.bits ≤ 8 ∧ DmcReadsMemory s.apu.dmc

/-- There is a PRG bank, and the MMC1 serial port holds fewer than five bits
(spec/64_cartridge.md R229, R238). -/
def CartOk (s : State) : Prop :=
  1 ≤ s.cart.prgBanks ∧ ∀ m, s.cart.mapper = .mmc1 m → m.count ≤ 4

/-- Every memory is in canonical form. -/
def MemoriesWf (s : State) : Prop :=
  cellsWf s.bus.ram = true ∧ cellsWf s.ppu.vram = true ∧ cellsWf s.ppu.palette = true ∧
  cellsWf s.ppu.oam = true ∧ cellsWf s.ppu.framebuffer = true ∧ cellsWf s.cart.prg = true ∧
  cellsWf s.cart.prgRam = true ∧ cellsWf s.cart.chr = true

/-- Every memory lists only addresses it has (spec/61_bus.md R168, spec/62_ppu.md R180,
spec/64_cartridge.md R229). -/
def MemoriesInRange (s : State) : Prop :=
  cellsBelow 2048 s.bus.ram = true ∧ cellsBelow 2048 s.ppu.vram = true ∧
  cellsBelow 32 s.ppu.palette = true ∧ cellsBelow 256 s.ppu.oam = true ∧
  cellsBelow (256 * 240) s.ppu.framebuffer = true ∧
  cellsBelow (16384 * s.cart.prgBanks) s.cart.prg = true ∧ cellsBelow 8192 s.cart.prgRam = true ∧
  cellsBelow (chrSize s.cart) s.cart.chr = true

/-- The invariant of the machine between ticks. -/
def MachineInv (s : State) : Prop :=
  StatusOk s ∧ ParamsOk s ∧ WindowOk s ∧ CursorOk s ∧ SpritesOk s ∧ ApuOk s ∧ CartOk s ∧
  MemoriesWf s ∧ MemoriesInRange s

/-- A run ends at the first instruction boundary at which this holds (spec/70_reset_and_hazards.md R252). -/
def runEnded (s : State) : Bool :=
  decide (s.cpu.cyclesRemaining = 0) && s.cpu.refused.isNone && decide (s.cpu.stallRemaining = 0) &&
    !s.cpu.nmiPending && decide (peek s s.cpu.pc = 0x4C) &&
    decide (peek s (s.cpu.pc + 1) = loByte s.cpu.pc) && decide (peek s (s.cpu.pc + 2) = hiByte s.cpu.pc) &&
    flagI s.cpu.p && !s.ppu.ctrl.getLsbD 7

end Sys2Proof.Machine
end

