-- ==== Sys2Proof/Certificates/Slice0/Obligations.lean ====
section
/-! DEFINITION. The statements about the model, from the numbered rules of spec/.  In a statement about
`exec`, `s` is the machine after the instruction's bytes were fetched, so that `s.cpu.pc` is the address of
the next sequential instruction (spec/10_state.md R22), and `exec` leaves in `cyclesRemaining` the whole
length of the window (spec/40_addressing_modes.md R67). -/

namespace Sys2Proof.Claims

open Sys2Proof.Machine

/-! Flags: what a status byte `q` keeps of `p`. -/

/-- N and Z are those of `v`; the other six flags are those of `p` (R15). -/
def SetsNZ (p q v : Byte) : Prop :=
  flagN q = v.getLsbD 7 ∧ (flagZ q = true ↔ v.toNat = 0) ∧ flagC q = flagC p ∧ flagI q = flagI p ∧
  flagD q = flagD p ∧ flagB q = flagB p ∧ flagU q = flagU p ∧ flagV q = flagV p

/-- C is `c`, N and Z are those of `v`; the other five flags are those of `p`. -/
def SetsCNZ (p q : Byte) (c : Bool) (v : Byte) : Prop :=
  flagC q = c ∧ flagN q = v.getLsbD 7 ∧ (flagZ q = true ↔ v.toNat = 0) ∧ flagI q = flagI p ∧
  flagD q = flagD p ∧ flagB q = flagB p ∧ flagU q = flagU p ∧ flagV q = flagV p

/-- C, Z, I, D, V and N are those of `m`, B is 0 and U is 1 (R32). -/
def Pulled (m q : Byte) : Prop :=
  flagC q = flagC m ∧ flagZ q = flagZ m ∧ flagI q = flagI m ∧ flagD q = flagD m ∧ flagB q = false ∧
  flagU q = true ∧ flagV q = flagV m ∧ flagN q = flagN m

/-- I is set; the other seven flags are those of `p`. -/
def SetsI (p q : Byte) : Prop :=
  flagI q = true ∧ flagC q = flagC p ∧ flagZ q = flagZ p ∧ flagD q = flagD p ∧ flagB q = flagB p ∧
  flagU q = flagU p ∧ flagV q = flagV p ∧ flagN q = flagN p

/-! Memory and devices: what a state `t` keeps of `s`. -/

/-- Every byte reads the same: CPU RAM and the cartridge's space, the nametables, the palette, OAM and CHR
memory. -/
def SameMemory (s t : State) : Prop :=
  (∀ a, IsMemory a → peek t a = peek s a) ∧
  (∀ n, readCell t.ppu.vram n = readCell s.ppu.vram n) ∧
  (∀ n, readCell t.ppu.palette n = readCell s.ppu.palette n) ∧
  (∀ n, readCell t.ppu.oam n = readCell s.ppu.oam n) ∧
  (∀ n, readCell t.cart.chr n = readCell s.cart.chr n)

/-- Everything outside the CPU is the same, but for what the last tick returned. -/
def SameDevices (s t : State) : Prop :=
  t.bus = s.bus ∧ t.ppu = s.ppu ∧ t.apu = s.apu ∧ t.cart = s.cart ∧ t.params = s.params ∧
  t.draws = s.draws ∧ t.samples = s.samples ∧ t.deviceWrites = s.deviceWrites

/-- Everything outside the CPU and CPU RAM is the same, but for what the last tick returned. -/
def SameButRam (s t : State) : Prop :=
  t.bus = { s.bus with ram := t.bus.ram } ∧ t.ppu = s.ppu ∧ t.apu = s.apu ∧ t.cart = s.cart ∧
  t.params = s.params ∧ t.draws = s.draws ∧ t.samples = s.samples ∧ t.deviceWrites = s.deviceWrites

/-- Two CPU addresses of the same byte of CPU RAM (R41). -/
def RamAlias (a b : Word) : Prop :=
  a.toNat ≤ 0x1FFF ∧ b.toNat ≤ 0x1FFF ∧ a.toNat % 0x800 = b.toNat % 0x800

/-- The listed bytes were stored in CPU RAM at the listed addresses, and every other byte of CPU RAM and of
the cartridge's space reads as before. -/
def Wrote (s t : State) (bytes : List (Word × Byte)) : Prop :=
  ∀ b, IsMemory b →
    (∀ av ∈ bytes, RamAlias av.1 b → peek t b = av.2) ∧
    ((∀ av ∈ bytes, ¬ RamAlias av.1 b) → peek t b = peek s b)

/-- The CPU's writes to devices after a write of `v` to `a`, newest first: the registers of the PPU, the APU and
the controllers, OAM DMA, and the cartridge, from 0x6000 on, are devices (spec/61_bus.md R179,
spec/60_exceptions.md R164, the opening of spec/64_cartridge.md).  That the model keeps them as a list, and counts
PRG RAM among the devices, is its choice (log entry 19). -/
def PutOut (a : Word) (v : Byte) (s : State) : List (Word × Byte) :=
  if (0x2000 ≤ a.toNat ∧ a.toNat ≤ 0x4017) ∨ 0x6000 ≤ a.toNat then (a, v) :: s.deviceWrites
  else s.deviceWrites

/-- What a store of the byte `v` to the CPU address `a` does to memory: the byte itself where `a` is CPU RAM
or PRG RAM, and no other byte but those of a PPU memory that `a` is the port of (OAMDATA, PPUDATA, OAM
DMA).  PRG ROM is never written, and neither are CPU RAM and PRG RAM by a store elsewhere.  A store to a
device is put out, and no other (spec/61_bus.md R179; which addresses are devices is log entry 19). -/
def Stored (a : Word) (v : Byte) (s t : State) : Prop :=
  t.deviceWrites = PutOut a v s ∧
  (a.toNat ≤ 0x1FFF → Wrote s t [(a, v)]) ∧
  (0x6000 ≤ a.toNat → a.toNat ≤ 0x7FFF → ∀ b, IsMemory b → peek t b = if b = a then v else peek s b) ∧
  (0x2000 ≤ a.toNat → ∀ n, readCell t.bus.ram n = readCell s.bus.ram n) ∧
  (a.toNat < 0x6000 ∨ 0x7FFF < a.toNat → ∀ n, readCell t.cart.prgRam n = readCell s.cart.prgRam n) ∧
  (∀ n, readCell t.cart.prg n = readCell s.cart.prg n) ∧
  (a.toNat < 0x2000 ∨ 0x3FFF < a.toNat ∨ a.toNat % 8 ≠ 7 →
    (∀ n, readCell t.ppu.vram n = readCell s.ppu.vram n) ∧
    (∀ n, readCell t.ppu.palette n = readCell s.ppu.palette n) ∧
    (∀ n, readCell t.cart.chr n = readCell s.cart.chr n)) ∧
  ((a.toNat < 0x2000 ∨ 0x3FFF < a.toNat ∨ a.toNat % 8 ≠ 4) → a.toNat ≠ 0x4014 →
    ∀ n, readCell t.ppu.oam n = readCell s.ppu.oam n)

/-! How an instruction of each shape completes.  Each says that `exec` answers a next state, which one, and
what is left as it was: of the CPU everything that is not named, the devices but for the one access made at
the operand's address, and every byte of memory but the one stored. -/

/-- A register instruction: the CPU becomes `cpu` with a status of the given kind, in `n` cycles. -/
def CompletesRegs (i : Instr) (s : State) (cpu : Cpu) (n : Nat) (status : Byte → Prop) : Prop :=
  ∃ t, exec i s = .next t ∧ t.cpu = { cpu with p := t.cpu.p, cyclesRemaining := n } ∧ status t.cpu.p ∧
    SameDevices s t ∧ SameMemory s t ∧ t.retired = s.retired

/-- A read instruction: with the operand `v`, the CPU becomes `cpu v` with a status of the given kind.  An
immediate operand is the instruction's byte; any other is read once on the bus at the located address, with
the read's side effect, if any, on the devices (spec/40_addressing_modes.md R66, R70). -/
def CompletesRead (i : Instr) (src : Source) (s : State) (cpu : Byte → Cpu) (status : Byte → Byte → Prop) :
    Prop :=
  ∃ t, exec i s = .next t ∧ SameMemory s t ∧ t.retired = s.retired ∧
    match src with
    | .imm b =>
      t.cpu = { cpu b with p := t.cpu.p, cyclesRemaining := readCycles (.imm b) false } ∧
      status b t.cpu.p ∧ SameDevices s t
    | .mem m =>
      t.cpu =
        { cpu (busRead (locate m s).1.ea (locate m s).2).1 with
          p := t.cpu.p, ea := (locate m s).1.ea
          cyclesRemaining := readCycles (.mem m) (locate m s).1.crossed } ∧
      status (busRead (locate m s).1.ea (locate m s).2).1 t.cpu.p ∧
      SameDevices (busRead (locate m s).1.ea (locate m s).2).2 t

/-- A store instruction: the byte `v` is written once on the bus, at the located address, and the CPU is to stall
as that write makes it (OAM DMA, spec/61_bus.md R172), and not otherwise. -/
def CompletesStore (i : Instr) (m : MemOperand) (s : State) (v : Byte) : Prop :=
  ∃ t, exec i s = .next t ∧
    t.cpu =
      { s.cpu with
        ea := (locate m s).1.ea
        stallRemaining := (busWrite (locate m s).1.ea v (locate m s).2).cpu.stallRemaining
        cyclesRemaining := storeCycles m } ∧
    ((locate m s).1.ea.toNat ≠ 0x4014 → t.cpu.stallRemaining = s.cpu.stallRemaining) ∧
    SameDevices (busWrite (locate m s).1.ea v (locate m s).2) t ∧ Stored (locate m s).1.ea v s t ∧
    t.retired = s.retired

/-- A read-modify-write of memory: one read and then one write of `f` of the byte read, at the located
address; `status` relates the old byte to the new status, and the CPU is to stall as the write makes it. -/
def CompletesModify (i : Instr) (m : MemOperand) (s : State) (f : Byte → Byte)
    (status : Byte → Byte → Prop) : Prop :=
  ∃ t, exec i s = .next t ∧
    t.cpu =
      { s.cpu with
        p := t.cpu.p, ea := (locate m s).1.ea
        stallRemaining :=
          (busWrite (locate m s).1.ea (f (busRead (locate m s).1.ea (locate m s).2).1)
            (busRead (locate m s).1.ea (locate m s).2).2).cpu.stallRemaining
        cyclesRemaining := modifyCycles (.mem m) } ∧
    status (busRead (locate m s).1.ea (locate m s).2).1 t.cpu.p ∧
    ((locate m s).1.ea.toNat ≠ 0x4014 → t.cpu.stallRemaining = s.cpu.stallRemaining) ∧
    SameDevices
      (busWrite (locate m s).1.ea (f (busRead (locate m s).1.ea (locate m s).2).1)
        (busRead (locate m s).1.ea (locate m s).2).2) t ∧
    Stored (locate m s).1.ea (f (busRead (locate m s).1.ea (locate m s).2).1) s t ∧
    t.retired = s.retired

/-- A branch: taken, PC moves by the signed offset modulo 0x10000, in 3 cycles, or 4 where the target is in
another page than the next instruction; not taken, PC stays and 2 cycles pass. -/
def CompletesBranch (i : Instr) (taken : Bool) (offset : Byte) (s : State) : Prop :=
  ∃ t, exec i s = .next t ∧
    t.cpu = { s.cpu with pc := t.cpu.pc, cyclesRemaining := t.cpu.cyclesRemaining } ∧
    (taken = true →
      (t.cpu.pc.toNat : Int) = ((s.cpu.pc.toNat : Int) + offset.toInt) % 0x10000 ∧
      t.cpu.cyclesRemaining = if t.cpu.pc.toNat / 256 = s.cpu.pc.toNat / 256 then 3 else 4) ∧
    (taken = false → t.cpu.pc = s.cpu.pc ∧ t.cpu.cyclesRemaining = 2) ∧
    SameDevices s t ∧ SameMemory s t ∧ t.retired = s.retired

/-! The encodings and cycle counts a rule lists (R61). -/

/-- The eight modes of the accumulator's read instructions. -/
def AccReadEncodings (i : Source → Instr) (imm zp zpx abs abx aby izx izy : Byte) : Prop :=
  ∀ (b : Byte) (w : Word),
    encode (i (.imm b)) = [imm, b] ∧ encode (i (.mem (.zp b))) = [zp, b] ∧
    encode (i (.mem (.zpx b))) = [zpx, b] ∧ encode (i (.mem (.abs w))) = [abs, loByte w, hiByte w] ∧
    encode (i (.mem (.abx w))) = [abx, loByte w, hiByte w] ∧
    encode (i (.mem (.aby w))) = [aby, loByte w, hiByte w] ∧
    encode (i (.mem (.izx b))) = [izx, b] ∧ encode (i (.mem (.izy b))) = [izy, b]

/-- The cycles of a read by mode; `c` is the page cross. -/
def ReadCosts : Prop :=
  ∀ (b : Byte) (w : Word) (c : Bool),
    readCycles (.imm b) c = 2 ∧ readCycles (.mem (.zp b)) c = 3 ∧ readCycles (.mem (.zpx b)) c = 4 ∧
    readCycles (.mem (.zpy b)) c = 4 ∧ readCycles (.mem (.abs w)) c = 4 ∧
    readCycles (.mem (.abx w)) c = 4 + c.toNat ∧ readCycles (.mem (.aby w)) c = 4 + c.toNat ∧
    readCycles (.mem (.izx b)) c = 6 ∧ readCycles (.mem (.izy b)) c = 5 + c.toNat

/-- The cycles of a store by mode. -/
def StoreCosts : Prop :=
  ∀ (b : Byte) (w : Word),
    storeCycles (.zp b) = 3 ∧ storeCycles (.zpx b) = 4 ∧ storeCycles (.zpy b) = 4 ∧
    storeCycles (.abs w) = 4 ∧ storeCycles (.abx w) = 5 ∧ storeCycles (.aby w) = 5 ∧
    storeCycles (.izx b) = 6 ∧ storeCycles (.izy b) = 6

/-- The cycles of a read-modify-write by mode. -/
def ModifyCosts : Prop :=
  ∀ (b : Byte) (w : Word),
    modifyCycles .acc = 2 ∧ modifyCycles (.mem (.zp b)) = 5 ∧ modifyCycles (.mem (.zpx b)) = 6 ∧
    modifyCycles (.mem (.abs w)) = 6 ∧ modifyCycles (.mem (.abx w)) = 7

/-- The four memory modes of the read-modify-write instructions. -/
def ModifyEncodings (i : MemOperand → Instr) (zp zpx abs abx : Byte) : Prop :=
  ∀ (b : Byte) (w : Word),
    encode (i (.zp b)) = [zp, b] ∧ encode (i (.zpx b)) = [zpx, b] ∧
    encode (i (.abs w)) = [abs, loByte w, hiByte w] ∧ encode (i (.abx w)) = [abx, loByte w, hiByte w]

/-- The three modes of CPX and CPY. -/
def PlainReadEncodings (i : Source → Instr) (imm zp abs : Byte) : Prop :=
  ∀ (b : Byte) (w : Word),
    encode (i (.imm b)) = [imm, b] ∧ encode (i (.mem (.zp b))) = [zp, b] ∧
    encode (i (.mem (.abs w))) = [abs, loByte w, hiByte w]

/-! The step. -/

/-- The CPU is at a boundary at which it fetches an instruction: no window, stall or NMI, and no IRQ it
would take (R150, R158). -/
def AtFetch (s : State) : Prop :=
  s.cpu.cyclesRemaining = 0 ∧ s.cpu.stallRemaining = 0 ∧ s.cpu.nmiPending = false ∧
  (s.cpu.irqPending = true → flagI s.cpu.p = true)

/-- The machine after the bytes of `i` have been fetched at PC: a queued IRQ that was not taken is dropped,
and, unless the opcode is unlisted, the opcode is latched and PC is past the instruction (R150, R151). -/
def afterFetch (i : Instr) (s : State) : State :=
  if unlistedOpcodes.contains i.opcode then { s with cpu := { s.cpu with irqPending := false } }
  else
    { s with cpu := { s.cpu with
      irqPending := false, opcode := i.opcode, pc := s.cpu.pc + BitVec.ofNat 16 i.length } }

/-- `w` is `v` with coarse-X stepped, the carry flipping nametable-X (spec/62_ppu.md R198). -/
def CoarseXStep (v w : BitVec 15) : Prop :=
  (coarseX w).toNat = ((coarseX v).toNat + 1) % 32 ∧
  w.getLsbD 10 = (v.getLsbD 10 != decide ((coarseX v).toNat = 31)) ∧
  coarseY w = coarseY v ∧ w.getLsbD 11 = v.getLsbD 11 ∧ fineY w = fineY v

/-- `w` is `v` with fine-Y stepped, the carry stepping coarse-Y, which wraps after row 29, flipping
nametable-Y, and after row 31 (spec/62_ppu.md R198). -/
def RowStep (v w : BitVec 15) : Prop :=
  (fineY w).toNat = ((fineY v).toNat + 1) % 8 ∧
  ((fineY v).toNat ≠ 7 → coarseY w = coarseY v ∧ w.getLsbD 11 = v.getLsbD 11) ∧
  ((fineY v).toNat = 7 →
    (coarseY w).toNat = (if (coarseY v).toNat = 29 then 0 else ((coarseY v).toNat + 1) % 32) ∧
    w.getLsbD 11 = (v.getLsbD 11 != decide ((coarseY v).toNat = 29))) ∧
  coarseX w = coarseX v ∧ w.getLsbD 10 = v.getLsbD 10

/-- The state after `n` reads of a CPU address. -/
def afterReads (addr : Word) : Nat → State → State
  | 0, s => s
  | n + 1, s => (busRead addr (afterReads addr n s)).2

/-- `f` applied `n` times. -/
def times {α : Type} (f : α → α) : Nat → α → α
  | 0, x => x
  | n + 1, x => f (times f n x)

/-! The APU's units (spec/63_apu.md sections 3 to 5). -/

/-- A CPU write of `d` to the APU register `a` turns the APU into `u`, is put out, and does nothing else
(spec/61_bus.md R179; that the model keeps what is put out is log entry 19). -/
def ApuAfter (a : Word) (d : Byte) (s : State) (u : Apu) : Prop :=
  busWrite a d s = { s with apu := u, deviceWrites := (a, d) :: s.deviceWrites }

/-- The length counter's table (R207). -/
def lengths : List Nat :=
  [10, 254, 20, 2, 40, 4, 80, 6, 160, 8, 60, 10, 14, 12, 26, 14,
    12, 16, 24, 18, 48, 20, 96, 22, 192, 24, 72, 26, 16, 28, 32, 30]

/-- The length counter after a write of `d` to the register that loads it, if the channel is enabled. -/
def lengthAfter (enabled : Bool) (length d : Byte) : Byte :=
  if enabled then BitVec.ofNat 8 (lengths.getD (d.toNat / 8) 0) else length

/-- The four registers of a pulse channel (R208). -/
def pulseAfter (reg : Nat) (p : Pulse) (d : Byte) : Pulse :=
  if reg = 0 then
    { p with
      duty := BitVec.ofNat 2 (d.toNat / 64), halt := d.getLsbD 5
      env := { p.env with constant := d.getLsbD 4, volume := BitVec.ofNat 4 (d.toNat % 16) } }
  else if reg = 1 then
    { p with
      swEnabled := d.getLsbD 7, swPeriod := BitVec.ofNat 3 (d.toNat / 16 % 8)
      swNegate := d.getLsbD 3, swShift := BitVec.ofNat 3 (d.toNat % 8), swReload := true }
  else if reg = 2 then { p with period := BitVec.ofNat 11 (p.period.toNat / 256 * 256 + d.toNat) }
  else
    { p with
      period := BitVec.ofNat 11 (d.toNat % 8 * 256 + p.period.toNat % 256)
      length := lengthAfter p.enabled p.length d, seq := 0, env := { p.env with start := true } }

/-- An envelope clocked once, with loop flag `halt` (R218). -/
def EnvelopeStep (halt : Bool) (e f : Envelope) : Prop :=
  f.constant = e.constant ∧ f.volume = e.volume ∧ f.start = false ∧
  (e.start = true → f.decay.toNat = 15 ∧ f.divider = e.volume) ∧
  (e.start = false → e.divider.toNat = 0 →
    f.divider = e.volume ∧
    f.decay.toNat = if e.decay.toNat ≠ 0 then e.decay.toNat - 1 else if halt then 15 else 0) ∧
  (e.start = false → e.divider.toNat ≠ 0 → f.divider.toNat = e.divider.toNat - 1 ∧ f.decay = e.decay)

/-- A length counter clocked once (R219). -/
def LengthStep (halt : Bool) (l m : Byte) : Prop := m.toNat = if halt then l.toNat else l.toNat - 1

/-- The sweep's target period: negated, pulse 1 takes one less than pulse 2 (R221). -/
def sweepAim (first : Bool) (p : Pulse) : Int :=
  if p.swNegate then
    p.period.toNat - (p.period.toNat / 2 ^ p.swShift.toNat : Nat) - (if first then 1 else 0)
  else p.period.toNat + (p.period.toNat / 2 ^ p.swShift.toNat : Nat)

/-- The sweep mutes the channel (R221). -/
def Muted (first : Bool) (p : Pulse) : Prop := p.period.toNat < 8 ∨ 0x7FF < sweepAim first p

/-- A pulse's length counter and sweep, clocked once (R219, R221). -/
def PulseHalfStep (first : Bool) (p q : Pulse) : Prop :=
  q = { p with length := q.length, period := q.period, swDivider := q.swDivider, swReload := q.swReload } ∧
  LengthStep p.halt p.length q.length ∧
  (p.swDivider.toNat = 0 ∧ p.swEnabled = true ∧ p.swShift.toNat ≠ 0 ∧ ¬ Muted first p →
    (q.period.toNat : Int) = sweepAim first p) ∧
  (¬ (p.swDivider.toNat = 0 ∧ p.swEnabled = true ∧ p.swShift.toNat ≠ 0 ∧ ¬ Muted first p) →
    q.period = p.period) ∧
  q.swReload = false ∧
  (p.swDivider.toNat = 0 ∨ p.swReload = true → q.swDivider = p.swPeriod) ∧
  (p.swDivider.toNat ≠ 0 → p.swReload = false → q.swDivider.toNat = p.swDivider.toNat - 1)

/-- A quarter-frame: the three envelopes and the triangle's linear counter (R217, R218, R220). -/
def QuarterStep (a b : Apu) : Prop :=
  b = { a with
    frame := b.frame, pulse1 := { a.pulse1 with env := b.pulse1.env }
    pulse2 := { a.pulse2 with env := b.pulse2.env }, noise := { a.noise with env := b.noise.env }
    triangle := { a.triangle with
      linCounter := b.triangle.linCounter, linReload := b.triangle.linReload } } ∧
  EnvelopeStep a.pulse1.halt a.pulse1.env b.pulse1.env ∧
  EnvelopeStep a.pulse2.halt a.pulse2.env b.pulse2.env ∧
  EnvelopeStep a.noise.halt a.noise.env b.noise.env ∧
  b.triangle.linCounter.toNat =
    (if a.triangle.linReload then a.triangle.linReloadValue.toNat else a.triangle.linCounter.toNat - 1) ∧
  b.triangle.linReload = (a.triangle.linReload && a.triangle.control)

/-- A half-frame: the four length counters and the two sweeps (R217, R219, R221). -/
def HalfStep (a b : Apu) : Prop :=
  b = { a with
    frame := b.frame, pulse1 := b.pulse1, pulse2 := b.pulse2
    triangle := { a.triangle with length := b.triangle.length }
    noise := { a.noise with length := b.noise.length } } ∧
  PulseHalfStep true a.pulse1 b.pulse1 ∧ PulseHalfStep false a.pulse2 b.pulse2 ∧
  LengthStep a.triangle.control a.triangle.length b.triangle.length ∧
  LengthStep a.noise.halt a.noise.length b.noise.length

/-- What an envelope puts out (R218). -/
def envelopeLevel (e : Envelope) : Nat := if e.constant then e.volume.toNat else e.decay.toNat

/-- The steps of the four duties (R207). -/
def duties : List (List Nat) :=
  [[0, 1, 0, 0, 0, 0, 0, 0], [0, 1, 1, 0, 0, 0, 0, 0], [0, 1, 1, 1, 1, 0, 0, 0], [1, 0, 0, 1, 1, 1, 1, 1]]

/-- A pulse channel puts out 0 where one of the four silencing conditions holds, and else its envelope (R222). -/
def PulsePutsOut (first : Bool) (p : Pulse) (out : Nat) : Prop :=
  let silent : Prop :=
    p.period.toNat < 8 ∨ p.length.toNat = 0 ∨ Muted first p ∨
      (duties.getD p.duty.toNat []).getD p.seq.toNat 0 = 0
  (silent → out = 0) ∧ (¬ silent → out = envelopeLevel p.env)

/-- MMC1 after a list of control writes to one address. -/
def mmc1Writes (addr : Word) : List Byte → Cartridge → Cartridge
  | [], c => c
  | d :: rest, c => mmc1Writes addr rest (controlWrite c addr d)

end Sys2Proof.Claims

open Sys2Proof Sys2Proof.Machine Sys2Proof.Claims

/-! Encoding and decoding. -/

/-- Every well-formed instruction, with every operand, decodes from its own bytes, whatever follows them
(spec/30_encoding.md R57 to R61, R64). -/
def Obligations.DecodeOfEncode : Prop :=
  ∀ (i : Instr) (rest : List Byte), i.wf = true → decode (encode i ++ rest) = .ok (i, rest)

/-- Whatever the decoder accepts is a well-formed instruction, and the bytes it consumed are that
instruction's encoding and no other's (spec/30_encoding.md R57, R64). -/
def Obligations.EncodeOfDecode : Prop :=
  ∀ (bytes : List Byte) (i : Instr) (rest : List Byte),
    decode bytes = .ok (i, rest) → i.wf = true ∧ bytes = encode i ++ rest

/-- The decoder gives an unlisted instruction for exactly the 77 opcodes of spec/30_encoding.md R63, whatever
bytes follow; the 28 unofficial opcodes are distinct and disjoint from them.  The classes rest on the spec's
decisions D5 and D6. -/
def Obligations.OpcodeClasses : Prop :=
  (∀ op b1 b2, decodeOp op b1 b2 = .unlisted op ↔ op ∈ unlistedOpcodes) ∧
  unlistedOpcodes.length = 77 ∧
  (nopImpOpcodes ++ nopImmOpcodes ++ nopZpOpcodes ++ nopZpxOpcodes ++ [0x0C] ++ nopAbxOpcodes ++
    [0xEB]).length = 28 ∧
  (unlistedOpcodes ++ nopImpOpcodes ++ nopImmOpcodes ++ nopZpOpcodes ++ nopZpxOpcodes ++ [0x0C] ++
    nopAbxOpcodes ++ [0xEB]).Nodup

/-- Words written out from the opcode map, one or two a family, decode to what they stand for
(spec/30_encoding.md R61; the bytes of the examples of R82, R85, R99, R104, R117, R128, R129, R146). -/
def Obligations.SampleWordsDecode : Prop :=
  decode [0xA9, 0x80] = .ok (.lda (.imm 0x80), []) ∧
  decode [0x9D, 0x00, 0x02] = .ok (.sta (.abx 0x0200), []) ∧
  decode [0xAA] = .ok (.tax, []) ∧
  decode [0x48] = .ok (.pha, []) ∧
  decode [0x69, 0x50] = .ok (.adc (.imm 0x50), []) ∧
  decode [0x24, 0x10] = .ok (.bit (.zp 0x10), []) ∧
  decode [0xE6, 0x10] = .ok (.inc (.zp 0x10), []) ∧
  decode [0x6A] = .ok (.ror .acc, []) ∧
  decode [0xD0, 0x80] = .ok (.bne 0x80, []) ∧
  decode [0x6C, 0xFF, 0x02] = .ok (.jmp (.ind 0x02FF), []) ∧
  decode [0x20, 0x00, 0x90] = .ok (.jsr 0x9000, []) ∧
  decode [0x78] = .ok (.sei, []) ∧
  decode [0x1C, 0xFF, 0x00] = .ok (.nopAbx 0x1C 0x00FF, []) ∧
  decode [0xEB, 0x01] = .ok (.sbcAlias 0x01, []) ∧
  decode [0x02] = .ok (.unlisted 0x02, [])

/-! The step. -/

/-- A step is one CPU cycle inside the tick: with no refusal recorded it runs `clock` on the machine after the tick's
dots and NMI check, whatever kind of cycle it is (a window's, a stall's, an NMI's or IRQ's entry, a fetch), and then
the rest of the tick.  At a fetching boundary that cycle runs the instruction the bytes at PC decode to: `exec` on
the machine after the fetch, and then the cycle is counted.  A recorded refusal ends the tick there
(spec/60_exceptions.md R150, R151, R158, spec/61_bus.md R169).  That the tick ends with a recorded refusal is the
model's reading (log entry 13). -/
def Obligations.StepRunsDecodedInstruction : Prop :=
  (∀ s : State,
    s.cpu.refused = none →
    step s =
      match clock (tickBefore s) with
      | .next t => if t.cpu.refused.isSome then .next t else .next (tickAfter t)
      | .fault f => .fault f
      | .refused r => .refused r) ∧
  ∀ (s : State) (i : Instr) (rest : List Byte),
    s.cpu.refused = none → AtFetch (tickBefore s) →
    (∀ k, k < i.length → IsMemory ((tickBefore s).cpu.pc + BitVec.ofNat 16 k)) →
    decode [peek (tickBefore s) (tickBefore s).cpu.pc, peek (tickBefore s) ((tickBefore s).cpu.pc + 1),
      peek (tickBefore s) ((tickBefore s).cpu.pc + 2)] = .ok (i, rest) →
    step s =
      match exec i (afterFetch i (tickBefore s)) with
      | .next t =>
        if t.cpu.refused.isSome then .next { t with retired := false } else .next (tickAfter (countCycle t))
      | .fault f => .fault f
      | .refused r => .refused r

/-- A step is refused exactly when an unlisted opcode has been recorded, and is refused with that opcode and
its address; in every other state it answers a next state.  No step faults (spec/60_exceptions.md R151, R155;
that the CPU stops there is the spec's decision D6).  R151 gives the CPU's `clock()` no further step; that the
whole step, which is a bus tick, is then refused is the model's reading, log entry 13. -/
def Obligations.StepStopsOnlyOnRefusalMark : Prop :=
  ∀ s : State,
    (∀ m, s.cpu.refused = some m → step s = .refused (.unlistedOpcode m.opcode m.address)) ∧
    (s.cpu.refused = none → ∃ t, step s = .next t)

/-- An unlisted opcode records its opcode and address, PC stays at the opcode, and nothing else changes but
the drop of a masked IRQ request, which comes before the fetch; the next step is refused
(spec/46_flags_nop.md R148, spec/60_exceptions.md R150, R151; the spec's decision D6, log entry 13). -/
def Obligations.UnlistedOpcodeRefuses : Prop :=
  (∀ (op : Byte) (s : State),
    ∃ t, exec (.unlisted op) s = .next t ∧
      t = { s with cpu := { s.cpu with refused := some { opcode := op, address := s.cpu.pc } } }) ∧
  (∀ (s : State) (op : Byte),
    s.cpu.refused = none → AtFetch (tickBefore s) → IsMemory (tickBefore s).cpu.pc →
    peek (tickBefore s) (tickBefore s).cpu.pc = op → op ∈ unlistedOpcodes →
    ∃ t, step s = .next t ∧
      t.cpu =
        { (tickBefore s).cpu with
          irqPending := false, refused := some { opcode := op, address := (tickBefore s).cpu.pc } } ∧
      SameDevices (tickBefore s) t ∧ SameMemory (tickBefore s) t ∧ t.retired = false ∧
      step t = .refused (.unlistedOpcode op (tickBefore s).cpu.pc))

/-- With no refusal recorded, inside a window a CPU cycle only counts down, and reports a retired instruction on
the cycle that ends the window; at a boundary with a stall pending it serves one stall cycle, whatever interrupt
is pending, and reports none (spec/60_exceptions.md R150, R158, the spec's decisions D9 and D23). -/
def Obligations.WindowAndStallCycles : Prop :=
  ∀ s : State,
    s.cpu.refused = none →
    (s.cpu.cyclesRemaining ≠ 0 →
      ∃ t, clock s = .next t ∧
        t.cpu =
          { s.cpu with
            cyclesRemaining := s.cpu.cyclesRemaining - 1, totalCycles := s.cpu.totalCycles + 1 } ∧
        SameDevices s t ∧ (t.retired = true ↔ s.cpu.cyclesRemaining = 1)) ∧
    (s.cpu.cyclesRemaining = 0 → s.cpu.stallRemaining ≠ 0 →
      ∃ t, clock s = .next t ∧
        t.cpu =
          { s.cpu with
            stallRemaining := s.cpu.stallRemaining - 1, totalCycles := s.cpu.totalCycles + 1 } ∧
        SameDevices s t ∧ t.retired = false)

/-- NMI entry, at a boundary with an NMI pending, no stall and no refusal recorded, whatever I is and whatever IRQ
is pending: PC, high byte first, and the status with B clear and U set are pushed, SP falls by three, I is set, PC
is the word at 0xFFFA (low byte) and 0xFFFB, and the window is eight cycles, of which this is the first
(spec/60_exceptions.md R152, R153; the byte order of the vector is the spec's decision D1). -/
def Obligations.NmiTaken : Prop :=
  ∀ s : State,
    s.cpu.refused = none → s.cpu.cyclesRemaining = 0 → s.cpu.stallRemaining = 0 → s.cpu.nmiPending = true →
    ∃ t, clock s = .next t ∧
      t.cpu =
        { s.cpu with
          nmiPending := false, sp := s.cpu.sp - 3, p := t.cpu.p
          pc := mkWord (peek s 0xFFFB) (peek s 0xFFFA)
          cyclesRemaining := 7, totalCycles := s.cpu.totalCycles + 1 } ∧
      SetsI s.cpu.p t.cpu.p ∧
      Wrote s t
        [(stackAddr s.cpu.sp, hiByte s.cpu.pc), (stackAddr (s.cpu.sp - 1), loByte s.cpu.pc),
          (stackAddr (s.cpu.sp - 2), (s.cpu.p &&& 0xEF) ||| 0x20)] ∧
      SameButRam s t ∧ t.retired = false

/-- IRQ entry, at a boundary with an IRQ pending, I clear, no stall, no NMI and no refusal recorded: as NMI entry,
through the vector at 0xFFFE and 0xFFFF, in `IRQ_ENTRY_CYCLES` cycles (spec/60_exceptions.md R152, R154; the
parameter is the spec's decision D7, log entry 6). -/
def Obligations.IrqTaken : Prop :=
  ∀ s : State,
    s.cpu.refused = none → s.cpu.cyclesRemaining = 0 → s.cpu.stallRemaining = 0 → s.cpu.nmiPending = false →
    s.cpu.irqPending = true → flagI s.cpu.p = false →
    ∃ t, clock s = .next t ∧
      t.cpu =
        { s.cpu with
          irqPending := false, sp := s.cpu.sp - 3, p := t.cpu.p
          pc := mkWord (peek s 0xFFFF) (peek s 0xFFFE)
          cyclesRemaining := s.params.irqEntryCycles - 1, totalCycles := s.cpu.totalCycles + 1 } ∧
      SetsI s.cpu.p t.cpu.p ∧
      Wrote s t
        [(stackAddr s.cpu.sp, hiByte s.cpu.pc), (stackAddr (s.cpu.sp - 1), loByte s.cpu.pc),
          (stackAddr (s.cpu.sp - 2), (s.cpu.p &&& 0xEF) ||| 0x20)] ∧
      SameButRam s t

/-- The PPU's NMI edge is consumed and queues an NMI; an asserted IRQ source queues an IRQ exactly when I is
clear, and the check changes no source.  Neither check does anything else (spec/61_bus.md R170, R171). -/
def Obligations.InterruptRequestsQueued : Prop :=
  ∀ s : State,
    (nmiCheck s).cpu = { s.cpu with nmiPending := s.cpu.nmiPending || s.ppu.nmiEdge } ∧
    (nmiCheck s).ppu = { s.ppu with nmiEdge := false } ∧
    nmiCheck s = { s with cpu := (nmiCheck s).cpu, ppu := (nmiCheck s).ppu } ∧
    irqCheck s = { s with cpu := (irqCheck s).cpu } ∧
    (irqCheck s).cpu =
      { s.cpu with
        irqPending :=
          s.cpu.irqPending || ((s.apu.frame.irq || s.apu.dmc.irq || cartIrq s.cart) && !flagI s.cpu.p) } ∧
    SameDevices s (irqCheck s)

/-! Loads, stores and transfers. -/

/-- LDA, LDX and LDY complete in every state with every operand: the register takes the operand, and N and Z are
its.  An immediate operand is the instruction's byte; any other is read once on the bus at its located address, so
that a read with a side effect has it once.  No other register or flag and no byte of memory changes
(spec/41_load_store_transfer.md R82 to R84). -/
def Obligations.LoadResult : Prop :=
  ReadCosts ∧ AccReadEncodings .lda 0xA9 0xA5 0xB5 0xAD 0xBD 0xB9 0xA1 0xB1 ∧
  (∀ (b : Byte) (w : Word),
    encode (.ldx (.imm b)) = [0xA2, b] ∧ encode (.ldx (.mem (.zp b))) = [0xA6, b] ∧
    encode (.ldx (.mem (.zpy b))) = [0xB6, b] ∧
    encode (.ldx (.mem (.abs w))) = [0xAE, loByte w, hiByte w] ∧
    encode (.ldx (.mem (.aby w))) = [0xBE, loByte w, hiByte w] ∧
    encode (.ldy (.imm b)) = [0xA0, b] ∧ encode (.ldy (.mem (.zp b))) = [0xA4, b] ∧
    encode (.ldy (.mem (.zpx b))) = [0xB4, b] ∧
    encode (.ldy (.mem (.abs w))) = [0xAC, loByte w, hiByte w] ∧
    encode (.ldy (.mem (.abx w))) = [0xBC, loByte w, hiByte w]) ∧
  ∀ (src : Source) (s : State),
    CompletesRead (.lda src) src s (fun v => { s.cpu with a := v }) (fun v q => SetsNZ s.cpu.p q v) ∧
    CompletesRead (.ldx src) src s (fun v => { s.cpu with x := v }) (fun v q => SetsNZ s.cpu.p q v) ∧
    CompletesRead (.ldy src) src s (fun v => { s.cpu with y := v }) (fun v q => SetsNZ s.cpu.p q v)

/-- STA, STX and STY: one write at the located address, with the stall of a write to OAMDMA; no flag changes
(spec/41_load_store_transfer.md R85 to R87, spec/61_bus.md R172).  Where the address is a device's the write is put out
(spec/61_bus.md R179); that this is a list of the model, and that PRG RAM, which R85's list of the device registers
leaves out, counts as the cartridge's, is the model's choice (log entry 19). -/
def Obligations.StoreResult : Prop :=
  StoreCosts ∧
  (∀ (b : Byte) (w : Word),
    encode (.sta (.zp b)) = [0x85, b] ∧ encode (.sta (.zpx b)) = [0x95, b] ∧
    encode (.sta (.abs w)) = [0x8D, loByte w, hiByte w] ∧
    encode (.sta (.abx w)) = [0x9D, loByte w, hiByte w] ∧
    encode (.sta (.aby w)) = [0x99, loByte w, hiByte w] ∧
    encode (.sta (.izx b)) = [0x81, b] ∧ encode (.sta (.izy b)) = [0x91, b] ∧
    encode (.stx (.zp b)) = [0x86, b] ∧ encode (.stx (.zpy b)) = [0x96, b] ∧
    encode (.stx (.abs w)) = [0x8E, loByte w, hiByte w] ∧
    encode (.sty (.zp b)) = [0x84, b] ∧ encode (.sty (.zpx b)) = [0x94, b] ∧
    encode (.sty (.abs w)) = [0x8C, loByte w, hiByte w]) ∧
  ∀ (m : MemOperand) (s : State),
    CompletesStore (.sta m) m s s.cpu.a ∧ CompletesStore (.stx m) m s s.cpu.x ∧
    CompletesStore (.sty m) m s s.cpu.y

/-- TAX, TAY, TXA, TYA, TSX and TXS; TXS alone sets no flag (spec/41_load_store_transfer.md R88 to R93). -/
def Obligations.TransferResult : Prop :=
  encode .tax = [0xAA] ∧ encode .tay = [0xA8] ∧ encode .txa = [0x8A] ∧ encode .tya = [0x98] ∧
  encode .tsx = [0xBA] ∧ encode .txs = [0x9A] ∧
  ∀ s : State,
    CompletesRegs .tax s { s.cpu with x := s.cpu.a } 2 (fun q => SetsNZ s.cpu.p q s.cpu.a) ∧
    CompletesRegs .tay s { s.cpu with y := s.cpu.a } 2 (fun q => SetsNZ s.cpu.p q s.cpu.a) ∧
    CompletesRegs .txa s { s.cpu with a := s.cpu.x } 2 (fun q => SetsNZ s.cpu.p q s.cpu.x) ∧
    CompletesRegs .tya s { s.cpu with a := s.cpu.y } 2 (fun q => SetsNZ s.cpu.p q s.cpu.y) ∧
    CompletesRegs .tsx s { s.cpu with x := s.cpu.sp } 2 (fun q => SetsNZ s.cpu.p q s.cpu.sp) ∧
    CompletesRegs .txs s { s.cpu with sp := s.cpu.x } 2 (fun q => q = s.cpu.p)

/-! The stack. -/

/-- PHA and PLA: the byte is stored at 0x0100 + SP, SP wraps modulo 256, and a pull reads after the increment
(spec/42_stack.md R94, R96). -/
def Obligations.AccumulatorPushPull : Prop :=
  encode .pha = [0x48] ∧ encode .pla = [0x68] ∧
  ∀ s : State,
    (∃ t, exec .pha s = .next t ∧ t.cpu = { s.cpu with sp := t.cpu.sp, cyclesRemaining := 3 } ∧
      t.cpu.sp.toNat = (s.cpu.sp.toNat + 255) % 256 ∧
      Wrote s t [(BitVec.ofNat 16 (0x0100 + s.cpu.sp.toNat), s.cpu.a)] ∧ SameButRam s t ∧
      t.retired = s.retired) ∧
    (∃ t, exec .pla s = .next t ∧
      t.cpu = { s.cpu with a := t.cpu.a, sp := t.cpu.sp, p := t.cpu.p, cyclesRemaining := 4 } ∧
      t.cpu.sp.toNat = (s.cpu.sp.toNat + 1) % 256 ∧
      t.cpu.a = peek s (BitVec.ofNat 16 (0x0100 + t.cpu.sp.toNat)) ∧ SetsNZ s.cpu.p t.cpu.p t.cpu.a ∧
      SameDevices s t ∧ SameMemory s t ∧ t.retired = s.retired)

/-- PHP pushes the status with B and U set and changes no flag; PLP loads C, Z, I, D, V and N from the pulled
byte, with B clear and U set (spec/42_stack.md R95, R97; what PHP pushes and PLP loads is the spec's decision
D11). -/
def Obligations.StatusPushPull : Prop :=
  encode .php = [0x08] ∧ encode .plp = [0x28] ∧
  ∀ s : State,
    (∃ t, exec .php s = .next t ∧ t.cpu = { s.cpu with sp := s.cpu.sp - 1, cyclesRemaining := 3 } ∧
      Wrote s t [(stackAddr s.cpu.sp, s.cpu.p ||| 0x30)] ∧ SameButRam s t ∧ t.retired = s.retired) ∧
    (∃ t, exec .plp s = .next t ∧
      t.cpu = { s.cpu with sp := s.cpu.sp + 1, p := t.cpu.p, cyclesRemaining := 4 } ∧
      Pulled (peek s (stackAddr (s.cpu.sp + 1))) t.cpu.p ∧ SameDevices s t ∧ SameMemory s t ∧
      t.retired = s.retired)

/-! Arithmetic, logic and compare. -/

/-- ADC, SBC and SBC's alias 0xEB.  With C the carry in, ADC's result is `A + m + C` reduced modulo 256 and C
out is bit 8 of the sum; SBC's result is `A - m - (1 - C)` modulo 256 and C out is 1 when there is no borrow.
V is set when the signed result lies outside -128..127.  D has no effect (spec/43_arith_logic.md R99, R100,
spec/46_flags_nop.md R147). -/
def Obligations.AddSubtractResult : Prop :=
  ReadCosts ∧ AccReadEncodings .adc 0x69 0x65 0x75 0x6D 0x7D 0x79 0x61 0x71 ∧
  AccReadEncodings .sbc 0xE9 0xE5 0xF5 0xED 0xFD 0xF9 0xE1 0xF1 ∧
  (∀ m, encode (.sbcAlias m) = [0xEB, m]) ∧
  ∀ s : State, ∃ add sub : Byte → Byte,
    (∀ m, (add m).toNat = (s.cpu.a.toNat + m.toNat + (flagC s.cpu.p).toNat) % 256) ∧
    (∀ m, ((sub m).toNat : Int) =
      ((s.cpu.a.toNat : Int) - m.toNat - (1 - (flagC s.cpu.p).toNat)) % 256) ∧
    (∀ src, CompletesRead (.adc src) src s (fun m => { s.cpu with a := add m })
      (fun m q =>
        SetsCNZ (putV s.cpu.p (flagV q)) q
          (decide (0xFF < s.cpu.a.toNat + m.toNat + (flagC s.cpu.p).toNat)) (add m) ∧
        (flagV q = true ↔
          s.cpu.a.toInt + m.toInt + (flagC s.cpu.p).toNat < -128 ∨
          127 < s.cpu.a.toInt + m.toInt + (flagC s.cpu.p).toNat) ∧
        flagV q = decide (((s.cpu.a ^^^ add m) &&& (m ^^^ add m) &&& 0x80) ≠ 0))) ∧
    (∀ i src, (i = .sbc src ∨ ∃ m, i = .sbcAlias m ∧ src = .imm m) →
      CompletesRead i src s (fun m => { s.cpu with a := sub m })
        (fun m q =>
          SetsCNZ (putV s.cpu.p (flagV q)) q
            (decide (m.toNat + 1 ≤ s.cpu.a.toNat + (flagC s.cpu.p).toNat)) (sub m) ∧
          (flagV q = true ↔
            s.cpu.a.toInt - m.toInt - (1 - (flagC s.cpu.p).toNat) < -128 ∨
            127 < s.cpu.a.toInt - m.toInt - (1 - (flagC s.cpu.p).toNat)) ∧
          flagV q = decide (((s.cpu.a ^^^ sub m) &&& ((m ^^^ 0xFF) ^^^ sub m) &&& 0x80) ≠ 0)))

/-- AND, ORA and EOR, bit by bit; C and V are unchanged (spec/43_arith_logic.md R101 to R103). -/
def Obligations.LogicResult : Prop :=
  ReadCosts ∧ AccReadEncodings .and 0x29 0x25 0x35 0x2D 0x3D 0x39 0x21 0x31 ∧
  AccReadEncodings .ora 0x09 0x05 0x15 0x0D 0x1D 0x19 0x01 0x11 ∧
  AccReadEncodings .eor 0x49 0x45 0x55 0x4D 0x5D 0x59 0x41 0x51 ∧
  ∀ s : State, ∃ conj disj excl : Byte → Byte,
    (∀ m k, k < 8 → (conj m).getLsbD k = (s.cpu.a.getLsbD k && m.getLsbD k)) ∧
    (∀ m k, k < 8 → (disj m).getLsbD k = (s.cpu.a.getLsbD k || m.getLsbD k)) ∧
    (∀ m k, k < 8 → (excl m).getLsbD k = (s.cpu.a.getLsbD k != m.getLsbD k)) ∧
    ∀ src,
      CompletesRead (.and src) src s (fun m => { s.cpu with a := conj m })
        (fun m q => SetsNZ s.cpu.p q (conj m)) ∧
      CompletesRead (.ora src) src s (fun m => { s.cpu with a := disj m })
        (fun m q => SetsNZ s.cpu.p q (disj m)) ∧
      CompletesRead (.eor src) src s (fun m => { s.cpu with a := excl m })
        (fun m q => SetsNZ s.cpu.p q (excl m))

/-- BIT: Z from `A & m`, N and V from bits 7 and 6 of `m`; no register is written
(spec/43_arith_logic.md R104). -/
def Obligations.BitResult : Prop :=
  ReadCosts ∧
  (∀ (b : Byte) (w : Word),
    encode (.bit (.zp b)) = [0x24, b] ∧ encode (.bit (.abs w)) = [0x2C, loByte w, hiByte w]) ∧
  ∀ (o : MemOperand) (s : State),
    CompletesRead (.bit o) (.mem o) s (fun _ => s.cpu)
      (fun m q =>
        (flagZ q = true ↔ ∀ k, k < 8 → ¬(s.cpu.a.getLsbD k = true ∧ m.getLsbD k = true)) ∧
        flagN q = m.getLsbD 7 ∧ flagV q = m.getLsbD 6 ∧ flagC q = flagC s.cpu.p ∧
        flagI q = flagI s.cpu.p ∧ flagD q = flagD s.cpu.p ∧ flagB q = flagB s.cpu.p ∧
        flagU q = flagU s.cpu.p)

/-- CMP, CPX and CPY: C is the unsigned comparison, Z equality, N bit 7 of the difference modulo 256; V and
the registers are unchanged (spec/43_arith_logic.md R105 to R107). -/
def Obligations.CompareResult : Prop :=
  ReadCosts ∧ AccReadEncodings .cmp 0xC9 0xC5 0xD5 0xCD 0xDD 0xD9 0xC1 0xD1 ∧
  PlainReadEncodings .cpx 0xE0 0xE4 0xEC ∧ PlainReadEncodings .cpy 0xC0 0xC4 0xCC ∧
  ∀ (src : Source) (s : State), ∃ diff : Byte → Byte → Byte,
    (∀ r m, ((diff r m).toNat : Int) = ((r.toNat : Int) - m.toNat) % 256) ∧
    CompletesRead (.cmp src) src s (fun _ => s.cpu)
      (fun m q => SetsCNZ s.cpu.p q (decide (m.toNat ≤ s.cpu.a.toNat)) (diff s.cpu.a m)) ∧
    CompletesRead (.cpx src) src s (fun _ => s.cpu)
      (fun m q => SetsCNZ s.cpu.p q (decide (m.toNat ≤ s.cpu.x.toNat)) (diff s.cpu.x m)) ∧
    CompletesRead (.cpy src) src s (fun _ => s.cpu)
      (fun m q => SetsCNZ s.cpu.p q (decide (m.toNat ≤ s.cpu.y.toNat)) (diff s.cpu.y m))

/-! Increment, decrement, shift and rotate. -/

/-- INC and DEC: one read and one write at the same address; C and V unchanged
(spec/44_incdec_shift.md R108, R109).  Where the address is a device's the write is put out (spec/61_bus.md R179);
that this is a list of the model, with PRG RAM among the devices, is the model's choice (log entry 19). -/
def Obligations.MemoryIncrementDecrement : Prop :=
  ModifyCosts ∧ ModifyEncodings .inc 0xE6 0xF6 0xEE 0xFE ∧ ModifyEncodings .dec 0xC6 0xD6 0xCE 0xDE ∧
  ∃ up down : Byte → Byte,
    (∀ v, (up v).toNat = (v.toNat + 1) % 256) ∧ (∀ v, (down v).toNat = (v.toNat + 255) % 256) ∧
    ∀ (m : MemOperand) (s : State),
      CompletesModify (.inc m) m s up (fun v q => SetsNZ s.cpu.p q (up v)) ∧
      CompletesModify (.dec m) m s down (fun v q => SetsNZ s.cpu.p q (down v))

/-- INX, INY, DEX and DEY (spec/44_incdec_shift.md R110 to R113). -/
def Obligations.RegisterIncrementDecrement : Prop :=
  encode .inx = [0xE8] ∧ encode .iny = [0xC8] ∧ encode .dex = [0xCA] ∧ encode .dey = [0x88] ∧
  ∃ up down : Byte → Byte,
    (∀ v, (up v).toNat = (v.toNat + 1) % 256) ∧ (∀ v, (down v).toNat = (v.toNat + 255) % 256) ∧
    ∀ s : State,
      CompletesRegs .inx s { s.cpu with x := up s.cpu.x } 2 (fun q => SetsNZ s.cpu.p q (up s.cpu.x)) ∧
      CompletesRegs .iny s { s.cpu with y := up s.cpu.y } 2 (fun q => SetsNZ s.cpu.p q (up s.cpu.y)) ∧
      CompletesRegs .dex s { s.cpu with x := down s.cpu.x } 2
        (fun q => SetsNZ s.cpu.p q (down s.cpu.x)) ∧
      CompletesRegs .dey s { s.cpu with y := down s.cpu.y } 2 (fun q => SetsNZ s.cpu.p q (down s.cpu.y))

/-- ASL, LSR, ROL and ROR, on the accumulator and on memory: with `c` the carry in, the results are
`2 v`, `v / 2`, `2 v + c` and `v / 2 + 128 c` modulo 256, C is the bit shifted out, V is unchanged
(spec/44_incdec_shift.md R114 to R117).  Where the address is a device's the write is put out (spec/61_bus.md R179);
that this is a list of the model, with PRG RAM among the devices, is the model's choice (log entry 19). -/
def Obligations.ShiftRotateResult : Prop :=
  ModifyCosts ∧ encode (.asl .acc) = [0x0A] ∧ encode (.lsr .acc) = [0x4A] ∧ encode (.rol .acc) = [0x2A] ∧
  encode (.ror .acc) = [0x6A] ∧ ModifyEncodings (fun m => .asl (.mem m)) 0x06 0x16 0x0E 0x1E ∧
  ModifyEncodings (fun m => .lsr (.mem m)) 0x46 0x56 0x4E 0x5E ∧
  ModifyEncodings (fun m => .rol (.mem m)) 0x26 0x36 0x2E 0x3E ∧
  ModifyEncodings (fun m => .ror (.mem m)) 0x66 0x76 0x6E 0x7E ∧
  ∃ left right : Bool → Byte → Byte,
    (∀ c v, (left c v).toNat = (2 * v.toNat + c.toNat) % 256) ∧
    (∀ c v, (right c v).toNat = v.toNat / 2 + 128 * c.toNat) ∧
    ∀ s : State,
      (∀ i f, (i = Instr.asl ∧ f = left false) ∨ (i = Instr.rol ∧ f = left (flagC s.cpu.p)) →
        CompletesRegs (i .acc) s { s.cpu with a := f s.cpu.a } 2
          (fun q => SetsCNZ s.cpu.p q (s.cpu.a.getLsbD 7) (f s.cpu.a)) ∧
        ∀ m, CompletesModify (i (.mem m)) m s f
          (fun v q => SetsCNZ s.cpu.p q (v.getLsbD 7) (f v))) ∧
      (∀ i f, (i = Instr.lsr ∧ f = right false) ∨ (i = Instr.ror ∧ f = right (flagC s.cpu.p)) →
        CompletesRegs (i .acc) s { s.cpu with a := f s.cpu.a } 2
          (fun q => SetsCNZ s.cpu.p q (s.cpu.a.getLsbD 0) (f s.cpu.a)) ∧
        ∀ m, CompletesModify (i (.mem m)) m s f
          (fun v q => SetsCNZ s.cpu.p q (v.getLsbD 0) (f v)))

/-! Control transfer. -/

/-- The eight branches (spec/45_control_transfer.md R118 to R127). -/
def Obligations.BranchResult : Prop :=
  ∀ (o : Byte) (s : State),
    encode (.bpl o) = [0x10, o] ∧ encode (.bmi o) = [0x30, o] ∧ encode (.bvc o) = [0x50, o] ∧
    encode (.bvs o) = [0x70, o] ∧ encode (.bcc o) = [0x90, o] ∧ encode (.bcs o) = [0xB0, o] ∧
    encode (.bne o) = [0xD0, o] ∧ encode (.beq o) = [0xF0, o] ∧
    CompletesBranch (.bpl o) (!flagN s.cpu.p) o s ∧ CompletesBranch (.bmi o) (flagN s.cpu.p) o s ∧
    CompletesBranch (.bvc o) (!flagV s.cpu.p) o s ∧ CompletesBranch (.bvs o) (flagV s.cpu.p) o s ∧
    CompletesBranch (.bcc o) (!flagC s.cpu.p) o s ∧ CompletesBranch (.bcs o) (flagC s.cpu.p) o s ∧
    CompletesBranch (.bne o) (!flagZ s.cpu.p) o s ∧ CompletesBranch (.beq o) (flagZ s.cpu.p) o s

/-- JMP: absolute, or through a pointer whose second byte is read in the pointer's own page; no flag and no
other register changes (spec/45_control_transfer.md R128, spec/40_addressing_modes.md R78). -/
def Obligations.JumpResult : Prop :=
  ∀ (w : Word) (s : State),
    encode (.jmp (.abs w)) = [0x4C, loByte w, hiByte w] ∧
    encode (.jmp (.ind w)) = [0x6C, loByte w, hiByte w] ∧
    CompletesRegs (.jmp (.abs w)) s { s.cpu with pc := w, ea := w } 3 (fun q => q = s.cpu.p) ∧
    ∃ lo hi u1 u2 t,
      busRead w s = (lo, u1) ∧ busRead (mkWord (hiByte w) (loByte w + 1)) u1 = (hi, u2) ∧
      exec (.jmp (.ind w)) s = .next t ∧
      t.cpu = { s.cpu with pc := mkWord hi lo, ea := mkWord hi lo, cyclesRemaining := 5 } ∧
      SameDevices u2 t ∧ SameMemory s t ∧ t.retired = s.retired

/-- JSR pushes the address of its last byte, high byte first, and jumps; RTS pulls a word and returns to the
address after it (spec/45_control_transfer.md R129, R130). -/
def Obligations.CallReturnResult : Prop :=
  ∀ (w : Word) (s : State),
    encode (.jsr w) = [0x20, loByte w, hiByte w] ∧ encode .rts = [0x60] ∧
    (∃ t, exec (.jsr w) s = .next t ∧
      t.cpu = { s.cpu with sp := s.cpu.sp - 2, pc := w, ea := w, cyclesRemaining := 6 } ∧
      Wrote s t
        [(stackAddr s.cpu.sp, hiByte (s.cpu.pc - 1)), (stackAddr (s.cpu.sp - 1), loByte (s.cpu.pc - 1))] ∧
      SameButRam s t ∧ t.retired = s.retired) ∧
    (∃ t, exec .rts s = .next t ∧
      t.cpu = { s.cpu with sp := s.cpu.sp + 2, pc := t.cpu.pc, cyclesRemaining := 6 } ∧
      t.cpu.pc.toNat =
        (256 * (peek s (stackAddr (s.cpu.sp + 2))).toNat + (peek s (stackAddr (s.cpu.sp + 1))).toNat + 1) %
          0x10000 ∧
      SameDevices s t ∧ SameMemory s t ∧ t.retired = s.retired)

/-- BRK: the padding byte is skipped, PC and the status with B and U set are pushed, I is set and PC is the
word at 0xFFFE (low byte) and 0xFFFF, whatever I was (spec/45_control_transfer.md R131, the spec's decision
D10). -/
def Obligations.BrkResult : Prop :=
  encode .brk = [0x00] ∧
  ∀ s : State,
    ∃ t, exec .brk s = .next t ∧
      t.cpu =
        { s.cpu with
          sp := s.cpu.sp - 3, p := t.cpu.p, pc := mkWord (peek s 0xFFFF) (peek s 0xFFFE)
          cyclesRemaining := 7 } ∧
      SetsI s.cpu.p t.cpu.p ∧
      Wrote s t
        [(stackAddr s.cpu.sp, hiByte (s.cpu.pc + 1)), (stackAddr (s.cpu.sp - 1), loByte (s.cpu.pc + 1)),
          (stackAddr (s.cpu.sp - 2), s.cpu.p ||| 0x30)] ∧
      SameButRam s t ∧ t.retired = s.retired

/-- RTI: the status is pulled, with B clear and U set, and then PC, low byte first, with no increment; the
stack may hold anything (spec/45_control_transfer.md R132, spec/60_exceptions.md R159). -/
def Obligations.RtiResult : Prop :=
  encode .rti = [0x40] ∧
  ∀ s : State,
    ∃ t, exec .rti s = .next t ∧
      t.cpu =
        { s.cpu with
          sp := s.cpu.sp + 3, p := t.cpu.p, cyclesRemaining := 6
          pc := mkWord (peek s (stackAddr (s.cpu.sp + 3))) (peek s (stackAddr (s.cpu.sp + 2))) } ∧
      Pulled (peek s (stackAddr (s.cpu.sp + 1))) t.cpu.p ∧ SameDevices s t ∧ SameMemory s t ∧
      t.retired = s.retired

/-- A subroutine called and left at once returns to the instruction after the call with every register and
flag as it was, wherever SP stands (spec/45_control_transfer.md R129, R130). -/
def Obligations.RtsReturnsFromJsr : Prop :=
  ∀ (w : Word) (s : State),
    ∃ t u, exec (.jsr w) s = .next t ∧ exec .rts t = .next u ∧
      u.cpu = { s.cpu with ea := u.cpu.ea, cyclesRemaining := u.cpu.cyclesRemaining } ∧ SameButRam s u

/-- A handler that returns at once from BRK resumes past the padding byte with every register and flag as it
was, but that B reads 0 and U reads 1, wherever SP stands (spec/45_control_transfer.md R131, R132,
spec/60_exceptions.md R159). -/
def Obligations.RtiReturnsFromBrk : Prop :=
  ∀ s : State,
    ∃ t u, exec .brk s = .next t ∧ exec .rti t = .next u ∧
      u.cpu =
        { s.cpu with
          pc := s.cpu.pc + 1, p := u.cpu.p, ea := u.cpu.ea
          cyclesRemaining := u.cpu.cyclesRemaining } ∧
      Pulled s.cpu.p u.cpu.p ∧ SameButRam s u

/-! Flags and NOPs. -/

/-- CLC, SEC, CLV, CLD and SED write their one flag, and the official NOP writes nothing
(spec/46_flags_nop.md sections 1 and 2; all of R133 and R140). -/
def Obligations.FlagInstructionResult : Prop :=
  encode .clc = [0x18] ∧ encode .sec = [0x38] ∧ encode .clv = [0xB8] ∧ encode .cld = [0xD8] ∧
  encode .sed = [0xF8] ∧ encode .nop = [0xEA] ∧
  ∀ s : State,
    (∀ i b, (i = .clc ∧ b = false) ∨ (i = .sec ∧ b = true) →
      CompletesRegs i s s.cpu 2 (fun q =>
        flagC q = b ∧ flagZ q = flagZ s.cpu.p ∧ flagI q = flagI s.cpu.p ∧ flagD q = flagD s.cpu.p ∧
        flagB q = flagB s.cpu.p ∧ flagU q = flagU s.cpu.p ∧ flagV q = flagV s.cpu.p ∧
        flagN q = flagN s.cpu.p)) ∧
    CompletesRegs .clv s s.cpu 2 (fun q =>
      flagV q = false ∧ flagC q = flagC s.cpu.p ∧ flagZ q = flagZ s.cpu.p ∧ flagI q = flagI s.cpu.p ∧
      flagD q = flagD s.cpu.p ∧ flagB q = flagB s.cpu.p ∧ flagU q = flagU s.cpu.p ∧
      flagN q = flagN s.cpu.p) ∧
    (∀ i b, (i = .cld ∧ b = false) ∨ (i = .sed ∧ b = true) →
      CompletesRegs i s s.cpu 2 (fun q =>
        flagD q = b ∧ flagC q = flagC s.cpu.p ∧ flagZ q = flagZ s.cpu.p ∧ flagI q = flagI s.cpu.p ∧
        flagB q = flagB s.cpu.p ∧ flagU q = flagU s.cpu.p ∧ flagV q = flagV s.cpu.p ∧
        flagN q = flagN s.cpu.p)) ∧
    CompletesRegs .nop s s.cpu 2 (fun q => q = s.cpu.p)

/-- CLI and SEI write I alone, at once: after CLI an asserted IRQ source, be it the frame sequencer's, the DMC's or
the mapper's, is queued by the IRQ check of the same tick, and after SEI none is (spec/46_flags_nop.md R135,
R136, spec/61_bus.md R171; that there is no delay is the spec's decision D22, and the drop of masked requests
D8).  The frame sequencer's flag is asked to come with the DMC reading memory, which every state between ticks
does (InvariantKeptByStep): a DMC read of 0x4015 would acknowledge it first. -/
def Obligations.InterruptDisableResult : Prop :=
  encode .cli = [0x58] ∧ encode .sei = [0x78] ∧
  ∀ s : State,
    (∀ i b, (i = .cli ∧ b = false) ∨ (i = .sei ∧ b = true) →
      CompletesRegs i s s.cpu 2 (fun q =>
        flagI q = b ∧ flagC q = flagC s.cpu.p ∧ flagZ q = flagZ s.cpu.p ∧ flagD q = flagD s.cpu.p ∧
        flagB q = flagB s.cpu.p ∧ flagU q = flagU s.cpu.p ∧ flagV q = flagV s.cpu.p ∧
        flagN q = flagN s.cpu.p)) ∧
    (s.apu.dmc.irq = true ∨ (∃ m, s.cart.mapper = .mmc3 m ∧ m.irqLine = true) ∨
        (s.apu.frame.irq = true ∧ DmcReadsMemory s.apu.dmc) →
      ∃ t, exec .cli s = .next t ∧ (tickAfter (countCycle t)).cpu.irqPending = true) ∧
    (s.cpu.irqPending = false →
      ∃ t, exec .sei s = .next t ∧ (tickAfter (countCycle t)).cpu.irqPending = false)

/-- The unofficial NOPs fetch their operand bytes and read no memory: of the machine only the latched address
changes, which no program observes (spec/46_flags_nop.md R141 to R146; modes and costs are the spec's decision
D5). -/
def Obligations.UnofficialNopResult : Prop :=
  ∀ (op b : Byte) (w : Word) (s : State),
    encode (.nopImp op) = [op] ∧ encode (.nopImm op b) = [op, b] ∧ encode (.nopZp op b) = [op, b] ∧
    encode (.nopZpx op b) = [op, b] ∧ encode (.nopAbs w) = [0x0C, loByte w, hiByte w] ∧
    encode (.nopAbx op w) = [op, loByte w, hiByte w] ∧
    CompletesRegs (.nopImp op) s s.cpu 2 (fun q => q = s.cpu.p) ∧
    CompletesRegs (.nopImm op b) s s.cpu 2 (fun q => q = s.cpu.p) ∧
    (∃ ea, CompletesRegs (.nopZp op b) s { s.cpu with ea } 3 (fun q => q = s.cpu.p)) ∧
    (∃ ea, CompletesRegs (.nopZpx op b) s { s.cpu with ea } 4 (fun q => q = s.cpu.p)) ∧
    (∃ ea, CompletesRegs (.nopAbs w) s { s.cpu with ea } 4 (fun q => q = s.cpu.p)) ∧
    (∃ ea, CompletesRegs (.nopAbx op w) s { s.cpu with ea }
      (if (w.toNat + s.cpu.x.toNat) % 0x10000 / 256 = w.toNat / 256 then 4 else 5) (fun q => q = s.cpu.p))

/-! Addressing and the bus. -/

/-- The effective address and the page-cross bit of every mode, with the wraps of each; locating an operand
changes only the latched address (spec/40_addressing_modes.md R71 to R73, R75 to R77, R79, R80). -/
def Obligations.EffectiveAddresses : Prop :=
  ∀ (b : Byte) (w : Word) (s : State),
    let ram (n : Nat) : Nat := (readCell s.bus.ram n).toNat
    let x := s.cpu.x.toNat
    let y := s.cpu.y.toNat
    let base := ram b.toNat + 256 * ram ((b.toNat + 1) % 256)
    (∀ m, (locate m s).2 = { s with cpu := { s.cpu with ea := (locate m s).1.ea } }) ∧
    ((locate (.zp b) s).1.ea.toNat = b.toNat ∧ (locate (.zp b) s).1.crossed = false) ∧
    ((locate (.zpx b) s).1.ea.toNat = (b.toNat + x) % 256 ∧ (locate (.zpx b) s).1.crossed = false) ∧
    ((locate (.zpy b) s).1.ea.toNat = (b.toNat + y) % 256 ∧ (locate (.zpy b) s).1.crossed = false) ∧
    ((locate (.abs w) s).1.ea = w ∧ (locate (.abs w) s).1.crossed = false) ∧
    ((locate (.abx w) s).1.ea.toNat = (w.toNat + x) % 0x10000 ∧
      ((locate (.abx w) s).1.crossed = true ↔ (w.toNat + x) % 0x10000 / 256 ≠ w.toNat / 256)) ∧
    ((locate (.aby w) s).1.ea.toNat = (w.toNat + y) % 0x10000 ∧
      ((locate (.aby w) s).1.crossed = true ↔ (w.toNat + y) % 0x10000 / 256 ≠ w.toNat / 256)) ∧
    ((locate (.izx b) s).1.ea.toNat = ram ((b.toNat + x) % 256) + 256 * ram ((b.toNat + x + 1) % 256) ∧
      (locate (.izx b) s).1.crossed = false) ∧
    ((locate (.izy b) s).1.ea.toNat = (base + y) % 0x10000 ∧
      ((locate (.izy b) s).1.crossed = true ↔ (base + y) % 0x10000 / 256 ≠ base / 256))

/-- A byte stored in CPU RAM is read at each of its four addresses, with no other effect of the read, and the
store changes no other byte; a bus reset keeps it (spec/20_memory.md R41). -/
def Obligations.RamMirrored : Prop :=
  ∀ (a b : Word) (v : Byte) (s : State),
    a.toNat ≤ 0x1FFF →
    Wrote s (busWrite a v s) [(a, v)] ∧ SameButRam s (busWrite a v s) ∧ (busWrite a v s).cpu = s.cpu ∧
    (RamAlias a b →
      busRead b (busWrite a v s) = (v, busWrite a v s) ∧
      (busRead b (busReset (busWrite a v s))).1 = v)

/-- A read of a write-only register or of an address that is nobody's gives 0x00 and changes nothing; a write to
an address that is nobody's changes nothing, and one to PPUSTATUS nothing but that it is put out.  A write is put
out exactly where the address is a device's: 0x2000 to 0x4017, or the cartridge's, 0x6000 to 0xFFFF
(spec/20_memory.md R40, spec/62_ppu.md section 3, spec/61_bus.md R179, spec/60_exceptions.md R164, the opening of
spec/64_cartridge.md; the spec's decision D19; that the model keeps the list, and counts PRG RAM among the devices, is
log entry 19). -/
def Obligations.UnmappedAccesses : Prop :=
  ∀ (a : Word) (v : Byte) (s : State),
    ((0x2000 ≤ a.toNat ∧ a.toNat ≤ 0x3FFF ∧
        (a.toNat % 8 = 0 ∨ a.toNat % 8 = 1 ∨ a.toNat % 8 = 3 ∨ a.toNat % 8 = 5 ∨ a.toNat % 8 = 6)) ∨
      (0x4000 ≤ a.toNat ∧ a.toNat ≤ 0x4014) ∨ (0x4018 ≤ a.toNat ∧ a.toNat ≤ 0x5FFF) →
      busRead a s = (0x00, s)) ∧
    (0x4018 ≤ a.toNat ∧ a.toNat ≤ 0x5FFF → busWrite a v s = s) ∧
    (0x2000 ≤ a.toNat ∧ a.toNat ≤ 0x3FFF ∧ a.toNat % 8 = 2 →
      busWrite a v s = { s with deviceWrites := (a, v) :: s.deviceWrites }) ∧
    (busWrite a v s).deviceWrites = PutOut a v s

/-- The reads with a side effect, with the value each returns and all that it changes: PPUSTATUS clears vblank and
the write toggle, 0x4015 clears the frame IRQ flag and no other, and 0x4016 and 0x4017 shift their port with the
strobe low, and with the strobe high latch both ports anew and keep the latch; with a Zapper, 0x4017 has its bits
as well.  Every other read outside PPUDATA changes nothing (spec/20_memory.md R48, spec/62_ppu.md R187,
spec/63_apu.md R213, spec/61_bus.md R174 to R176, the spec's decision D62).  Bits 4..0 of PPUSTATUS, the buttons,
the aim and the trigger are draws, each taken at the next number (D20, D58, D59, log entries 7 to 9), and the
colours a parameter (D36, log entry 10): the statement holds for every value of them. -/
def Obligations.ReadSideEffects : Prop :=
  ∀ (a : Word) (s : State),
    let latched : Bus :=
      { s.bus with shift1 := Config.buttons1 s.draws, shift2 := Config.buttons2 s.draws }
    (0x2000 ≤ a.toNat → a.toNat ≤ 0x3FFF → a.toNat % 8 = 2 →
      (busRead a s).1.getLsbD 7 = s.ppu.vblank ∧ (busRead a s).1.getLsbD 6 = s.ppu.sprite0Hit ∧
      (busRead a s).1.getLsbD 5 = s.ppu.spriteOverflow ∧
      (∀ k, k < 5 → (busRead a s).1.getLsbD k = (Config.busLatch s.draws).getLsbD k) ∧
      (busRead a s).2 =
        { s with ppu := { s.ppu with vblank := false, w := false }, draws := s.draws + 1 }) ∧
    (a.toNat = 0x4015 →
      (busRead a s).1.getLsbD 7 = s.apu.dmc.irq ∧ (busRead a s).1.getLsbD 6 = s.apu.frame.irq ∧
      (busRead a s).1.getLsbD 5 = false ∧
      ((busRead a s).1.getLsbD 4 = true ↔ s.apu.dmc.remaining.toNat ≠ 0) ∧
      ((busRead a s).1.getLsbD 3 = true ↔ s.apu.noise.length.toNat ≠ 0) ∧
      ((busRead a s).1.getLsbD 2 = true ↔ s.apu.triangle.length.toNat ≠ 0) ∧
      ((busRead a s).1.getLsbD 1 = true ↔ s.apu.pulse2.length.toNat ≠ 0) ∧
      ((busRead a s).1.getLsbD 0 = true ↔ s.apu.pulse1.length.toNat ≠ 0) ∧
      (busRead a s).2 = { s with apu := { s.apu with frame := { s.apu.frame with irq := false } } }) ∧
    (a.toNat = 0x4016 → s.bus.strobe = false →
      (busRead a s).1 = (if s.bus.shift1.getLsbD 0 then 0x01 else 0x00) ∧
      (busRead a s).2 = { s with bus := { s.bus with shift1 := (s.bus.shift1 >>> 1) ||| 0x80 } }) ∧
    (a.toNat = 0x4017 → s.bus.strobe = false → s.params.zapperPresent = false →
      (busRead a s).1 = (if s.bus.shift2.getLsbD 0 then 0x01 else 0x00) ∧
      (busRead a s).2 = { s with bus := { s.bus with shift2 := (s.bus.shift2 >>> 1) ||| 0x80 } }) ∧
    (a.toNat = 0x4016 → s.bus.strobe = true →
      (busRead a s).1 = (if (Config.buttons1 s.draws).getLsbD 0 then 0x01 else 0x00) ∧
      (busRead a s).2 = { s with bus := latched, draws := s.draws + 1 }) ∧
    (a.toNat = 0x4017 → s.bus.strobe = true → s.params.zapperPresent = false →
      (busRead a s).1 = (if (Config.buttons2 s.draws).getLsbD 0 then 0x01 else 0x00) ∧
      (busRead a s).2 = { s with bus := latched, draws := s.draws + 1 }) ∧
    (a.toNat = 0x4017 → s.params.zapperPresent = true →
      let n := if s.bus.strobe then s.draws + 1 else s.draws
      let x := (Config.zapperAim n).1
      let y := (Config.zapperAim n).2
      let colour := Config.paletteRgb (readCell s.ppu.framebuffer (y.toNat * 256 + x.toNat))
      let light : Prop :=
        0 ≤ x ∧ x < 256 ∧ 0 ≤ y ∧ y < 240 ∧
          180000 ≤ 299 * colour.r.toNat + 587 * colour.g.toNat + 114 * colour.b.toNat
      (busRead a s).1.toNat =
        (if s.bus.strobe then Config.buttons2 s.draws else s.bus.shift2).toNat % 2 +
          (if light then 0 else 8) + (if Config.zapperPressed n then 0 else 16) ∧
      (busRead a s).2 =
        { s with
          bus :=
            if s.bus.strobe then latched
            else { s.bus with shift2 := (s.bus.shift2 >>> 1) ||| 0x80 }
          draws := n + 1 }) ∧
    ((a.toNat < 0x2000 ∨ 0x3FFF < a.toNat ∨ (a.toNat % 8 ≠ 2 ∧ a.toNat % 8 ≠ 7)) →
      a.toNat ≠ 0x4015 → a.toNat ≠ 0x4016 → a.toNat ≠ 0x4017 → (busRead a s).2 = s)

/-- A read with `read_only = true` of any address returns what the CPU's read returns, and changes nothing
(spec/20_memory.md R48). -/
def Obligations.ReadOnlyReadAgrees : Prop :=
  ∀ (a : Word) (s : State), busReadWith true a s = ((busRead a s).1, s)

/-- OAM DMA reads the 256 bytes of the page in turn, each on the bus with its side effects, and stores each in OAM at
OAMADDR, which rises by 1 modulo 256; the CPU is to stall 513 cycles or, on an odd cycle count, 514, the write is put
out, and nothing else changes.  From a page of memory, so, byte `i` of the page goes to OAM byte `OAMADDR + i` modulo
256 and OAMADDR ends where it began (spec/61_bus.md R172, spec/62_ppu.md R194; the spec's decisions D3, D17 and D18;
which cycle count is log entry 26, and the list of what is put out, spec/61_bus.md R179, log entry 19). -/
def Obligations.OamDmaCopiesPage : Prop :=
  (∀ (v : Byte) (s : State),
    ∃ u : Nat → State,
      u 0 = s ∧
      (∀ i, i < 256 →
        let r := busRead (BitVec.ofNat 16 (256 * v.toNat + i)) (u i)
        u (i + 1) =
          { r.2 with ppu := { r.2.ppu with oam := (u (i + 1)).ppu.oam, oamAddr := (u (i + 1)).ppu.oamAddr } } ∧
        (u (i + 1)).ppu.oamAddr.toNat = ((u i).ppu.oamAddr.toNat + 1) % 256 ∧
        ∀ n, readCell (u (i + 1)).ppu.oam n =
          if n = (u i).ppu.oamAddr.toNat then r.1 else readCell (u i).ppu.oam n) ∧
      busWrite 0x4014 v s =
        { u 256 with
          cpu := { s.cpu with
            stallRemaining := s.cpu.stallRemaining + if s.cpu.totalCycles % 2 = 0 then 513 else 514 }
          deviceWrites := (0x4014, v) :: s.deviceWrites }) ∧
  ∀ (v : Byte) (s : State),
    v.toNat < 0x20 ∨ 0x60 ≤ v.toNat →
    (∀ i, i < 256 →
      readCell (busWrite 0x4014 v s).ppu.oam ((s.ppu.oamAddr.toNat + i) % 256) =
        peek s (BitVec.ofNat 16 (256 * v.toNat + i))) ∧
    (busWrite 0x4014 v s).ppu = { s.ppu with oam := (busWrite 0x4014 v s).ppu.oam } ∧
    (busWrite 0x4014 v s).cpu =
      { s.cpu with
        stallRemaining := s.cpu.stallRemaining + if s.cpu.totalCycles % 2 = 0 then 513 else 514 } ∧
    (busWrite 0x4014 v s).bus = s.bus ∧ (busWrite 0x4014 v s).apu = s.apu ∧
    (busWrite 0x4014 v s).cart = s.cart ∧ (busWrite 0x4014 v s).draws = s.draws ∧
    (busWrite 0x4014 v s).params = s.params ∧ (busWrite 0x4014 v s).samples = s.samples ∧
    (busWrite 0x4014 v s).deviceWrites = (0x4014, v) :: s.deviceWrites

/-- After a strobe pulse the first eight reads of 0x4016 give the latched buttons A, B, SELECT, START, UP, DOWN,
LEFT, RIGHT in turn and every later read gives 1; bit 0 of 0x4017 the same for port 2.  With the strobe high
every read gives button A of a fresh latch.  A Zapper adds bits 3 and 4 to a read of 0x4017: 0 in bit 3 where it
aims at a pixel of luminance at least 180 on the screen, and 0 in bit 4 where the trigger is pressed
(spec/61_bus.md R173 to R176, spec/62_ppu.md R196, the spec's decision D62).  The buttons, the aim, the trigger
and the colours are draws or parameters (D36, D58, D59, log entries 8 to 10): the statement holds for every value
of them. -/
def Obligations.ControllerReadsButtons : Prop :=
  ∀ (s : State) (k : Nat),
    let u := busWrite 0x4016 0x00 (busWrite 0x4016 0x01 s)
    (busRead 0x4016 (afterReads 0x4016 k u)).1 =
      (if k < 8 then (if (Config.buttons1 s.draws).getLsbD k then 0x01 else 0x00) else 0x01) ∧
    (busRead 0x4017 (afterReads 0x4017 k u)).1.getLsbD 0 =
      (if k < 8 then (Config.buttons2 s.draws).getLsbD k else true) ∧
    (s.bus.strobe = true →
      (busRead 0x4016 s).1 = (if (Config.buttons1 s.draws).getLsbD 0 then 0x01 else 0x00)) ∧
    (s.params.zapperPresent = true →
      let n := if s.bus.strobe then s.draws + 1 else s.draws
      let x := (Config.zapperAim n).1
      let y := (Config.zapperAim n).2
      let colour := Config.paletteRgb (readCell s.ppu.framebuffer (y.toNat * 256 + x.toNat))
      (busRead 0x4017 s).1.getLsbD 4 = !Config.zapperPressed n ∧
      ((busRead 0x4017 s).1.getLsbD 3 = false ↔
        0 ≤ x ∧ x < 256 ∧ 0 ≤ y ∧ y < 240 ∧
          180000 ≤ 299 * colour.r.toNat + 587 * colour.g.toNat + 114 * colour.b.toNat))

/-! The PPU. -/

/-- What a write to PPUCTRL, PPUMASK, OAMADDR, OAMDATA, PPUSCROLL and PPUADDR does, at every mirror of each, the
last two by the write toggle, and what a read of OAMDATA gives (spec/62_ppu.md R185, R186, R188 to R191,
spec/20_memory.md R42; that OAMADDR and OAMDATA are not disturbed by rendering is the spec's decision D35).  Each
write is put out (spec/61_bus.md R179; the list is log entry 19). -/
def Obligations.ScrollAndAddressWrites : Prop :=
  ∀ (a : Word) (d : Byte) (s : State),
    0x2000 ≤ a.toNat → a.toNat ≤ 0x3FFF →
    let t := busWrite a d s
    let out := (a, d) :: s.deviceWrites
    (a.toNat % 8 = 0 →
      t = { s with ppu := { s.ppu with ctrl := d, t := t.ppu.t }, deviceWrites := out } ∧
      t.ppu.t.toNat =
        s.ppu.t.toNat / 0x1000 * 0x1000 + d.toNat % 4 * 0x400 + s.ppu.t.toNat % 0x400) ∧
    (a.toNat % 8 = 1 → t = { s with ppu := { s.ppu with mask := d }, deviceWrites := out }) ∧
    (a.toNat % 8 = 3 → t = { s with ppu := { s.ppu with oamAddr := d }, deviceWrites := out }) ∧
    (a.toNat % 8 = 4 →
      busRead a s = (readCell s.ppu.oam s.ppu.oamAddr.toNat, s) ∧
      t = { s with
        ppu := { s.ppu with oam := t.ppu.oam, oamAddr := t.ppu.oamAddr }, deviceWrites := out } ∧
      t.ppu.oamAddr.toNat = (s.ppu.oamAddr.toNat + 1) % 256 ∧
      ∀ n, readCell t.ppu.oam n = if n = s.ppu.oamAddr.toNat then d else readCell s.ppu.oam n) ∧
    (a.toNat % 8 = 5 → s.ppu.w = false →
      t = { s with
        ppu := { s.ppu with t := t.ppu.t, fineX := t.ppu.fineX, w := true }, deviceWrites := out } ∧
      (coarseX t.ppu.t).toNat = d.toNat / 8 ∧ t.ppu.fineX.toNat = d.toNat % 8 ∧
      t.ppu.t.toNat / 32 = s.ppu.t.toNat / 32) ∧
    (a.toNat % 8 = 5 → s.ppu.w = true →
      t = { s with ppu := { s.ppu with t := t.ppu.t, w := false }, deviceWrites := out } ∧
      (fineY t.ppu.t).toNat = d.toNat % 8 ∧ (coarseY t.ppu.t).toNat = d.toNat / 8 ∧
      coarseX t.ppu.t = coarseX s.ppu.t ∧ t.ppu.t.getLsbD 10 = s.ppu.t.getLsbD 10 ∧
      t.ppu.t.getLsbD 11 = s.ppu.t.getLsbD 11) ∧
    (a.toNat % 8 = 6 → s.ppu.w = false →
      t = { s with ppu := { s.ppu with t := t.ppu.t, w := true }, deviceWrites := out } ∧
      t.ppu.t.toNat = d.toNat % 64 * 256 + s.ppu.t.toNat % 256) ∧
    (a.toNat % 8 = 6 → s.ppu.w = true →
      t = { s with ppu := { s.ppu with t := t.ppu.t, v := t.ppu.t, w := false }, deviceWrites := out } ∧
      t.ppu.t.toNat = s.ppu.t.toNat / 256 * 256 + d.toNat)

/-- PPUDATA: a read returns the buffer, or the palette byte itself for a palette address, refills the buffer from
`v`, and steps `v` by 1 or 32 modulo 0x8000.  A write is a PPU write of the byte at the low 14 bits of `v`, steps
`v` the same, is put out, and does nothing else; that PPU write stores the byte in the one cell of CHR RAM, of the
nametables or of the palette that the address names, or nowhere where CHR is ROM, and every other cell stays
(spec/62_ppu.md R182 to R184, R192, R193, spec/64_cartridge.md R233, the spec's decisions D30, D35 and D52; what is put
out is spec/61_bus.md R179, and that it is a list log entry 19). -/
def Obligations.PpuDataAccess : Prop :=
  ∀ (a : Word) (d : Byte) (s : State),
    0x2000 ≤ a.toNat → a.toNat ≤ 0x3FFF → a.toNat % 8 = 7 →
    let pa : PpuAddr := BitVec.ofNat 14 s.ppu.v.toNat
    let next : Nat := (s.ppu.v.toNat + if s.ppu.ctrl.getLsbD 2 then 32 else 1) % 0x8000
    let w := ppuWrite s.cart s.ppu pa d
    ((busRead a s).1 = (if 0x3F00 ≤ pa.toNat then ppuRead s.cart s.ppu pa else s.ppu.readBuffer) ∧
      (busRead a s).2 =
        { s with ppu := { s.ppu with
          readBuffer := ppuRead s.cart s.ppu pa, v := (busRead a s).2.ppu.v } } ∧
      (busRead a s).2.ppu.v.toNat = next) ∧
    ((busWrite a d s).ppu.v.toNat = next ∧ (busWrite a d s).ppu.readBuffer = s.ppu.readBuffer ∧
      (busWrite a d s).cpu = s.cpu ∧ (busWrite a d s).bus = s.bus ∧ (busWrite a d s).apu = s.apu ∧
      (0x2000 ≤ pa.toNat ∨ s.cart.chrBanks = 0 →
        ppuRead (busWrite a d s).cart (busWrite a d s).ppu pa = d)) ∧
    (busWrite a d s =
        { s with
          cart := w.1, ppu := { w.2 with v := (busWrite a d s).ppu.v }
          deviceWrites := (a, d) :: s.deviceWrites } ∧
      w.1 = { s.cart with chr := w.1.chr } ∧
      w.2 = { s.ppu with vram := w.2.vram, palette := w.2.palette } ∧
      (∀ n, readCell w.1.chr n =
        if pa.toNat < 0x2000 ∧ s.cart.chrBanks = 0 ∧ n = chrOffset s.cart pa.toNat then d
        else readCell s.cart.chr n) ∧
      (∀ n, readCell w.2.vram n =
        if 0x2000 ≤ pa.toNat ∧ pa.toNat < 0x3F00 ∧ n = ntIndex s.cart.mirror pa then d
        else readCell s.ppu.vram n) ∧
      (∀ n, readCell w.2.palette n =
        if 0x3F00 ≤ pa.toNat ∧ n = palIndex pa then d else readCell s.ppu.palette n))

/-- After a write to a PPU address at or above 0x2000, another such address reads the byte written exactly when it
names the same cell: in the palette, the same address modulo 32, or modulo 16 where both are multiples of 4;
in the nametables, the same offset in a logical nametable on the same page, by the mirror mode.  Every other
address reads as before (spec/62_ppu.md R182 to R184). -/
def Obligations.PpuMemoryAliases : Prop :=
  ∀ (a b : PpuAddr) (d : Byte) (c : Cartridge) (p : Ppu),
    let page (n : Nat) : Nat :=
      match c.mirror with
      | .horizontal => if n < 2 then 0 else 1
      | .vertical => if n = 0 ∨ n = 2 then 0 else 1
      | .oneScreenLow => 0
      | .oneScreenHigh => 1
    let same : Prop :=
      (0x3F00 ≤ a.toNat ∧ 0x3F00 ≤ b.toNat ∧
        (a.toNat % 32 = b.toNat % 32 ∨
          (a.toNat % 4 = 0 ∧ b.toNat % 4 = 0 ∧ a.toNat % 16 = b.toNat % 16))) ∨
      (a.toNat < 0x3F00 ∧ b.toNat < 0x3F00 ∧ a.toNat % 1024 = b.toNat % 1024 ∧
        page (a.toNat / 1024 % 4) = page (b.toNat / 1024 % 4))
    0x2000 ≤ a.toNat → 0x2000 ≤ b.toNat →
    (same → ppuRead (ppuWrite c p a d).1 (ppuWrite c p a d).2 b = d) ∧
    (¬ same → ppuRead (ppuWrite c p a d).1 (ppuWrite c p a d).2 b = ppuRead c p b)

/-- A dot sets the vblank flag at (241, 1) and clears the three status flags at (-1, 1); the NMI edge is set at
(241, 1), if PPUCTRL bit 7 is 1, and at no other dot (spec/62_ppu.md R204, the spec's decision D26). -/
def Obligations.VblankAndNmiEdge : Prop :=
  ∀ (params : Params) (c : Cartridge) (p : Ppu),
    let q := (ppuDot params c p).2
    q.vblank =
      (if p.scanline = 241 ∧ p.dot = 1 then true
        else if p.scanline = -1 ∧ p.dot = 1 then false else p.vblank) ∧
    (p.scanline = -1 → p.dot = 1 → q.sprite0Hit = false ∧ q.spriteOverflow = false) ∧
    (q.nmiEdge = true ↔
      p.nmiEdge = true ∨ (p.scanline = 241 ∧ p.dot = 1 ∧ p.ctrl.getLsbD 7 = true))

/-- The cursor goes through the 262 x 341 dots of a frame in order, but for dot 0 of scanline 0, which is left out on
odd frames with rendering enabled where `ODD_FRAME_SKIP` is set; the frame flag is set and the parity flips exactly at
the wrap (spec/62_ppu.md R195, R196).  `ODD_FRAME_SKIP` is a parameter, default false (D27, log entry 6). -/
def Obligations.CursorAdvances : Prop :=
  ∀ (params : Params) (c : Cartridge) (p : Ppu),
    -1 ≤ p.scanline → p.scanline ≤ 260 → p.dot ≤ 340 →
    let q := (ppuDot params c p).2
    let pos (p : Ppu) : Int := (p.scanline + 1) * 341 + p.dot
    let skips : Prop :=
      params.oddFrameSkip = true ∧ p.oddFrame = true ∧ (p.mask.getLsbD 3 = true ∨ p.mask.getLsbD 4 = true) ∧
        p.scanline = -1 ∧ p.dot = 340
    pos q = (pos p + if skips then 2 else 1) % (262 * 341) ∧ q.dot ≤ 340 ∧
    q.frameComplete = (p.frameComplete || decide (pos p = 262 * 341 - 1)) ∧
    q.oddFrame = (p.oddFrame != decide (pos p = 262 * 341 - 1))

/-- What a dot does to `v` while rendering is enabled, on the visible and pre-render scanlines: coarse-X steps at
the end of each 8-dot window, the row at dot 256, the horizontal fields are copied from `t` at dot 257 and,
on the pre-render line, the vertical ones at dots 280 to 304; at every other dot `v` stays
(spec/62_ppu.md R197, R198; the exact dots are the spec's decision D63). -/
def Obligations.ScrollUpdates : Prop :=
  ∀ (params : Params) (c : Cartridge) (p : Ppu),
    -1 ≤ p.scanline → p.scanline ≤ 239 → (p.mask.getLsbD 3 = true ∨ p.mask.getLsbD 4 = true) →
    let w := (ppuDot params c p).2.v
    let windowEnd : Prop := p.dot % 8 = 0 ∧ (8 ≤ p.dot ∧ p.dot ≤ 248 ∨ 328 ≤ p.dot ∧ p.dot ≤ 336)
    let copiesY : Prop := p.scanline = -1 ∧ 280 ≤ p.dot ∧ p.dot ≤ 304
    (windowEnd → CoarseXStep p.v w) ∧
    (p.dot = 256 → ∃ u, CoarseXStep p.v u ∧ RowStep u w) ∧
    (p.dot = 257 →
      coarseX w = coarseX p.t ∧ w.getLsbD 10 = p.t.getLsbD 10 ∧ coarseY w = coarseY p.v ∧
      w.getLsbD 11 = p.v.getLsbD 11 ∧ fineY w = fineY p.v) ∧
    (copiesY →
      coarseX w = coarseX p.v ∧ w.getLsbD 10 = p.v.getLsbD 10 ∧ coarseY w = coarseY p.t ∧
      w.getLsbD 11 = p.t.getLsbD 11 ∧ fineY w = fineY p.t) ∧
    (¬ windowEnd → p.dot ≠ 256 → p.dot ≠ 257 → ¬ copiesY → w = p.v)

/-- Sprite evaluation at dot 256 of a visible scanline: with rendering enabled, secondary OAM takes the first eight
sprites, in the order of OAM, whose rows include the next scanline, and 0xFF in the entries left, sprite 0 is
marked if it is among them, and a ninth sets the overflow flag; with rendering disabled none is taken.  At every other
dot the evaluation's results stay.  At dot 320 the sprite units take the pattern rows of those sprites, flipped as the
attributes say, with rendering disabled or on the pre-render line none; at dots 2 to 257 of a visible scanline, with
sprites shown, each unit in use counts its X down or, at 0, shifts; at every other dot the units stay
(spec/62_ppu.md R182, R199 to R202, R204; the one step, the overflow rule and the exact dots are the spec's decisions
D28, D29 and D63). -/
def Obligations.SpriteEvaluation : Prop :=
  (∀ (params : Params) (c : Cartridge) (p : Ppu),
    0 ≤ p.scanline → p.scanline ≤ 239 → p.dot = 256 →
    let row (k : Nat) : Int := p.scanline - (readCell p.oam (4 * k)).toNat
    let height : Int := if p.ctrl.getLsbD 5 then 16 else 8
    let hits : List Nat := (List.range 64).filter (fun k => decide (0 ≤ row k ∧ row k < height))
    let q := (ppuDot params c p).2
    ((p.mask.getLsbD 3 = true ∨ p.mask.getLsbD 4 = true) →
      q.spriteCount = min 8 hits.length ∧
      (∀ i, i < 8 → q.secOam[i]? = some
        (match hits[i]? with
        | some k =>
          { y := readCell p.oam (4 * k), tile := readCell p.oam (4 * k + 1)
            attr := readCell p.oam (4 * k + 2), x := readCell p.oam (4 * k + 3) }
        | none => { y := 0xFF, tile := 0xFF, attr := 0xFF, x := 0xFF })) ∧
      (q.sprite0Next = true ↔ 0 ≤ row 0 ∧ row 0 < height) ∧
      q.spriteOverflow = (p.spriteOverflow || decide (8 < hits.length))) ∧
    (p.mask.getLsbD 3 = false → p.mask.getLsbD 4 = false →
      q.spriteCount = 0 ∧ q.sprite0Next = false ∧ q.spriteOverflow = p.spriteOverflow ∧ q.secOam = p.secOam)) ∧
  ∀ (params : Params) (c : Cartridge) (p : Ppu),
    let q := (ppuDot params c p).2
    let visible : Prop := 0 ≤ p.scanline ∧ p.scanline ≤ 239
    let rendering : Prop := p.mask.getLsbD 3 = true ∨ p.mask.getLsbD 4 = true
    let height : Int := if p.ctrl.getLsbD 5 then 16 else 8
    let row (e : SpriteEntry) : Int :=
      if e.attr.getLsbD 7 then height - 1 - (p.scanline - e.y.toNat) else p.scanline - e.y.toNat
    let pattern (e : SpriteEntry) : Int :=
      if p.ctrl.getLsbD 5 then
        (if e.tile.getLsbD 0 then 0x1000 else 0) +
          (e.tile.toNat / 2 * 2 + if 8 ≤ row e then 1 else 0) * 16 + row e % 8
      else (if p.ctrl.getLsbD 3 then 0x1000 else 0) + e.tile.toNat * 16 + row e
    let fetched (e : SpriteEntry) (a : Int) : Byte :=
      let b := ppuRead c p (BitVec.ofInt 14 a)
      if e.attr.getLsbD 6 then b.reverse else b
    let counts : Prop := visible ∧ 2 ≤ p.dot ∧ p.dot ≤ 257 ∧ p.mask.getLsbD 4 = true
    (¬ (visible ∧ p.dot = 256) →
      q.secOam = p.secOam ∧ q.spriteCount = p.spriteCount ∧ q.sprite0Next = p.sprite0Next ∧
      q.spriteOverflow = (if p.scanline = -1 ∧ p.dot = 1 then false else p.spriteOverflow)) ∧
    (p.dot = 320 → visible → rendering →
      q.sprCount = p.spriteCount ∧ q.sprite0Line = p.sprite0Next ∧
      ∀ i : Fin 8, q.sprites[i] =
        if i.val < p.spriteCount then
          { lo := fetched p.secOam[i] (pattern p.secOam[i]), hi := fetched p.secOam[i] (pattern p.secOam[i] + 8)
            x := p.secOam[i].x, attr := p.secOam[i].attr }
        else p.sprites[i]) ∧
    (p.dot = 320 → (p.scanline = -1 ∨ (visible ∧ ¬ rendering)) →
      q.sprCount = 0 ∧ q.sprite0Line = false ∧ q.sprites = p.sprites) ∧
    (p.dot ≠ 320 ∨ (p.scanline ≠ -1 ∧ ¬ visible) →
      q.sprCount = p.sprCount ∧ q.sprite0Line = p.sprite0Line ∧
      ∀ i : Fin 8, q.sprites[i] =
        if counts ∧ i.val < p.sprCount then
          (if p.sprites[i].x.toNat = 0 then
            { p.sprites[i] with lo := p.sprites[i].lo <<< 1, hi := p.sprites[i].hi <<< 1 }
          else { p.sprites[i] with x := BitVec.ofNat 8 (p.sprites[i].x.toNat - 1) })
        else p.sprites[i])

/-- The pixel a dot puts out and the sprite-0 hit it sets.  At dots 1 to 256 of a visible scanline the framebuffer
takes, at column `dot - 1` of the scanline, the colour of the background or of the first opaque sprite, by the
sprite's priority, or of the backdrop, and no other pixel changes.  The hit is set exactly at the dots at which
sprite 0, on the line, meets an opaque background with both layers enabled, never at x = 255 and, in the left
eight columns, only with both shown there; it is cleared at (-1, 1) and stays otherwise.  Both are told from the
shifters as they stand before the dot, which from dot 2 on shifts them, and counts the sprites' X down, first
(spec/62_ppu.md R197, R202, R203, R204; the spec's decisions D31, D32, D39 and D63). -/
def Obligations.SpriteZeroHitConditions : Prop :=
  ∀ (params : Params) (c : Cartridge) (p : Ppu),
    let q := (ppuDot params c p).2
    let x := p.dot - 1
    let visible : Prop := 0 ≤ p.scanline ∧ p.scanline ≤ 239 ∧ 1 ≤ p.dot ∧ p.dot ≤ 256
    let plane (r : BitVec 16) : Nat := (r.getLsbD ((if p.dot = 1 then 15 else 14) - p.fineX.toNat)).toNat
    let showBg : Prop := p.mask.getLsbD 3 = true ∧ (p.mask.getLsbD 1 = true ∨ 8 ≤ x)
    let bg : Nat := if showBg then 2 * plane p.bgHi + plane p.bgLo else 0
    let bgPal : Nat := 2 * plane p.atHi + plane p.atLo
    let column (u : SpriteUnit) : Nat := if p.dot = 1 ∨ u.x.toNat = 1 then 7 else 6
    let dots (u : SpriteUnit) : Nat :=
      if u.x.toNat = 0 ∨ (u.x.toNat = 1 ∧ p.dot ≠ 1) then
        2 * (u.hi.getLsbD (column u)).toNat + (u.lo.getLsbD (column u)).toNat
      else 0
    let showFg : Prop := p.mask.getLsbD 4 = true ∧ (p.mask.getLsbD 2 = true ∨ 8 ≤ x)
    let fg : Option (Fin 8) :=
      (List.finRange 8).find? (fun i => decide (showFg ∧ i.val < p.sprCount ∧ dots p.sprites[i] ≠ 0))
    let colour : Nat :=
      match fg with
      | none => if bg = 0 then 0 else bgPal * 4 + bg
      | some i =>
        if bg = 0 ∨ p.sprites[i].attr.getLsbD 5 = false then
          (p.sprites[i].attr.toNat % 4 + 4) * 4 + dots p.sprites[i]
        else bgPal * 4 + bg
    (q.sprite0Hit = true →
      p.sprite0Hit = true ∨
        (0 ≤ p.scanline ∧ p.scanline ≤ 239 ∧ 1 ≤ p.dot ∧ p.dot ≤ 255 ∧ p.mask.getLsbD 3 = true ∧
          p.mask.getLsbD 4 = true ∧ p.sprite0Line = true)) ∧
    (q.sprite0Hit = true ↔
      (p.sprite0Hit = true ∧ ¬ (p.scanline = -1 ∧ p.dot = 1)) ∨
      (visible ∧ bg ≠ 0 ∧ fg = some 0 ∧ p.sprite0Line = true ∧ p.mask.getLsbD 3 = true ∧
        p.mask.getLsbD 4 = true ∧ x ≠ 255 ∧
        (8 ≤ x ∨ (p.mask.getLsbD 1 = true ∧ p.mask.getLsbD 2 = true)))) ∧
    (∀ n, readCell q.framebuffer n =
      if visible ∧ n = p.scanline.toNat * 256 + x then
        (readCell p.palette colour).setWidth 6 &&& (if p.mask.getLsbD 0 then 0x30 else 0x3F)
      else readCell p.framebuffer n)

/-- A dot changes none of the registers a program writes and, of the memories, the framebuffer alone; the
cartridge changes only through the mapper's scanline counter.  With rendering disabled, and below the visible
scanlines, it changes neither `v` nor the background pipeline.  With rendering enabled, the pipeline on the visible and
pre-render scanlines: the tile, the palette bits and the two pattern bytes are fetched for `v` at the first, third,
fifth and seventh dot of each window of 8, the shifters shift at dots 2 to 257 and 322 to 337, and take the latches in
their low bytes at each window's first dot and at dot 257; each latch stays at every other dot (spec/62_ppu.md R188,
R195, R197, R205; the exact dots are the spec's decision D63). -/
def Obligations.DotFrame : Prop :=
  ∀ (params : Params) (c : Cartridge) (p : Ppu),
    let q := (ppuDot params c p).2
    q.vram = p.vram ∧ q.palette = p.palette ∧ q.oam = p.oam ∧ q.ctrl = p.ctrl ∧ q.mask = p.mask ∧
    q.oamAddr = p.oamAddr ∧ q.t = p.t ∧ q.fineX = p.fineX ∧ q.w = p.w ∧ q.readBuffer = p.readBuffer ∧
    (ppuDot params c p).1 =
      (if 0 ≤ p.scanline ∧ p.scanline ≤ 239 ∧ p.dot = 260 ∧
          (p.mask.getLsbD 3 = true ∨ p.mask.getLsbD 4 = true)
        then scanlineTick c else c) ∧
    (p.mask.getLsbD 3 = false → p.mask.getLsbD 4 = false →
      q.v = p.v ∧ q.ntLatch = p.ntLatch ∧ q.atLatch = p.atLatch ∧ q.loLatch = p.loLatch ∧
      q.hiLatch = p.hiLatch ∧ q.bgLo = p.bgLo ∧ q.bgHi = p.bgHi ∧ q.atLo = p.atLo ∧ q.atHi = p.atHi) ∧
    let active : Prop :=
      -1 ≤ p.scanline ∧ p.scanline ≤ 239 ∧ (p.mask.getLsbD 3 = true ∨ p.mask.getLsbD 4 = true)
    let fetches (phase : Nat) : Prop :=
      active ∧ (1 ≤ p.dot ∧ p.dot ≤ 256 ∨ 321 ≤ p.dot ∧ p.dot ≤ 336) ∧ (p.dot - 1) % 8 = phase
    let shifts : Prop := active ∧ (2 ≤ p.dot ∧ p.dot ≤ 257 ∨ 322 ≤ p.dot ∧ p.dot ≤ 337)
    let loads : Prop := fetches 0 ∨ (active ∧ p.dot = 257)
    let shifted (r : BitVec 16) : Nat := if shifts then r.toNat * 2 % 0x10000 else r.toNat
    let loaded (r : BitVec 16) (latch : Nat) : Nat :=
      if loads then shifted r / 0x100 * 0x100 + latch else shifted r
    let read (a : Nat) : Byte := ppuRead c p (BitVec.ofNat 14 a)
    let x := (coarseX p.v).toNat
    let y := (coarseY p.v).toNat
    let pattern : Nat := (if p.ctrl.getLsbD 4 then 0x1000 else 0) + p.ntLatch.toNat * 16 + (fineY p.v).toNat
    (¬ active → q.v = p.v) ∧
    q.ntLatch = (if fetches 0 then read (0x2000 + p.v.toNat % 0x1000) else p.ntLatch) ∧
    q.atLatch.toNat =
      (if fetches 2 then
        (read (0x23C0 + p.v.toNat / 0x400 % 4 * 0x400 + y / 4 * 8 + x / 4)).toNat / 4 ^ (y / 2 % 2 * 2 + x / 2 % 2) % 4
      else p.atLatch.toNat) ∧
    q.loLatch = (if fetches 4 then read pattern else p.loLatch) ∧
    q.hiLatch = (if fetches 6 then read (pattern + 8) else p.hiLatch) ∧
    q.bgLo.toNat = loaded p.bgLo p.loLatch.toNat ∧ q.bgHi.toNat = loaded p.bgHi p.hiLatch.toNat ∧
    q.atLo.toNat = loaded p.atLo (if p.atLatch.getLsbD 0 then 0xFF else 0x00) ∧
    q.atHi.toNat = loaded p.atHi (if p.atLatch.getLsbD 1 then 0xFF else 0x00)

/-! The APU. -/

/-- The frame sequencer.  From a sequencer restarted in 4-step mode with the IRQ not inhibited, the frame IRQ flag
stays clear for 29827 cycles and is set from the 29828th to the 29830th, at which the sequence restarts; in
5-step mode it is never set.  Each of the events clocks what its quarter- and half-frames clock, and no other
cycle clocks anything.  A write to 0x4017 sets the mode and the inhibit, restarts the count, clears the flag if
bit 6 is 1, and, if bit 7 is 1, clocks a quarter- and a half-frame at once (spec/63_apu.md R214, R216 to R221;
counting from 1 and the immediate restart are the spec's decision D44). -/
def Obligations.FrameIrqTiming : Prop :=
  (∀ (a : Apu) (n : Nat),
    a.frame.counter = 0 → a.frame.irq = false →
    (a.frame.fiveStep = false → a.frame.inhibit = false → n ≤ 29830 →
      ((times frameStep n a).frame.irq = true ↔ 29828 ≤ n) ∧
      (times frameStep n a).frame.counter = n % 29830) ∧
    (a.frame.fiveStep = true →
      (times frameStep n a).frame.irq = false ∧ (times frameStep n a).frame.counter = n % 37282)) ∧
  (∀ a : Apu,
    let b := frameStep a
    let n := a.frame.counter + 1
    let quarter : Prop := n = 7457 ∨ n = 22371
    let both : Prop :=
      n = 14913 ∨ (a.frame.fiveStep = false ∧ n = 29829) ∨ (a.frame.fiveStep = true ∧ n = 37281)
    (quarter → QuarterStep a b) ∧ (both → ∃ u, QuarterStep a u ∧ HalfStep u b) ∧
    (¬ quarter → ¬ both → b = { a with frame := b.frame }) ∧
    b.frame = { a.frame with
      counter := if n = (if a.frame.fiveStep then 37282 else 29830) then 0 else n
      irq :=
        a.frame.irq ||
          (!a.frame.fiveStep && !a.frame.inhibit && decide (29828 ≤ n) && decide (n ≤ 29830)) }) ∧
  (∀ (d : Byte) (s : State),
    let frame : FrameSeq :=
      { fiveStep := d.getLsbD 7, counter := 0, inhibit := d.getLsbD 6
        irq := s.apu.frame.irq && !d.getLsbD 6 }
    (d.getLsbD 7 = false → ApuAfter 0x4017 d s { s.apu with frame }) ∧
    (d.getLsbD 7 = true →
      ∃ u v, ApuAfter 0x4017 d s v ∧ v.frame = frame ∧ QuarterStep s.apu u ∧ HalfStep u v))

/-- The DMC.  Its four registers; the write to 0x4015, which enables or silences each channel, stops or starts the
sample and clears the DMC IRQ flag; and its reader: with the buffer empty and bytes left, at an address of
memory, the CPU is to stall four more cycles, the buffer takes the byte read, the address steps and wraps from
0xFFFF to 0x8000, and at the end of the sample it restarts if it loops, or else raises the DMC IRQ if enabled;
otherwise nothing happens.  Its output unit: the timer counts down from its rate, and at 0 the level moves by two,
within 0 to 127, by bit 0 of the shift register, unless silenced, the register shifts, and after the eighth bit the
buffer, if full, is moved into it, or else the unit is silenced.  A bit counter of at least 1 is what every state
between ticks has (InvariantKeptByStep).  In an APU tick the reader comes after the other units, and the cycle is
counted last (spec/63_apu.md R207, R211, R212, R215, R225, R226, the spec's decisions D40, D41, D45, D46 and
D65). -/
def Obligations.DmcReaderFetch : Prop :=
  (∀ s : State,
    let u := dmcReader { s with apu := apuUnits s.apu }
    apuTick s = { u with apu := { u.apu with apuCycle := u.apu.apuCycle + 1 } }) ∧
  (∀ m : Dmc,
    (m.timer.toNat ≠ 0 → ∃ timer, dmcTimer m = { m with timer } ∧ timer.toNat = m.timer.toNat - 1) ∧
    (m.timer.toNat = 0 → 1 ≤ m.bits →
      let last : Bool := decide (m.bits = 1)
      let move : Int :=
        if m.silence then 0
        else if m.shift.getLsbD 0 then (if m.level.toNat ≤ 125 then 2 else 0)
        else if 2 ≤ m.level.toNat then -2
        else 0
      ∃ timer level, dmcTimer m =
        { m with
          timer, level, bits := if last then 8 else m.bits - 1
          shift := if last && !m.bufferEmpty then m.buffer else BitVec.ofNat 8 (m.shift.toNat / 2)
          silence := if last then m.bufferEmpty else m.silence, bufferEmpty := m.bufferEmpty || last } ∧
        timer.toNat =
          ([428, 380, 340, 320, 286, 254, 226, 214, 190, 160, 142, 128, 106, 84, 72, 54].getD
            m.rateIndex.toNat 0) - 1 ∧
        (level.toNat : Int) = m.level.toNat + move)) ∧
  (∀ (d : Byte) (s : State),
    let m := s.apu.dmc
    let on (k : Nat) (length : Byte) : Byte := if d.getLsbD k then length else 0
    ApuAfter 0x4010 d s { s.apu with dmc := { m with
      irqEnable := d.getLsbD 7, loop := d.getLsbD 6, rateIndex := BitVec.ofNat 4 (d.toNat % 16)
      irq := m.irq && d.getLsbD 7 } } ∧
    ApuAfter 0x4011 d s { s.apu with dmc := { m with level := BitVec.ofNat 7 (d.toNat % 128) } } ∧
    ApuAfter 0x4012 d s
      { s.apu with dmc := { m with sampleAddr := BitVec.ofNat 16 (0xC000 + d.toNat * 64) } } ∧
    ApuAfter 0x4013 d s { s.apu with dmc := { m with sampleLen := BitVec.ofNat 12 (d.toNat * 16 + 1) } } ∧
    ApuAfter 0x4015 d s { s.apu with
      pulse1 := { s.apu.pulse1 with enabled := d.getLsbD 0, length := on 0 s.apu.pulse1.length }
      pulse2 := { s.apu.pulse2 with enabled := d.getLsbD 1, length := on 1 s.apu.pulse2.length }
      triangle := { s.apu.triangle with enabled := d.getLsbD 2, length := on 2 s.apu.triangle.length }
      noise := { s.apu.noise with enabled := d.getLsbD 3, length := on 3 s.apu.noise.length }
      dmc :=
        if d.getLsbD 4 = false then { m with remaining := 0, irq := false }
        else if m.remaining.toNat = 0 then
          { m with curAddr := m.sampleAddr, remaining := m.sampleLen, irq := false }
        else { m with irq := false } }) ∧
  ∀ s : State,
    (s.apu.dmc.bufferEmpty = false ∨ s.apu.dmc.remaining.toNat = 0 → dmcReader s = s) ∧
    (s.apu.dmc.bufferEmpty = true → s.apu.dmc.remaining.toNat ≠ 0 → IsMemory s.apu.dmc.curAddr →
      let u := (dmcReader s).apu.dmc
      dmcReader s =
        { s with
          cpu := { s.cpu with stallRemaining := s.cpu.stallRemaining + 4 }
          apu := { s.apu with dmc := u } } ∧
      u = { s.apu.dmc with
        buffer := u.buffer, bufferEmpty := false, curAddr := u.curAddr, remaining := u.remaining
        irq := u.irq } ∧
      u.buffer = peek s s.apu.dmc.curAddr ∧
      (s.apu.dmc.remaining.toNat ≠ 1 →
        u.remaining.toNat = s.apu.dmc.remaining.toNat - 1 ∧ u.irq = s.apu.dmc.irq ∧
        u.curAddr.toNat =
          if s.apu.dmc.curAddr.toNat = 0xFFFF then 0x8000 else s.apu.dmc.curAddr.toNat + 1) ∧
      (s.apu.dmc.remaining.toNat = 1 → s.apu.dmc.loop = true →
        u.curAddr = s.apu.dmc.sampleAddr ∧ u.remaining = s.apu.dmc.sampleLen ∧ u.irq = s.apu.dmc.irq) ∧
      (s.apu.dmc.remaining.toNat = 1 → s.apu.dmc.loop = false →
        u.remaining.toNat = 0 ∧ u.irq = (s.apu.dmc.irq || s.apu.dmc.irqEnable)))

/-- The pulse, triangle and noise channels: what a write to each register of 0x4000 to 0x400F does, what each
channel puts out, and how its timer steps it.  The four outputs that are mixed are in 0..15.  A sounding pulse
puts out its envelope, and none while its period is below 8, its length counter is 0, the sweep mutes it or the
duty step is 0; the triangle puts out its sequence value, also while the sequence is halted by a counter at 0,
and 0, with the sequence halted, while its period is below 2; noise puts out its envelope, and none while its
length counter is 0 or bit 0 of the LFSR is 1.  In an APU tick, after the frame sequencer, the triangle's and the
DMC's timers are clocked every cycle and the others' every second one.  A sample is the mix of the four outputs and
the DMC's level (spec/63_apu.md R208 to R210, R215, R222 to R224, R228; that the silenced triangle's sequence is
halted is spec/93_implementation_defined.md I2, the timers' counting rule and order are the spec's decisions D40 to
D43, and the mix is a parameter of its decision D48, log entry 11). -/
def Obligations.ChannelOutputRanges : Prop :=
  (∀ (d : Byte) (s : State),
    let t := s.apu.triangle
    let n := s.apu.noise
    (∀ reg, reg < 4 →
      ApuAfter (BitVec.ofNat 16 (0x4000 + reg)) d s
        { s.apu with pulse1 := pulseAfter reg s.apu.pulse1 d } ∧
      ApuAfter (BitVec.ofNat 16 (0x4004 + reg)) d s
        { s.apu with pulse2 := pulseAfter reg s.apu.pulse2 d }) ∧
    ApuAfter 0x4008 d s { s.apu with triangle := { t with
      control := d.getLsbD 7, linReloadValue := BitVec.ofNat 7 (d.toNat % 128) } } ∧
    ApuAfter 0x4009 d s s.apu ∧
    ApuAfter 0x400A d s { s.apu with triangle := { t with
      period := BitVec.ofNat 11 (t.period.toNat / 256 * 256 + d.toNat) } } ∧
    ApuAfter 0x400B d s { s.apu with triangle := { t with
      period := BitVec.ofNat 11 (d.toNat % 8 * 256 + t.period.toNat % 256)
      length := lengthAfter t.enabled t.length d, linReload := true } } ∧
    ApuAfter 0x400C d s { s.apu with noise := { n with
      halt := d.getLsbD 5
      env := { n.env with constant := d.getLsbD 4, volume := BitVec.ofNat 4 (d.toNat % 16) } } } ∧
    ApuAfter 0x400D d s s.apu ∧
    ApuAfter 0x400E d s { s.apu with noise := { n with
      mode := d.getLsbD 7, periodIndex := BitVec.ofNat 4 (d.toNat % 16) } } ∧
    ApuAfter 0x400F d s { s.apu with noise := { n with
      length := lengthAfter n.enabled n.length d, env := { n.env with start := true } } }) ∧
  ∀ a : Apu,
    let f : Apu := frameStep a
    let second : Bool := decide (a.apuCycle % 2 = 0)
    pulseOut true a.pulse1 ≤ 15 ∧ pulseOut false a.pulse2 ≤ 15 ∧ triangleOut a.triangle ≤ 15 ∧
    noiseOut a.noise ≤ 15 ∧ (a.pulse1.length.toNat = 0 → pulseOut true a.pulse1 = 0) ∧
    (a.pulse2.length.toNat = 0 → pulseOut false a.pulse2 = 0) ∧
    (a.noise.length.toNat = 0 → noiseOut a.noise = 0) ∧
    (a.pulse1.period.toNat < 8 → pulseOut true a.pulse1 = 0) ∧
    (a.pulse2.period.toNat < 8 → pulseOut false a.pulse2 = 0) ∧
    (a.triangle.period.toNat < 2 → triangleOut a.triangle = 0) ∧
    PulsePutsOut true a.pulse1 (pulseOut true a.pulse1) ∧
    PulsePutsOut false a.pulse2 (pulseOut false a.pulse2) ∧
    apuUnits a =
      { f with
        triangle := triangleTimer f.triangle
        pulse1 := if second then pulseTimer f.pulse1 else f.pulse1
        pulse2 := if second then pulseTimer f.pulse2 else f.pulse2
        noise := if second then noiseTimer f.noise else f.noise
        dmc := dmcTimer f.dmc } ∧
    apuSample a =
      Config.mixBits (pulseOut true a.pulse1) (pulseOut false a.pulse2) (triangleOut a.triangle)
        (noiseOut a.noise) a.dmc.level.toNat ∧
    triangleOut a.triangle =
      (if a.triangle.period.toNat < 2 then 0
      else if a.triangle.seq.toNat < 16 then 15 - a.triangle.seq.toNat else a.triangle.seq.toNat - 16) ∧
    noiseOut a.noise =
      (if a.noise.length.toNat = 0 ∨ a.noise.lfsr.getLsbD 0 = true then 0 else envelopeLevel a.noise.env) ∧
    (∀ p : Pulse,
      (p.timer.toNat = 0 → ∃ seq, pulseTimer p = { p with timer := p.period, seq } ∧
        seq.toNat = (p.seq.toNat + 1) % 8) ∧
      (p.timer.toNat ≠ 0 → ∃ timer, pulseTimer p = { p with timer } ∧
        timer.toNat = p.timer.toNat - 1)) ∧
    (∀ t : Triangle,
      (t.timer.toNat = 0 → ∃ seq, triangleTimer t = { t with timer := t.period, seq } ∧
        seq.toNat =
          if t.length.toNat ≠ 0 ∧ t.linCounter.toNat ≠ 0 ∧ 2 ≤ t.period.toNat then (t.seq.toNat + 1) % 32
          else t.seq.toNat) ∧
      (t.timer.toNat ≠ 0 → ∃ timer, triangleTimer t = { t with timer } ∧
        timer.toNat = t.timer.toNat - 1)) ∧
    (∀ n : Noise,
      (n.timer.toNat = 0 → ∃ timer lfsr, noiseTimer n = { n with timer, lfsr } ∧
        timer.toNat =
          ([4, 8, 16, 32, 64, 96, 128, 160, 202, 254, 380, 508, 762, 1016, 2034, 4068].getD
            n.periodIndex.toNat 0) / 2 - 1 ∧
        lfsr.toNat = n.lfsr.toNat / 2 +
          if n.lfsr.getLsbD 0 = n.lfsr.getLsbD (if n.mode then 6 else 1) then 0 else 0x4000) ∧
      (n.timer.toNat ≠ 0 → ∃ timer, noiseTimer n = { n with timer } ∧
        timer.toNat = n.timer.toNat - 1))

/-! The cartridge. -/

/-- The banking of the six mappers.  With at least one PRG bank, for every value of the registers, the PRG offset of
an address at or above 0x8000 lies in PRG ROM and the CHR offset of a PPU address below 0x2000 in CHR memory, and
each is the one that the mapper's table gives; a read of the address finds the byte there.  A write to such an
address is a control write: mapper 0 ignores it and mappers 2, 3 and 66 take their bank registers from the byte
(spec/64_cartridge.md R232, R233, R237, R239 to R242, R244, R245, R247; bank numbers modulo the bank count, no bus
conflicts and no store to PRG ROM are the spec's decisions D50, D53 and D67).  The write is put out
(spec/61_bus.md R179; the list is log entry 19). -/
def Obligations.PrgOffsetInRange : Prop :=
  ∀ (c : Cartridge) (addr : Word),
    1 ≤ c.prgBanks → 0x8000 ≤ addr.toNat →
    let a := addr.toNat
    let n := c.prgBanks
    let bank (b : Nat) : Nat := b * 16384 + a % 16384
    let size := if c.chrBanks = 0 then 8192 else 8192 * c.chrBanks
    prgOffset c addr < 16384 * n ∧
    (c.mapper = .nrom ∨ (∃ b, c.mapper = .cnrom b) → prgOffset c addr = (a - 0x8000) % (16384 * n)) ∧
    (∀ m, c.mapper = .mmc1 m →
      let mode := m.control.toNat / 4 % 4
      let b := m.prg.toNat % 16
      prgOffset c addr = bank
        (if mode = 2 then (if a < 0xC000 then 0 else b % n)
        else if mode = 3 then (if a < 0xC000 then b % n else n - 1)
        else if a < 0xC000 then (b - b % 2) % n else (b - b % 2 + 1) % n)) ∧
    (∀ b, c.mapper = .uxrom b →
      prgOffset c addr = bank (if a < 0xC000 then b.toNat % n else n - 1)) ∧
    (∀ m, c.mapper = .mmc3 m →
      let r6 := m.r[6].toNat % (2 * n)
      let unit : Nat :=
        if a < 0xA000 then (if m.prgMode then 2 * n - 2 else r6)
        else if a < 0xC000 then m.r[7].toNat % (2 * n)
        else if a < 0xE000 then (if m.prgMode then r6 else 2 * n - 2)
        else 2 * n - 1
      prgOffset c addr = unit * 8192 + a % 8192) ∧
    (∀ b k, c.mapper = .gxrom b k →
      prgOffset c addr = (b.toNat % max 1 (n / 2) * 32768 + (a - 0x8000)) % (16384 * n)) ∧
    (∀ x, x < 0x2000 →
      let unit (width u : Nat) : Nat := u % (size / width) * width + x % width
      chrOffset c x < size ∧ chrRead c x = readCell c.chr (chrOffset c x) ∧
      (c.mapper = .nrom ∨ (∃ b, c.mapper = .uxrom b) → chrOffset c x = x) ∧
      (∀ m, c.mapper = .mmc1 m →
        chrOffset c x = unit 4096
          (if m.control.getLsbD 4 then (if x < 0x1000 then m.chr0.toNat else m.chr1.toNat)
          else m.chr0.toNat - m.chr0.toNat % 2 + x / 0x1000)) ∧
      (∀ b, c.mapper = .cnrom b → chrOffset c x = unit 8192 b.toNat) ∧
      (∀ m, c.mapper = .mmc3 m →
        let r (i : Fin 8) : Nat := m.r[i].toNat
        let slots : List Nat :=
          [r 0 - r 0 % 2, r 0 - r 0 % 2 + 1, r 1 - r 1 % 2, r 1 - r 1 % 2 + 1, r 2, r 3, r 4, r 5]
        chrOffset c x = unit 1024 (slots.getD ((x / 0x400 + if m.chrInv then 4 else 0) % 8) 0)) ∧
      (∀ b k, c.mapper = .gxrom b k → chrOffset c x = unit 8192 k.toNat)) ∧
    (∀ (d : Byte) (s : State),
      (busRead addr s).1 = readCell s.cart.prg (prgOffset s.cart addr) ∧
      busWrite addr d s =
        { s with cart := controlWrite s.cart addr d, deviceWrites := (addr, d) :: s.deviceWrites } ∧
      (c.mapper = .nrom → controlWrite c addr d = c) ∧
      (∀ b, c.mapper = .uxrom b → controlWrite c addr d = { c with mapper := .uxrom d }) ∧
      (∀ b, c.mapper = .cnrom b → controlWrite c addr d = { c with mapper := .cnrom d }) ∧
      (∀ b k, c.mapper = .gxrom b k →
        controlWrite c addr d =
          { c with
            mapper := .gxrom (BitVec.ofNat 2 (d.toNat / 16 % 4)) (BitVec.ofNat 2 (d.toNat % 4)) }))

/-- Five writes to one address of MMC1's port, with bit 7 clear, from an empty port, load the register the address
selects with the five bits 0, least significant first, and a load of the control register sets the mirror
mode in the same write; a write with bit 7 set empties the port and sets bits 3 and 2 of control
(spec/64_cartridge.md R238, R234). -/
def Obligations.Mmc1SerialLoad : Prop :=
  ∀ (c : Cartridge) (m : Mmc1) (addr : Word) (d0 d1 d2 d3 d4 : Byte),
    c.mapper = .mmc1 m → 0x8000 ≤ addr.toNat →
    (m.count = 0 → d0.getLsbD 7 = false → d1.getLsbD 7 = false → d2.getLsbD 7 = false →
      d3.getLsbD 7 = false → d4.getLsbD 7 = false →
      ∃ v : BitVec 5,
        v.toNat =
          (d0.getLsbD 0).toNat + 2 * (d1.getLsbD 0).toNat + 4 * (d2.getLsbD 0).toNat +
            8 * (d3.getLsbD 0).toNat + 16 * (d4.getLsbD 0).toNat ∧
        mmc1Writes addr [d0, d1, d2, d3, d4] c =
          { c with
            mapper := .mmc1
              { shift := 0, count := 0
                control := if addr.toNat < 0xA000 then v else m.control
                chr0 := if 0xA000 ≤ addr.toNat ∧ addr.toNat < 0xC000 then v else m.chr0
                chr1 := if 0xC000 ≤ addr.toNat ∧ addr.toNat < 0xE000 then v else m.chr1
                prg := if 0xE000 ≤ addr.toNat then v else m.prg }
            mirror :=
              if addr.toNat < 0xA000 then
                (if v.toNat % 4 = 0 then .oneScreenLow else if v.toNat % 4 = 1 then .oneScreenHigh
                  else if v.toNat % 4 = 2 then .vertical else .horizontal)
              else c.mirror }) ∧
    (d0.getLsbD 7 = true →
      controlWrite c addr d0 =
        { c with mapper := .mmc1 { m with shift := 0, count := 0, control := m.control ||| 0x0C } })

/-- MMC3's control writes, by the address range and bit 0 of the address; and its counter: reloaded and enabled with
latch `n`, the line is low after the first `n` scanline ticks and high from the next one on
(spec/64_cartridge.md R243, R246, the spec's decision D55; that PRG RAM protection is ignored is D51). -/
def Obligations.Mmc3CounterRaisesLine : Prop :=
  (∀ (c : Cartridge) (m : Mmc3) (addr : Word) (d : Byte),
    c.mapper = .mmc3 m → 0x8000 ≤ addr.toNat →
    let a := addr.toNat
    let w := controlWrite c addr d
    let becomes (m' : Mmc3) : Prop := w = { c with mapper := .mmc3 m' }
    (a < 0xA000 → a % 2 = 0 →
      becomes { m with
        target := BitVec.ofNat 3 (d.toNat % 8), prgMode := d.getLsbD 6, chrInv := d.getLsbD 7 }) ∧
    (a < 0xA000 → a % 2 = 1 →
      ∃ r : Vector Byte 8, becomes { m with r } ∧
        ∀ i : Fin 8, r[i] = if i.val = m.target.toNat then d else m.r[i]) ∧
    (0xA000 ≤ a → a < 0xC000 → a % 2 = 0 →
      w = { c with mirror := if d.getLsbD 0 then .horizontal else .vertical }) ∧
    (0xA000 ≤ a → a < 0xC000 → a % 2 = 1 → w = c) ∧
    (0xC000 ≤ a → a < 0xE000 → a % 2 = 0 → becomes { m with irqLatch := d }) ∧
    (0xC000 ≤ a → a < 0xE000 → a % 2 = 1 → becomes { m with irqCounter := 0, irqReload := true }) ∧
    (0xE000 ≤ a → a % 2 = 0 → becomes { m with irqEnable := false, irqLine := false }) ∧
    (0xE000 ≤ a → a % 2 = 1 → becomes { m with irqEnable := true })) ∧
  ∀ (m : Mmc3) (k : Nat),
    m.irqReload = true → m.irqEnable = true → m.irqLine = false →
    ((times mmc3Tick k m).irqLine = true ↔ m.irqLatch.toNat + 1 ≤ k)

/-! The whole machine. -/

/-- The invariant of the machine holds right after reset. -/
def Obligations.InvariantAtReset : Prop := MachineInv State.reset

/-- Every step keeps the invariant: B reads 0 and U reads 1, the window counter is at most 8, the PPU cursor and the
sprite counts are in range, the noise LFSR is not 0, the DMC bit counter is in 1..8 and the DMC reads memory, there
is a PRG bank, the MMC1 port holds fewer than five bits, and every memory is in canonical form and in range
(spec/10_state.md R36, spec/62_ppu.md R180, R195, spec/63_apu.md R206, R224, R226, spec/64_cartridge.md R229,
R238; that the DMC reads memory also before 0x4012 is written is log entry 14). -/
def Obligations.InvariantKeptByStep : Prop :=
  ∀ s t : State, MachineInv s → step s = .next t → MachineInv t

/-- No step changes PRG ROM, the bank counts, the header's mirror mode or the parameters; CHR memory changes only
where it is RAM (spec/64_cartridge.md R232, R233, the spec's decisions D52 and D67; that the parameters are
fixed is log entry 6). -/
def Obligations.StepKeepsConfiguration : Prop :=
  ∀ s t : State,
    step s = .next t →
    t.cart.prg = s.cart.prg ∧ t.cart.prgBanks = s.cart.prgBanks ∧ t.cart.chrBanks = s.cart.chrBanks ∧
    t.cart.headerMirror = s.cart.headerMirror ∧ t.params = s.params ∧
    (s.cart.chrBanks ≠ 0 → t.cart.chr = s.cart.chr)

/-- Every step that records no refusal is one CPU cycle and one bus tick: the cycle counter and the system clock
rise by one.  Before the CPU's cycle come three dots and then the NMI check; after it the APU tick, the resampler,
the IRQ check and the count of the tick, in this order.  The resampler's accumulator gains one tick, and where it
reaches the period of a sample it loses that period and one sample is emitted (spec/60_exceptions.md R150,
spec/61_bus.md R169, R177, spec/62_ppu.md R195, spec/10_state.md R35, the spec's decision D61; that the accumulator
is held in units of 1 / SAMPLE_HZ is log entry 12). -/
def Obligations.StepCountsOneCycle : Prop :=
  (∀ s t : State,
    step s = .next t → t.cpu.refused = none →
    t.cpu.totalCycles = s.cpu.totalCycles + 1 ∧ t.bus.clock = s.bus.clock + 1) ∧
  (∀ s : State,
    let dot (u : State) : State :=
      { u with cart := (ppuDot u.params u.cart u.ppu).1, ppu := (ppuDot u.params u.cart u.ppu).2 }
    tickBefore s = nmiCheck (dot (dot (dot s)))) ∧
  (∀ s : State,
    let u := irqCheck (resample (apuTick s))
    tickAfter s = { u with bus := { u.bus with clock := u.bus.clock + 1 } }) ∧
  (∀ s : State,
    let acc := s.bus.resampleAcc + s.params.sampleHz
    (acc < s.params.cpuHz → resample s = { s with bus := { s.bus with resampleAcc := acc } }) ∧
    (s.params.cpuHz ≤ acc →
      resample s =
        { s with
          bus := { s.bus with resampleAcc := acc - s.params.cpuHz }
          samples := apuSample s.apu :: s.samples }))

/-- A bus reset.  PC is the vector read through the mapper after its own reset, SP is 0xFD, I and U are set and B
clear, seven cycles remain and no request is pending; every field of the PPU, the APU, the bus and the mapper
has its reset value; every memory keeps its contents and the refusal mark stays (spec/70_reset_and_hazards.md R248
to R250, the spec's decisions D1, D12, D14 to D16, D33, D47, D54, D57, D58).  Of the registers the spec leaves to
draws nothing is said for a state in general.  The first conjunct, that the machine of `State.reset` is its own
bus reset, rests on the model's choices: A, X, Y, C, Z, D, V and N are 0 (log entry 2), the scratch fields are 0
(log entry 3), and the empty image makes the vector 0x0000 (log entries 1 and 4); that the lists of samples and of
device writes stay is log entry 19. -/
def Obligations.BusResetState : Prop :=
  busReset State.reset = State.reset ∧ ∀ s : State,
    let t := busReset s
    let envelope : Envelope := { start := false, divider := 0, decay := 0, constant := false, volume := 0 }
    let pulse : Pulse :=
      { enabled := false, duty := 0, seq := 0, period := 0, timer := 0, length := 0, halt := false
        env := envelope, swEnabled := false, swPeriod := 0, swNegate := false, swShift := 0
        swReload := false, swDivider := 0 }
    t.cpu =
      { a := t.cpu.a, x := t.cpu.x, y := t.cpu.y, sp := 0xFD, p := t.cpu.p
        pc := mkWord (readCell s.cart.prg (prgOffset (cartReset s.cart) 0xFFFD))
          (readCell s.cart.prg (prgOffset (cartReset s.cart) 0xFFFC))
        cyclesRemaining := 7, stallRemaining := 0, nmiPending := false, irqPending := false
        totalCycles := 0, opcode := t.cpu.opcode, ea := t.cpu.ea, refused := s.cpu.refused } ∧
    flagI t.cpu.p = true ∧ flagB t.cpu.p = false ∧ flagU t.cpu.p = true ∧
    t.bus =
      { ram := s.bus.ram, clock := 0, resampleAcc := 0, strobe := false, shift1 := 0, shift2 := 0 } ∧
    t.ppu =
      { vram := s.ppu.vram, palette := s.ppu.palette, oam := s.ppu.oam, framebuffer := s.ppu.framebuffer
        secOam := Vector.replicate 8 { y := 0xFF, tile := 0xFF, attr := 0xFF, x := 0xFF }
        spriteCount := 0, ctrl := 0, mask := 0, vblank := false, sprite0Hit := false
        spriteOverflow := false, oamAddr := 0, v := 0, t := 0, fineX := 0, w := false, readBuffer := 0
        ntLatch := 0, atLatch := 0, loLatch := 0, hiLatch := 0, bgLo := 0, bgHi := 0, atLo := 0, atHi := 0
        sprites := Vector.replicate 8 { lo := 0, hi := 0, x := 0, attr := 0 }, sprCount := 0
        sprite0Next := false, sprite0Line := false, scanline := -1, dot := 0, oddFrame := false
        nmiEdge := false, frameComplete := false } ∧
    t.apu =
      { apuCycle := 0, pulse1 := pulse, pulse2 := pulse
        triangle :=
          { enabled := false, period := 0, timer := 0, seq := 0, length := 0, control := false
            linReloadValue := 0, linCounter := 0, linReload := false }
        noise :=
          { enabled := false, mode := false, periodIndex := 0, timer := 0, lfsr := 1, length := 0
            halt := false, env := envelope }
        dmc :=
          { irqEnable := false, loop := false, rateIndex := 0, timer := 0, level := 0, sampleAddr := 0
            sampleLen := 0, curAddr := 0, remaining := 0, buffer := 0, bufferEmpty := true, shift := 0
            bits := 8, silence := true, irq := false }
        frame := { fiveStep := false, counter := 0, inhibit := false, irq := false } } ∧
    t.cart =
      { s.cart with
        mirror :=
          match s.cart.mapper with
          | .mmc1 _ => .oneScreenLow
          | _ => s.cart.headerMirror
        mapper :=
          match s.cart.mapper with
          | .nrom => .nrom
          | .mmc1 _ =>
            .mmc1 { shift := 0, count := 0, control := 0x0C, chr0 := 0, chr1 := 0, prg := 0 }
          | .uxrom _ => .uxrom 0
          | .cnrom _ => .cnrom 0
          | .mmc3 _ =>
            .mmc3
              { target := 0, prgMode := false, chrInv := false, r := Vector.replicate 8 0, irqLatch := 0
                irqCounter := 0, irqReload := false, irqEnable := false, irqLine := false }
          | .gxrom _ _ => .gxrom 0 0 } ∧
    t.params = s.params ∧ t.draws = s.draws ∧ t.samples = s.samples ∧ t.deviceWrites = s.deviceWrites
end

