-- ==== Sys2Proof/Laws/Apu.lean ====
section
/-! SUPPORT. What the APU's operations keep: the noise LFSR is not 0, the DMC's bit counter is in 1..8 and the DMC
reads memory. -/

namespace Sys2Proof.Machine

/-- The DMC's part of `MachineInv`. -/
def DmcInv (m : Dmc) : Prop := 1 ≤ m.bits ∧ m.bits ≤ 8 ∧ DmcReadsMemory m

/-- The APU's part of `MachineInv`. -/
def ApuInv (a : Apu) : Prop := a.noise.lfsr ≠ 0 ∧ DmcInv a.dmc

/-- The invariant depends on the noise LFSR and the DMC only. -/
theorem ApuInv.congr {a b : Apu} (h : ApuInv a) (hl : b.noise.lfsr = a.noise.lfsr)
    (hd : DmcInv a.dmc → DmcInv b.dmc) : ApuInv b := by
  unfold ApuInv at *
  rw [hl]
  exact ⟨h.1, hd h.2⟩

/-- Of the DMC the invariant depends on these fields only. -/
theorem DmcInv.congr {m n : Dmc} (h : DmcInv m) (hb : n.bits = m.bits) (ha : n.sampleAddr = m.sampleAddr)
    (hl : n.sampleLen = m.sampleLen) (hc : n.curAddr = m.curAddr) (hr : n.remaining = m.remaining) :
    DmcInv n := by
  unfold DmcInv DmcReadsMemory at *
  rw [hb, ha, hl, hc, hr]
  exact h

theorem reset_apuInv : ApuInv Apu.reset := by unfold ApuInv DmcInv DmcReadsMemory; decide

theorem quarterFrame_inv {a : Apu} (h : ApuInv a) : ApuInv (quarterFrame a) := h.congr rfl id

theorem halfFrame_inv {a : Apu} (h : ApuInv a) : ApuInv (halfFrame a) := h.congr rfl id

/-- The DMC reads from the addresses of memory (R226). -/
theorem DmcReadsMemory.isMemory {m : Dmc} (h : DmcReadsMemory m) : IsMemory m.curAddr := by
  obtain ⟨-, -, h⟩ := h
  unfold IsMemory
  omega

/-- A restarted sample lies in memory. -/
theorem dmcRestart_inv {m : Dmc} (h : DmcInv m) : DmcInv (dmcRestart m) := by
  obtain ⟨h1, h2, h3, h4, -⟩ := h
  refine ⟨h1, h2, h3, h4, ?_⟩
  simp only [dmcRestart]
  omega

/-- The four DMC registers (R211). -/
theorem dmcWrite_inv {m : Dmc} (h : DmcInv m) (d : Byte) :
    DmcInv (dmcWrite0 m d) ∧ DmcInv (dmcWrite1 m d) ∧ DmcInv (dmcWrite2 m d) ∧ DmcInv (dmcWrite3 m d) := by
  obtain ⟨h1, h2, h3, h4, h5⟩ := h
  have hd := d.isLt
  refine ⟨⟨h1, h2, h3, h4, h5⟩, ⟨h1, h2, h3, h4, h5⟩, ⟨h1, h2, .inr ?_, h4, h5⟩, h1, h2, h3, ?_, h5⟩
  · simp [dmcWrite2, BitVec.toNat_add, BitVec.toNat_mul]
    omega
  · simp [dmcWrite3, BitVec.toNat_add, BitVec.toNat_mul]
    omega

theorem dmcEnable_inv {m : Dmc} (h : DmcInv m) (on : Bool) : DmcInv (dmcEnable m on) := by
  unfold dmcEnable
  cases on
  · obtain ⟨h1, h2, h3, h4, h5⟩ := h
    refine ⟨h1, h2, h3, h4, ?_⟩
    simp only [Bool.false_eq_true, if_false]
    rcases h5 with h5 | h5
    · exact .inl (by simp; omega)
    · exact .inr h5
  · simp only [if_true]
    split
    · exact dmcRestart_inv (h.congr rfl rfl rfl rfl rfl)
    · exact h.congr rfl rfl rfl rfl rfl

theorem apuWriteEnable_inv {a : Apu} (h : ApuInv a) (d : Byte) : ApuInv (apuWriteEnable a d) :=
  h.congr rfl (dmcEnable_inv · _)

theorem apuWriteFrame_inv {a : Apu} (h : ApuInv a) (d : Byte) : ApuInv (apuWriteFrame a d) := by
  unfold apuWriteFrame
  dsimp only
  split <;> exact h.congr rfl id

/-- A register write keeps the invariant (spec/63_apu.md R208 to R214). -/
theorem apuWrite_inv {a : Apu} (h : ApuInv a) (addr : Word) (d : Byte) : ApuInv (apuWrite a addr d) := by
  unfold apuWrite
  split
  all_goals first
    | exact apuWriteEnable_inv h d
    | exact apuWriteFrame_inv h d
    | exact h.congr rfl id
    | exact h.congr rfl fun hm => (dmcWrite_inv hm d).1
    | exact h.congr rfl fun hm => (dmcWrite_inv hm d).2.1
    | exact h.congr rfl fun hm => (dmcWrite_inv hm d).2.2.1
    | exact h.congr rfl fun hm => (dmcWrite_inv hm d).2.2.2

theorem frameStep_inv {a : Apu} (h : ApuInv a) : ApuInv (frameStep a) := by
  unfold frameStep
  dsimp only
  split <;> exact h.congr rfl id

/-- The LFSR never reaches 0 (spec/63_apu.md R224). -/
theorem lfsrStep_ne_zero (mode : Bool) {l : BitVec 15} (h : l ≠ 0) : lfsrStep mode l ≠ 0 := by
  intro e
  apply h
  have hb (i : Nat) : (lfsrStep mode l).getLsbD i = false := by rw [e]; simp
  have hlow (i : Nat) (hi : i < 14) : l.getLsbD (i + 1) = false := by
    have := hb i
    simp only [lfsrStep, bitAt, BitVec.getLsbD_or, BitVec.getLsbD_ushiftRight, Bool.or_eq_false_iff] at this
    rw [Nat.add_comm]
    exact this.1
  have htop := hb 14
  simp only [lfsrStep, bitAt, BitVec.getLsbD_or, BitVec.getLsbD_ushiftRight, Bool.or_eq_false_iff] at htop
  have h1 := hlow 0 (by omega)
  have h6 := hlow 5 (by omega)
  have h0 : l.getLsbD 0 = false := by
    have := htop.2
    simp only [Nat.reduceAdd, Nat.zero_add] at h1 h6
    cases hl : l.getLsbD 0
    · rfl
    · rw [h1, h6, hl] at this
      cases mode <;> simp at this
  apply BitVec.eq_of_getLsbD_eq
  intro i hi
  cases i with
  | zero => simpa using h0
  | succ k => simpa using hlow k (by omega)

theorem noiseTimer_lfsr {n : Noise} (h : n.lfsr ≠ 0) : (noiseTimer n).lfsr ≠ 0 := by
  unfold noiseTimer
  split
  · exact lfsrStep_ne_zero _ h
  · exact h

theorem dmcOutput_inv {m : Dmc} (h : DmcInv m) : DmcInv (dmcOutput m) := by
  obtain ⟨h1, h2, h3⟩ := h
  unfold dmcOutput
  dsimp only
  split
  · split <;> exact ⟨by simp, by simp, h3⟩
  · next hb => exact ⟨by simp only at hb ⊢; omega, by simp only at hb ⊢; omega, h3⟩

theorem dmcTimer_inv {m : Dmc} (h : DmcInv m) : DmcInv (dmcTimer m) := by
  unfold dmcTimer
  split
  · exact dmcOutput_inv (h.congr rfl rfl rfl rfl rfl)
  · exact h.congr rfl rfl rfl rfl rfl

theorem apuUnits_inv {a : Apu} (h : ApuInv a) : ApuInv (apuUnits a) := by
  have h1 := frameStep_inv h
  unfold apuUnits
  dsimp only
  split
  · exact ⟨noiseTimer_lfsr h1.1, dmcTimer_inv h1.2⟩
  · exact ⟨h1.1, dmcTimer_inv h1.2⟩

/-- The reader's step to the next byte stays in memory (R226). -/
theorem dmcTakeByte_inv {m : Dmc} (h : DmcInv m) (hr : m.remaining ≠ 0) (b : Byte) :
    DmcInv (dmcTakeByte m b) := by
  obtain ⟨h1, h2, h3, h4, h5⟩ := h
  have hr' : m.remaining.toNat ≠ 0 := fun e => hr (BitVec.eq_of_toNat_eq e)
  have hrl := m.remaining.isLt
  have hal := m.curAddr.isLt
  have hn : DmcInv
      { m with
        buffer := b, bufferEmpty := false
        curAddr := if m.curAddr = 0xFFFF then 0x8000 else m.curAddr + 1
        remaining := m.remaining - 1 } := by
    refine ⟨h1, h2, h3, h4, ?_⟩
    have h6 : (m.remaining - 1).toNat = m.remaining.toNat - 1 := by bv_omega
    dsimp only
    rw [h6]
    split
    · exact .inr (by decide)
    · next hf =>
      have hf' : m.curAddr.toNat ≠ 0xFFFF := fun e => hf (BitVec.eq_of_toNat_eq e)
      have h7 : (m.curAddr + 1).toNat = m.curAddr.toNat + 1 := by bv_omega
      rw [h7]
      omega
  unfold dmcTakeByte
  dsimp only at hn ⊢
  split
  · split
    · exact dmcRestart_inv hn
    · exact hn.congr rfl rfl rfl rfl rfl
  · exact hn

end Sys2Proof.Machine
end

