-- ==== Sys2Proof/Laws/Memory.lean ====
section
/-! SUPPORT. The laws of a memory: what a read after a write gives, and that every operation keeps the
canonical form and the address range. -/

namespace Sys2Proof.Machine

variable {w : Nat}

/-! Two plain facts of bit vectors. -/

theorem bitVec_eq_zero (x : BitVec w) : x = 0 ↔ x.toNat = 0 :=
  ⟨fun h => by simp [h], fun h => BitVec.eq_of_toNat_eq (by simpa using h)⟩

theorem bitVec_pred {x : BitVec w} (h : x ≠ 0) : (x - 1).toNat = x.toNat - 1 := by
  have h0 : x.toNat ≠ 0 := fun e => h ((bitVec_eq_zero x).2 e)
  have h1 : (1 : BitVec w).toNat = 1 := by
    show 1 % 2 ^ w = 1
    exact Nat.mod_eq_of_lt (by have := x.isLt; omega)
  rw [BitVec.toNat_sub_of_le (BitVec.le_def.2 (by rw [h1]; omega)), h1]

/-! Reads and writes. -/

@[simp] theorem readCell_nil (a : Nat) : readCell ([] : Cells w) a = unlistedCell w := rfl

theorem readCell_eraseCell_same (m : Cells w) (a : Nat) : readCell (eraseCell m a) a = unlistedCell w := by
  induction m with
  | nil => rfl
  | cons c rest ih =>
    obtain ⟨b, u⟩ := c
    by_cases h : b = a
    · simpa [eraseCell, h] using ih
    · simpa [eraseCell, h, readCell] using ih

theorem readCell_eraseCell_ne (m : Cells w) {a b : Nat} (h : b ≠ a) :
    readCell (eraseCell m a) b = readCell m b := by
  induction m with
  | nil => rfl
  | cons c rest ih =>
    obtain ⟨x, u⟩ := c
    by_cases hx : x = a
    · subst hx
      have : x ≠ b := fun e => h e.symm
      simpa [eraseCell, readCell, this] using ih
    · by_cases hb : x = b
      · subst hb; simp [eraseCell, h, readCell]
      · simpa [eraseCell, hx, readCell, hb] using ih

theorem readCell_insertCell_same (a : Nat) (v : BitVec w) (m : Cells w) (h : ∀ u, (a, u) ∉ m) :
    readCell (insertCell a v m) a = v := by
  induction m with
  | nil => simp [insertCell, readCell]
  | cons c rest ih =>
    obtain ⟨b, u⟩ := c
    have hb : b ≠ a := fun e => h u (by simp [e])
    have hr : ∀ u, (a, u) ∉ rest := fun u hu => h u (by simp [hu])
    by_cases hlt : a < b
    · simp [insertCell, hlt, readCell]
    · simp [insertCell, hlt, readCell, hb, ih hr]

theorem readCell_insertCell_ne {a b : Nat} (v : BitVec w) (m : Cells w) (h : b ≠ a) :
    readCell (insertCell a v m) b = readCell m b := by
  induction m with
  | nil => simp [insertCell, readCell, Ne.symm h]
  | cons c rest ih =>
    obtain ⟨x, u⟩ := c
    by_cases hlt : a < x
    · simp [insertCell, hlt, readCell, Ne.symm h]
    · simp [insertCell, hlt, readCell, ih]

theorem not_mem_eraseCell (m : Cells w) (a : Nat) (u : BitVec w) : (a, u) ∉ eraseCell m a := by
  simp [eraseCell]

/-- A read after a write to the same cell gives the value written. -/
@[simp] theorem readCell_writeCell_same (m : Cells w) (a : Nat) (v : BitVec w) :
    readCell (writeCell m a v) a = v := by
  unfold writeCell
  split
  · next h => rw [readCell_eraseCell_same, h]
  · exact readCell_insertCell_same a v _ (not_mem_eraseCell m a)

/-- A write leaves every other cell alone. -/
theorem readCell_writeCell_ne (m : Cells w) {a b : Nat} (v : BitVec w) (h : b ≠ a) :
    readCell (writeCell m a v) b = readCell m b := by
  unfold writeCell
  split
  · exact readCell_eraseCell_ne m h
  · rw [readCell_insertCell_ne v _ h, readCell_eraseCell_ne m h]

/-- What a read of any cell gives after a write. -/
theorem readCell_writeCell (m : Cells w) (a b : Nat) (v : BitVec w) :
    readCell (writeCell m a v) b = if b = a then v else readCell m b := by
  split
  · next h => rw [h, readCell_writeCell_same]
  · next h => exact readCell_writeCell_ne m v h

/-! The canonical form. -/

theorem cellsWfFrom_mono {m : Cells w} {lo lo' : Nat} (h : lo' ≤ lo) (hm : cellsWfFrom lo m = true) :
    cellsWfFrom lo' m = true := by
  cases m with
  | nil => rfl
  | cons c rest =>
    obtain ⟨a, v⟩ := c
    simp only [cellsWfFrom, Bool.and_eq_true, decide_eq_true_eq] at hm ⊢
    exact ⟨⟨by omega, hm.1.2⟩, hm.2⟩

theorem cellsWfFrom_eraseCell {m : Cells w} (a : Nat) {lo : Nat} (hm : cellsWfFrom lo m = true) :
    cellsWfFrom lo (eraseCell m a) = true := by
  induction m generalizing lo with
  | nil => rfl
  | cons c rest ih =>
    obtain ⟨b, u⟩ := c
    simp only [cellsWfFrom, Bool.and_eq_true, decide_eq_true_eq] at hm
    by_cases h : b = a
    · simpa [eraseCell, h] using cellsWfFrom_mono (by omega) (ih hm.2)
    · simpa [eraseCell, h, cellsWfFrom, hm.1.1, hm.1.2] using ih hm.2

theorem cellsWfFrom_insertCell {a : Nat} {v : BitVec w} {m : Cells w} {lo : Nat} (hlo : lo ≤ a)
    (hv : v ≠ unlistedCell w) (hn : ∀ u, (a, u) ∉ m) (hm : cellsWfFrom lo m = true) :
    cellsWfFrom lo (insertCell a v m) = true := by
  induction m generalizing lo with
  | nil => simp [insertCell, cellsWfFrom, hlo, hv]
  | cons c rest ih =>
    obtain ⟨b, u⟩ := c
    have hb : b ≠ a := fun e => hn u (by simp [e])
    have hr : ∀ u, (a, u) ∉ rest := fun u hu => hn u (by simp [hu])
    simp only [cellsWfFrom, Bool.and_eq_true, decide_eq_true_eq] at hm
    by_cases hlt : a < b
    · simp only [insertCell, hlt, ite_true, cellsWfFrom, Bool.and_eq_true, decide_eq_true_eq]
      exact ⟨⟨hlo, hv⟩, ⟨by omega, hm.1.2⟩, hm.2⟩
    · simp only [insertCell, hlt, ite_false, cellsWfFrom, Bool.and_eq_true, decide_eq_true_eq]
      exact ⟨hm.1, ih (by omega) hr hm.2⟩

/-- A write keeps the canonical form. -/
theorem cellsWf_writeCell {m : Cells w} (a : Nat) (v : BitVec w) (hm : cellsWf m = true) :
    cellsWf (writeCell m a v) = true := by
  unfold writeCell
  split
  · exact cellsWfFrom_eraseCell a hm
  · next hv =>
    exact cellsWfFrom_insertCell (Nat.zero_le a) hv (not_mem_eraseCell m a) (cellsWfFrom_eraseCell a hm)

@[simp] theorem cellsWf_nil : cellsWf ([] : Cells w) = true := rfl

theorem cellsWfFrom_cellsOfBytes (bytes : List Byte) (a : Nat) :
    cellsWfFrom a (cellsOfBytes a bytes) = true := by
  induction bytes generalizing a with
  | nil => rfl
  | cons b rest ih =>
    unfold cellsOfBytes
    split
    · exact cellsWfFrom_mono (Nat.le_succ a) (ih (a + 1))
    · next h => simpa [cellsWfFrom, h] using ih (a + 1)

/-- Bytes laid from an address on are in canonical form. -/
theorem cellsWf_cellsOfBytes (bytes : List Byte) (a : Nat) : cellsWf (cellsOfBytes a bytes) = true :=
  cellsWfFrom_mono (Nat.zero_le a) (cellsWfFrom_cellsOfBytes bytes a)

/-! The address range. -/

@[simp] theorem cellsBelow_nil (size : Nat) : cellsBelow size ([] : Cells w) = true := rfl

theorem cellsBelow_eraseCell {size : Nat} {m : Cells w} (a : Nat) (hm : cellsBelow size m = true) :
    cellsBelow size (eraseCell m a) = true := by
  simp only [cellsBelow, eraseCell, List.all_eq_true, List.mem_filter] at hm ⊢
  exact fun c hc => hm c hc.1

theorem cellsBelow_insertCell {size : Nat} {m : Cells w} {a : Nat} (v : BitVec w) (ha : a < size)
    (hm : cellsBelow size m = true) : cellsBelow size (insertCell a v m) = true := by
  induction m with
  | nil => simp [insertCell, cellsBelow, ha]
  | cons c rest ih =>
    obtain ⟨b, u⟩ := c
    simp only [cellsBelow, List.all_cons, Bool.and_eq_true, decide_eq_true_eq] at hm ih ⊢
    by_cases hlt : a < b
    · simp [insertCell, hlt, ha, hm.1, hm.2]
    · simp [insertCell, hlt, hm.1, ih hm.2]

/-- A write below `size` lists nothing at or above it. -/
theorem cellsBelow_writeCell {size : Nat} {m : Cells w} {a : Nat} (v : BitVec w) (ha : a < size)
    (hm : cellsBelow size m = true) : cellsBelow size (writeCell m a v) = true := by
  unfold writeCell
  split
  · exact cellsBelow_eraseCell a hm
  · exact cellsBelow_insertCell v ha (cellsBelow_eraseCell a hm)

theorem cellsBelow_cellsOfBytes {size : Nat} (bytes : List Byte) (a : Nat) (h : a + bytes.length ≤ size) :
    cellsBelow size (cellsOfBytes a bytes) = true := by
  induction bytes generalizing a with
  | nil => rfl
  | cons b rest ih =>
    simp only [List.length_cons] at h
    have ha : a < size := by omega
    have := ih (a + 1) (by omega)
    unfold cellsOfBytes
    split
    · exact this
    · simpa [cellsBelow, ha] using this

/-- What a byte of a laid list of bytes reads as. -/
theorem readCell_cellsOfBytes (bytes : List Byte) (a n : Nat) :
    readCell (cellsOfBytes a bytes) n = if a ≤ n then bytes.getD (n - a) (unlistedCell 8) else unlistedCell 8 := by
  induction bytes generalizing a with
  | nil => simp [cellsOfBytes]
  | cons b rest ih =>
    have step : ∀ k, a < n → n - a = k + 1 → n - (a + 1) = k := by omega
    unfold cellsOfBytes
    by_cases hz : b = unlistedCell 8
    · rw [if_pos hz, ih]
      by_cases hlt : a < n
      · obtain ⟨k, hk⟩ : ∃ k, n - a = k + 1 := ⟨n - a - 1, by omega⟩
        rw [if_pos (by omega), if_pos (by omega), hk, step k hlt hk, List.getD_cons_succ]
      · by_cases he : a = n
        · subst he; simp [hz]
        · rw [if_neg (by omega), if_neg (by omega)]
    · rw [if_neg hz]
      by_cases he : a = n
      · subst he; simp [readCell]
      · rw [readCell, if_neg he, ih]
        by_cases hlt : a < n
        · obtain ⟨k, hk⟩ : ∃ k, n - a = k + 1 := ⟨n - a - 1, by omega⟩
          rw [if_pos (by omega), if_pos (by omega), hk, step k hlt hk, List.getD_cons_succ]
        · rw [if_neg (by omega), if_neg (by omega)]

end Sys2Proof.Machine
end

