-- ==== Sys2Proof/Laws/Cartridge.lean ====
section
/-! SUPPORT. What the cartridge's operations keep. -/

namespace Sys2Proof.Machine

/-- The cartridge's part of `MachineInv`. -/
def CartInv (c : Cartridge) : Prop :=
  (1 ≤ c.prgBanks ∧ ∀ m, c.mapper = .mmc1 m → m.count ≤ 4) ∧
  (cellsWf c.prg = true ∧ cellsWf c.prgRam = true ∧ cellsWf c.chr = true) ∧
  cellsBelow (16384 * c.prgBanks) c.prg = true ∧ cellsBelow 8192 c.prgRam = true ∧
  cellsBelow (chrSize c) c.chr = true

/-- CHR memory is a whole number of 8 KB banks. -/
theorem chrSize_eq (c : Cartridge) : ∃ k, 1 ≤ k ∧ chrSize c = 8192 * k := by
  unfold chrSize
  split
  · exact ⟨1, by omega, rfl⟩
  · exact ⟨c.chrBanks, by omega, rfl⟩

theorem unit_lt {u n size a : Nat} (hn : 0 < n) (hs : 0 < size) :
    u % n * size + a % size < n * size := by
  have h1 : u % n + 1 ≤ n := Nat.mod_lt u hn
  have h2 : a % size < size := Nat.mod_lt a hs
  calc u % n * size + a % size < u % n * size + size := by omega
    _ = (u % n + 1) * size := by ring
    _ ≤ n * size := Nat.mul_le_mul_right size h1

/-- A CHR offset lies in CHR memory (spec/64_cartridge.md R233, D50). -/
theorem chrOffset_lt (c : Cartridge) {a : Nat} (ha : a < 0x2000) : chrOffset c a < chrSize c := by
  obtain ⟨k, hk, hs⟩ := chrSize_eq c
  have hunit (m : Mmc1) (n : Nat) : mmc1ChrUnit m n a = mmc1ChrUnit m n a % n ∨ n = 0 := by
    by_cases hn : n = 0
    · exact .inr hn
    · left
      unfold mmc1ChrUnit
      split <;> split <;> exact (Nat.mod_mod _ _).symm
  unfold chrOffset
  cases c.mapper with
  | nrom => simp only [hs]; omega
  | uxrom b => simp only [hs]; omega
  | mmc1 m =>
    simp only [hs]
    rw [(hunit m (8192 * k / 4096)).resolve_right (by omega)]
    have := unit_lt (u := mmc1ChrUnit m (8192 * k / 4096) a) (n := 8192 * k / 4096) (size := 4096) (a := a)
      (by omega) (by omega)
    omega
  | cnrom b =>
    simp only [hs]
    have := unit_lt (u := b.toNat) (n := 8192 * k / 8192) (size := 8192) (a := a) (by omega) (by omega)
    omega
  | mmc3 m =>
    simp only [hs]
    have := unit_lt (u := mmc3ChrUnit m a) (n := 8192 * k / 1024) (size := 1024) (a := a) (by omega) (by omega)
    omega
  | gxrom p b =>
    simp only [hs]
    have := unit_lt (u := b.toNat) (n := 8192 * k / 8192) (size := 8192) (a := a) (by omega) (by omega)
    omega

theorem chrWrite_inv {c : Cartridge} (h : CartInv c) {a : Nat} (ha : a < 0x2000) (d : Byte) :
    CartInv (chrWrite c a d) := by
  unfold chrWrite
  split
  · obtain ⟨h1, ⟨h2, h3, h4⟩, h5, h6, h7⟩ := h
    exact ⟨h1, ⟨h2, h3, cellsWf_writeCell _ _ h4⟩, h5, h6, cellsBelow_writeCell _ (chrOffset_lt c ha) h7⟩
  · exact h

theorem mmc1Write_count {m : Mmc1} (h : m.count ≤ 4) (addr : Word) (d : Byte) :
    (mmc1Write m addr d).count ≤ 4 := by
  unfold mmc1Write
  split
  · simp
  · dsimp only
    split
    · split <;> simp
    · next hc => simp only; omega

theorem controlWrite_inv {c : Cartridge} (h : CartInv c) (addr : Word) (d : Byte) :
    CartInv (controlWrite c addr d) := by
  obtain ⟨⟨h1, hm⟩, h2⟩ := h
  unfold controlWrite
  split
  · exact ⟨⟨h1, hm⟩, h2⟩
  · next m e =>
    refine ⟨⟨h1, fun m' e' => ?_⟩, h2⟩
    injection e' with e'
    subst e'
    exact mmc1Write_count (hm m e) addr d
  all_goals exact ⟨⟨h1, fun m' e' => by cases e'⟩, h2⟩

theorem cartCpuWrite_inv {c : Cartridge} (h : CartInv c) {addr : Word} (ha : 0x6000 ≤ addr.toNat) (d : Byte) :
    CartInv (cartCpuWrite c addr d) := by
  unfold cartCpuWrite
  split
  · obtain ⟨h1, ⟨h2, h3, h4⟩, h5, h6, h7⟩ := h
    exact ⟨h1, ⟨h2, cellsWf_writeCell _ _ h3, h4⟩, h5, cellsBelow_writeCell _ (by omega) h6, h7⟩
  · exact controlWrite_inv h addr d

theorem scanlineTick_inv {c : Cartridge} (h : CartInv c) : CartInv (scanlineTick c) := by
  obtain ⟨⟨h1, hm⟩, h2⟩ := h
  unfold scanlineTick
  split
  · exact ⟨⟨h1, fun m' e' => by cases e'⟩, h2⟩
  · exact ⟨⟨h1, hm⟩, h2⟩

theorem cartReset_inv {c : Cartridge} (h : CartInv c) : CartInv (cartReset c) := by
  obtain ⟨⟨h1, -⟩, h2⟩ := h
  refine ⟨⟨h1, fun m e => ?_⟩, h2⟩
  simp only [cartReset] at e
  cases hm : c.mapper <;> rw [hm] at e <;> cases e
  decide

/-- PRG ROM is never written by the machine (spec/64_cartridge.md R232, D67). -/
theorem cartCpuWrite_prg (c : Cartridge) (addr : Word) (d : Byte) : (cartCpuWrite c addr d).prg = c.prg := by
  unfold cartCpuWrite controlWrite
  split
  · rfl
  · split <;> rfl

/-- A loaded cartridge meets the invariant (spec/64_cartridge.md R229 to R231). -/
theorem loadINes_inv {f : List Byte} {c : Cartridge} (h : loadINes f = .ok c) : CartInv c := by
  unfold loadINes at h
  split at h
  · next prgCount chrCount flags6 flags7 rest =>
    dsimp only at h
    generalize (if flags6.getLsbD 2 = true then 512 else 0) = trainer at h
    split at h
    · cases h
    split at h
    · cases h
    next hlen hprg =>
    split at h
    · cases h
    next mapper hmap =>
    cases h
    refine ⟨⟨?_, ?_⟩, ⟨cellsWf_cellsOfBytes _ _, rfl, cellsWf_cellsOfBytes _ _⟩, ?_, rfl, ?_⟩
    · have : prgCount.toNat ≠ 0 := fun e => hprg (BitVec.eq_of_toNat_eq e)
      simp only
      omega
    · intro m e
      simp only at e
      subst e
      unfold mapperOfId at hmap
      split at hmap <;> cases hmap
      decide
    · exact cellsBelow_cellsOfBytes _ _ (by simp)
    · refine cellsBelow_cellsOfBytes _ _ ?_
      simp only [chrSize, List.length_take, List.length_drop, Nat.zero_add]
      split <;> omega
  · cases h

end Sys2Proof.Machine
end

