-- ==== Sys2Proof/Laws/Decode.lean ====
section
/-! SUPPORT. The lemmas a proof about decoding cites: the bytes of a word, and what `decode` gives for an
opcode of each length. -/

namespace Sys2Proof.Machine

theorem mkWord_toNat (hi lo : Byte) : (mkWord hi lo).toNat = 256 * hi.toNat + lo.toNat := by
  have h : (mkWord hi lo).toNat = hi.toNat <<< 8 ||| lo.toNat := BitVec.toNat_append hi lo
  rw [h, ← Nat.shiftLeft_add_eq_or_of_lt lo.isLt, Nat.shiftLeft_eq]
  omega

theorem hiByte_toNat (w : Word) : (hiByte w).toNat = w.toNat / 256 := by
  have := w.isLt
  simp only [hiByte, BitVec.extractLsb'_toNat, Nat.shiftRight_eq_div_pow]
  omega

theorem loByte_toNat (w : Word) : (loByte w).toNat = w.toNat % 256 := by
  simp [loByte]

@[simp] theorem mkWord_hiByte_loByte (w : Word) : mkWord (hiByte w) (loByte w) = w := by
  apply BitVec.eq_of_toNat_eq
  rw [mkWord_toNat, hiByte_toNat, loByte_toNat]
  omega

@[simp] theorem hiByte_mkWord (hi lo : Byte) : hiByte (mkWord hi lo) = hi := by
  apply BitVec.eq_of_toNat_eq
  have := lo.isLt
  rw [hiByte_toNat, mkWord_toNat]
  omega

@[simp] theorem loByte_mkWord (hi lo : Byte) : loByte (mkWord hi lo) = lo := by
  apply BitVec.eq_of_toNat_eq
  have := lo.isLt
  rw [loByte_toNat, mkWord_toNat]
  omega

end Sys2Proof.Machine

namespace Sys2Proof

theorem decode_one {op : Byte} (rest : List Byte) (h : opcodeLength op = 1) :
    decode (op :: rest) = .ok (decodeOp op 0 0, rest) := by
  simp [decode, h]

theorem decode_two {op : Byte} (b1 : Byte) (rest : List Byte) (h : opcodeLength op = 2) :
    decode (op :: b1 :: rest) = .ok (decodeOp op b1 0, rest) := by
  simp [decode, h]

theorem decode_three {op : Byte} (b1 b2 : Byte) (rest : List Byte) (h : opcodeLength op = 3) :
    decode (op :: b1 :: b2 :: rest) = .ok (decodeOp op b1 b2, rest) := by
  simp [decode, h]

/-- An instruction has at most two operand bytes (spec/30_encoding.md R58). -/
theorem operandBytes_length_le (i : Instr) : i.operandBytes.length ≤ 2 := by
  have hm (m : MemOperand) : m.bytes.length ≤ 2 := by cases m <;> simp [MemOperand.bytes]
  have hs (src : Source) : src.bytes.length ≤ 2 := by cases src <;> simp [Source.bytes, hm]
  have ht (t : Target) : t.bytes.length ≤ 2 := by cases t <;> simp [Target.bytes, hm]
  have hj (j : JumpOperand) : j.bytes.length ≤ 2 := by cases j <;> simp [JumpOperand.bytes]
  cases i <;> first | exact hs _ | exact hm _ | exact ht _ | exact hj _ | simp [Instr.operandBytes]

/-- The length of every opcode is 1, 2 or 3 (spec/30_encoding.md R57). -/
theorem opcodeLength_cases (op : Byte) : opcodeLength op = 1 ∨ opcodeLength op = 2 ∨ opcodeLength op = 3 := by
  have := operandBytes_length_le (decodeOp op 0 0)
  simp only [opcodeLength, Instr.length]
  omega

/-- An opcode and two more bytes always decode. -/
theorem decode_total (op b1 b2 : Byte) (rest : List Byte) :
    ∃ i r, decode (op :: b1 :: b2 :: rest) = .ok (i, r) := by
  rcases opcodeLength_cases op with h | h | h
  · exact ⟨_, _, decode_one _ h⟩
  · exact ⟨_, _, decode_two _ _ h⟩
  · exact ⟨_, _, decode_three _ _ _ h⟩

/-- An unlisted opcode has one byte and decodes to itself (spec/30_encoding.md R63). -/
theorem decodeOp_unlisted {op : Byte} (h : unlistedOpcodes.contains op = true) :
    decodeOp op 0 0 = .unlisted op := by
  have hall : ∀ op ∈ unlistedOpcodes, decodeOp op 0 0 = .unlisted op := by decide +kernel
  exact hall op (by simpa using h)

theorem opcodeLength_unlisted {op : Byte} (h : unlistedOpcodes.contains op = true) : opcodeLength op = 1 := by
  rw [opcodeLength, decodeOp_unlisted h]; rfl

end Sys2Proof
end

