-- ==== Sys2Proof/Laws/State.lean ====
section
/-! SUPPORT. What each update of the state does to each of its fields, so that no proof unfolds a record
update. -/

namespace Sys2Proof.Machine

variable (s : State)

@[simp] theorem State.setA_cpu (v : Byte) : (s.setA v).cpu = { s.cpu with a := v } := rfl
@[simp] theorem State.setA_bus (v : Byte) : (s.setA v).bus = s.bus := rfl
@[simp] theorem State.setA_ppu (v : Byte) : (s.setA v).ppu = s.ppu := rfl
@[simp] theorem State.setA_apu (v : Byte) : (s.setA v).apu = s.apu := rfl
@[simp] theorem State.setA_cart (v : Byte) : (s.setA v).cart = s.cart := rfl
@[simp] theorem State.setA_params (v : Byte) : (s.setA v).params = s.params := rfl
@[simp] theorem State.setA_draws (v : Byte) : (s.setA v).draws = s.draws := rfl
@[simp] theorem State.setA_retired (v : Byte) : (s.setA v).retired = s.retired := rfl
@[simp] theorem State.setA_samples (v : Byte) : (s.setA v).samples = s.samples := rfl
@[simp] theorem State.setA_deviceWrites (v : Byte) : (s.setA v).deviceWrites = s.deviceWrites := rfl

@[simp] theorem State.setX_cpu (v : Byte) : (s.setX v).cpu = { s.cpu with x := v } := rfl
@[simp] theorem State.setX_bus (v : Byte) : (s.setX v).bus = s.bus := rfl
@[simp] theorem State.setX_ppu (v : Byte) : (s.setX v).ppu = s.ppu := rfl
@[simp] theorem State.setX_apu (v : Byte) : (s.setX v).apu = s.apu := rfl
@[simp] theorem State.setX_cart (v : Byte) : (s.setX v).cart = s.cart := rfl
@[simp] theorem State.setX_params (v : Byte) : (s.setX v).params = s.params := rfl
@[simp] theorem State.setX_draws (v : Byte) : (s.setX v).draws = s.draws := rfl
@[simp] theorem State.setX_retired (v : Byte) : (s.setX v).retired = s.retired := rfl
@[simp] theorem State.setX_samples (v : Byte) : (s.setX v).samples = s.samples := rfl
@[simp] theorem State.setX_deviceWrites (v : Byte) : (s.setX v).deviceWrites = s.deviceWrites := rfl

@[simp] theorem State.setY_cpu (v : Byte) : (s.setY v).cpu = { s.cpu with y := v } := rfl
@[simp] theorem State.setY_bus (v : Byte) : (s.setY v).bus = s.bus := rfl
@[simp] theorem State.setY_ppu (v : Byte) : (s.setY v).ppu = s.ppu := rfl
@[simp] theorem State.setY_apu (v : Byte) : (s.setY v).apu = s.apu := rfl
@[simp] theorem State.setY_cart (v : Byte) : (s.setY v).cart = s.cart := rfl
@[simp] theorem State.setY_params (v : Byte) : (s.setY v).params = s.params := rfl
@[simp] theorem State.setY_draws (v : Byte) : (s.setY v).draws = s.draws := rfl
@[simp] theorem State.setY_retired (v : Byte) : (s.setY v).retired = s.retired := rfl
@[simp] theorem State.setY_samples (v : Byte) : (s.setY v).samples = s.samples := rfl
@[simp] theorem State.setY_deviceWrites (v : Byte) : (s.setY v).deviceWrites = s.deviceWrites := rfl

@[simp] theorem State.setSP_cpu (v : Byte) : (s.setSP v).cpu = { s.cpu with sp := v } := rfl
@[simp] theorem State.setSP_bus (v : Byte) : (s.setSP v).bus = s.bus := rfl
@[simp] theorem State.setSP_ppu (v : Byte) : (s.setSP v).ppu = s.ppu := rfl
@[simp] theorem State.setSP_apu (v : Byte) : (s.setSP v).apu = s.apu := rfl
@[simp] theorem State.setSP_cart (v : Byte) : (s.setSP v).cart = s.cart := rfl
@[simp] theorem State.setSP_params (v : Byte) : (s.setSP v).params = s.params := rfl
@[simp] theorem State.setSP_draws (v : Byte) : (s.setSP v).draws = s.draws := rfl
@[simp] theorem State.setSP_retired (v : Byte) : (s.setSP v).retired = s.retired := rfl
@[simp] theorem State.setSP_samples (v : Byte) : (s.setSP v).samples = s.samples := rfl
@[simp] theorem State.setSP_deviceWrites (v : Byte) : (s.setSP v).deviceWrites = s.deviceWrites := rfl

@[simp] theorem State.setPC_cpu (v : Word) : (s.setPC v).cpu = { s.cpu with pc := v } := rfl
@[simp] theorem State.setPC_bus (v : Word) : (s.setPC v).bus = s.bus := rfl
@[simp] theorem State.setPC_ppu (v : Word) : (s.setPC v).ppu = s.ppu := rfl
@[simp] theorem State.setPC_apu (v : Word) : (s.setPC v).apu = s.apu := rfl
@[simp] theorem State.setPC_cart (v : Word) : (s.setPC v).cart = s.cart := rfl
@[simp] theorem State.setPC_params (v : Word) : (s.setPC v).params = s.params := rfl
@[simp] theorem State.setPC_draws (v : Word) : (s.setPC v).draws = s.draws := rfl
@[simp] theorem State.setPC_retired (v : Word) : (s.setPC v).retired = s.retired := rfl
@[simp] theorem State.setPC_samples (v : Word) : (s.setPC v).samples = s.samples := rfl
@[simp] theorem State.setPC_deviceWrites (v : Word) : (s.setPC v).deviceWrites = s.deviceWrites := rfl

@[simp] theorem State.setP_cpu (v : Byte) : (s.setP v).cpu = { s.cpu with p := v } := rfl
@[simp] theorem State.setP_bus (v : Byte) : (s.setP v).bus = s.bus := rfl
@[simp] theorem State.setP_ppu (v : Byte) : (s.setP v).ppu = s.ppu := rfl
@[simp] theorem State.setP_apu (v : Byte) : (s.setP v).apu = s.apu := rfl
@[simp] theorem State.setP_cart (v : Byte) : (s.setP v).cart = s.cart := rfl
@[simp] theorem State.setP_params (v : Byte) : (s.setP v).params = s.params := rfl
@[simp] theorem State.setP_draws (v : Byte) : (s.setP v).draws = s.draws := rfl
@[simp] theorem State.setP_retired (v : Byte) : (s.setP v).retired = s.retired := rfl
@[simp] theorem State.setP_samples (v : Byte) : (s.setP v).samples = s.samples := rfl
@[simp] theorem State.setP_deviceWrites (v : Byte) : (s.setP v).deviceWrites = s.deviceWrites := rfl

@[simp] theorem State.setEA_cpu (v : Word) : (s.setEA v).cpu = { s.cpu with ea := v } := rfl
@[simp] theorem State.setEA_bus (v : Word) : (s.setEA v).bus = s.bus := rfl
@[simp] theorem State.setEA_ppu (v : Word) : (s.setEA v).ppu = s.ppu := rfl
@[simp] theorem State.setEA_apu (v : Word) : (s.setEA v).apu = s.apu := rfl
@[simp] theorem State.setEA_cart (v : Word) : (s.setEA v).cart = s.cart := rfl
@[simp] theorem State.setEA_params (v : Word) : (s.setEA v).params = s.params := rfl
@[simp] theorem State.setEA_draws (v : Word) : (s.setEA v).draws = s.draws := rfl
@[simp] theorem State.setEA_retired (v : Word) : (s.setEA v).retired = s.retired := rfl
@[simp] theorem State.setEA_samples (v : Word) : (s.setEA v).samples = s.samples := rfl
@[simp] theorem State.setEA_deviceWrites (v : Word) : (s.setEA v).deviceWrites = s.deviceWrites := rfl

@[simp] theorem State.setCycles_cpu (n : Nat) : (s.setCycles n).cpu = { s.cpu with cyclesRemaining := n } := rfl
@[simp] theorem State.setCycles_bus (n : Nat) : (s.setCycles n).bus = s.bus := rfl
@[simp] theorem State.setCycles_ppu (n : Nat) : (s.setCycles n).ppu = s.ppu := rfl
@[simp] theorem State.setCycles_apu (n : Nat) : (s.setCycles n).apu = s.apu := rfl
@[simp] theorem State.setCycles_cart (n : Nat) : (s.setCycles n).cart = s.cart := rfl
@[simp] theorem State.setCycles_params (n : Nat) : (s.setCycles n).params = s.params := rfl
@[simp] theorem State.setCycles_draws (n : Nat) : (s.setCycles n).draws = s.draws := rfl
@[simp] theorem State.setCycles_retired (n : Nat) : (s.setCycles n).retired = s.retired := rfl
@[simp] theorem State.setCycles_samples (n : Nat) : (s.setCycles n).samples = s.samples := rfl
@[simp] theorem State.setCycles_deviceWrites (n : Nat) : (s.setCycles n).deviceWrites = s.deviceWrites := rfl

@[simp] theorem State.setNZ_cpu (v : Byte) : (s.setNZ v).cpu = { s.cpu with p := putNZ s.cpu.p v } := rfl
@[simp] theorem State.setNZ_bus (v : Byte) : (s.setNZ v).bus = s.bus := rfl
@[simp] theorem State.setNZ_ppu (v : Byte) : (s.setNZ v).ppu = s.ppu := rfl
@[simp] theorem State.setNZ_apu (v : Byte) : (s.setNZ v).apu = s.apu := rfl
@[simp] theorem State.setNZ_cart (v : Byte) : (s.setNZ v).cart = s.cart := rfl
@[simp] theorem State.setNZ_params (v : Byte) : (s.setNZ v).params = s.params := rfl
@[simp] theorem State.setNZ_draws (v : Byte) : (s.setNZ v).draws = s.draws := rfl
@[simp] theorem State.setNZ_retired (v : Byte) : (s.setNZ v).retired = s.retired := rfl
@[simp] theorem State.setNZ_samples (v : Byte) : (s.setNZ v).samples = s.samples := rfl
@[simp] theorem State.setNZ_deviceWrites (v : Byte) : (s.setNZ v).deviceWrites = s.deviceWrites := rfl

@[simp] theorem State.stall_cpu (n : Nat) : (s.stall n).cpu = { s.cpu with stallRemaining := s.cpu.stallRemaining + n } := rfl
@[simp] theorem State.stall_bus (n : Nat) : (s.stall n).bus = s.bus := rfl
@[simp] theorem State.stall_ppu (n : Nat) : (s.stall n).ppu = s.ppu := rfl
@[simp] theorem State.stall_apu (n : Nat) : (s.stall n).apu = s.apu := rfl
@[simp] theorem State.stall_cart (n : Nat) : (s.stall n).cart = s.cart := rfl
@[simp] theorem State.stall_params (n : Nat) : (s.stall n).params = s.params := rfl
@[simp] theorem State.stall_draws (n : Nat) : (s.stall n).draws = s.draws := rfl
@[simp] theorem State.stall_retired (n : Nat) : (s.stall n).retired = s.retired := rfl
@[simp] theorem State.stall_samples (n : Nat) : (s.stall n).samples = s.samples := rfl
@[simp] theorem State.stall_deviceWrites (n : Nat) : (s.stall n).deviceWrites = s.deviceWrites := rfl

end Sys2Proof.Machine
end

