-- ==== Sys2Proof/Laws/Ops.lean ====
section
/-! SUPPORT. What each shared operation over the bus can do, said once. -/

namespace Sys2Proof.Machine

/-! Reads. -/

theorem busReadWith_memory {addr : Word} (h : IsMemory addr) (ro : Bool) (s : State) :
    busReadWith ro addr s = (peek s addr, s) := by
  unfold IsMemory at h
  have h1 : ¬(0x2000 ≤ addr.toNat ∧ addr.toNat ≤ 0x3FFF) := by omega
  have h2 : addr.toNat ≠ 0x4015 := by omega
  have h3 : addr.toNat ≠ 0x4016 := by omega
  have h4 : addr.toNat ≠ 0x4017 := by omega
  have h5 : ¬(0x4000 ≤ addr.toNat ∧ addr.toNat ≤ 0x4014) := by omega
  simp only [peek, busReadWith, if_neg h1, if_neg h2, if_neg h3, if_neg h4, if_neg h5]
  cases cartCpuRead s.cart addr <;> simp
  split <;> rfl

/-- A read of memory returns what is there and changes nothing. -/
theorem busRead_memory {addr : Word} (h : IsMemory addr) (s : State) : busRead addr s = (peek s addr, s) :=
  busReadWith_memory h false s

/-- The value of CPU RAM, with its mirrors (spec/20_memory.md R41). -/
theorem peek_ram {addr : Word} (h : addr.toNat ≤ 0x1FFF) (s : State) :
    peek s addr = readCell s.bus.ram (addr.toNat % 2048) := by
  have h1 : ¬(0x2000 ≤ addr.toNat ∧ addr.toNat ≤ 0x3FFF) := by omega
  have h2 : addr.toNat ≠ 0x4015 := by omega
  have h3 : addr.toNat ≠ 0x4016 := by omega
  have h4 : addr.toNat ≠ 0x4017 := by omega
  have h5 : ¬(0x4000 ≤ addr.toNat ∧ addr.toNat ≤ 0x4014) := by omega
  have h6 : addr.toNat < 0x6000 := by omega
  simp [peek, busReadWith, h1, h2, h3, h4, h5, h, cartCpuRead, h6]

theorem busRead_ram {addr : Word} (h : addr.toNat ≤ 0x1FFF) (s : State) :
    busRead addr s = (readCell s.bus.ram (addr.toNat % 2048), s) := by
  rw [busRead_memory (.inl h), peek_ram h]

/-- The value of PRG RAM (spec/64_cartridge.md R232). -/
theorem peek_prgRam {addr : Word} (h : 0x6000 ≤ addr.toNat) (h' : addr.toNat ≤ 0x7FFF) (s : State) :
    peek s addr = readCell s.cart.prgRam (addr.toNat - 0x6000) := by
  have h1 : ¬(0x2000 ≤ addr.toNat ∧ addr.toNat ≤ 0x3FFF) := by omega
  have h2 : addr.toNat ≠ 0x4015 := by omega
  have h3 : addr.toNat ≠ 0x4016 := by omega
  have h4 : addr.toNat ≠ 0x4017 := by omega
  have h5 : ¬(0x4000 ≤ addr.toNat ∧ addr.toNat ≤ 0x4014) := by omega
  have h6 : ¬ addr.toNat < 0x6000 := by omega
  simp [peek, busReadWith, h1, h2, h3, h4, h5, cartCpuRead, h6, h']

/-- The value of PRG ROM, through the mapper (spec/64_cartridge.md R232). -/
theorem peek_prg {addr : Word} (h : 0x8000 ≤ addr.toNat) (s : State) :
    peek s addr = readCell s.cart.prg (prgOffset s.cart addr) := by
  have h1 : ¬(0x2000 ≤ addr.toNat ∧ addr.toNat ≤ 0x3FFF) := by omega
  have h2 : addr.toNat ≠ 0x4015 := by omega
  have h3 : addr.toNat ≠ 0x4016 := by omega
  have h4 : addr.toNat ≠ 0x4017 := by omega
  have h5 : ¬(0x4000 ≤ addr.toNat ∧ addr.toNat ≤ 0x4014) := by omega
  have h6 : ¬ addr.toNat < 0x6000 := by omega
  have h7 : ¬ addr.toNat ≤ 0x7FFF := by omega
  simp [peek, busReadWith, h1, h2, h3, h4, h5, cartCpuRead, h6, h7]

/-- What CPU memory reads as depends on CPU RAM and the cartridge only. -/
theorem peek_memory_congr {addr : Word} (h : IsMemory addr) {s t : State} (hr : t.bus.ram = s.bus.ram)
    (hc : t.cart = s.cart) : peek t addr = peek s addr := by
  rcases h with h | h
  · rw [peek_ram h, peek_ram h, hr]
  · by_cases h' : addr.toNat ≤ 0x7FFF
    · rw [peek_prgRam h h', peek_prgRam h h', hc]
    · rw [peek_prg (by omega), peek_prg (by omega), hc]

theorem peek_cart_congr {addr : Word} (h : 0x6000 ≤ addr.toNat) {s t : State} (hc : t.cart = s.cart) :
    peek t addr = peek s addr := by
  by_cases h' : addr.toNat ≤ 0x7FFF
  · rw [peek_prgRam h h', peek_prgRam h h', hc]
  · rw [peek_prg (by omega), peek_prg (by omega), hc]

/-- Everything a bus read can change: the PPU's vblank flag, toggle, read buffer and `v`, the frame IRQ
flag, the controller shift registers and the count of draws (spec/20_memory.md R48). -/
theorem busReadWith_frame (ro : Bool) (addr : Word) (s t : State) (ht : (busReadWith ro addr s).2 = t) :
    t =
      { s with
        ppu := { s.ppu with
          vblank := t.ppu.vblank, w := t.ppu.w, readBuffer := t.ppu.readBuffer, v := t.ppu.v }
        apu := { s.apu with frame := { s.apu.frame with irq := t.apu.frame.irq } }
        bus := { s.bus with shift1 := t.bus.shift1, shift2 := t.bus.shift2 }
        draws := t.draws } := by
  subst ht
  unfold busReadWith
  split
  · unfold ppuRegRead
    split <;> cases ro <;> rfl
  split
  · cases ro <;> rfl
  split
  · unfold controllerRead1 latchedForRead
    cases ro
    · simp only [Bool.false_eq_true, if_false]
      split <;> rfl
    · rfl
  split
  · unfold controllerRead2 latchedForRead
    cases ro
    · simp only [Bool.false_eq_true, if_false]
      split <;> rfl
    · rfl
  split
  · rfl
  split
  · rfl
  · split <;> rfl

section
variable (addr : Word) (s : State)

@[simp] theorem busRead_cpu : (busRead addr s).2.cpu = s.cpu :=
  congrArg (·.cpu) (busReadWith_frame false addr s _ rfl)
@[simp] theorem busRead_cart : (busRead addr s).2.cart = s.cart :=
  congrArg (·.cart) (busReadWith_frame false addr s _ rfl)
@[simp] theorem busRead_params : (busRead addr s).2.params = s.params :=
  congrArg (·.params) (busReadWith_frame false addr s _ rfl)
@[simp] theorem busRead_retired : (busRead addr s).2.retired = s.retired :=
  congrArg (·.retired) (busReadWith_frame false addr s _ rfl)
@[simp] theorem busRead_samples : (busRead addr s).2.samples = s.samples :=
  congrArg (·.samples) (busReadWith_frame false addr s _ rfl)
@[simp] theorem busRead_deviceWrites : (busRead addr s).2.deviceWrites = s.deviceWrites :=
  congrArg (·.deviceWrites) (busReadWith_frame false addr s _ rfl)
@[simp] theorem busRead_busRam : (busRead addr s).2.bus.ram = s.bus.ram :=
  congrArg (·.bus.ram) (busReadWith_frame false addr s _ rfl)
@[simp] theorem busRead_vram : (busRead addr s).2.ppu.vram = s.ppu.vram :=
  congrArg (·.ppu.vram) (busReadWith_frame false addr s _ rfl)
@[simp] theorem busRead_palette : (busRead addr s).2.ppu.palette = s.ppu.palette :=
  congrArg (·.ppu.palette) (busReadWith_frame false addr s _ rfl)
@[simp] theorem busRead_oam : (busRead addr s).2.ppu.oam = s.ppu.oam :=
  congrArg (·.ppu.oam) (busReadWith_frame false addr s _ rfl)
@[simp] theorem busRead_framebuffer : (busRead addr s).2.ppu.framebuffer = s.ppu.framebuffer :=
  congrArg (·.ppu.framebuffer) (busReadWith_frame false addr s _ rfl)

end

/-- A read with `read_only = true` changes nothing (spec/20_memory.md R48). -/
theorem busReadWith_readOnly (addr : Word) (s : State) : (busReadWith true addr s).2 = s := by
  unfold busReadWith
  split
  · unfold ppuRegRead; split <;> rfl
  split
  · rfl
  split
  · rfl
  split
  · rfl
  split
  · rfl
  split
  · rfl
  · split <;> rfl

/-! The stack (spec/10_state.md R21, spec/00_scope.md R14). -/

theorem stackAddr_toNat (sp : Byte) : (stackAddr sp).toNat = 256 + sp.toNat := by
  rw [stackAddr, mkWord_toNat]; rfl

theorem isMemory_stackAddr (sp : Byte) : IsMemory (stackAddr sp) := by
  have := sp.isLt
  left
  rw [stackAddr_toNat]
  omega

theorem stackAddr_ram (sp : Byte) : (stackAddr sp).toNat % 2048 = 256 + sp.toNat := by
  have := sp.isLt
  rw [stackAddr_toNat]
  omega

/-! What a write puts out (spec/61_bus.md R179). -/

theorem isDevice_iff (addr : Word) :
    isDevice addr = true ↔ (0x2000 ≤ addr.toNat ∧ addr.toNat ≤ 0x4017) ∨ 0x6000 ≤ addr.toNat := by
  simp only [isDevice, Bool.or_eq_true, Bool.and_eq_true, decide_eq_true_eq]

/-- A write to CPU RAM, or to nobody's address, is no output. -/
theorem noteWrite_other {addr : Word} (h : ¬((0x2000 ≤ addr.toNat ∧ addr.toNat ≤ 0x4017) ∨ 0x6000 ≤ addr.toNat))
    (v : Byte) (s : State) : noteWrite addr v s = s := by
  rw [← isDevice_iff] at h
  unfold noteWrite
  rw [if_neg h]

/-- A write to a device is an output, and changes nothing else by being one. -/
theorem noteWrite_device {addr : Word} (h : (0x2000 ≤ addr.toNat ∧ addr.toNat ≤ 0x4017) ∨ 0x6000 ≤ addr.toNat)
    (v : Byte) (s : State) : noteWrite addr v s = { s with deviceWrites := (addr, v) :: s.deviceWrites } := by
  rw [← isDevice_iff] at h
  unfold noteWrite
  rw [if_pos h]

/-- CPU RAM with one byte written. -/
def State.setRam (s : State) (n : Nat) (v : Byte) : State :=
  { s with bus := { s.bus with ram := writeCell s.bus.ram n v } }

/-- A write to CPU RAM stores the byte and does nothing else (spec/20_memory.md R40, R41). -/
theorem busWrite_ram {addr : Word} (h : addr.toNat ≤ 0x1FFF) (v : Byte) (s : State) :
    busWrite addr v s = s.setRam (addr.toNat % 2048) v := by
  have h1 : ¬(0x2000 ≤ addr.toNat ∧ addr.toNat ≤ 0x3FFF) := by omega
  have h2 : addr.toNat ≠ 0x4014 := by omega
  have h3 : addr.toNat ≠ 0x4016 := by omega
  have h4 : ¬(0x4000 ≤ addr.toNat ∧ addr.toNat ≤ 0x4017) := by omega
  have h5 : ¬ 0x6000 ≤ addr.toNat := by omega
  rw [busWrite, noteWrite_other (by omega)]
  simp [routeWrite, h1, h2, h3, h4, h5, h, State.setRam]

/-- A push stores one byte in the stack page and decrements SP. -/
theorem push_eq (v : Byte) (s : State) :
    push v s = (s.setRam (256 + s.cpu.sp.toNat) v).setSP (s.cpu.sp - 1) := by
  have h : (stackAddr s.cpu.sp).toNat ≤ 0x1FFF := by
    have := s.cpu.sp.isLt
    rw [stackAddr_toNat]; omega
  simp only [push, busWrite_ram h, stackAddr_ram]
  rfl

/-- A pull increments SP, reads one byte of the stack page, and does nothing else. -/
theorem pull_eq (s : State) :
    pull s = (readCell s.bus.ram (256 + (s.cpu.sp + 1).toNat), s.setSP (s.cpu.sp + 1)) := by
  have h : (stackAddr (s.cpu.sp + 1)).toNat ≤ 0x1FFF := by
    have := (s.cpu.sp + 1).isLt
    rw [stackAddr_toNat]; omega
  simp only [pull, State.setSP_cpu, busRead_ram h, stackAddr_ram, State.setSP_bus]

/-- Pushing a word: the high byte first, at the higher address (spec/20_memory.md R44). -/
theorem pushWord_eq (w : Word) (s : State) :
    pushWord w s =
      ((s.setRam (256 + s.cpu.sp.toNat) (hiByte w)).setRam (256 + (s.cpu.sp - 1).toNat) (loByte w)).setSP
        (s.cpu.sp - 2) := by
  have h : s.cpu.sp - 1 - 1 = s.cpu.sp - 2 := by bv_omega
  simp only [pushWord, push_eq, State.setRam, State.setSP, h]

/-- Pulling a word: the low byte first. -/
theorem pullWord_eq (s : State) :
    pullWord s =
      (mkWord (readCell s.bus.ram (256 + (s.cpu.sp + 2).toNat)) (readCell s.bus.ram (256 + (s.cpu.sp + 1).toNat)),
        s.setSP (s.cpu.sp + 2)) := by
  have h : s.cpu.sp + 1 + 1 = s.cpu.sp + 2 := by bv_omega
  simp only [pullWord, pull_eq, State.setSP, h]

/-- Reading a word from two addresses of memory changes nothing. -/
theorem read16_memory {lo hi : Word} (hlo : IsMemory lo) (hhi : IsMemory hi) (s : State) :
    read16 lo hi s = (mkWord (peek s hi) (peek s lo), s) := by
  simp only [read16, busRead_memory hlo, busRead_memory hhi]

/-! Exceptions. -/

/-- The three bytes an exception pushes. -/
def State.pushFrame (s : State) (status : Byte) : State :=
  ((s.setRam (256 + s.cpu.sp.toNat) (hiByte s.cpu.pc)).setRam (256 + (s.cpu.sp - 1).toNat)
    (loByte s.cpu.pc)).setRam (256 + (s.cpu.sp - 2).toNat) status

/-- Taking an exception whose vector is in cartridge space: three bytes of the stack page, SP, I and PC
change, and nothing else (spec/60_exceptions.md R152). -/
theorem takeException_eq {vector : Word} (h : 0x6000 ≤ vector.toNat) (h' : 0x6000 ≤ (vector + 1).toNat)
    (status : Byte) (s : State) :
    takeException vector status s =
      (((s.pushFrame status).setSP (s.cpu.sp - 3)).setP (putI s.cpu.p true)).setPC
        (mkWord (peek s (vector + 1)) (peek s vector)) := by
  have hsp : s.cpu.sp - 2 - 1 = s.cpu.sp - 3 := by bv_omega
  simp only [takeException, pushWord_eq, push_eq, read16_memory (.inr h) (.inr h')]
  rw [peek_cart_congr h' (s := s), peek_cart_congr h (s := s)]
  · simp only [State.pushFrame, State.setRam, State.setSP, State.setP, State.setPC, hsp]
  · rfl
  · rfl

/-- The return from an exception: P, PC and SP change, and nothing else (spec/60_exceptions.md R159). -/
theorem returnFromException_eq (s : State) :
    returnFromException s =
      ((s.setP (pulledStatus (readCell s.bus.ram (256 + (s.cpu.sp + 1).toNat)))).setSP (s.cpu.sp + 3)).setPC
        (mkWord (readCell s.bus.ram (256 + (s.cpu.sp + 3).toNat))
          (readCell s.bus.ram (256 + (s.cpu.sp + 2).toNat))) := by
  have h2 : s.cpu.sp + 1 + 1 = s.cpu.sp + 2 := by bv_omega
  have h3 : s.cpu.sp + 1 + 2 = s.cpu.sp + 3 := by bv_omega
  simp only [returnFromException, pull_eq, pullWord_eq, State.setP, State.setSP, State.setPC, h2, h3]

/-! Writes. -/

/-- The OAM copy byte by byte: the last of `n + 1` reads the byte `n` after the first (spec/61_bus.md R172). -/
theorem oamCopy_succ (n : Nat) (addr : Word) (s : State) :
    oamCopy (n + 1) addr s =
      { (busRead (addr + BitVec.ofNat 16 n) (oamCopy n addr s)).2 with
        ppu := writeOam (busRead (addr + BitVec.ofNat 16 n) (oamCopy n addr s)).2.ppu
          (busRead (addr + BitVec.ofNat 16 n) (oamCopy n addr s)).1 } := by
  induction n generalizing addr s with
  | zero => simp [oamCopy]
  | succ n ih =>
    have ha : addr + 1 + BitVec.ofNat 16 n = addr + BitVec.ofNat 16 (n + 1) := by
      apply BitVec.eq_of_toNat_eq
      simp [BitVec.toNat_add]
      omega
    conv => lhs; rw [oamCopy]
    dsimp only
    rw [ih, ha]
    rfl

theorem oamCopy_cpu (n : Nat) (addr : Word) (s : State) : (oamCopy n addr s).cpu = s.cpu := by
  induction n generalizing addr s with
  | zero => rfl
  | succ n ih => simp only [oamCopy, ih, busRead_cpu]

theorem oamCopy_cart (n : Nat) (addr : Word) (s : State) : (oamCopy n addr s).cart = s.cart := by
  induction n generalizing addr s with
  | zero => rfl
  | succ n ih => simp only [oamCopy, ih, busRead_cart]

theorem oamCopy_ram (n : Nat) (addr : Word) (s : State) : (oamCopy n addr s).bus.ram = s.bus.ram := by
  induction n generalizing addr s with
  | zero => rfl
  | succ n ih => simp only [oamCopy, ih, busRead_busRam]

theorem oamCopy_params (n : Nat) (addr : Word) (s : State) : (oamCopy n addr s).params = s.params := by
  induction n generalizing addr s with
  | zero => rfl
  | succ n ih => simp only [oamCopy, ih, busRead_params]

/-- Of the CPU, a bus write can change the stall count only (spec/61_bus.md R172). -/
theorem busWrite_cpu (addr : Word) (v : Byte) (s : State) :
    (busWrite addr v s).cpu =
      { s.cpu with stallRemaining := (busWrite addr v s).cpu.stallRemaining } := by
  simp only [busWrite, noteWrite]
  unfold routeWrite
  split
  · unfold ppuRegWrite; split <;> rfl
  split
  · simp only [oamDma, State.stall_cpu, oamCopy_cpu]
  split
  · unfold controllerStrobe; split <;> rfl
  split
  · rfl
  split
  · rfl
  split <;> rfl

theorem busWrite_params (addr : Word) (v : Byte) (s : State) : (busWrite addr v s).params = s.params := by
  simp only [busWrite, noteWrite]
  unfold routeWrite
  split
  · unfold ppuRegWrite; split <;> rfl
  split
  · simp only [oamDma, State.stall_params, oamCopy_params]
  split
  · unfold controllerStrobe; split <;> rfl
  split
  · rfl
  split
  · rfl
  split <;> rfl

/-- A write outside the cartridge and the PPU registers leaves the cartridge alone. -/
theorem busWrite_cart {addr : Word} (h : addr.toNat ≤ 0x1FFF ∨ (0x4000 ≤ addr.toNat ∧ addr.toNat < 0x6000))
    (v : Byte) (s : State) : (busWrite addr v s).cart = s.cart := by
  have h1 : ¬(0x2000 ≤ addr.toNat ∧ addr.toNat ≤ 0x3FFF) := by omega
  have h2 : ¬ 0x6000 ≤ addr.toNat := by omega
  simp only [busWrite, noteWrite, routeWrite, if_neg h1, if_neg h2]
  split
  · simp only [oamDma, State.stall_cart, oamCopy_cart]
  split
  · unfold controllerStrobe; split <;> rfl
  split
  · rfl
  split <;> rfl

/-- A write outside CPU RAM leaves it alone. -/
theorem busWrite_busRam {addr : Word} (h : 0x2000 ≤ addr.toNat) (v : Byte) (s : State) :
    (busWrite addr v s).bus.ram = s.bus.ram := by
  have h1 : ¬ addr.toNat ≤ 0x1FFF := by omega
  simp only [busWrite, noteWrite, routeWrite, if_neg h1]
  split
  · unfold ppuRegWrite; split <;> rfl
  split
  · simp only [oamDma, State.stall_bus, oamCopy_ram]
  split
  · unfold controllerStrobe; split <;> rfl
  split
  · rfl
  split <;> rfl

/-- A write to an address that is nobody's is discarded (spec/20_memory.md R40, D19). -/
theorem busWrite_unmapped {addr : Word} (h : 0x4018 ≤ addr.toNat) (h' : addr.toNat < 0x6000) (v : Byte)
    (s : State) : busWrite addr v s = s := by
  have h1 : ¬(0x2000 ≤ addr.toNat ∧ addr.toNat ≤ 0x3FFF) := by omega
  have h2 : addr.toNat ≠ 0x4014 := by omega
  have h3 : addr.toNat ≠ 0x4016 := by omega
  have h4 : ¬(0x4000 ≤ addr.toNat ∧ addr.toNat ≤ 0x4017) := by omega
  have h5 : ¬ 0x6000 ≤ addr.toNat := by omega
  have h6 : ¬ addr.toNat ≤ 0x1FFF := by omega
  rw [busWrite, noteWrite_other (by omega)]
  simp [routeWrite, h1, h2, h3, h4, h5, h6]

/-! The regions of the bus, one by one (spec/20_memory.md R40, R42). -/

/-- The number of a PPU register: the address modulo 8. -/
theorem ppuReg_toNat (addr : Word) : (addr.extractLsb' 0 3).toNat = addr.toNat % 8 := by
  simp [BitVec.extractLsb'_toNat]

theorem busReadWith_ppu {addr : Word} (h : 0x2000 ≤ addr.toNat) (h' : addr.toNat ≤ 0x3FFF) (ro : Bool)
    (s : State) : busReadWith ro addr s = ppuRegRead ro (addr.extractLsb' 0 3) s := by
  unfold busReadWith
  rw [if_pos ⟨h, h'⟩]

theorem busWrite_ppu {addr : Word} (h : 0x2000 ≤ addr.toNat) (h' : addr.toNat ≤ 0x3FFF) (v : Byte)
    (s : State) : busWrite addr v s = noteWrite addr v (ppuRegWrite (addr.extractLsb' 0 3) v s) := by
  unfold busWrite routeWrite
  rw [if_pos ⟨h, h'⟩]

/-- A write to an APU register (spec/63_apu.md section 3). -/
theorem busWrite_apu {addr : Word} (h : 0x4000 ≤ addr.toNat) (h' : addr.toNat ≤ 0x4017)
    (h4 : addr.toNat ≠ 0x4014) (h6 : addr.toNat ≠ 0x4016) (v : Byte) (s : State) :
    busWrite addr v s =
      { s with apu := apuWrite s.apu addr v, deviceWrites := (addr, v) :: s.deviceWrites } := by
  rw [busWrite, noteWrite_device (by omega)]
  unfold routeWrite
  rw [if_neg (by omega), if_neg h4, if_neg h6, if_pos ⟨h, h'⟩]

/-- A write to the cartridge's space (spec/64_cartridge.md R232). -/
theorem busWrite_cartSpace {addr : Word} (h : 0x6000 ≤ addr.toNat) (v : Byte) (s : State) :
    busWrite addr v s =
      { s with cart := cartCpuWrite s.cart addr v, deviceWrites := (addr, v) :: s.deviceWrites } := by
  have h1 : ¬(0x2000 ≤ addr.toNat ∧ addr.toNat ≤ 0x3FFF) := by omega
  have h2 : addr.toNat ≠ 0x4014 := by omega
  have h3 : addr.toNat ≠ 0x4016 := by omega
  have h4 : ¬(0x4000 ≤ addr.toNat ∧ addr.toNat ≤ 0x4017) := by omega
  rw [busWrite, noteWrite_device (.inr h)]
  simp only [routeWrite, if_neg h1, if_neg h2, if_neg h3, if_neg h4, if_pos h]

/-- A read of a write-only APU register or of nobody's address gives 0x00 and changes nothing (D19). -/
theorem busReadWith_hole {addr : Word}
    (h : (0x4000 ≤ addr.toNat ∧ addr.toNat ≤ 0x4014) ∨ (0x4018 ≤ addr.toNat ∧ addr.toNat ≤ 0x5FFF)) (ro : Bool)
    (s : State) : busReadWith ro addr s = (0, s) := by
  have h1 : ¬(0x2000 ≤ addr.toNat ∧ addr.toNat ≤ 0x3FFF) := by omega
  have h2 : addr.toNat ≠ 0x4015 := by omega
  have h3 : addr.toNat ≠ 0x4016 := by omega
  have h4 : addr.toNat ≠ 0x4017 := by omega
  unfold busReadWith
  rw [if_neg h1, if_neg h2, if_neg h3, if_neg h4]
  split
  · rfl
  · have h5 : cartCpuRead s.cart addr = none := by
      unfold cartCpuRead
      rw [if_pos (by omega)]
    simp only [h5]
    rw [if_neg (by omega)]

/-- The OAM copy leaves the other PPU memories and the retirement report alone. -/
theorem oamCopy_ppu (n : Nat) (addr : Word) (s : State) :
    (oamCopy n addr s).ppu.vram = s.ppu.vram ∧ (oamCopy n addr s).ppu.palette = s.ppu.palette ∧
      (oamCopy n addr s).retired = s.retired := by
  induction n generalizing addr s with
  | zero => exact ⟨rfl, rfl, rfl⟩
  | succ n ih =>
    simp only [oamCopy]
    have h := ih (addr + 1)
      { (busRead addr s).2 with ppu := writeOam (busRead addr s).2.ppu (busRead addr s).1 }
    simpa [writeOam] using h

/-- Only a write to OAMDMA stalls the CPU (spec/61_bus.md R172). -/
theorem busWrite_stall {addr : Word} (h : addr.toNat ≠ 0x4014) (v : Byte) (s : State) :
    (busWrite addr v s).cpu.stallRemaining = s.cpu.stallRemaining := by
  simp only [busWrite, noteWrite]
  unfold routeWrite
  rw [if_neg h]
  split
  · unfold ppuRegWrite; split <;> rfl
  split
  · unfold controllerStrobe; split <;> rfl
  split
  · rfl
  split
  · rfl
  split <;> rfl

theorem busWrite_retired (addr : Word) (v : Byte) (s : State) : (busWrite addr v s).retired = s.retired := by
  simp only [busWrite, noteWrite]
  unfold routeWrite
  split
  · unfold ppuRegWrite; split <;> rfl
  split
  · simp only [oamDma, State.stall_retired, oamCopy_ppu]
  split
  · unfold controllerStrobe; split <;> rfl
  split
  · rfl
  split
  · rfl
  split <;> rfl

theorem oamCopy_deviceWrites (n : Nat) (addr : Word) (s : State) :
    (oamCopy n addr s).deviceWrites = s.deviceWrites := by
  induction n generalizing addr s with
  | zero => rfl
  | succ n ih => simp only [oamCopy, ih, busRead_deviceWrites]

/-- Every write to a device is put out, and no other (spec/61_bus.md R179). -/
theorem busWrite_deviceWrites (addr : Word) (v : Byte) (s : State) :
    (busWrite addr v s).deviceWrites =
      if isDevice addr then (addr, v) :: s.deviceWrites else s.deviceWrites := by
  have h : (routeWrite addr v s).deviceWrites = s.deviceWrites := by
    unfold routeWrite
    split
    · unfold ppuRegWrite; split <;> rfl
    split
    · simp only [oamDma, State.stall_deviceWrites, oamCopy_deviceWrites]
    split
    · unfold controllerStrobe; split <;> rfl
    split
    · rfl
    split
    · rfl
    split <;> rfl
  simp only [busWrite, noteWrite, h]

/-- A write outside PRG RAM leaves it alone, and no write changes PRG ROM (spec/64_cartridge.md R232, D67). -/
theorem busWrite_prg (addr : Word) (v : Byte) (s : State) :
    (busWrite addr v s).cart.prg = s.cart.prg ∧
      (addr.toNat < 0x6000 ∨ 0x7FFF < addr.toNat → (busWrite addr v s).cart.prgRam = s.cart.prgRam) := by
  by_cases hc : 0x6000 ≤ addr.toNat
  · rw [busWrite_cartSpace hc]
    unfold cartCpuWrite controlWrite
    dsimp only
    split
    · exact ⟨rfl, fun h => by omega⟩
    · split <;> exact ⟨rfl, fun _ => rfl⟩
  · by_cases hp : 0x2000 ≤ addr.toNat ∧ addr.toNat ≤ 0x3FFF
    · rw [busWrite_ppu hp.1 hp.2]
      unfold ppuRegWrite
      split
      all_goals try exact ⟨rfl, fun _ => rfl⟩
      simp only [writeData, ppuWrite, chrWrite]
      split
      · split <;> exact ⟨rfl, fun _ => rfl⟩
      · split <;> exact ⟨rfl, fun _ => rfl⟩
    · rw [busWrite_cart (by omega)]
      exact ⟨rfl, fun _ => rfl⟩

/-- Only PPUDATA writes the nametables, the palette and CHR memory (spec/62_ppu.md R193). -/
theorem busWrite_ppuMemories {addr : Word}
    (h : addr.toNat < 0x2000 ∨ 0x3FFF < addr.toNat ∨ addr.toNat % 8 ≠ 7) (v : Byte) (s : State) :
    (busWrite addr v s).ppu.vram = s.ppu.vram ∧ (busWrite addr v s).ppu.palette = s.ppu.palette ∧
      (busWrite addr v s).cart.chr = s.cart.chr := by
  by_cases hp : 0x2000 ≤ addr.toNat ∧ addr.toNat ≤ 0x3FFF
  · rw [busWrite_ppu hp.1 hp.2]
    simp only [ppuRegWrite, ppuReg_toNat]
    split
    all_goals first
      | exact ⟨rfl, rfl, rfl⟩
      | (exfalso; omega)
      | (refine ⟨?_, ?_, rfl⟩ <;> simp only [writeScroll, writeAddr] <;> split <;> rfl)
  · simp only [busWrite, noteWrite]
    unfold routeWrite
    rw [if_neg hp]
    split
    · refine ⟨?_, ?_, ?_⟩ <;> simp only [oamDma, State.stall_ppu, State.stall_cart, oamCopy_cart, oamCopy_ppu]
    split
    · unfold controllerStrobe; split <;> exact ⟨rfl, rfl, rfl⟩
    split
    · exact ⟨rfl, rfl, rfl⟩
    split
    · refine ⟨rfl, rfl, ?_⟩
      simp only [cartCpuWrite, controlWrite]
      split
      · rfl
      · split <;> rfl
    split <;> exact ⟨rfl, rfl, rfl⟩

/-- Only OAMDATA and OAMDMA write OAM (spec/62_ppu.md R189, R194). -/
theorem busWrite_oam {addr : Word} (h : addr.toNat < 0x2000 ∨ 0x3FFF < addr.toNat ∨ addr.toNat % 8 ≠ 4)
    (h' : addr.toNat ≠ 0x4014) (v : Byte) (s : State) : (busWrite addr v s).ppu.oam = s.ppu.oam := by
  by_cases hp : 0x2000 ≤ addr.toNat ∧ addr.toNat ≤ 0x3FFF
  · rw [busWrite_ppu hp.1 hp.2]
    simp only [ppuRegWrite, ppuReg_toNat]
    split
    all_goals first
      | rfl
      | (exfalso; omega)
      | (simp only [writeScroll, writeAddr]; split <;> rfl)
      | (simp only [writeData, ppuWrite]; split <;> [rfl; (split <;> rfl)])
  · simp only [busWrite, noteWrite]
    unfold routeWrite
    rw [if_neg hp, if_neg h']
    split
    · unfold controllerStrobe; split <;> rfl
    split
    · rfl
    split
    · rfl
    split <;> rfl

/-- The OAM copy from memory: byte `j` of OAM takes the byte that is `j` minus OAMADDR, modulo 256, into the
source, if that many are copied, and OAMADDR advances by their number (spec/62_ppu.md R194). -/
theorem oamCopy_memory (n : Nat) (addr : Word) (s : State)
    (hm : ∀ i, i < n → IsMemory (addr + BitVec.ofNat 16 i)) (hn : n ≤ 256) :
    (∀ j, readCell (oamCopy n addr s).ppu.oam j =
      if j < 256 ∧ (j + 256 - s.ppu.oamAddr.toNat) % 256 < n then
        peek s (addr + BitVec.ofNat 16 ((j + 256 - s.ppu.oamAddr.toNat) % 256))
      else readCell s.ppu.oam j) ∧
    oamCopy n addr s =
      { s with ppu := { s.ppu with
        oam := (oamCopy n addr s).ppu.oam, oamAddr := s.ppu.oamAddr + BitVec.ofNat 8 n } } := by
  induction n generalizing addr s with
  | zero => exact ⟨fun j => by simp [oamCopy], by simp [oamCopy]⟩
  | succ n ih =>
    have hm0 : IsMemory addr := by simpa using hm 0 (by omega)
    obtain ⟨i1, i2⟩ := ih (addr + 1) { s with ppu := writeOam s.ppu (peek s addr) } (fun i hi => by
      have h := hm (i + 1) (by omega)
      rwa [Nat.add_comm i 1, BitVec.ofNat_add, ← BitVec.add_assoc] at h) (by omega)
    have e : oamCopy (n + 1) addr s = oamCopy n (addr + 1) { s with ppu := writeOam s.ppu (peek s addr) } := by
      simp only [oamCopy, busRead_memory hm0]
    rw [e]
    have hA := s.ppu.oamAddr.isLt
    have hA1 : (s.ppu.oamAddr + 1).toNat = (s.ppu.oamAddr.toNat + 1) % 256 := by simp [BitVec.toNat_add]
    refine ⟨fun j => ?_, ?_⟩
    · rw [i1]
      simp only [writeOam, hA1]
      by_cases hj : j < 256
      · by_cases hj0 : j = s.ppu.oamAddr.toNat
        · have e1 : (j + 256 - (s.ppu.oamAddr.toNat + 1) % 256) % 256 = 255 := by omega
          have e2 : (j + 256 - s.ppu.oamAddr.toNat) % 256 = 0 := by omega
          rw [e1, if_neg (by omega), e2, if_pos ⟨hj, by omega⟩, hj0, readCell_writeCell_same]
          simp
        · have e1 : (j + 256 - (s.ppu.oamAddr.toNat + 1) % 256) % 256 + 1 =
              (j + 256 - s.ppu.oamAddr.toNat) % 256 := by omega
          rw [← e1]
          generalize (j + 256 - (s.ppu.oamAddr.toNat + 1) % 256) % 256 = k
          by_cases hk : k < n
          · rw [if_pos ⟨hj, hk⟩, if_pos ⟨hj, by omega⟩]
            rw [Nat.add_comm k 1, BitVec.ofNat_add, ← BitVec.add_assoc]
            have h : IsMemory (addr + 1#16 + BitVec.ofNat 16 k) := by
              have h := hm (k + 1) (by omega)
              rwa [Nat.add_comm k 1, BitVec.ofNat_add, ← BitVec.add_assoc] at h
            exact peek_memory_congr h rfl rfl
          · rw [if_neg (by omega), if_neg (by omega), readCell_writeCell_ne _ _ hj0]
      · rw [if_neg (by omega), if_neg (by omega), readCell_writeCell_ne _ _ (by omega)]
    · rw [i2]
      simp only [writeOam, Nat.add_comm n 1, BitVec.ofNat_add, ← BitVec.add_assoc]
      rfl

end Sys2Proof.Machine
end

