-- ==== Sys2Proof/Laws/Channels.lean ====
section
/-! SUPPORT. The APU's register fields and units as arithmetic (spec/63_apu.md R207 to R226), and that a tick's APU
step loses no interrupt request (R213, R216, R226). -/

namespace Sys2Proof.Machine

/-! Register fields. -/

/-- A field of a byte is the byte divided down, reduced to the field's width. -/
theorem extractLsb'_eq_ofNat (d : Byte) (k n : Nat) :
    d.extractLsb' k n = BitVec.ofNat n (d.toNat / 2 ^ k) := by
  apply BitVec.eq_of_toNat_eq
  simp [BitVec.extractLsb'_toNat, Nat.shiftRight_eq_div_pow]

theorem periodLow_eq (p : BitVec 11) (d : Byte) :
    periodLow p d = BitVec.ofNat 11 (p.toNat / 256 * 256 + d.toNat) := by
  apply BitVec.eq_of_toNat_eq
  have h : periodLow p d = (p.extractLsb' 8 3 ++ d).setWidth 11 := by
    unfold periodLow
    ext i hi
    simp only [BitVec.getElem_or, BitVec.getElem_and, BitVec.getElem_setWidth, BitVec.getLsbD_append,
      BitVec.getLsbD_extractLsb']
    rcases i with _|_|_|_|_|_|_|_|_|_|_|i <;> first | omega | simp
  rw [h, BitVec.toNat_setWidth, BitVec.toNat_append]
  simp only [BitVec.extractLsb'_toNat, Nat.shiftRight_eq_div_pow, BitVec.toNat_ofNat]
  have hp := p.isLt
  have hd := d.isLt
  rw [← Nat.shiftLeft_add_eq_or_of_lt (by omega : d.toNat < 2 ^ 8), Nat.shiftLeft_eq]
  omega

theorem periodHigh_eq (p : BitVec 11) (d : Byte) :
    periodHigh p d = BitVec.ofNat 11 (d.toNat % 8 * 256 + p.toNat % 256) := by
  apply BitVec.eq_of_toNat_eq
  have h : periodHigh p d = (d.extractLsb' 0 3 ++ p.extractLsb' 0 8).setWidth 11 := by
    unfold periodHigh
    ext i hi
    simp only [BitVec.getElem_or, BitVec.getElem_and, BitVec.getElem_setWidth, BitVec.getLsbD_append,
      BitVec.getLsbD_extractLsb', BitVec.getElem_shiftLeft]
    rcases i with _|_|_|_|_|_|_|_|_|_|_|i <;> first | omega | simp
  rw [h, BitVec.toNat_setWidth, BitVec.toNat_append]
  simp only [BitVec.extractLsb'_toNat, Nat.shiftRight_eq_div_pow, BitVec.toNat_ofNat]
  have hp := p.isLt
  have hd := d.isLt
  rw [← Nat.shiftLeft_add_eq_or_of_lt (by omega : p.toNat / 2 ^ 0 % 2 ^ 8 < 2 ^ 8), Nat.shiftLeft_eq]
  omega

theorem lengthOf_eq (d : Byte) : lengthOf d = lengthTable.getD (d.toNat / 8) 0 := by
  unfold lengthOf
  congr 1
  have := d.isLt
  simp [BitVec.extractLsb'_toNat, Nat.shiftRight_eq_div_pow]
  omega

/-! The units. -/

theorem clockLength_toNat (halt : Bool) (l : Byte) :
    (clockLength halt l).toNat = if halt then l.toNat else l.toNat - 1 := by
  unfold clockLength
  cases halt
  · by_cases h : l = 0
    · simp [h]
    · rw [if_pos (by simpa using h)]
      exact bitVec_pred h
  · simp

theorem clockLinear_toNat (t : Triangle) :
    (clockLinear t).linCounter.toNat =
      if t.linReload then t.linReloadValue.toNat else t.linCounter.toNat - 1 := by
  simp only [clockLinear]
  split
  · rfl
  · by_cases h : t.linCounter = 0
    · simp [h]
    · rw [if_pos h]
      exact bitVec_pred h

/-- The sweep's target in integers. -/
theorem sweepTarget_eq (first : Bool) (p : Pulse) :
    sweepTarget first p =
      if p.swNegate then
        (p.period.toNat : Int) - (p.period.toNat / 2 ^ p.swShift.toNat : Nat) - (if first then 1 else 0)
      else (p.period.toNat : Int) + (p.period.toNat / 2 ^ p.swShift.toNat : Nat) := by
  unfold sweepTarget
  simp only [BitVec.toNat_ushiftRight, Nat.shiftRight_eq_div_pow]

/-- Where the sweep may change the period, the target fits it. -/
theorem sweepTarget_fits (first : Bool) (p : Pulse) (hs : p.swShift.toNat ≠ 0)
    (hm : sweepMutes first p = false) :
    ((BitVec.ofInt 11 (sweepTarget first p)).toNat : Int) = sweepTarget first p := by
  simp only [sweepMutes, Bool.or_eq_false_iff, decide_eq_false_iff_not] at hm
  have h0 : 0 ≤ sweepTarget first p := by
    rw [sweepTarget_eq]
    have hle : p.period.toNat / 2 ^ p.swShift.toNat ≤ p.period.toNat / 2 ^ 1 :=
      Nat.div_le_div_left (Nat.pow_le_pow_right (by omega) (by omega)) (by omega)
    generalize p.period.toNat / 2 ^ p.swShift.toNat = z at hle
    split <;> [split; skip] <;> omega
  rw [BitVec.toNat_ofInt]
  omega

/-! Interrupt requests. -/

theorem frameStep_irq {a : Apu} (h : a.frame.irq = true) : (frameStep a).frame.irq = true := by
  unfold frameStep
  dsimp only
  split <;> simp [quarterFrame, halfFrame, raiseFrameIrq, restartFrame, h]

theorem frameStep_dmc (a : Apu) : (frameStep a).dmc = a.dmc := by
  unfold frameStep
  dsimp only
  split <;> simp [quarterFrame, halfFrame, raiseFrameIrq, restartFrame]

theorem frameStep_apuCycle (a : Apu) : (frameStep a).apuCycle = a.apuCycle := by
  unfold frameStep
  dsimp only
  split <;> simp [quarterFrame, halfFrame, raiseFrameIrq, restartFrame]

/-- The DMC's timer leaves its request and its reader's cursor alone. -/
theorem dmcTimer_reader (m : Dmc) :
    (dmcTimer m).irq = m.irq ∧ (dmcTimer m).curAddr = m.curAddr ∧ (dmcTimer m).remaining = m.remaining := by
  unfold dmcTimer dmcOutput
  dsimp only
  repeat' split
  all_goals exact ⟨rfl, rfl, rfl⟩

theorem apuUnits_eq (a : Apu) :
    (apuUnits a).frame = (frameStep a).frame ∧ (apuUnits a).dmc = dmcTimer a.dmc := by
  unfold apuUnits
  dsimp only
  split <;> exact ⟨rfl, congrArg dmcTimer (frameStep_dmc a)⟩

theorem dmcTakeByte_irq {m : Dmc} (b : Byte) (h : m.irq = true) : (dmcTakeByte m b).irq = true := by
  unfold dmcTakeByte dmcRestart
  dsimp only
  repeat' split
  all_goals simp [h]

end Sys2Proof.Machine
end

