-- ==== Sys2Proof/Laws/Flags.lean ====
section
/-! SUPPORT. The bits of the status byte after each flag computation. -/

namespace Sys2Proof.Machine

/-- The bits of a value with one bit replaced. -/
theorem getLsbD_putBit {n : Nat} (v : BitVec n) {k : Nat} (j : Nat) (b : Bool) (hk : k < n) :
    (putBit v k b).getLsbD j = if j = k then b else v.getLsbD j := by
  have hpow (i : Nat) : (1#n <<< k).getLsbD i = (decide (i = k) && decide (i < n)) := by
    rw [BitVec.getLsbD_shiftLeft, BitVec.getLsbD_one]
    by_cases h1 : i < n <;> by_cases h2 : i = k <;> simp [h1, h2]
    all_goals omega
  unfold putBit
  by_cases hj : j = k
  · subst hj
    cases b
    · rw [if_neg (by simp), BitVec.getLsbD_and, BitVec.getLsbD_not, hpow]; simp
    · rw [if_pos rfl, BitVec.getLsbD_or, hpow]; simp [hk]
  · have hge : n ≤ j → v.getLsbD j = false := BitVec.getLsbD_of_ge v j
    cases b
    · rw [if_neg (by simp), BitVec.getLsbD_and, BitVec.getLsbD_not, hpow]
      by_cases hn : j < n
      · simp [hj, hn]
      · simp [hj, hge (by omega)]
    · rw [if_pos rfl, BitVec.getLsbD_or, hpow]; simp [hj]

@[simp] theorem flagC_putC (p : Byte) (b : Bool) : flagC (putC p b) = b := by
  rw [flagC, putC, getLsbD_putBit _ _ _ (by decide)]; rfl
@[simp] theorem flagZ_putC (p : Byte) (b : Bool) : flagZ (putC p b) = flagZ p := by
  rw [flagZ, putC, getLsbD_putBit _ _ _ (by decide)]; rfl
@[simp] theorem flagI_putC (p : Byte) (b : Bool) : flagI (putC p b) = flagI p := by
  rw [flagI, putC, getLsbD_putBit _ _ _ (by decide)]; rfl
@[simp] theorem flagD_putC (p : Byte) (b : Bool) : flagD (putC p b) = flagD p := by
  rw [flagD, putC, getLsbD_putBit _ _ _ (by decide)]; rfl
@[simp] theorem flagB_putC (p : Byte) (b : Bool) : flagB (putC p b) = flagB p := by
  rw [flagB, putC, getLsbD_putBit _ _ _ (by decide)]; rfl
@[simp] theorem flagU_putC (p : Byte) (b : Bool) : flagU (putC p b) = flagU p := by
  rw [flagU, putC, getLsbD_putBit _ _ _ (by decide)]; rfl
@[simp] theorem flagV_putC (p : Byte) (b : Bool) : flagV (putC p b) = flagV p := by
  rw [flagV, putC, getLsbD_putBit _ _ _ (by decide)]; rfl
@[simp] theorem flagN_putC (p : Byte) (b : Bool) : flagN (putC p b) = flagN p := by
  rw [flagN, putC, getLsbD_putBit _ _ _ (by decide)]; rfl

@[simp] theorem flagC_putZ (p : Byte) (b : Bool) : flagC (putZ p b) = flagC p := by
  rw [flagC, putZ, getLsbD_putBit _ _ _ (by decide)]; rfl
@[simp] theorem flagZ_putZ (p : Byte) (b : Bool) : flagZ (putZ p b) = b := by
  rw [flagZ, putZ, getLsbD_putBit _ _ _ (by decide)]; rfl
@[simp] theorem flagI_putZ (p : Byte) (b : Bool) : flagI (putZ p b) = flagI p := by
  rw [flagI, putZ, getLsbD_putBit _ _ _ (by decide)]; rfl
@[simp] theorem flagD_putZ (p : Byte) (b : Bool) : flagD (putZ p b) = flagD p := by
  rw [flagD, putZ, getLsbD_putBit _ _ _ (by decide)]; rfl
@[simp] theorem flagB_putZ (p : Byte) (b : Bool) : flagB (putZ p b) = flagB p := by
  rw [flagB, putZ, getLsbD_putBit _ _ _ (by decide)]; rfl
@[simp] theorem flagU_putZ (p : Byte) (b : Bool) : flagU (putZ p b) = flagU p := by
  rw [flagU, putZ, getLsbD_putBit _ _ _ (by decide)]; rfl
@[simp] theorem flagV_putZ (p : Byte) (b : Bool) : flagV (putZ p b) = flagV p := by
  rw [flagV, putZ, getLsbD_putBit _ _ _ (by decide)]; rfl
@[simp] theorem flagN_putZ (p : Byte) (b : Bool) : flagN (putZ p b) = flagN p := by
  rw [flagN, putZ, getLsbD_putBit _ _ _ (by decide)]; rfl

@[simp] theorem flagC_putI (p : Byte) (b : Bool) : flagC (putI p b) = flagC p := by
  rw [flagC, putI, getLsbD_putBit _ _ _ (by decide)]; rfl
@[simp] theorem flagZ_putI (p : Byte) (b : Bool) : flagZ (putI p b) = flagZ p := by
  rw [flagZ, putI, getLsbD_putBit _ _ _ (by decide)]; rfl
@[simp] theorem flagI_putI (p : Byte) (b : Bool) : flagI (putI p b) = b := by
  rw [flagI, putI, getLsbD_putBit _ _ _ (by decide)]; rfl
@[simp] theorem flagD_putI (p : Byte) (b : Bool) : flagD (putI p b) = flagD p := by
  rw [flagD, putI, getLsbD_putBit _ _ _ (by decide)]; rfl
@[simp] theorem flagB_putI (p : Byte) (b : Bool) : flagB (putI p b) = flagB p := by
  rw [flagB, putI, getLsbD_putBit _ _ _ (by decide)]; rfl
@[simp] theorem flagU_putI (p : Byte) (b : Bool) : flagU (putI p b) = flagU p := by
  rw [flagU, putI, getLsbD_putBit _ _ _ (by decide)]; rfl
@[simp] theorem flagV_putI (p : Byte) (b : Bool) : flagV (putI p b) = flagV p := by
  rw [flagV, putI, getLsbD_putBit _ _ _ (by decide)]; rfl
@[simp] theorem flagN_putI (p : Byte) (b : Bool) : flagN (putI p b) = flagN p := by
  rw [flagN, putI, getLsbD_putBit _ _ _ (by decide)]; rfl

@[simp] theorem flagC_putD (p : Byte) (b : Bool) : flagC (putD p b) = flagC p := by
  rw [flagC, putD, getLsbD_putBit _ _ _ (by decide)]; rfl
@[simp] theorem flagZ_putD (p : Byte) (b : Bool) : flagZ (putD p b) = flagZ p := by
  rw [flagZ, putD, getLsbD_putBit _ _ _ (by decide)]; rfl
@[simp] theorem flagI_putD (p : Byte) (b : Bool) : flagI (putD p b) = flagI p := by
  rw [flagI, putD, getLsbD_putBit _ _ _ (by decide)]; rfl
@[simp] theorem flagD_putD (p : Byte) (b : Bool) : flagD (putD p b) = b := by
  rw [flagD, putD, getLsbD_putBit _ _ _ (by decide)]; rfl
@[simp] theorem flagB_putD (p : Byte) (b : Bool) : flagB (putD p b) = flagB p := by
  rw [flagB, putD, getLsbD_putBit _ _ _ (by decide)]; rfl
@[simp] theorem flagU_putD (p : Byte) (b : Bool) : flagU (putD p b) = flagU p := by
  rw [flagU, putD, getLsbD_putBit _ _ _ (by decide)]; rfl
@[simp] theorem flagV_putD (p : Byte) (b : Bool) : flagV (putD p b) = flagV p := by
  rw [flagV, putD, getLsbD_putBit _ _ _ (by decide)]; rfl
@[simp] theorem flagN_putD (p : Byte) (b : Bool) : flagN (putD p b) = flagN p := by
  rw [flagN, putD, getLsbD_putBit _ _ _ (by decide)]; rfl

@[simp] theorem flagC_putV (p : Byte) (b : Bool) : flagC (putV p b) = flagC p := by
  rw [flagC, putV, getLsbD_putBit _ _ _ (by decide)]; rfl
@[simp] theorem flagZ_putV (p : Byte) (b : Bool) : flagZ (putV p b) = flagZ p := by
  rw [flagZ, putV, getLsbD_putBit _ _ _ (by decide)]; rfl
@[simp] theorem flagI_putV (p : Byte) (b : Bool) : flagI (putV p b) = flagI p := by
  rw [flagI, putV, getLsbD_putBit _ _ _ (by decide)]; rfl
@[simp] theorem flagD_putV (p : Byte) (b : Bool) : flagD (putV p b) = flagD p := by
  rw [flagD, putV, getLsbD_putBit _ _ _ (by decide)]; rfl
@[simp] theorem flagB_putV (p : Byte) (b : Bool) : flagB (putV p b) = flagB p := by
  rw [flagB, putV, getLsbD_putBit _ _ _ (by decide)]; rfl
@[simp] theorem flagU_putV (p : Byte) (b : Bool) : flagU (putV p b) = flagU p := by
  rw [flagU, putV, getLsbD_putBit _ _ _ (by decide)]; rfl
@[simp] theorem flagV_putV (p : Byte) (b : Bool) : flagV (putV p b) = b := by
  rw [flagV, putV, getLsbD_putBit _ _ _ (by decide)]; rfl
@[simp] theorem flagN_putV (p : Byte) (b : Bool) : flagN (putV p b) = flagN p := by
  rw [flagN, putV, getLsbD_putBit _ _ _ (by decide)]; rfl

@[simp] theorem flagC_putN (p : Byte) (b : Bool) : flagC (putN p b) = flagC p := by
  rw [flagC, putN, getLsbD_putBit _ _ _ (by decide)]; rfl
@[simp] theorem flagZ_putN (p : Byte) (b : Bool) : flagZ (putN p b) = flagZ p := by
  rw [flagZ, putN, getLsbD_putBit _ _ _ (by decide)]; rfl
@[simp] theorem flagI_putN (p : Byte) (b : Bool) : flagI (putN p b) = flagI p := by
  rw [flagI, putN, getLsbD_putBit _ _ _ (by decide)]; rfl
@[simp] theorem flagD_putN (p : Byte) (b : Bool) : flagD (putN p b) = flagD p := by
  rw [flagD, putN, getLsbD_putBit _ _ _ (by decide)]; rfl
@[simp] theorem flagB_putN (p : Byte) (b : Bool) : flagB (putN p b) = flagB p := by
  rw [flagB, putN, getLsbD_putBit _ _ _ (by decide)]; rfl
@[simp] theorem flagU_putN (p : Byte) (b : Bool) : flagU (putN p b) = flagU p := by
  rw [flagU, putN, getLsbD_putBit _ _ _ (by decide)]; rfl
@[simp] theorem flagV_putN (p : Byte) (b : Bool) : flagV (putN p b) = flagV p := by
  rw [flagV, putN, getLsbD_putBit _ _ _ (by decide)]; rfl
@[simp] theorem flagN_putN (p : Byte) (b : Bool) : flagN (putN p b) = b := by
  rw [flagN, putN, getLsbD_putBit _ _ _ (by decide)]; rfl

/-! `NZ(v)`. -/

@[simp] theorem flagC_putNZ (p v : Byte) : flagC (putNZ p v) = flagC p := by simp [putNZ]
@[simp] theorem flagZ_putNZ (p v : Byte) : flagZ (putNZ p v) = decide (v = 0) := by simp [putNZ]
@[simp] theorem flagI_putNZ (p v : Byte) : flagI (putNZ p v) = flagI p := by simp [putNZ]
@[simp] theorem flagD_putNZ (p v : Byte) : flagD (putNZ p v) = flagD p := by simp [putNZ]
@[simp] theorem flagB_putNZ (p v : Byte) : flagB (putNZ p v) = flagB p := by simp [putNZ]
@[simp] theorem flagU_putNZ (p v : Byte) : flagU (putNZ p v) = flagU p := by simp [putNZ]
@[simp] theorem flagV_putNZ (p v : Byte) : flagV (putNZ p v) = flagV p := by simp [putNZ]
@[simp] theorem flagN_putNZ (p v : Byte) : flagN (putNZ p v) = v.getLsbD 7 := by simp [putNZ]

/-! The copies of the status that are pushed and pulled. -/

@[simp] theorem flagC_pulledStatus (p : Byte) : flagC (pulledStatus p) = flagC p := by
  simp [flagC, pulledStatus]
@[simp] theorem flagZ_pulledStatus (p : Byte) : flagZ (pulledStatus p) = flagZ p := by
  simp [flagZ, pulledStatus]
@[simp] theorem flagI_pulledStatus (p : Byte) : flagI (pulledStatus p) = flagI p := by
  simp [flagI, pulledStatus]
@[simp] theorem flagD_pulledStatus (p : Byte) : flagD (pulledStatus p) = flagD p := by
  simp [flagD, pulledStatus]
@[simp] theorem flagB_pulledStatus (p : Byte) : flagB (pulledStatus p) = false := by
  simp [flagB, pulledStatus]
@[simp] theorem flagU_pulledStatus (p : Byte) : flagU (pulledStatus p) = true := by
  simp [flagU, pulledStatus]
@[simp] theorem flagV_pulledStatus (p : Byte) : flagV (pulledStatus p) = flagV p := by
  simp [flagV, pulledStatus]
@[simp] theorem flagN_pulledStatus (p : Byte) : flagN (pulledStatus p) = flagN p := by
  simp [flagN, pulledStatus]

@[simp] theorem flagC_softwareStatus (p : Byte) : flagC (softwareStatus p) = flagC p := by
  simp [flagC, softwareStatus]
@[simp] theorem flagZ_softwareStatus (p : Byte) : flagZ (softwareStatus p) = flagZ p := by
  simp [flagZ, softwareStatus]
@[simp] theorem flagI_softwareStatus (p : Byte) : flagI (softwareStatus p) = flagI p := by
  simp [flagI, softwareStatus]
@[simp] theorem flagD_softwareStatus (p : Byte) : flagD (softwareStatus p) = flagD p := by
  simp [flagD, softwareStatus]
@[simp] theorem flagB_softwareStatus (p : Byte) : flagB (softwareStatus p) = true := by
  simp [flagB, softwareStatus]
@[simp] theorem flagU_softwareStatus (p : Byte) : flagU (softwareStatus p) = true := by
  simp [flagU, softwareStatus]
@[simp] theorem flagV_softwareStatus (p : Byte) : flagV (softwareStatus p) = flagV p := by
  simp [flagV, softwareStatus]
@[simp] theorem flagN_softwareStatus (p : Byte) : flagN (softwareStatus p) = flagN p := by
  simp [flagN, softwareStatus]

@[simp] theorem flagC_hardwareStatus (p : Byte) : flagC (hardwareStatus p) = flagC p := by
  simp [flagC, hardwareStatus]
@[simp] theorem flagZ_hardwareStatus (p : Byte) : flagZ (hardwareStatus p) = flagZ p := by
  simp [flagZ, hardwareStatus]
@[simp] theorem flagI_hardwareStatus (p : Byte) : flagI (hardwareStatus p) = flagI p := by
  simp [flagI, hardwareStatus]
@[simp] theorem flagD_hardwareStatus (p : Byte) : flagD (hardwareStatus p) = flagD p := by
  simp [flagD, hardwareStatus]
@[simp] theorem flagB_hardwareStatus (p : Byte) : flagB (hardwareStatus p) = false := by
  simp [flagB, hardwareStatus]
@[simp] theorem flagU_hardwareStatus (p : Byte) : flagU (hardwareStatus p) = true := by
  simp [flagU, hardwareStatus]
@[simp] theorem flagV_hardwareStatus (p : Byte) : flagV (hardwareStatus p) = flagV p := by
  simp [flagV, hardwareStatus]
@[simp] theorem flagN_hardwareStatus (p : Byte) : flagN (hardwareStatus p) = flagN p := by
  simp [flagN, hardwareStatus]

/-! The flag rules of the families. -/

@[simp] theorem flagC_putAdd (p : Byte) (r : AddResult) : flagC (putAdd p r) = r.carry := by simp [putAdd]
@[simp] theorem flagZ_putAdd (p : Byte) (r : AddResult) : flagZ (putAdd p r) = decide (r.value = 0) := by simp [putAdd]
@[simp] theorem flagI_putAdd (p : Byte) (r : AddResult) : flagI (putAdd p r) = flagI p := by simp [putAdd]
@[simp] theorem flagD_putAdd (p : Byte) (r : AddResult) : flagD (putAdd p r) = flagD p := by simp [putAdd]
@[simp] theorem flagB_putAdd (p : Byte) (r : AddResult) : flagB (putAdd p r) = flagB p := by simp [putAdd]
@[simp] theorem flagU_putAdd (p : Byte) (r : AddResult) : flagU (putAdd p r) = flagU p := by simp [putAdd]
@[simp] theorem flagV_putAdd (p : Byte) (r : AddResult) : flagV (putAdd p r) = r.overflow := by simp [putAdd]
@[simp] theorem flagN_putAdd (p : Byte) (r : AddResult) : flagN (putAdd p r) = r.value.getLsbD 7 := by simp [putAdd]

@[simp] theorem flagC_putCompare (p reg m : Byte) : flagC (putCompare p reg m) = decide (m.toNat ≤ reg.toNat) := by simp [putCompare]
@[simp] theorem flagZ_putCompare (p reg m : Byte) : flagZ (putCompare p reg m) = decide (reg - m = 0) := by simp [putCompare]
@[simp] theorem flagI_putCompare (p reg m : Byte) : flagI (putCompare p reg m) = flagI p := by simp [putCompare]
@[simp] theorem flagD_putCompare (p reg m : Byte) : flagD (putCompare p reg m) = flagD p := by simp [putCompare]
@[simp] theorem flagB_putCompare (p reg m : Byte) : flagB (putCompare p reg m) = flagB p := by simp [putCompare]
@[simp] theorem flagU_putCompare (p reg m : Byte) : flagU (putCompare p reg m) = flagU p := by simp [putCompare]
@[simp] theorem flagV_putCompare (p reg m : Byte) : flagV (putCompare p reg m) = flagV p := by simp [putCompare]
@[simp] theorem flagN_putCompare (p reg m : Byte) : flagN (putCompare p reg m) = (reg - m).getLsbD 7 := by simp [putCompare]

@[simp] theorem flagC_putBitTest (p a m : Byte) : flagC (putBitTest p a m) = flagC p := by simp [putBitTest]
@[simp] theorem flagZ_putBitTest (p a m : Byte) : flagZ (putBitTest p a m) = decide (a &&& m = 0) := by simp [putBitTest]
@[simp] theorem flagI_putBitTest (p a m : Byte) : flagI (putBitTest p a m) = flagI p := by simp [putBitTest]
@[simp] theorem flagD_putBitTest (p a m : Byte) : flagD (putBitTest p a m) = flagD p := by simp [putBitTest]
@[simp] theorem flagB_putBitTest (p a m : Byte) : flagB (putBitTest p a m) = flagB p := by simp [putBitTest]
@[simp] theorem flagU_putBitTest (p a m : Byte) : flagU (putBitTest p a m) = flagU p := by simp [putBitTest]
@[simp] theorem flagV_putBitTest (p a m : Byte) : flagV (putBitTest p a m) = m.getLsbD 6 := by simp [putBitTest]
@[simp] theorem flagN_putBitTest (p a m : Byte) : flagN (putBitTest p a m) = m.getLsbD 7 := by simp [putBitTest]

@[simp] theorem flagC_putShift (p : Byte) (out : Bool) (r : Byte) : flagC (putShift p out r) = out := by simp [putShift]
@[simp] theorem flagZ_putShift (p : Byte) (out : Bool) (r : Byte) : flagZ (putShift p out r) = decide (r = 0) := by simp [putShift]
@[simp] theorem flagI_putShift (p : Byte) (out : Bool) (r : Byte) : flagI (putShift p out r) = flagI p := by simp [putShift]
@[simp] theorem flagD_putShift (p : Byte) (out : Bool) (r : Byte) : flagD (putShift p out r) = flagD p := by simp [putShift]
@[simp] theorem flagB_putShift (p : Byte) (out : Bool) (r : Byte) : flagB (putShift p out r) = flagB p := by simp [putShift]
@[simp] theorem flagU_putShift (p : Byte) (out : Bool) (r : Byte) : flagU (putShift p out r) = flagU p := by simp [putShift]
@[simp] theorem flagV_putShift (p : Byte) (out : Bool) (r : Byte) : flagV (putShift p out r) = flagV p := by simp [putShift]
@[simp] theorem flagN_putShift (p : Byte) (out : Bool) (r : Byte) : flagN (putShift p out r) = r.getLsbD 7 := by simp [putShift]

/-- Two status bytes with the same eight flags are equal. -/
theorem status_ext {p q : Byte} (hC : flagC p = flagC q) (hZ : flagZ p = flagZ q) (hI : flagI p = flagI q)
    (hD : flagD p = flagD q) (hB : flagB p = flagB q) (hU : flagU p = flagU q) (hV : flagV p = flagV q)
    (hN : flagN p = flagN q) : p = q := by
  simp only [flagC, flagZ, flagI, flagD, flagB, flagU, flagV, flagN] at *
  apply BitVec.eq_of_getLsbD_eq
  intro i hi
  interval_cases i <;> assumption

/-! The addition (spec/43_arith_logic.md R98). -/

theorem addBytes_value_toNat (a m : Byte) (c : Bool) :
    (addBytes a m c).value.toNat = (a.toNat + m.toNat + c.toNat) % 256 := by simp [addBytes]

theorem addBytes_carry (a m : Byte) (c : Bool) :
    (addBytes a m c).carry = decide (256 ≤ a.toNat + m.toNat + c.toNat) := by simp [addBytes]; omega

/-- C, result and sum: the carry is bit 8 of the sum. -/
theorem addBytes_sum (a m : Byte) (c : Bool) :
    (addBytes a m c).value.toNat + 256 * (addBytes a m c).carry.toNat = a.toNat + m.toNat + c.toNat := by
  have ha := a.isLt
  have hm := m.isLt
  have hc : c.toNat ≤ 1 := Bool.toNat_le c
  rw [addBytes_value_toNat, addBytes_carry]
  by_cases h : 256 ≤ a.toNat + m.toNat + c.toNat
  · simp [h]; omega
  · simp [h]; omega

end Sys2Proof.Machine
end

