-- ==== Sys2Proof/Laws/Operands.lean ====
section
/-! SUPPORT. What computing an address, loading an operand and storing one can do, said once. -/

namespace Sys2Proof.Machine

theorem zext16_toNat (b : Byte) : (zext16 b).toNat = b.toNat := by
  have := b.isLt
  simp only [zext16, BitVec.toNat_setWidth]
  omega

theorem zext16_le (b : Byte) : (zext16 b).toNat ≤ 0x1FFF := by
  have := b.isLt
  rw [zext16_toNat]
  omega

theorem zext16_mod (b : Byte) : (zext16 b).toNat % 2048 = b.toNat := by
  have := b.isLt
  rw [zext16_toNat]
  omega

/-- A zero-page pointer is two bytes of CPU RAM; reading it changes nothing
(spec/40_addressing_modes.md R79, R80). -/
theorem zeroPagePointer_eq (z : Byte) (s : State) :
    zeroPagePointer z s = (mkWord (readCell s.bus.ram (z + 1).toNat) (readCell s.bus.ram z.toNat), s) := by
  simp only [zeroPagePointer, read16, busRead_ram (zext16_le _), zext16_mod]

/-- Computing an effective address changes nothing. -/
theorem effectiveAddress_state (m : MemOperand) (s : State) : (effectiveAddress m s).2 = s := by
  cases m <;> simp only [effectiveAddress, zeroPagePointer_eq]

/-- The effective address of a mode in a state. -/
def addressOf (m : MemOperand) (s : State) : Word := (effectiveAddress m s).1.ea

/-- Locating an operand latches its address and does nothing else (spec/10_state.md R35). -/
theorem locate_eq (m : MemOperand) (s : State) :
    locate m s = ((effectiveAddress m s).1, s.setEA (addressOf m s)) := by
  simp only [locate, effectiveAddress_state, addressOf]

theorem loadSource_imm (b : Byte) (s : State) : loadSource (.imm b) s = (⟨b, false⟩, s) := rfl

/-- A load from memory is one bus read at the effective address (spec/40_addressing_modes.md R66). -/
theorem loadSource_mem (m : MemOperand) (s : State) :
    loadSource (.mem m) s =
      (⟨(busRead (addressOf m s) (s.setEA (addressOf m s))).1, (effectiveAddress m s).1.crossed⟩,
        (busRead (addressOf m s) (s.setEA (addressOf m s))).2) := by
  simp only [loadSource, locate_eq, addressOf]

/-- Loading an operand changes of the CPU the latched address only. -/
theorem loadSource_cpu (src : Source) (s : State) :
    (loadSource src s).2.cpu = { s.cpu with ea := (loadSource src s).2.cpu.ea } := by
  cases src with
  | imm b => rfl
  | mem m => simp only [loadSource_mem, busRead_cpu, State.setEA_cpu]

@[simp] theorem loadSource_cart (src : Source) (s : State) : (loadSource src s).2.cart = s.cart := by
  cases src with
  | imm b => rfl
  | mem m => simp only [loadSource_mem, busRead_cart, State.setEA_cart]

@[simp] theorem loadSource_params (src : Source) (s : State) : (loadSource src s).2.params = s.params := by
  cases src with
  | imm b => rfl
  | mem m => simp only [loadSource_mem, busRead_params, State.setEA_params]

@[simp] theorem loadSource_busRam (src : Source) (s : State) : (loadSource src s).2.bus.ram = s.bus.ram := by
  cases src with
  | imm b => rfl
  | mem m => simp only [loadSource_mem, busRead_busRam, State.setEA_bus]

/-- A load whose address is memory changes the latched address only. -/
theorem loadSource_memory {m : MemOperand} {s : State} (h : IsMemory (addressOf m s)) :
    loadSource (.mem m) s =
      (⟨peek s (addressOf m s), (effectiveAddress m s).1.crossed⟩, s.setEA (addressOf m s)) := by
  rw [loadSource_mem, busRead_memory h, peek_memory_congr h (t := s.setEA (addressOf m s)) (s := s) rfl rfl]

/-- A store is one bus write at the effective address. -/
theorem storeOperand_eq (m : MemOperand) (v : Byte) (s : State) :
    storeOperand m v s = busWrite (addressOf m s) v (s.setEA (addressOf m s)) := by
  simp only [storeOperand, locate_eq, addressOf]

theorem modifyTarget_acc (f : Byte → Byte) (s : State) :
    modifyTarget .acc f s = (s.cpu.a, s.setA (f s.cpu.a)) := rfl

/-- A read-modify-write is one bus read and then one bus write at the same address
(spec/40_addressing_modes.md R66, D4). -/
theorem modifyTarget_mem (m : MemOperand) (f : Byte → Byte) (s : State) :
    modifyTarget (.mem m) f s =
      ((busRead (addressOf m s) (s.setEA (addressOf m s))).1,
        busWrite (addressOf m s) (f (busRead (addressOf m s) (s.setEA (addressOf m s))).1)
          (busRead (addressOf m s) (s.setEA (addressOf m s))).2) := by
  simp only [modifyTarget, locate_eq, addressOf]

/-- A read-modify-write of CPU RAM. -/
theorem modifyTarget_ram {m : MemOperand} {s : State} (h : (addressOf m s).toNat ≤ 0x1FFF)
    (f : Byte → Byte) :
    modifyTarget (.mem m) f s =
      (readCell s.bus.ram ((addressOf m s).toNat % 2048),
        (s.setEA (addressOf m s)).setRam ((addressOf m s).toNat % 2048)
          (f (readCell s.bus.ram ((addressOf m s).toNat % 2048)))) := by
  rw [modifyTarget_mem, busRead_ram h, busWrite_ram h]
  rfl

/-! The shapes of the instruction families (spec/40_addressing_modes.md R66, R67). -/

theorem execRead_eq (src : Source) (act : Byte → State → State) (s : State) :
    execRead src act s =
      .next ((act (loadSource src s).1.value (loadSource src s).2).setCycles
        (readCycles src (loadSource src s).1.crossed)) := rfl

theorem execStore_eq (m : MemOperand) (v : Byte) (s : State) :
    execStore m v s =
      .next ((busWrite (addressOf m s) v (s.setEA (addressOf m s))).setCycles (storeCycles m)) := by
  rw [← storeOperand_eq]
  rfl

theorem execModify_eq (t : Target) (f : Byte → Byte) (status : Byte → Byte → Byte) (s : State) :
    execModify t f status s =
      .next (((modifyTarget t f s).2.setP
        (status (modifyTarget t f s).2.cpu.p (modifyTarget t f s).1)).setCycles (modifyCycles t)) := rfl

/-- The second byte of a JMP pointer is read in the pointer's own page (spec/40_addressing_modes.md R78). -/
theorem indirectTarget_eq (p : Word) (s : State) :
    indirectTarget p s = read16 p (mkWord (hiByte p) (loByte p + 1)) s := by
  have h : (p &&& 0xFF00) ||| ((p + 1) &&& 0x00FF) = mkWord (hiByte p) (loByte p + 1) := by
    have h1 : loByte p + 1 = (p + 1).setWidth 8 := by
      rw [BitVec.setWidth_add _ _ (by decide)]
      rfl
    rw [h1]
    apply BitVec.eq_of_getLsbD_eq
    intro i hi
    simp only [mkWord, BitVec.getLsbD_append, hiByte, BitVec.getLsbD_extractLsb', BitVec.getLsbD_setWidth,
      BitVec.getLsbD_or, BitVec.getLsbD_and]
    generalize p + 1 = u
    interval_cases i <;> simp
  rw [indirectTarget, h]

/-- The target of a branch, as integers (spec/40_addressing_modes.md R74). -/
theorem branchTarget_toNat (next : Word) (offset : Byte) :
    ((branchTarget next offset).ea.toNat : Int) = ((next.toNat : Int) + offset.toInt) % 0x10000 := by
  have h1 := BitVec.toInt_signExtend_of_le (x := offset) (v := 16) (by decide)
  have h2 := BitVec.toInt_eq_toNat_cond (sext16 offset)
  unfold sext16 at *
  rw [h1] at h2
  show ((next + BitVec.signExtend 16 offset).toNat : Int) = _
  rw [BitVec.toNat_add]
  have := (BitVec.signExtend 16 offset).isLt
  have := next.isLt
  split at h2 <;> omega

/-- Two addresses lie in different pages (spec/00_scope.md R17). -/
theorem crosses_iff (a b : Word) : crosses a b = true ↔ a.toNat / 256 ≠ b.toNat / 256 := by
  rw [crosses, bne_iff_ne, ne_eq, ← BitVec.toNat_inj, hiByte_toNat, hiByte_toNat]

/-- The longest window is eight cycles (spec/10_state.md R36). -/
theorem readCycles_le (src : Source) (c : Bool) : 2 ≤ readCycles src c ∧ readCycles src c ≤ 6 := by
  cases src with
  | imm b => simp [readCycles]
  | mem m => cases m <;> cases c <;> simp [readCycles]

theorem storeCycles_le (m : MemOperand) : 3 ≤ storeCycles m ∧ storeCycles m ≤ 6 := by
  cases m <;> simp [storeCycles]

theorem modifyCycles_le (t : Target) : 2 ≤ modifyCycles t ∧ modifyCycles t ≤ 8 := by
  cases t with
  | acc => simp [modifyCycles]
  | mem m => cases m <;> simp [modifyCycles]

theorem branchCycles_le (taken crossed : Bool) : 2 ≤ branchCycles taken crossed ∧ branchCycles taken crossed ≤ 4 := by
  cases taken <;> cases crossed <;> simp [branchCycles]

end Sys2Proof.Machine
end

