-- ==== Sys2Proof/Laws/Ppu.lean ====
section
/-! SUPPORT. What the PPU's operations keep: the cursor and the sprite counts in range, and every memory in
canonical form and in range. -/

namespace Sys2Proof.Machine

/-- The memories' part of the PPU's invariant. -/
def PpuMemories (p : Ppu) : Prop :=
  (cellsWf p.vram = true ∧ cellsWf p.palette = true ∧ cellsWf p.oam = true ∧ cellsWf p.framebuffer = true) ∧
  cellsBelow 2048 p.vram = true ∧ cellsBelow 32 p.palette = true ∧ cellsBelow 256 p.oam = true ∧
  cellsBelow (256 * 240) p.framebuffer = true

/-- The PPU's part of `MachineInv`. -/
def PpuInv (p : Ppu) : Prop :=
  (-1 ≤ p.scanline ∧ p.scanline ≤ 260 ∧ p.dot ≤ 340) ∧ (p.spriteCount ≤ 8 ∧ p.sprCount ≤ 8) ∧ PpuMemories p

/-- The invariant depends on these fields only. -/
theorem PpuInv.congr {p q : Ppu} (h : PpuInv p) (hs : q.scanline = p.scanline) (hd : q.dot = p.dot)
    (hc : q.spriteCount = p.spriteCount) (hc' : q.sprCount = p.sprCount) (hv : q.vram = p.vram)
    (hp : q.palette = p.palette) (ho : q.oam = p.oam) (hf : q.framebuffer = p.framebuffer) : PpuInv q := by
  unfold PpuInv PpuMemories at *
  rw [hs, hd, hc, hc', hv, hp, ho, hf]
  exact h

theorem ntPage_lt (m : Mirror) {n : Nat} (h : n < 4) : ntPage m n < 2 := by
  cases m <;> simp only [ntPage] <;> omega

theorem ntIndex_lt (m : Mirror) (a : PpuAddr) : ntIndex m a < 2048 := by
  have h1 := ntPage_lt m (a.extractLsb' 10 2).isLt
  have h2 := (a.extractLsb' 0 10).isLt
  unfold ntIndex
  omega

theorem palIndex_lt (a : PpuAddr) : palIndex a < 32 := by
  have := (a.extractLsb' 0 5).isLt
  unfold palIndex
  dsimp only
  split <;> omega

theorem ppuWrite_inv {c : Cartridge} {p : Ppu} (hc : CartInv c) (hp : PpuInv p) (a : PpuAddr) (d : Byte) :
    CartInv (ppuWrite c p a d).1 ∧ PpuInv (ppuWrite c p a d).2 := by
  obtain ⟨h1, h2, ⟨w1, w2, w3, w4⟩, b1, b2, b3, b4⟩ := hp
  unfold ppuWrite
  split
  · exact ⟨chrWrite_inv hc (by omega) d, h1, h2, ⟨w1, w2, w3, w4⟩, b1, b2, b3, b4⟩
  split
  · exact ⟨hc, h1, h2, ⟨cellsWf_writeCell _ _ w1, w2, w3, w4⟩,
      cellsBelow_writeCell _ (ntIndex_lt _ _) b1, b2, b3, b4⟩
  · exact ⟨hc, h1, h2, ⟨w1, cellsWf_writeCell _ _ w2, w3, w4⟩,
      b1, cellsBelow_writeCell _ (palIndex_lt _) b2, b3, b4⟩

theorem writeOam_inv {p : Ppu} (hp : PpuInv p) (d : Byte) : PpuInv (writeOam p d) := by
  obtain ⟨h1, h2, ⟨w1, w2, w3, w4⟩, b1, b2, b3, b4⟩ := hp
  exact ⟨h1, h2, ⟨w1, w2, cellsWf_writeCell _ _ w3, w4⟩, b1, b2,
    cellsBelow_writeCell _ p.oamAddr.isLt b3, b4⟩

theorem writeScroll_inv {p : Ppu} (hp : PpuInv p) (d : Byte) : PpuInv (writeScroll p d) := by
  unfold writeScroll
  split <;> exact hp.congr rfl rfl rfl rfl rfl rfl rfl rfl

theorem writeAddr_inv {p : Ppu} (hp : PpuInv p) (d : Byte) : PpuInv (writeAddr p d) := by
  unfold writeAddr
  split <;> exact hp.congr rfl rfl rfl rfl rfl rfl rfl rfl

theorem writeData_inv {c : Cartridge} {p : Ppu} (hc : CartInv c) (hp : PpuInv p) (d : Byte) :
    CartInv (writeData c p d).1 ∧ PpuInv (writeData c p d).2 := by
  obtain ⟨h1, h2⟩ := ppuWrite_inv hc hp (vAddr p.v) d
  exact ⟨h1, h2.congr rfl rfl rfl rfl rfl rfl rfl rfl⟩

/-! The stages of a dot. -/

theorem applyIf_keeps {α : Type} {P : α → Prop} {f : α → α} (hf : ∀ x, P x → P (f x)) (b : Bool) {x : α}
    (hx : P x) : P (applyIf b f x) := by
  unfold applyIf
  split
  · exact hf x hx
  · exact hx

/-- A stage that leaves the cursor, the counts and the memories alone. -/
def KeepsRaster (f : Ppu → Ppu) : Prop :=
  ∀ p, (f p).scanline = p.scanline ∧ (f p).dot = p.dot ∧ (f p).spriteCount = p.spriteCount ∧
    (f p).sprCount = p.sprCount ∧ (f p).vram = p.vram ∧ (f p).palette = p.palette ∧ (f p).oam = p.oam ∧
    (f p).framebuffer = p.framebuffer

theorem KeepsRaster.comp {f g : Ppu → Ppu} (hf : KeepsRaster f) (hg : KeepsRaster g) :
    KeepsRaster (fun p => f (g p)) := by
  intro p
  obtain ⟨a1, a2, a3, a4, a5, a6, a7, a8⟩ := hf (g p)
  obtain ⟨b1, b2, b3, b4, b5, b6, b7, b8⟩ := hg p
  exact ⟨a1.trans b1, a2.trans b2, a3.trans b3, a4.trans b4, a5.trans b5, a6.trans b6, a7.trans b7,
    a8.trans b8⟩

theorem KeepsRaster.applyIf {f : Ppu → Ppu} (hf : KeepsRaster f) (b : Ppu → Bool) :
    KeepsRaster (fun p => Machine.applyIf (b p) f p) := by
  intro p
  simp only [Machine.applyIf]
  split
  · exact hf p
  · exact ⟨rfl, rfl, rfl, rfl, rfl, rfl, rfl, rfl⟩

theorem KeepsRaster.inv {f : Ppu → Ppu} (hf : KeepsRaster f) {p : Ppu} (hp : PpuInv p) : PpuInv (f p) := by
  obtain ⟨a1, a2, a3, a4, a5, a6, a7, a8⟩ := hf p
  exact hp.congr a1 a2 a3 a4 a5 a6 a7 a8

theorem shiftBackground_raster : KeepsRaster shiftBackground :=
  fun _ => ⟨rfl, rfl, rfl, rfl, rfl, rfl, rfl, rfl⟩

theorem loadShifters_raster : KeepsRaster loadShifters :=
  fun _ => ⟨rfl, rfl, rfl, rfl, rfl, rfl, rfl, rfl⟩

theorem copyX_raster : KeepsRaster copyX := fun _ => ⟨rfl, rfl, rfl, rfl, rfl, rfl, rfl, rfl⟩

theorem copyY_raster : KeepsRaster copyY := fun _ => ⟨rfl, rfl, rfl, rfl, rfl, rfl, rfl, rfl⟩

theorem incrementCoarseX_raster : KeepsRaster incrementCoarseX := by
  intro p
  unfold incrementCoarseX
  split <;> exact ⟨rfl, rfl, rfl, rfl, rfl, rfl, rfl, rfl⟩

theorem incrementY_raster : KeepsRaster incrementY := by
  intro p
  unfold incrementY
  dsimp only
  split
  · exact ⟨rfl, rfl, rfl, rfl, rfl, rfl, rfl, rfl⟩
  split
  · exact ⟨rfl, rfl, rfl, rfl, rfl, rfl, rfl, rfl⟩
  split <;> exact ⟨rfl, rfl, rfl, rfl, rfl, rfl, rfl, rfl⟩

theorem fetchBackground_raster (c : Cartridge) : KeepsRaster (fetchBackground c) := by
  intro p
  unfold fetchBackground
  split
  all_goals first | exact incrementCoarseX_raster p | exact ⟨rfl, rfl, rfl, rfl, rfl, rfl, rfl, rfl⟩

theorem background_raster (c : Cartridge) : KeepsRaster (background c) := by
  intro p
  unfold background
  split
  · exact (((((copyY_raster.applyIf (fun p => onPreRenderLine p && dotIn p 280 304)).comp
      ((copyX_raster.comp loadShifters_raster).applyIf (fun p => decide (p.dot = 257)))).comp
      (incrementY_raster.applyIf (fun p => decide (p.dot = 256)))).comp
      ((fetchBackground_raster c).applyIf (fun p => dotIn p 1 256 || dotIn p 321 336))).comp
      (shiftBackground_raster.applyIf (fun p => dotIn p 2 257 || dotIn p 322 337))) p
  · exact ⟨rfl, rfl, rfl, rfl, rfl, rfl, rfl, rfl⟩

theorem advanceSprites_raster : KeepsRaster advanceSprites := by
  intro p
  unfold advanceSprites
  split <;> exact ⟨rfl, rfl, rfl, rfl, rfl, rfl, rfl, rfl⟩

theorem verticalBlank_raster : KeepsRaster verticalBlank := by
  intro p
  unfold verticalBlank
  split
  · exact ⟨rfl, rfl, rfl, rfl, rfl, rfl, rfl, rfl⟩
  split <;> exact ⟨rfl, rfl, rfl, rfl, rfl, rfl, rfl, rfl⟩

theorem putPixel_inv {p : Ppu} (hp : PpuInv p) (hl : onVisibleLine p = true) {x : Nat} (hx : x < 256)
    (colour : BitVec 6) : PpuInv (putPixel p x colour) := by
  obtain ⟨h1, h2, ⟨w1, w2, w3, w4⟩, b1, b2, b3, b4⟩ := hp
  simp only [onVisibleLine, Bool.and_eq_true, decide_eq_true_eq] at hl
  exact ⟨h1, h2, ⟨w1, w2, w3, cellsWf_writeCell _ _ w4⟩, b1, b2, b3,
    cellsBelow_writeCell _ (by omega) b4⟩

theorem composePixel_inv {p : Ppu} (hp : PpuInv p) (c : Cartridge) : PpuInv (composePixel c p) := by
  unfold composePixel
  split
  · next h =>
    simp only [Bool.and_eq_true, dotIn, decide_eq_true_eq] at h
    have hx : p.dot - 1 < 256 := by omega
    dsimp only
    split
    · exact putPixel_inv (hp.congr rfl rfl rfl rfl rfl rfl rfl rfl) h.1 hx _
    · exact putPixel_inv hp h.1 hx _
  · exact hp

theorem scanOam_inv (ks : List Nat) {p : Ppu} (hp : PpuInv p) : PpuInv (scanOam p ks) := by
  induction ks generalizing p with
  | nil => exact hp
  | cons k rest ih =>
    unfold scanOam
    split
    · split
      · next h =>
        obtain ⟨h1, h2, h3⟩ := hp
        exact ih ⟨h1, ⟨h, h2.2⟩, h3⟩
      · exact hp.congr rfl rfl rfl rfl rfl rfl rfl rfl
    · exact ih hp

theorem evaluateSprites_inv {p : Ppu} (hp : PpuInv p) : PpuInv (evaluateSprites p) := by
  obtain ⟨h1, h2, h3⟩ := hp
  unfold evaluateSprites
  split
  · dsimp only
    split
    · exact scanOam_inv _ ⟨h1, ⟨Nat.zero_le 8, h2.2⟩, h3⟩
    · exact ⟨h1, ⟨Nat.zero_le 8, h2.2⟩, h3⟩
  · exact ⟨h1, h2, h3⟩

theorem fetchSprites_inv {p : Ppu} (hp : PpuInv p) (c : Cartridge) : PpuInv (fetchSprites c p) := by
  obtain ⟨h1, h2, h3⟩ := hp
  unfold fetchSprites
  split
  · split
    · exact ⟨h1, ⟨h2.1, h2.1⟩, h3⟩
    · exact ⟨h1, ⟨h2.1, Nat.zero_le 8⟩, h3⟩
  · exact ⟨h1, h2, h3⟩

theorem advanceCursor_inv {p : Ppu} (hp : PpuInv p) (params : Params) : PpuInv (advanceCursor params p) := by
  obtain ⟨⟨h1, h2, h3⟩, h4, h5⟩ := hp
  unfold advanceCursor
  split
  · split
    · exact ⟨⟨by simp, by simp, by simp⟩, h4, h5⟩
    · refine ⟨⟨by simp only; omega, by simp only; omega, ?_⟩, h4, h5⟩
      simp only
      split <;> omega
  · exact ⟨⟨h1, h2, by simp only; omega⟩, h4, h5⟩

theorem mapperTick_inv {c : Cartridge} (hc : CartInv c) (p : Ppu) : CartInv (mapperTick c p) := by
  unfold mapperTick
  split
  · exact scanlineTick_inv hc
  · exact hc

/-- One dot keeps the PPU's and the cartridge's invariants. -/
theorem ppuDot_inv {c : Cartridge} {p : Ppu} (hc : CartInv c) (hp : PpuInv p) (params : Params) :
    CartInv (ppuDot params c p).1 ∧ PpuInv (ppuDot params c p).2 := by
  refine ⟨mapperTick_inv hc _, ?_⟩
  exact advanceCursor_inv (verticalBlank_raster.inv (fetchSprites_inv (evaluateSprites_inv
    (composePixel_inv (advanceSprites_raster.inv ((background_raster c).inv hp)) c)) c)) params

theorem reset_ppuInv {vram palette oam : Mem} {framebuffer : Cells 6}
    (h : PpuMemories (Ppu.reset vram palette oam framebuffer)) :
    PpuInv (Ppu.reset vram palette oam framebuffer) :=
  ⟨by simp [Ppu.reset], ⟨Nat.zero_le 8, Nat.zero_le 8⟩, h⟩

end Sys2Proof.Machine
end

