-- ==== Sys2Proof/Laws/Device.lean ====
section
/-! SUPPORT. The invariant, component by component, and that the bus operations keep the devices' part. -/

namespace Sys2Proof.Machine

/-- The part of `MachineInv` that is not the CPU's or the parameters'. -/
def DeviceInv (s : State) : Prop :=
  PpuInv s.ppu ∧ ApuInv s.apu ∧ CartInv s.cart ∧ cellsWf s.bus.ram = true ∧ cellsBelow 2048 s.bus.ram = true

/-- `MachineInv` is the CPU's part, the parameters' and the devices'. -/
theorem inv_iff (s : State) : MachineInv s ↔ StatusOk s ∧ ParamsOk s ∧ WindowOk s ∧ DeviceInv s := by
  constructor
  · rintro ⟨h1, h2, h3, h4, h5, h6, h7, ⟨w1, w2, w3, w4, w5, w6, w7, w8⟩, b1, b2, b3, b4, b5, b6, b7, b8⟩
    exact ⟨h1, h2, h3, ⟨h4, h5, ⟨w2, w3, w4, w5⟩, b2, b3, b4, b5⟩, h6, ⟨h7, ⟨w6, w7, w8⟩, b6, b7, b8⟩, w1, b1⟩
  · rintro ⟨h1, h2, h3, ⟨h4, h5, ⟨w2, w3, w4, w5⟩, b2, b3, b4, b5⟩, h6, ⟨h7, ⟨w6, w7, w8⟩, b6, b7, b8⟩, w1, b1⟩
    exact ⟨h1, h2, h3, h4, h5, h6, h7, ⟨w1, w2, w3, w4, w5, w6, w7, w8⟩, b1, b2, b3, b4, b5, b6, b7, b8⟩

theorem DeviceInv.congr {s t : State} (h : DeviceInv s) (hp : t.ppu = s.ppu) (ha : t.apu = s.apu)
    (hc : t.cart = s.cart) (hr : t.bus.ram = s.bus.ram) : DeviceInv t := by
  unfold DeviceInv at *
  rw [hp, ha, hc, hr]
  exact h

theorem setRam_inv {s : State} (h : DeviceInv s) {n : Nat} (hn : n < 2048) (v : Byte) :
    DeviceInv (s.setRam n v) := by
  obtain ⟨h1, h2, h3, h4, h5⟩ := h
  exact ⟨h1, h2, h3, cellsWf_writeCell _ _ h4, cellsBelow_writeCell _ hn h5⟩

theorem busRead_inv {s : State} (h : DeviceInv s) (addr : Word) : DeviceInv (busRead addr s).2 := by
  obtain ⟨h1, h2, h3, h4, h5⟩ := h
  have e := busReadWith_frame false addr s _ rfl
  refine ⟨?_, ?_, by rw [busRead_cart]; exact h3, by rw [busRead_busRam]; exact h4,
    by rw [busRead_busRam]; exact h5⟩
  · exact h1.congr (congrArg (·.ppu.scanline) e) (congrArg (·.ppu.dot) e)
      (congrArg (·.ppu.spriteCount) e) (congrArg (·.ppu.sprCount) e) (congrArg (·.ppu.vram) e)
      (congrArg (·.ppu.palette) e) (congrArg (·.ppu.oam) e) (congrArg (·.ppu.framebuffer) e)
  · have hd : (busRead addr s).2.apu.dmc = s.apu.dmc := congrArg (·.apu.dmc) e
    exact h2.congr (congrArg (·.apu.noise.lfsr) e) (fun hm => hd ▸ hm)

theorem ppuRegWrite_inv {s : State} (h : DeviceInv s) (reg : BitVec 3) (d : Byte) :
    DeviceInv (ppuRegWrite reg d s) := by
  obtain ⟨h1, h2, h3, h4⟩ := h
  unfold ppuRegWrite
  split
  · exact ⟨h1.congr rfl rfl rfl rfl rfl rfl rfl rfl, h2, h3, h4⟩
  · exact ⟨h1.congr rfl rfl rfl rfl rfl rfl rfl rfl, h2, h3, h4⟩
  · exact ⟨h1.congr rfl rfl rfl rfl rfl rfl rfl rfl, h2, h3, h4⟩
  · exact ⟨writeOam_inv h1 d, h2, h3, h4⟩
  · exact ⟨writeScroll_inv h1 d, h2, h3, h4⟩
  · exact ⟨writeAddr_inv h1 d, h2, h3, h4⟩
  · exact ⟨(writeData_inv h3 h1 d).2, h2, (writeData_inv h3 h1 d).1, h4⟩
  · exact ⟨h1, h2, h3, h4⟩

theorem oamCopy_inv (n : Nat) {addr : Word} {s : State} (h : DeviceInv s) : DeviceInv (oamCopy n addr s) := by
  induction n generalizing addr s with
  | zero => exact h
  | succ n ih =>
    obtain ⟨h1, h2⟩ := busRead_inv h addr
    exact ih (s := { (busRead addr s).2 with ppu := writeOam (busRead addr s).2.ppu (busRead addr s).1 })
      ⟨writeOam_inv h1 _, h2⟩

/-- A bus write keeps the devices' invariant. -/
theorem busWrite_inv {s : State} (h : DeviceInv s) (addr : Word) (v : Byte) : DeviceInv (busWrite addr v s) := by
  suffices h : DeviceInv (routeWrite addr v s) from h.congr rfl rfl rfl rfl
  unfold routeWrite
  split
  · exact ppuRegWrite_inv h _ _
  split
  · have hd := oamCopy_inv 256 (addr := mkWord v 0) h
    unfold oamDma
    generalize oamCopy 256 (mkWord v 0) s = t at hd ⊢
    exact hd.congr rfl rfl rfl rfl
  split
  · unfold controllerStrobe
    split <;> exact h.congr rfl rfl rfl rfl
  split
  · obtain ⟨h1, h2, h3⟩ := h
    exact ⟨h1, apuWrite_inv h2 _ _, h3⟩
  split
  · next h6 =>
    obtain ⟨h1, h2, h3, h4⟩ := h
    exact ⟨h1, h2, cartCpuWrite_inv h3 h6 v, h4⟩
  split
  · exact setRam_inv h (Nat.mod_lt _ (by decide)) v
  · exact h

theorem loadSource_inv {s : State} (h : DeviceInv s) (src : Source) : DeviceInv (loadSource src s).2 := by
  cases src with
  | imm b => exact h
  | mem m => rw [loadSource_mem]; exact busRead_inv (s := s.setEA (addressOf m s)) (h.congr rfl rfl rfl rfl) _

theorem push_inv {s : State} (h : DeviceInv s) (v : Byte) : DeviceInv (push v s) := by
  rw [push_eq]
  have := s.cpu.sp.isLt
  exact (setRam_inv h (n := 256 + s.cpu.sp.toNat) (by omega) v).congr rfl rfl rfl rfl

theorem pushFrame_inv {s : State} (h : DeviceInv s) (status : Byte) : DeviceInv (s.pushFrame status) := by
  have h0 := s.cpu.sp.isLt
  have h1 := (s.cpu.sp - 1).isLt
  have h2 := (s.cpu.sp - 2).isLt
  exact setRam_inv (setRam_inv (setRam_inv h (by omega) _) (by omega) _) (by omega) _

theorem reset_deviceInv : DeviceInv State.reset := by
  refine ⟨reset_ppuInv ⟨⟨rfl, rfl, rfl, rfl⟩, rfl, rfl, rfl, rfl⟩, reset_apuInv, ?_, rfl, rfl⟩
  exact ⟨⟨by decide, fun m e => by cases e⟩, ⟨rfl, rfl, rfl⟩, rfl, rfl, rfl⟩

/-- Reset memory is canonical. -/
theorem reset_memoriesWf : MemoriesWf State.reset := ⟨rfl, rfl, rfl, rfl, rfl, rfl, rfl, rfl⟩

/-! The rest of a tick. -/

theorem ppuTick_inv {s : State} (h : DeviceInv s) : DeviceInv (ppuTick s) := by
  obtain ⟨h1, h2, h3, h4⟩ := h
  obtain ⟨hc, hp⟩ := ppuDot_inv h3 h1 s.params
  exact ⟨hp, h2, hc, h4⟩

theorem nmiCheck_inv {s : State} (h : DeviceInv s) : DeviceInv (nmiCheck s) := by
  unfold nmiCheck
  split
  · obtain ⟨h1, h2⟩ := h
    exact ⟨h1.congr rfl rfl rfl rfl rfl rfl rfl rfl, h2⟩
  · exact h

theorem dmcReader_inv {s : State} (h : DeviceInv s) : DeviceInv (dmcReader s) := by
  unfold dmcReader
  split
  · next hb =>
    simp only [Bool.and_eq_true, decide_eq_true_eq] at hb
    obtain ⟨h1, h2, h3⟩ := busRead_inv (h.congr (t := s.stall Config.dmcDmaStall) rfl rfl rfl rfl) s.apu.dmc.curAddr
    have hd : (busRead s.apu.dmc.curAddr (s.stall Config.dmcDmaStall)).2.apu.dmc = s.apu.dmc :=
      congrArg (·.apu.dmc) (busReadWith_frame false _ _ _ rfl)
    refine ⟨h1, ⟨h2.1, ?_⟩, h3⟩
    have := dmcTakeByte_inv h2.2 (by rw [hd]; exact hb.2) (busRead s.apu.dmc.curAddr (s.stall Config.dmcDmaStall)).1
    exact this
  · exact h

theorem apuTick_inv {s : State} (h : DeviceInv s) : DeviceInv (apuTick s) := by
  obtain ⟨h1, h2, h3⟩ := h
  obtain ⟨g1, g2, g3⟩ := dmcReader_inv (s := { s with apu := apuUnits s.apu }) ⟨h1, apuUnits_inv h2, h3⟩
  exact ⟨g1, g2.congr rfl id, g3⟩

theorem resample_inv {s : State} (h : DeviceInv s) : DeviceInv (resample s) := by
  unfold resample
  dsimp only
  split <;> exact h.congr rfl rfl rfl rfl

theorem irqCheck_inv {s : State} (h : DeviceInv s) : DeviceInv (irqCheck s) := by
  unfold irqCheck cpuIrq
  split
  · split
    · exact h
    · exact h.congr rfl rfl rfl rfl
  · exact h

end Sys2Proof.Machine
end

