-- ==== Sys2Proof/Laws/Dot.lean ====
section
/-! SUPPORT. What one dot of the PPU can change, stage by stage (spec/62_ppu.md R195 to R205). -/

namespace Sys2Proof.Machine

/-- A stage that leaves alone the status flags, the cursor, the registers a program writes and the three
memories behind them. -/
def KeepsDotRegs (f : Ppu → Ppu) : Prop :=
  ∀ p,
    (f p).vblank = p.vblank ∧ (f p).sprite0Hit = p.sprite0Hit ∧ (f p).nmiEdge = p.nmiEdge ∧
    (f p).scanline = p.scanline ∧ (f p).dot = p.dot ∧ (f p).mask = p.mask ∧ (f p).ctrl = p.ctrl ∧
    (f p).sprite0Line = p.sprite0Line ∧ (f p).oddFrame = p.oddFrame ∧
    (f p).frameComplete = p.frameComplete ∧ (f p).vram = p.vram ∧ (f p).palette = p.palette ∧
    (f p).oam = p.oam ∧ (f p).oamAddr = p.oamAddr ∧ (f p).t = p.t ∧ (f p).fineX = p.fineX ∧
    (f p).w = p.w ∧ (f p).readBuffer = p.readBuffer

theorem KeepsDotRegs.comp {f g : Ppu → Ppu} (hf : KeepsDotRegs f) (hg : KeepsDotRegs g) :
    KeepsDotRegs (fun p => f (g p)) := by
  intro p
  have a := hf (g p)
  have b := hg p
  simp only [b] at a
  exact a

theorem KeepsDotRegs.applyIf {f : Ppu → Ppu} (hf : KeepsDotRegs f) (b : Ppu → Bool) :
    KeepsDotRegs (fun p => Machine.applyIf (b p) f p) := by
  intro p
  simp only [Machine.applyIf]
  split
  · exact hf p
  · simp

theorem incrementCoarseX_keeps : KeepsDotRegs incrementCoarseX := by
  intro p
  unfold incrementCoarseX
  split <;> simp

theorem incrementY_keeps : KeepsDotRegs incrementY := by
  intro p
  unfold incrementY
  split
  · simp
  · dsimp only
    split
    · simp
    · split <;> simp

theorem fetchBackground_keeps (c : Cartridge) : KeepsDotRegs (fetchBackground c) := by
  intro p
  unfold fetchBackground
  split
  · simp [loadShifters]
  · simp
  · simp
  · simp
  · exact incrementCoarseX_keeps p
  · simp

theorem background_keeps (c : Cartridge) : KeepsDotRegs (background c) := by
  intro p
  unfold background
  split
  · have h1 : KeepsDotRegs (fun p => applyIf (dotIn p 2 257 || dotIn p 322 337) shiftBackground p) :=
      KeepsDotRegs.applyIf (fun p => by simp [shiftBackground]) _
    have h2 : KeepsDotRegs (fun p => applyIf (dotIn p 1 256 || dotIn p 321 336) (fetchBackground c) p) :=
      KeepsDotRegs.applyIf (fetchBackground_keeps c) _
    have h3 : KeepsDotRegs (fun p => applyIf (decide (p.dot = 256)) incrementY p) :=
      KeepsDotRegs.applyIf incrementY_keeps _
    have h4 : KeepsDotRegs
        (fun p => applyIf (decide (p.dot = 257)) (fun p => copyX (loadShifters p)) p) :=
      KeepsDotRegs.applyIf (fun p => by simp [copyX, loadShifters]) _
    have h5 : KeepsDotRegs (fun p => applyIf (onPreRenderLine p && dotIn p 280 304) copyY p) :=
      KeepsDotRegs.applyIf (fun p => by simp [copyY]) _
    exact (h5.comp (h4.comp (h3.comp (h2.comp h1)))) p
  · simp

theorem advanceSprites_keeps : KeepsDotRegs advanceSprites := by
  intro p
  unfold advanceSprites
  split <;> simp

/-- Pixel composition writes the framebuffer and may set the sprite-0 hit, where R203 allows it. -/
theorem composePixel_eq (c : Cartridge) (p : Ppu) :
    ∃ hit fb, composePixel c p = { p with sprite0Hit := hit, framebuffer := fb } ∧
      (hit = true → p.sprite0Hit = true ∨
        (0 ≤ p.scanline ∧ p.scanline ≤ 239 ∧ 1 ≤ p.dot ∧ p.dot ≤ 255 ∧ p.mask.getLsbD 3 = true ∧
          p.mask.getLsbD 4 = true ∧ p.sprite0Line = true)) := by
  unfold composePixel
  split
  · next hv =>
    simp only [onVisibleLine, dotIn, Bool.and_eq_true, decide_eq_true_eq] at hv
    dsimp only
    split
    · refine ⟨_, _, rfl, ?_⟩
      simp only [Bool.or_eq_true]
      rintro (h | h)
      · exact .inl h
      · right
        unfold hitsSprite0 at h
        split at h
        · cases h
        · simp only [Bool.and_eq_true, decide_eq_true_eq] at h
          exact ⟨by omega, by omega, by omega, by omega, h.1.1.1.2, h.1.1.2, h.1.1.1.1.2⟩
    · exact ⟨p.sprite0Hit, _, rfl, .inl⟩
  · exact ⟨p.sprite0Hit, p.framebuffer, rfl, .inl⟩

/-- The scan of OAM changes secondary OAM, the count, the sprite-0 mark and the overflow flag. -/
theorem scanOam_eq (ks : List Nat) (p : Ppu) :
    ∃ sec zero n ovf, scanOam p ks =
      { p with secOam := sec, sprite0Next := zero, spriteCount := n, spriteOverflow := ovf } := by
  induction ks generalizing p with
  | nil => exact ⟨_, _, _, _, rfl⟩
  | cons k rest ih =>
    unfold scanOam
    split
    · split
      · obtain ⟨a, b, d, e, h⟩ := ih { p with
            secOam := p.secOam.setIfInBounds p.spriteCount (oamEntry p k)
            sprite0Next := p.sprite0Next || decide (k = 0)
            spriteCount := p.spriteCount + 1 }
        exact ⟨a, b, d, e, h⟩
      · exact ⟨_, _, _, _, rfl⟩
    · exact ih p

/-- So does sprite evaluation. -/
theorem evaluateSprites_eq (p : Ppu) :
    ∃ sec zero n ovf, evaluateSprites p =
      { p with secOam := sec, sprite0Next := zero, spriteCount := n, spriteOverflow := ovf } := by
  unfold evaluateSprites
  split
  · dsimp only
    split
    · obtain ⟨a, b, d, e, h⟩ := scanOam_eq (List.range 64)
        { p with
          spriteCount := 0, sprite0Next := false
          secOam := Vector.replicate 8 ⟨0xFF, 0xFF, 0xFF, 0xFF⟩ }
      exact ⟨a, b, d, e, h⟩
    · exact ⟨_, _, _, _, rfl⟩
  · exact ⟨_, _, _, _, rfl⟩

/-- The sprite fetch changes the sprite units, their count and the sprite-0 mark of the line. -/
theorem fetchSprites_eq (c : Cartridge) (p : Ppu) :
    ∃ n zero units, fetchSprites c p = { p with sprCount := n, sprite0Line := zero, sprites := units } := by
  unfold fetchSprites
  split
  · split
    · exact ⟨_, _, _, rfl⟩
    · exact ⟨_, _, _, rfl⟩
  · exact ⟨_, _, _, rfl⟩

/-- Vertical blank changes the three status flags and the NMI edge. -/
theorem verticalBlank_eq (p : Ppu) :
    ∃ vb hit ovf edge, verticalBlank p =
      { p with vblank := vb, sprite0Hit := hit, spriteOverflow := ovf, nmiEdge := edge } := by
  unfold verticalBlank
  split
  · exact ⟨_, _, _, _, rfl⟩
  · split
    · exact ⟨_, _, _, _, rfl⟩
    · exact ⟨_, _, _, _, rfl⟩

/-- The cursor's advance changes the cursor, the parity and the frame flag. -/
theorem advanceCursor_eq (params : Params) (p : Ppu) :
    ∃ line dot odd done, advanceCursor params p =
      { p with scanline := line, dot, oddFrame := odd, frameComplete := done } := by
  unfold advanceCursor
  split
  · split
    · exact ⟨_, _, _, _, rfl⟩
    · exact ⟨_, _, _, _, rfl⟩
  · exact ⟨_, _, _, _, rfl⟩

/-- Everything a dot can do: `p1` is the PPU after the background pipeline and the sprite units, `p2` after
composition, evaluation and the sprite fetch. -/
theorem ppuDot_eq (params : Params) (c : Cartridge) (p : Ppu) :
    ∃ p1 p2 : Ppu,
      p1 = advanceSprites (background c p) ∧
      (∃ hit fb sec next n ovf m zero units,
        p2 =
          { p1 with
            sprite0Hit := hit, framebuffer := fb, secOam := sec, sprite0Next := next, spriteCount := n
            spriteOverflow := ovf, sprCount := m, sprite0Line := zero, sprites := units } ∧
        (hit = true → p1.sprite0Hit = true ∨
          (0 ≤ p1.scanline ∧ p1.scanline ≤ 239 ∧ 1 ≤ p1.dot ∧ p1.dot ≤ 255 ∧
            p1.mask.getLsbD 3 = true ∧ p1.mask.getLsbD 4 = true ∧ p1.sprite0Line = true))) ∧
      ppuDot params c p =
        (mapperTick c (verticalBlank p2), advanceCursor params (verticalBlank p2)) := by
  refine ⟨_, _, rfl, ?_, rfl⟩
  obtain ⟨hit, fb, e1, e2⟩ := composePixel_eq c (advanceSprites (background c p))
  rw [e1]
  obtain ⟨sec, next, n, ovf, e3⟩ := evaluateSprites_eq
    { (advanceSprites (background c p)) with sprite0Hit := hit, framebuffer := fb }
  rw [e3]
  obtain ⟨m, zero, units, e4⟩ := fetchSprites_eq c
    { (advanceSprites (background c p)) with
      sprite0Hit := hit, framebuffer := fb, secOam := sec, sprite0Next := next, spriteCount := n
      spriteOverflow := ovf }
  rw [e4]
  exact ⟨hit, fb, sec, next, n, ovf, m, zero, units, rfl, e2⟩

end Sys2Proof.Machine
end

