-- ==== Sys2Proof/Laws/Sprites.lean ====
section
/-! SUPPORT. What the scan of OAM finds (spec/62_ppu.md R200), and that a dot 256 leaves it. -/

namespace Sys2Proof.Machine

/-- The scan takes the entries in range in order while there is room, and the next one sets the overflow flag. -/
theorem scanOam_result (ks : List Nat) (p : Ppu) (hn : p.spriteCount ≤ 8) :
    (scanOam p ks).spriteCount =
      min 8 (p.spriteCount + (ks.filter (fun k => spriteInRange p (oamEntry p k))).length) ∧
    (∀ i, i < 8 → (scanOam p ks).secOam[i]? =
      if i < p.spriteCount then p.secOam[i]?
      else match (ks.filter (fun k => spriteInRange p (oamEntry p k)))[i - p.spriteCount]? with
        | some k => some (oamEntry p k)
        | none => p.secOam[i]?) ∧
    (scanOam p ks).sprite0Next = (p.sprite0Next ||
      ((ks.filter (fun k => spriteInRange p (oamEntry p k))).take (8 - p.spriteCount)).any (fun k => decide (k = 0))) ∧
    (scanOam p ks).spriteOverflow = (p.spriteOverflow ||
      decide (8 < p.spriteCount + (ks.filter (fun k => spriteInRange p (oamEntry p k))).length)) := by
  induction ks generalizing p with
  | nil => simp [scanOam, hn]
  | cons k rest ih =>
    unfold scanOam
    by_cases hk : spriteInRange p (oamEntry p k) = true
    · rw [if_pos hk, List.filter_cons_of_pos (p := fun j => spriteInRange p (oamEntry p j)) hk]
      by_cases h8 : p.spriteCount < 8
      · rw [if_pos h8]
        obtain ⟨a, b, c, d⟩ := ih { p with
            secOam := p.secOam.setIfInBounds p.spriteCount (oamEntry p k)
            sprite0Next := p.sprite0Next || decide (k = 0)
            spriteCount := p.spriteCount + 1 } (by show p.spriteCount + 1 ≤ 8; omega)
        have hf : (fun j => spriteInRange { p with
            secOam := p.secOam.setIfInBounds p.spriteCount (oamEntry p k)
            sprite0Next := p.sprite0Next || decide (k = 0)
            spriteCount := p.spriteCount + 1 } (oamEntry { p with
            secOam := p.secOam.setIfInBounds p.spriteCount (oamEntry p k)
            sprite0Next := p.sprite0Next || decide (k = 0)
            spriteCount := p.spriteCount + 1 } j)) = (fun j => spriteInRange p (oamEntry p j)) := rfl
        rw [hf] at a b c d
        generalize scanOam _ rest = q at *
        generalize hh : List.filter (fun j => spriteInRange p (oamEntry p j)) rest = hits at *
        refine ⟨?_, ?_, ?_, ?_⟩
        · rw [a]; simp only [List.length_cons]; omega
        · intro i hi
          rw [b i hi]
          dsimp only [oamEntry]
          by_cases h1 : i < p.spriteCount
          · rw [if_pos (by omega), if_pos h1]
            exact Vector.getElem?_setIfInBounds_ne (by omega)
          · rw [if_neg h1]
            by_cases h2 : i = p.spriteCount
            · subst h2
              rw [if_pos (by omega)]
              simp [h8]
            · rw [if_neg (by omega)]
              have : i - p.spriteCount = (i - (p.spriteCount + 1)) + 1 := by omega
              rw [this, List.getElem?_cons_succ]
              cases hits[i - (p.spriteCount + 1)]? with
              | some j => rfl
              | none => exact Vector.getElem?_setIfInBounds_ne (by omega)
        · rw [c]
          have : 8 - p.spriteCount = (8 - (p.spriteCount + 1)) + 1 := by omega
          rw [this, List.take_succ_cons]
          simp [Bool.or_assoc]
        · rw [d]; simp; congr 2; apply propext; omega
      · rw [if_neg h8]
        have h : p.spriteCount = 8 := by omega
        refine ⟨?_, ?_, ?_, ?_⟩
        · simp [h]
        · intro i hi; rw [if_pos (by omega)]
        · simp [h]
        · simp [h]
    · rw [if_neg hk, List.filter_cons_of_neg (p := fun j => spriteInRange p (oamEntry p j)) hk]
      exact ih p hn


/-- Before its pixel a dot leaves the overflow flag alone. -/
theorem background_spriteOverflow (c : Cartridge) (p : Ppu) :
    (background c p).spriteOverflow = p.spriteOverflow := by
  have hx : ∀ p, (incrementCoarseX p).spriteOverflow = p.spriteOverflow := by
    intro p; unfold incrementCoarseX; split <;> rfl
  have hy : ∀ p, (incrementY p).spriteOverflow = p.spriteOverflow := by
    intro p; unfold incrementY; dsimp only; repeat' split
    all_goals rfl
  have hf : ∀ p, (fetchBackground c p).spriteOverflow = p.spriteOverflow := by
    intro p; unfold fetchBackground; split
    case h_5 => exact hx p
    all_goals rfl
  have happ : ∀ (b : Bool) (f : Ppu → Ppu) (p : Ppu), (∀ p, (f p).spriteOverflow = p.spriteOverflow) →
      (applyIf b f p).spriteOverflow = p.spriteOverflow := by
    intro b f p h; unfold applyIf; split
    · exact h p
    · rfl
  unfold background
  split
  · dsimp only
    rw [happ _ copyY _ (fun _ => rfl), happ _ (fun p => copyX (loadShifters p)) _ (fun _ => rfl),
      happ _ _ _ hy, happ _ _ _ hf, happ _ shiftBackground _ (fun _ => rfl)]
  · rfl

/-- At dot 256 of a visible scanline the dot leaves what sprite evaluation leaves, on a PPU with the dot's own
OAM, cursor, control and overflow flag. -/
theorem ppuDot_evaluates (params : Params) (c : Cartridge) (p : Ppu) (hd : p.dot = 256) :
    ∃ r : Ppu, r.oam = p.oam ∧ r.scanline = p.scanline ∧ r.ctrl = p.ctrl ∧ r.mask = p.mask ∧
      r.dot = p.dot ∧ r.spriteOverflow = p.spriteOverflow ∧
      (ppuDot params c p).2.spriteCount = (evaluateSprites r).spriteCount ∧
      (ppuDot params c p).2.secOam = (evaluateSprites r).secOam ∧
      (ppuDot params c p).2.sprite0Next = (evaluateSprites r).sprite0Next ∧
      (ppuDot params c p).2.spriteOverflow = (evaluateSprites r).spriteOverflow := by
  have hk := advanceSprites_keeps.comp (background_keeps c) p
  have ho : (advanceSprites (background c p)).spriteOverflow = p.spriteOverflow := by
    rw [← background_spriteOverflow c p]; unfold advanceSprites; split <;> rfl
  unfold ppuDot
  dsimp only
  obtain ⟨hit, fb, e1, -⟩ := composePixel_eq c (advanceSprites (background c p))
  rw [e1]
  dsimp only at hk
  generalize advanceSprites (background c p) = p1 at *
  obtain ⟨_, _, _, k1, k2, k3, k4, _, _, _, _, _, k5, _⟩ := hk
  refine ⟨{ p1 with sprite0Hit := hit, framebuffer := fb }, k5, k1, k4, k3, k2, ho, ?_⟩
  obtain ⟨sec, next, n, ovf, e3⟩ := evaluateSprites_eq { p1 with sprite0Hit := hit, framebuffer := fb }
  rw [e3]
  obtain ⟨m, zero, units, e4⟩ := fetchSprites_eq c
    { p1 with
      sprite0Hit := hit, framebuffer := fb, secOam := sec, sprite0Next := next, spriteCount := n
      spriteOverflow := ovf }
  generalize fetchSprites c _ = q at *
  have hv : verticalBlank q = q := by
    have hq : q.dot = 256 := by rw [e4]; exact k2.trans hd
    unfold verticalBlank
    rw [if_neg (by omega), if_neg (by omega)]
  obtain ⟨_, _, _, _, e5⟩ := advanceCursor_eq params q
  rw [hv, e5, e4]
  exact ⟨rfl, rfl, rfl, rfl⟩

end Sys2Proof.Machine
end

