-- ==== Sys2Proof/Laws/Pixel.lean ====
section
/-! SUPPORT. What pixel composition sees of the background shifters and of the sprite units as they stood before
the dot (spec/62_ppu.md R197, R202, R203). -/

namespace Sys2Proof.Machine

/-- What a dot leaves in the framebuffer and of the hit flag is what composition left, but for the clear at
(-1, 1). -/
theorem ppuDot_composes (params : Params) (c : Cartridge) (p : Ppu) :
    let composed := composePixel c (advanceSprites (background c p))
    let q := (ppuDot params c p).2
    q.framebuffer = composed.framebuffer ∧
    q.sprite0Hit = (if p.scanline = -1 ∧ p.dot = 1 then false else composed.sprite0Hit) := by
  have hk := advanceSprites_keeps.comp (background_keeps c) p
  unfold ppuDot
  dsimp only at hk ⊢
  obtain ⟨hit, fb, e1, -⟩ := composePixel_eq c (advanceSprites (background c p))
  rw [e1]
  generalize advanceSprites (background c p) = p1 at *
  obtain ⟨_, _, _, k1, k2, _⟩ := hk
  obtain ⟨sec, next, n, ovf, e3⟩ := evaluateSprites_eq { p1 with sprite0Hit := hit, framebuffer := fb }
  rw [e3]
  obtain ⟨m, zero, units, e4⟩ := fetchSprites_eq c
    { p1 with
      sprite0Hit := hit, framebuffer := fb, secOam := sec, sprite0Next := next, spriteCount := n
      spriteOverflow := ovf }
  rw [e4]
  generalize hq : verticalBlank _ = q
  obtain ⟨_, _, _, _, e5⟩ := advanceCursor_eq params q
  rw [e5, ← hq]
  unfold verticalBlank
  dsimp only
  rw [k1, k2]
  split
  · rw [if_neg (by omega)]
    exact ⟨rfl, rfl⟩
  · split <;> exact ⟨rfl, rfl⟩

/-- A stage that leaves the sprite units and the framebuffer alone. -/
def KeepsUnits (f : Ppu → Ppu) : Prop :=
  ∀ p, (f p).sprites = p.sprites ∧ (f p).sprCount = p.sprCount ∧ (f p).framebuffer = p.framebuffer

theorem KeepsUnits.comp {f g : Ppu → Ppu} (hf : KeepsUnits f) (hg : KeepsUnits g) :
    KeepsUnits (fun p => f (g p)) :=
  fun p => ⟨(hf _).1.trans (hg p).1, (hf _).2.1.trans (hg p).2.1, (hf _).2.2.trans (hg p).2.2⟩

theorem KeepsUnits.applyIf {f : Ppu → Ppu} (hf : KeepsUnits f) (b : Ppu → Bool) :
    KeepsUnits (fun p => Machine.applyIf (b p) f p) := by
  intro p
  simp only [Machine.applyIf]
  split
  · exact hf p
  · exact ⟨rfl, rfl, rfl⟩

theorem incrementCoarseX_units : KeepsUnits incrementCoarseX := by
  intro p
  unfold incrementCoarseX
  split <;> exact ⟨rfl, rfl, rfl⟩

theorem incrementY_units : KeepsUnits incrementY := by
  intro p
  unfold incrementY
  dsimp only
  repeat' split
  all_goals exact ⟨rfl, rfl, rfl⟩

theorem fetchBackground_units (c : Cartridge) : KeepsUnits (fetchBackground c) := by
  intro p
  unfold fetchBackground
  split
  case h_5 => exact incrementCoarseX_units p
  all_goals exact ⟨rfl, rfl, rfl⟩

theorem background_units (c : Cartridge) : KeepsUnits (background c) := by
  intro p
  unfold background
  split
  · have h1 := KeepsUnits.applyIf (f := shiftBackground) (fun _ => ⟨rfl, rfl, rfl⟩)
      (fun p => dotIn p 2 257 || dotIn p 322 337)
    have h2 := KeepsUnits.applyIf (fetchBackground_units c) (fun p => dotIn p 1 256 || dotIn p 321 336)
    have h3 := KeepsUnits.applyIf incrementY_units (fun p => decide (p.dot = 256))
    have h4 := KeepsUnits.applyIf (f := fun p => copyX (loadShifters p)) (fun _ => ⟨rfl, rfl, rfl⟩)
      (fun p => decide (p.dot = 257))
    have h5 := KeepsUnits.applyIf (f := copyY) (fun _ => ⟨rfl, rfl, rfl⟩)
      (fun p => onPreRenderLine p && dotIn p 280 304)
    exact (h5.comp (h4.comp (h3.comp (h2.comp h1)))) p
  · exact ⟨rfl, rfl, rfl⟩

/-! The background's bits. -/

/-- The upper bytes of the four background shifters are the same. -/
def SameUpper (p q : Ppu) : Prop :=
  ∀ k, 8 ≤ k → k < 16 →
    q.bgLo.getLsbD k = p.bgLo.getLsbD k ∧ q.bgHi.getLsbD k = p.bgHi.getLsbD k ∧
    q.atLo.getLsbD k = p.atLo.getLsbD k ∧ q.atHi.getLsbD k = p.atHi.getLsbD k

theorem SameUpper.refl (p : Ppu) : SameUpper p p := fun _ _ _ => ⟨rfl, rfl, rfl, rfl⟩

theorem loadLow_upper (r : BitVec 16) (b : Byte) (k : Nat) (h : 8 ≤ k) (h' : k < 16) :
    (loadLow r b).getLsbD k = r.getLsbD k := by
  unfold loadLow
  rw [BitVec.getLsbD_or, BitVec.getLsbD_and, BitVec.getLsbD_setWidth, BitVec.getLsbD_of_ge b k h]
  have : (0xFF00#16).getLsbD k = true := by
    rcases k with _|_|_|_|_|_|_|_|_|_|_|_|_|_|_|_|k <;> first | omega | rfl
  simp [this]

theorem loadShifters_upper (p : Ppu) : SameUpper p (loadShifters p) :=
  fun _ h h' => ⟨loadLow_upper _ _ _ h h', loadLow_upper _ _ _ h h', loadLow_upper _ _ _ h h',
    loadLow_upper _ _ _ h h'⟩

theorem fetchBackground_upper (c : Cartridge) (p : Ppu) : SameUpper p (fetchBackground c p) := by
  unfold fetchBackground
  split
  · exact loadShifters_upper p
  case h_5 =>
    unfold incrementCoarseX
    split <;> exact SameUpper.refl p
  all_goals exact SameUpper.refl p

/-- At dots 1 to 256 of a visible scanline, rendering, the upper bits of the shifters are those before the dot,
which from dot 2 on shifts them by one. -/
theorem background_planes (c : Cartridge) (p : Ppu)
    (hv : 0 ≤ p.scanline ∧ p.scanline ≤ 239 ∧ 1 ≤ p.dot ∧ p.dot ≤ 256) (hr : renderingEnabled p = true)
    (k : Nat) (h : 8 ≤ k) (h' : k < 16) :
    let q := background c p
    let j := if p.dot = 1 then k else k - 1
    q.bgLo.getLsbD k = p.bgLo.getLsbD j ∧ q.bgHi.getLsbD k = p.bgHi.getLsbD j ∧
    q.atLo.getLsbD k = p.atLo.getLsbD j ∧ q.atHi.getLsbD k = p.atHi.getLsbD j := by
  dsimp only
  unfold background
  rw [if_pos (by simp [onVisibleLine, hr, hv.1, hv.2.1])]
  dsimp only
  have e1 : applyIf (dotIn p 2 257 || dotIn p 322 337) shiftBackground p =
      if p.dot = 1 then p else shiftBackground p := by
    unfold applyIf dotIn
    by_cases h1 : p.dot = 1
    · simp [h1]
    · rw [if_neg h1, if_pos]
      simp
      omega
  have hs : let q := if p.dot = 1 then p else shiftBackground p
      let j := if p.dot = 1 then k else k - 1
      q.bgLo.getLsbD k = p.bgLo.getLsbD j ∧ q.bgHi.getLsbD k = p.bgHi.getLsbD j ∧
      q.atLo.getLsbD k = p.atLo.getLsbD j ∧ q.atHi.getLsbD k = p.atHi.getLsbD j := by
    dsimp only
    split
    · exact ⟨rfl, rfl, rfl, rfl⟩
    · have : ¬ k < 1 := by omega
      simp only [shiftBackground, BitVec.getLsbD_shiftLeft]
      simp [this, h']
  have k1 : (if p.dot = 1 then p else shiftBackground p).dot = p.dot ∧
      (if p.dot = 1 then p else shiftBackground p).scanline = p.scanline := by
    split <;> exact ⟨rfl, rfl⟩
  rw [e1]
  generalize (if p.dot = 1 then p else shiftBackground p) = p1 at *
  have e2 : SameUpper p1 (applyIf (dotIn p1 1 256 || dotIn p1 321 336) (fetchBackground c) p1) := by
    unfold applyIf
    split
    · exact fetchBackground_upper c p1
    · exact SameUpper.refl p1
  have k2 := KeepsDotRegs.applyIf (fetchBackground_keeps c) (fun p => dotIn p 1 256 || dotIn p 321 336) p1
  obtain ⟨_, _, _, k2l, k2d, _⟩ := k2
  dsimp only at k2l k2d
  generalize applyIf (dotIn p1 1 256 || dotIn p1 321 336) (fetchBackground c) p1 = p2 at *
  have e3 : SameUpper p2 (applyIf (decide (p2.dot = 256)) incrementY p2) := by
    unfold applyIf
    split
    · unfold incrementY
      dsimp only
      repeat' split
      all_goals exact SameUpper.refl p2
    · exact SameUpper.refl p2
  have k3 := KeepsDotRegs.applyIf incrementY_keeps (fun p => decide (p.dot = 256)) p2
  obtain ⟨_, _, _, k3l, k3d, _⟩ := k3
  dsimp only at k3l k3d
  generalize applyIf (decide (p2.dot = 256)) incrementY p2 = p3 at *
  have hd : p3.dot = p.dot := (k3d.trans k2d).trans k1.1
  have hl : p3.scanline = p.scanline := (k3l.trans k2l).trans k1.2
  have e4 : applyIf (decide (p3.dot = 257)) (fun p => copyX (loadShifters p)) p3 = p3 := by
    unfold applyIf
    rw [if_neg]
    simp
    omega
  have e5 : applyIf (onPreRenderLine p3 && dotIn p3 280 304) copyY p3 = p3 := by
    unfold applyIf
    rw [if_neg]
    simp [onPreRenderLine]
    omega
  rw [e4, e5]
  obtain ⟨a1, a2, a3, a4⟩ := e3 k h h'
  obtain ⟨b1, b2, b3, b4⟩ := e2 k h h'
  obtain ⟨c1, c2, c3, c4⟩ := hs
  exact ⟨by rw [a1, b1, c1], by rw [a2, b2, c2], by rw [a3, b3, c3], by rw [a4, b4, c4]⟩

/-! The sprites' bits. -/

/-- A sprite unit as composition sees it at the current dot. -/
def unitAtDot (p : Ppu) (u : SpriteUnit) : SpriteUnit := if p.dot = 1 then u else advanceUnit u

/-- What a unit puts out at the current dot, told from the unit before the dot; 0 while it is not active. -/
def unitDots (p : Ppu) (u : SpriteUnit) : Nat :=
  let column := if p.dot = 1 ∨ u.x.toNat = 1 then 7 else 6
  if u.x.toNat = 0 ∨ (u.x.toNat = 1 ∧ p.dot ≠ 1) then
    2 * (u.hi.getLsbD column).toNat + (u.lo.getLsbD column).toNat
  else 0

@[simp] theorem unitAtDot_attr (p : Ppu) (u : SpriteUnit) : (unitAtDot p u).attr = u.attr := by
  unfold unitAtDot advanceUnit
  split
  · rfl
  · split <;> rfl

/-- A unit is active and not transparent exactly when it puts out something. -/
theorem unitAtDot_opaque (p : Ppu) (u : SpriteUnit) :
    ((unitAtDot p u).x = 0 ∧ unitPixel (unitAtDot p u) ≠ 0 ↔ unitDots p u ≠ 0) ∧
    ((unitAtDot p u).x = 0 → unitPixel (unitAtDot p u) = unitDots p u) := by
  have key : ((unitAtDot p u).x = 0 ↔ (u.x.toNat = 0 ∨ (u.x.toNat = 1 ∧ p.dot ≠ 1))) ∧
      ((unitAtDot p u).x = 0 → unitPixel (unitAtDot p u) = unitDots p u) := by
    unfold unitAtDot advanceUnit unitDots unitPixel
    by_cases h1 : p.dot = 1
    · simp only [h1, if_true]
      rw [bitVec_eq_zero]
      exact ⟨by simp, fun h => by simp [h]⟩
    · simp only [h1, if_false]
      by_cases h0 : u.x = 0
      · have h0' := (bitVec_eq_zero u.x).1 h0
        simp [h0]
      · have h0' : u.x.toNat ≠ 0 := fun e => h0 ((bitVec_eq_zero u.x).2 e)
        rw [if_neg h0]
        have hs : (u.x - 1).toNat = u.x.toNat - 1 := bitVec_pred h0
        have hx : u.x - 1 = 0 ↔ u.x.toNat = 1 := by
          constructor
          · intro h
            have := congrArg BitVec.toNat h
            simp at this
            bv_omega
          · intro h
            exact BitVec.eq_of_toNat_eq (by rw [hs, h]; rfl)
        dsimp only
        rw [hx]
        exact ⟨by simp [h0', h1], fun h => by simp [h, h1]⟩
  refine ⟨⟨fun ⟨h, h'⟩ => by rw [← key.2 h]; exact h', fun h => ?_⟩, key.2⟩
  have hu : u.x.toNat = 0 ∨ (u.x.toNat = 1 ∧ p.dot ≠ 1) := by
    by_contra hc
    exact h (if_neg hc)
  exact ⟨key.1.2 hu, by rw [key.2 (key.1.2 hu)]; exact h⟩

/-- At dots 1 to 256 of a visible scanline, with sprites enabled, the units in use are advanced. -/
theorem advanceSprites_units (p : Ppu)
    (hv : 0 ≤ p.scanline ∧ p.scanline ≤ 239 ∧ 1 ≤ p.dot ∧ p.dot ≤ 256) (hm : p.mask.getLsbD 4 = true) :
    (advanceSprites p).sprites =
      p.sprites.mapIdx (fun i u => if i < p.sprCount then unitAtDot p u else u) := by
  unfold advanceSprites unitAtDot
  by_cases h1 : p.dot = 1
  · have hid : p.sprites.mapIdx
        (fun i u => if i < p.sprCount then (if p.dot = 1 then u else advanceUnit u) else u) = p.sprites := by
      ext i hi
      simp [h1]
    rw [hid, if_neg]
    simp [dotIn, h1]
  · simp only [h1, if_false]
    rw [if_pos]
    simp [onVisibleLine, dotIn, hm, hv.1, hv.2.1]
    omega

/-- The sprite pixel's unit is the first of the units in use that puts out something. -/
theorem firstOpaque_units (p : Ppu) (n : Nat) (v : Vector SpriteUnit 8) :
    firstOpaque 0 (((v.mapIdx (fun i u => if i < n then unitAtDot p u else u)).toList).take n) =
      ((List.finRange 8).find? (fun i => decide (i.val < n ∧ unitDots p v[i] ≠ 0))).map
        (fun i => (i.val, unitAtDot p v[i])) := by
  have hs := fun u => (unitAtDot_opaque p u).1
  have hfin : List.finRange 8 = [0, 1, 2, 3, 4, 5, 6, 7] := by decide
  have hlist : (v.mapIdx (fun i u => if i < n then unitAtDot p u else u)).toList =
      [0, 1, 2, 3, 4, 5, 6, 7].map (fun i : Fin 8 => if i.val < n then unitAtDot p v[i] else v[i]) := by
    apply List.ext_getElem (by simp)
    intro i h1 h2
    simp at h1
    rcases i with _|_|_|_|_|_|_|_|i <;> first | omega | simp
  have gen : ∀ (l : List (Fin 8)) (k : Nat), (∀ j (h : j < l.length), (l[j]).val = k + j) →
      firstOpaque k ((l.map (fun i : Fin 8 => if i.val < n then unitAtDot p v[i] else v[i])).take (n - k)) =
        (l.find? (fun i => decide (i.val < n ∧ unitDots p v[i] ≠ 0))).map
          (fun i => (i.val, unitAtDot p v[i])) := by
    intro l
    induction l with
    | nil =>
      intro k _
      simp [firstOpaque]
    | cons i rest ih =>
      intro k hk
      have hi : i.val = k := hk 0 (by simp)
      by_cases hn : k < n
      · have hd1 : n - k = (n - (k + 1)) + 1 := by omega
        rw [hd1, List.map_cons, List.take_succ_cons, firstOpaque, List.find?_cons, if_pos (by omega : i.val < n)]
        by_cases hd : unitDots p v[i] ≠ 0
        · rw [if_pos ((hs _).2 hd), decide_eq_true (⟨by omega, hd⟩ : i.val < n ∧ unitDots p v[i] ≠ 0)]
          simp [hi]
        · rw [if_neg (fun e => hd ((hs _).1 e)),
            ih (k + 1) (fun j h => by have := hk (j + 1) (by simp; omega); simp at this; omega),
            decide_eq_false (fun e => hd e.2)]
      · have h0 : n - k = 0 := by omega
        rw [h0, List.take_zero, firstOpaque]
        symm
        rw [Option.map_eq_none_iff, List.find?_eq_none]
        intro x hx
        obtain ⟨j, hj, rfl⟩ := List.getElem_of_mem hx
        have := hk j hj
        rw [decide_eq_true_iff]
        omega
  rw [hfin, hlist]
  exact gen [0, 1, 2, 3, 4, 5, 6, 7] 0 (by
    intro j h
    simp at h
    rcases j with _|_|_|_|_|_|_|_|j <;> first | omega | rfl)

/-! The colour. -/

/-- The palette byte of a pixel that is not transparent, or of the backdrop. -/
theorem ppuRead_palette (c : Cartridge) (p : Ppu) (pal px : Nat) (h1 : px < 4) (h2 : pal < 8)
    (h3 : px ≠ 0 ∨ pal = 0) :
    ppuRead c p (0x3F00 + BitVec.ofNat 14 (pal * 4 + px)) = readCell p.palette (pal * 4 + px) := by
  have hn : (0x3F00 + BitVec.ofNat 14 (pal * 4 + px)).toNat = 0x3F00 + (pal * 4 + px) := by
    simp [BitVec.toNat_add]
    omega
  have hi : (BitVec.extractLsb' 0 5 (0x3F00 + BitVec.ofNat 14 (pal * 4 + px))).toNat = pal * 4 + px := by
    rw [BitVec.extractLsb'_toNat, hn]
    simp
    omega
  unfold ppuRead
  rw [if_neg (by omega), if_neg (by omega)]
  congr 1
  unfold palIndex
  dsimp only
  rw [hi, if_neg]
  simp
  omega

theorem outputColour_eq (p : Ppu) (b : Byte) :
    outputColour p b = b.setWidth 6 &&& (if p.mask.getLsbD 0 then 0x30 else 0x3F) := by
  have h : ∀ c : BitVec 6, c = c &&& 0x3F := by decide
  unfold outputColour
  split
  · rfl
  · exact h _

end Sys2Proof.Machine
end

