-- ==== Sys2Proof/Laws/Scroll.lean ====
section
/-! SUPPORT. The fields of `v` after each scroll update (spec/62_ppu.md R181, R198), and what a dot does to `v`. -/

namespace Sys2Proof.Machine

@[simp] theorem coarseX_withCoarseX (v : BitVec 15) (c : BitVec 5) : coarseX (withCoarseX v c) = c := by
  unfold coarseX withCoarseX
  apply BitVec.eq_of_getLsbD_eq
  intro i hi
  interval_cases i <;> simp

@[simp] theorem coarseY_withCoarseX (v : BitVec 15) (c : BitVec 5) : coarseY (withCoarseX v c) = coarseY v := by
  unfold coarseY withCoarseX
  apply BitVec.eq_of_getLsbD_eq
  intro i hi
  interval_cases i <;> simp

@[simp] theorem fineY_withCoarseX (v : BitVec 15) (c : BitVec 5) : fineY (withCoarseX v c) = fineY v := by
  unfold fineY withCoarseX
  apply BitVec.eq_of_getLsbD_eq
  intro i hi
  interval_cases i <;> simp

@[simp] theorem withCoarseX_bit10 (v : BitVec 15) (c : BitVec 5) : (withCoarseX v c)[10] = v[10] := by
  simp [withCoarseX]

@[simp] theorem withCoarseX_bit11 (v : BitVec 15) (c : BitVec 5) : (withCoarseX v c)[11] = v[11] := by
  simp [withCoarseX]

@[simp] theorem coarseX_withCoarseY (v : BitVec 15) (c : BitVec 5) : coarseX (withCoarseY v c) = coarseX v := by
  unfold coarseX withCoarseY
  apply BitVec.eq_of_getLsbD_eq
  intro i hi
  interval_cases i <;> simp

@[simp] theorem coarseY_withCoarseY (v : BitVec 15) (c : BitVec 5) : coarseY (withCoarseY v c) = c := by
  unfold coarseY withCoarseY
  apply BitVec.eq_of_getLsbD_eq
  intro i hi
  interval_cases i <;> simp

@[simp] theorem fineY_withCoarseY (v : BitVec 15) (c : BitVec 5) : fineY (withCoarseY v c) = fineY v := by
  unfold fineY withCoarseY
  apply BitVec.eq_of_getLsbD_eq
  intro i hi
  interval_cases i <;> simp

@[simp] theorem withCoarseY_bit10 (v : BitVec 15) (c : BitVec 5) : (withCoarseY v c)[10] = v[10] := by
  simp [withCoarseY]

@[simp] theorem withCoarseY_bit11 (v : BitVec 15) (c : BitVec 5) : (withCoarseY v c)[11] = v[11] := by
  simp [withCoarseY]

@[simp] theorem coarseX_withFineY (v : BitVec 15) (c : BitVec 3) : coarseX (withFineY v c) = coarseX v := by
  unfold coarseX withFineY
  apply BitVec.eq_of_getLsbD_eq
  intro i hi
  interval_cases i <;> simp

@[simp] theorem coarseY_withFineY (v : BitVec 15) (c : BitVec 3) : coarseY (withFineY v c) = coarseY v := by
  unfold coarseY withFineY
  apply BitVec.eq_of_getLsbD_eq
  intro i hi
  interval_cases i <;> simp

@[simp] theorem fineY_withFineY (v : BitVec 15) (c : BitVec 3) : fineY (withFineY v c) = c := by
  unfold fineY withFineY
  apply BitVec.eq_of_getLsbD_eq
  intro i hi
  interval_cases i <;> simp

@[simp] theorem withFineY_bit10 (v : BitVec 15) (c : BitVec 3) : (withFineY v c)[10] = v[10] := by
  simp [withFineY]

@[simp] theorem withFineY_bit11 (v : BitVec 15) (c : BitVec 3) : (withFineY v c)[11] = v[11] := by
  simp [withFineY]

@[simp] theorem coarseX_flipX (v : BitVec 15) : coarseX (v ^^^ 0x0400#15) = coarseX v := by
  unfold coarseX
  apply BitVec.eq_of_getLsbD_eq
  intro i hi
  interval_cases i <;> simp

@[simp] theorem coarseY_flipX (v : BitVec 15) : coarseY (v ^^^ 0x0400#15) = coarseY v := by
  unfold coarseY
  apply BitVec.eq_of_getLsbD_eq
  intro i hi
  interval_cases i <;> simp

@[simp] theorem fineY_flipX (v : BitVec 15) : fineY (v ^^^ 0x0400#15) = fineY v := by
  unfold fineY
  apply BitVec.eq_of_getLsbD_eq
  intro i hi
  interval_cases i <;> simp

@[simp] theorem coarseX_flipY (v : BitVec 15) : coarseX (v ^^^ 0x0800#15) = coarseX v := by
  unfold coarseX
  apply BitVec.eq_of_getLsbD_eq
  intro i hi
  interval_cases i <;> simp

@[simp] theorem coarseY_flipY (v : BitVec 15) : coarseY (v ^^^ 0x0800#15) = coarseY v := by
  unfold coarseY
  apply BitVec.eq_of_getLsbD_eq
  intro i hi
  interval_cases i <;> simp

@[simp] theorem fineY_flipY (v : BitVec 15) : fineY (v ^^^ 0x0800#15) = fineY v := by
  unfold fineY
  apply BitVec.eq_of_getLsbD_eq
  intro i hi
  interval_cases i <;> simp

/-- `copy_x()`: the two horizontal fields are those of `t` (R198). -/
theorem copyX_fields (p : Ppu) :
    coarseX (copyX p).v = coarseX p.t ∧ (copyX p).v[10] = p.t[10] ∧ coarseY (copyX p).v = coarseY p.v ∧
    (copyX p).v[11] = p.v[11] ∧ fineY (copyX p).v = fineY p.v := by
  unfold copyX coarseX coarseY fineY
  refine ⟨?_, by simp, ?_, by simp, ?_⟩ <;>
    · apply BitVec.eq_of_getLsbD_eq
      intro i hi
      interval_cases i <;> simp

/-- `copy_y()`: the three vertical fields are those of `t` (R198). -/
theorem copyY_fields (p : Ppu) :
    coarseX (copyY p).v = coarseX p.v ∧ (copyY p).v[10] = p.v[10] ∧ coarseY (copyY p).v = coarseY p.t ∧
    (copyY p).v[11] = p.t[11] ∧ fineY (copyY p).v = fineY p.t := by
  unfold copyY coarseX coarseY fineY
  refine ⟨?_, by simp, ?_, by simp, ?_⟩ <;>
    · apply BitVec.eq_of_getLsbD_eq
      intro i hi
      interval_cases i <;> simp

/-- A fetch moves `v` at the last dot of its window alone (R197). -/
theorem fetchBackground_v (c : Cartridge) (p : Ppu) :
    (fetchBackground c p).v = if (p.dot - 1) % 8 = 7 then (incrementCoarseX p).v else p.v := by
  unfold fetchBackground
  split <;> simp_all [loadShifters]

theorem advanceSprites_v (p : Ppu) : (advanceSprites p).v = p.v := by
  unfold advanceSprites
  split <;> rfl

/-- After a dot `v` is what the background pipeline leaves. -/
theorem ppuDot_v (params : Params) (c : Cartridge) (p : Ppu) :
    (ppuDot params c p).2.v = (background c p).v := by
  obtain ⟨p1, p2, h1, ⟨_, _, _, _, _, _, _, _, _, h2, _⟩, e⟩ := ppuDot_eq params c p
  obtain ⟨_, _, _, _, e3⟩ := verticalBlank_eq p2
  obtain ⟨_, _, _, _, e4⟩ := advanceCursor_eq params (verticalBlank p2)
  rw [e, e4, e3, h2, h1]
  exact advanceSprites_v _

/-- A horizontal step changes `v` alone. -/
theorem incrementCoarseX_frame (p : Ppu) : incrementCoarseX p = { p with v := (incrementCoarseX p).v } := by
  unfold incrementCoarseX; split <;> rfl

/-- A vertical step changes `v` alone. -/
theorem incrementY_frame (p : Ppu) : incrementY p = { p with v := (incrementY p).v } := by
  unfold incrementY; split
  · rfl
  · dsimp only; split
    · rfl
    · split <;> rfl

/-- A vertical step reads `v` alone. -/
theorem incY_v (p q : Ppu) (h : p.v = q.v) : (incrementY p).v = (incrementY q).v := by
  unfold incrementY
  rw [h]
  split
  · rfl
  · dsimp only
    split
    · rfl
    · split <;> rfl

/-- A horizontal step reads `v` alone. -/
theorem incX_v (p q : Ppu) (h : p.v = q.v) : (incrementCoarseX p).v = (incrementCoarseX q).v := by
  unfold incrementCoarseX
  rw [h]
  split <;> rfl

/-- The shift leaves `v`, the cursor and `t`. -/
theorem shift_frame (p : Ppu) (b : Bool) :
    (applyIf b shiftBackground p).v = p.v ∧ (applyIf b shiftBackground p).dot = p.dot ∧
    (applyIf b shiftBackground p).t = p.t ∧ (applyIf b shiftBackground p).scanline = p.scanline := by
  unfold applyIf; split <;> exact ⟨rfl, rfl, rfl, rfl⟩

/-- A fetch leaves the cursor and `t`. -/
theorem fetch_frame (c : Cartridge) (p : Ppu) :
    (fetchBackground c p).dot = p.dot ∧ (fetchBackground c p).t = p.t ∧
    (fetchBackground c p).scanline = p.scanline := by
  unfold fetchBackground
  split <;> try exact ⟨rfl, rfl, rfl⟩
  rw [incrementCoarseX_frame]; exact ⟨rfl, rfl, rfl⟩

/-- What the background pipeline does to `v` on a rendered line, `p2` being the PPU after its fetch (R197, R198,
D38). -/
theorem background_v (c : Cartridge) (p : Ppu) (h1 : -1 ≤ p.scanline) (h2 : p.scanline ≤ 239)
    (hr : renderingEnabled p = true) :
    ∃ p2 : Ppu, p2.dot = p.dot ∧ p2.t = p.t ∧ p2.scanline = p.scanline ∧
      p2.v =
        (if (1 ≤ p.dot ∧ p.dot ≤ 256 ∨ 321 ≤ p.dot ∧ p.dot ≤ 336) ∧ (p.dot - 1) % 8 = 7
          then (incrementCoarseX p).v else p.v) ∧
      (background c p).v =
        (if p.dot = 256 then (incrementY p2).v
        else if p.dot = 257 then (copyX p2).v
        else if p.scanline = -1 ∧ 280 ≤ p.dot ∧ p.dot ≤ 304 then (copyY p2).v
        else p2.v) := by
  have hl : (onVisibleLine p || onPreRenderLine p) = true := by
    unfold onVisibleLine onPreRenderLine
    simp
    omega
  obtain ⟨a1, a2, a3, a4⟩ := shift_frame p (dotIn p 2 257 || dotIn p 322 337)
  generalize e1 : applyIf (dotIn p 2 257 || dotIn p 322 337) shiftBackground p = p1 at *
  refine ⟨applyIf (dotIn p1 1 256 || dotIn p1 321 336) (fetchBackground c) p1, ?_, ?_, ?_, ?_, ?_⟩
  · unfold applyIf; split
    · rw [(fetch_frame c p1).1, a2]
    · exact a2
  · unfold applyIf; split
    · rw [(fetch_frame c p1).2.1, a3]
    · exact a3
  · unfold applyIf; split
    · rw [(fetch_frame c p1).2.2, a4]
    · exact a4
  · unfold applyIf dotIn
    rw [a2]
    split
    · rename_i h
      simp at h
      rw [fetchBackground_v, a2]
      by_cases h7 : (p.dot - 1) % 8 = 7
      · rw [if_pos h7, if_pos ⟨by omega, h7⟩]; exact incX_v _ _ a1
      · rw [if_neg h7, if_neg (fun h => h7 h.2)]; exact a1
    · rename_i h
      simp at h
      rw [if_neg (fun h => by omega)]; exact a1
  · unfold background
    rw [hl, hr]
    simp only [Bool.and_self, if_true]
    rw [e1]
    have d2 : (applyIf (dotIn p1 1 256 || dotIn p1 321 336) (fetchBackground c) p1).dot = p.dot := by
      unfold applyIf; split
      · rw [(fetch_frame c p1).1, a2]
      · exact a2
    have s2 : (applyIf (dotIn p1 1 256 || dotIn p1 321 336) (fetchBackground c) p1).scanline = p.scanline := by
      unfold applyIf; split
      · rw [(fetch_frame c p1).2.2, a4]
      · exact a4
    generalize applyIf (dotIn p1 1 256 || dotIn p1 321 336) (fetchBackground c) p1 = p2 at *
    by_cases h256 : p.dot = 256
    · rw [if_pos h256]
      have : applyIf (decide (p2.dot = 256)) incrementY p2 = incrementY p2 := by simp [applyIf, d2, h256]
      rw [this]
      have hd : (incrementY p2).dot = 256 := by rw [incrementY_frame]; exact d2.trans h256
      simp [applyIf, hd, dotIn]
    · rw [if_neg h256]
      have : applyIf (decide (p2.dot = 256)) incrementY p2 = p2 := by simp [applyIf, d2, h256]
      rw [this]
      by_cases h257 : p.dot = 257
      · rw [if_pos h257]
        simp [applyIf, d2, h257, dotIn, copyX, loadShifters]
      · rw [if_neg h257]
        simp only [applyIf, d2, h257, dotIn, onPreRenderLine]
        simp
        rw [← d2, ← s2]
        split <;> simp_all

end Sys2Proof.Machine
end

