-- ==== Sys2Proof/Laws/Fetch.lean ====
section
/-! SUPPORT. What a dot fetches: the addresses of the background pipeline as arithmetic, what the pipeline leaves in
the latches and shifters, and the PPU that sprite evaluation and fetch see (spec/62_ppu.md R197, R200 to R202). -/

namespace Sys2Proof.Machine

theorem toNat_append_eq (x : BitVec m) (y : BitVec n) : (x ++ y).toNat = x.toNat * 2 ^ n + y.toNat := by
  rw [BitVec.toNat_append, ← Nat.shiftLeft_add_eq_or_of_lt y.isLt, Nat.shiftLeft_eq]

/-! The addresses. -/

theorem loadLow_toNat (r : BitVec 16) (b : Byte) : (loadLow r b).toNat = r.toNat / 256 * 256 + b.toNat := by
  have h : loadLow r b = r.extractLsb' 8 8 ++ b := by
    unfold loadLow
    apply BitVec.eq_of_getLsbD_eq
    intro i hi
    simp only [BitVec.getLsbD_or, BitVec.getLsbD_and, BitVec.getLsbD_setWidth, BitVec.getLsbD_append,
      BitVec.getLsbD_extractLsb']
    rcases i with _|_|_|_|_|_|_|_|_|_|_|_|_|_|_|_|i <;> first | omega | simp
  rw [h, toNat_append_eq, BitVec.extractLsb'_toNat, Nat.shiftRight_eq_div_pow]
  have := r.isLt
  omega

theorem tileAddr_eq (v : BitVec 15) : tileAddr v = BitVec.ofNat 14 (0x2000 + v.toNat % 0x1000) := by
  have h : tileAddr v = ((2#2 : BitVec 2) ++ v.extractLsb' 0 12 : BitVec 14) := by
    unfold tileAddr
    apply BitVec.eq_of_getLsbD_eq
    intro i hi
    simp only [BitVec.getLsbD_or, BitVec.getLsbD_and, BitVec.getLsbD_setWidth, BitVec.getLsbD_append,
      BitVec.getLsbD_extractLsb']
    rcases i with _|_|_|_|_|_|_|_|_|_|_|_|_|_|i <;> first | omega | simp
  rw [h]
  apply BitVec.eq_of_toNat_eq
  rw [toNat_append_eq, BitVec.extractLsb'_toNat, Nat.shiftRight_eq_div_pow, BitVec.toNat_ofNat]
  simp
  omega

theorem attrAddr_eq (v : BitVec 15) :
    attrAddr v =
      BitVec.ofNat 14 (0x23C0 + v.toNat / 0x400 % 4 * 0x400 + (coarseY v).toNat / 4 * 8 + (coarseX v).toNat / 4) := by
  have h : attrAddr v =
      ((2#2 : BitVec 2) ++ (v.extractLsb' 10 2 ++
        ((15#4 : BitVec 4) ++ (v.extractLsb' 7 3 ++ v.extractLsb' 2 3))) : BitVec 14) := by
    unfold attrAddr
    apply BitVec.eq_of_getLsbD_eq
    intro i hi
    simp only [BitVec.getLsbD_or, BitVec.getLsbD_and, BitVec.getLsbD_setWidth, BitVec.getLsbD_append,
      BitVec.getLsbD_extractLsb', BitVec.getLsbD_ushiftRight]
    rcases i with _|_|_|_|_|_|_|_|_|_|_|_|_|_|i <;> first | omega | simp
  rw [h]
  apply BitVec.eq_of_toNat_eq
  simp only [toNat_append_eq, coarseX, coarseY, BitVec.extractLsb'_toNat, Nat.shiftRight_eq_div_pow,
    BitVec.toNat_ofNat]
  have := v.isLt
  have k1 : v.toNat / 32 % 32 / 4 = v.toNat / 128 % 8 := by omega
  have k2 : v.toNat % 32 / 4 = v.toNat / 4 % 8 := by omega
  simp [k1, k2]
  omega

theorem attrBits_toNat (v : BitVec 15) (b : Byte) :
    (attrBits v b).toNat =
      b.toNat / 4 ^ ((coarseY v).toNat / 2 % 2 * 2 + (coarseX v).toNat / 2 % 2) % 4 := by
  have h : ∀ z : BitVec 5, (z &&& 2).toNat = z.toNat / 2 % 2 * 2 := by decide
  have h4 : (4 : Nat) = 2 ^ 2 := rfl
  unfold attrBits
  rw [BitVec.toNat_setWidth, BitVec.toNat_ushiftRight, Nat.shiftRight_eq_div_pow, h, h, h4, ← Nat.pow_mul]
  congr 3
  omega

theorem patternAddr_eq (p : Ppu) :
    patternAddr p =
      BitVec.ofNat 14 ((if p.ctrl.getLsbD 4 then 0x1000 else 0) + p.ntLatch.toNat * 16 + (fineY p.v).toNat) := by
  unfold patternAddr
  apply BitVec.eq_of_toNat_eq
  have := p.ntLatch.isLt
  have := (fineY p.v).isLt
  split <;> simp [BitVec.toNat_add, BitVec.toNat_mul]

/-! The background pipeline. -/

/-- Outside the rendered lines, or with rendering disabled, the pipeline stands still. -/
theorem background_off (c : Cartridge) (p : Ppu)
    (h : ¬(-1 ≤ p.scanline ∧ p.scanline ≤ 239 ∧ renderingEnabled p = true)) : background c p = p := by
  unfold background
  rw [if_neg]
  simp only [onVisibleLine, onPreRenderLine, Bool.and_eq_true, Bool.or_eq_true, decide_eq_true_eq]
  rintro ⟨h1, h2⟩
  exact h ⟨by omega, by omega, h2⟩

/-- The latches and shifters after the pipeline's actions of a dot. -/
theorem background_latches (c : Cartridge) (p : Ppu) (h1 : -1 ≤ p.scanline) (h2 : p.scanline ≤ 239)
    (hr : renderingEnabled p = true) :
    let q := background c p
    let fetches (phase : Nat) : Prop :=
      (1 ≤ p.dot ∧ p.dot ≤ 256 ∨ 321 ≤ p.dot ∧ p.dot ≤ 336) ∧ (p.dot - 1) % 8 = phase
    let shifted (r : BitVec 16) : BitVec 16 :=
      if 2 ≤ p.dot ∧ p.dot ≤ 257 ∨ 322 ≤ p.dot ∧ p.dot ≤ 337 then r <<< 1 else r
    let loaded (r : BitVec 16) (b : Byte) : BitVec 16 :=
      if fetches 0 ∨ p.dot = 257 then loadLow (shifted r) b else shifted r
    q.ntLatch = (if fetches 0 then ppuRead c p (tileAddr p.v) else p.ntLatch) ∧
    q.atLatch = (if fetches 2 then attrBits p.v (ppuRead c p (attrAddr p.v)) else p.atLatch) ∧
    q.loLatch = (if fetches 4 then ppuRead c p (patternAddr p) else p.loLatch) ∧
    q.hiLatch = (if fetches 6 then ppuRead c p (patternAddr p + 8) else p.hiLatch) ∧
    q.bgLo = loaded p.bgLo p.loLatch ∧ q.bgHi = loaded p.bgHi p.hiLatch ∧
    q.atLo = loaded p.atLo (if p.atLatch.getLsbD 0 then 0xFF else 0x00) ∧
    q.atHi = loaded p.atHi (if p.atLatch.getLsbD 1 then 0xFF else 0x00) := by
  intro q fetches shifted loaded
  have hb (x : Ppu) (a b : Nat) : dotIn x a b = true ↔ a ≤ x.dot ∧ x.dot ≤ b := by
    simp only [dotIn, Bool.and_eq_true, decide_eq_true_eq]
  have hq : q = background c p := rfl
  unfold background at hq
  rw [if_pos (by
    simp only [onVisibleLine, onPreRenderLine, Bool.and_eq_true, Bool.or_eq_true, decide_eq_true_eq]
    exact ⟨by omega, hr⟩)] at hq
  have hs : applyIf (dotIn p 2 257 || dotIn p 322 337) shiftBackground p =
      { p with
        bgLo := shifted p.bgLo, bgHi := shifted p.bgHi, atLo := shifted p.atLo, atHi := shifted p.atHi } := by
    unfold applyIf
    simp only [Bool.or_eq_true, hb, shifted]
    split <;> rfl
  dsimp only at hq
  rw [hs] at hq
  generalize hp1 : ({ p with
    bgLo := shifted p.bgLo, bgHi := shifted p.bgHi, atLo := shifted p.atLo, atHi := shifted p.atHi } : Ppu) = p1 at hq
  have hd1 : p1.dot = p.dot := by rw [← hp1]
  have hf : ∃ p2, p2 = applyIf (dotIn p1 1 256 || dotIn p1 321 336) (fetchBackground c) p1 ∧ p2.dot = p.dot := by
    refine ⟨_, rfl, ?_⟩
    unfold applyIf
    split
    · rw [(fetch_frame c p1).1, hd1]
    · exact hd1
  obtain ⟨p2, hp2, hd2⟩ := hf
  rw [← hp2] at hq
  have hy : ∃ v, applyIf (decide (p2.dot = 256)) incrementY p2 = { p2 with v } := by
    unfold applyIf
    split
    · exact ⟨_, incrementY_frame p2⟩
    · exact ⟨_, rfl⟩
  obtain ⟨v, hy⟩ := hy
  rw [hy] at hq
  have hl : ∀ (b : Bool) (x : Ppu), ∃ v, applyIf b copyY x = { x with v } := by
    intro b x
    unfold applyIf
    split <;> exact ⟨_, rfl⟩
  obtain ⟨w, hw⟩ := hl _ (applyIf (decide (({ p2 with v } : Ppu).dot = 257)) (fun p => copyX (loadShifters p))
    { p2 with v })
  rw [hw] at hq
  rw [hq]
  clear hq hw hy hs q
  unfold applyIf at hp2 ⊢
  simp only [Bool.or_eq_true, hb, hd1, hd2, decide_eq_true_eq] at hp2 ⊢
  by_cases hf : 1 ≤ p.dot ∧ p.dot ≤ 256 ∨ 321 ≤ p.dot ∧ p.dot ≤ 336
  · have h257 : p.dot ≠ 257 := by omega
    have hph : ∀ k, fetches k ↔ (p.dot - 1) % 8 = k := fun k => ⟨fun h => h.2, fun h => ⟨hf, h⟩⟩
    rw [if_pos hf] at hp2
    rw [if_neg h257, hp2]
    simp only [loaded, hph, h257, or_false]
    unfold fetchBackground
    rw [hd1, ← hp1]
    have hc : (p.dot - 1) % 8 = 0 ∨ (p.dot - 1) % 8 = 1 ∨ (p.dot - 1) % 8 = 2 ∨ (p.dot - 1) % 8 = 3 ∨
        (p.dot - 1) % 8 = 4 ∨ (p.dot - 1) % 8 = 5 ∨ (p.dot - 1) % 8 = 6 ∨ (p.dot - 1) % 8 = 7 := by omega
    rcases hc with h | h | h | h | h | h | h | h <;> rw [h]
    case inr.inr.inr.inr.inr.inr.inr =>
      dsimp only
      rw [incrementCoarseX_frame]
      exact ⟨rfl, rfl, rfl, rfl, rfl, rfl, rfl, rfl⟩
    all_goals exact ⟨rfl, rfl, rfl, rfl, rfl, rfl, rfl, rfl⟩
  · have hph : ∀ k, ¬ fetches k := fun k h => hf h.1
    rw [if_neg hf] at hp2
    rw [hp2, ← hp1]
    simp only [loaded, hph, false_or, if_false]
    split <;> exact ⟨rfl, rfl, rfl, rfl, rfl, rfl, rfl, rfl⟩

/-- The pipeline's state after a dot is what the pipeline left. -/
theorem ppuDot_pipeline (params : Params) (c : Cartridge) (p : Ppu) :
    let q := (ppuDot params c p).2
    let b := background c p
    q.v = b.v ∧ q.ntLatch = b.ntLatch ∧ q.atLatch = b.atLatch ∧ q.loLatch = b.loLatch ∧ q.hiLatch = b.hiLatch ∧
    q.bgLo = b.bgLo ∧ q.bgHi = b.bgHi ∧ q.atLo = b.atLo ∧ q.atHi = b.atHi := by
  obtain ⟨p1, p2, h1, ⟨_, _, _, _, _, _, _, _, _, h2, _⟩, e⟩ := ppuDot_eq params c p
  obtain ⟨_, _, _, _, e3⟩ := verticalBlank_eq p2
  obtain ⟨_, _, _, _, e4⟩ := advanceCursor_eq params (verticalBlank p2)
  rw [e, e4, e3, h2, h1]
  unfold advanceSprites
  split <;> exact ⟨rfl, rfl, rfl, rfl, rfl, rfl, rfl, rfl, rfl⟩

/-! Sprite evaluation and fetch. -/

/-- A stage that leaves the evaluation's results and the line's sprite-0 mark alone. -/
def KeepsEvaluation (f : Ppu → Ppu) : Prop :=
  ∀ p, (f p).secOam = p.secOam ∧ (f p).spriteCount = p.spriteCount ∧ (f p).sprite0Next = p.sprite0Next ∧
    (f p).spriteOverflow = p.spriteOverflow ∧ (f p).sprite0Line = p.sprite0Line

theorem KeepsEvaluation.comp {f g : Ppu → Ppu} (hf : KeepsEvaluation f) (hg : KeepsEvaluation g) :
    KeepsEvaluation (fun p => f (g p)) := by
  intro p
  have a := hf (g p)
  simp only [hg p] at a
  exact a

theorem KeepsEvaluation.applyIf {f : Ppu → Ppu} (hf : KeepsEvaluation f) (b : Ppu → Bool) :
    KeepsEvaluation (fun p => Machine.applyIf (b p) f p) := by
  intro p
  simp only [Machine.applyIf]
  split
  · exact hf p
  · exact ⟨rfl, rfl, rfl, rfl, rfl⟩

theorem background_evaluation (c : Cartridge) : KeepsEvaluation (background c) := by
  have hx : KeepsEvaluation incrementCoarseX := fun p => by
    rw [incrementCoarseX_frame]
    exact ⟨rfl, rfl, rfl, rfl, rfl⟩
  have hy : KeepsEvaluation incrementY := fun p => by
    rw [incrementY_frame]
    exact ⟨rfl, rfl, rfl, rfl, rfl⟩
  have hf : KeepsEvaluation (fetchBackground c) := fun p => by
    unfold fetchBackground
    split
    case h_5 => exact hx p
    all_goals exact ⟨rfl, rfl, rfl, rfl, rfl⟩
  intro p
  unfold background
  split
  · have h1 := KeepsEvaluation.applyIf (f := shiftBackground) (fun _ => ⟨rfl, rfl, rfl, rfl, rfl⟩)
      (fun p => dotIn p 2 257 || dotIn p 322 337)
    have h2 := KeepsEvaluation.applyIf hf (fun p => dotIn p 1 256 || dotIn p 321 336)
    have h3 := KeepsEvaluation.applyIf hy (fun p => decide (p.dot = 256))
    have h4 := KeepsEvaluation.applyIf (f := fun p => copyX (loadShifters p)) (fun _ => ⟨rfl, rfl, rfl, rfl, rfl⟩)
      (fun p => decide (p.dot = 257))
    have h5 := KeepsEvaluation.applyIf (f := copyY) (fun _ => ⟨rfl, rfl, rfl, rfl, rfl⟩)
      (fun p => onPreRenderLine p && dotIn p 280 304)
    exact (h5.comp (h4.comp (h3.comp (h2.comp h1)))) p
  · exact ⟨rfl, rfl, rfl, rfl, rfl⟩

/-- Vertical blank, of the sprites' state, clears the overflow flag at (-1, 1) only. -/
theorem verticalBlank_evaluation (p : Ppu) :
    (verticalBlank p).secOam = p.secOam ∧ (verticalBlank p).spriteCount = p.spriteCount ∧
    (verticalBlank p).sprite0Next = p.sprite0Next ∧
    (verticalBlank p).spriteOverflow = (if p.scanline = -1 ∧ p.dot = 1 then false else p.spriteOverflow) ∧
    (verticalBlank p).sprite0Line = p.sprite0Line ∧ (verticalBlank p).sprCount = p.sprCount ∧
    (verticalBlank p).sprites = p.sprites := by
  unfold verticalBlank
  split
  · rw [if_neg (by omega)]
    exact ⟨rfl, rfl, rfl, rfl, rfl, rfl, rfl⟩
  · split <;> exact ⟨rfl, rfl, rfl, rfl, rfl, rfl, rfl⟩

/-- The PPU `r` that evaluation and fetch see in a dot: only the sprite units in use have moved, as R202 says; and
the dot leaves what they and vertical blank make of it. -/
theorem ppuDot_sprites (params : Params) (c : Cartridge) (p : Ppu) :
    ∃ r : Ppu,
      (r.secOam = p.secOam ∧ r.spriteCount = p.spriteCount ∧ r.sprite0Next = p.sprite0Next ∧
        r.spriteOverflow = p.spriteOverflow ∧ r.sprite0Line = p.sprite0Line) ∧
      r.sprCount = p.sprCount ∧ r.scanline = p.scanline ∧ r.dot = p.dot ∧ r.mask = p.mask ∧ r.ctrl = p.ctrl ∧
      r.vram = p.vram ∧ r.palette = p.palette ∧
      r.sprites =
        (if 0 ≤ p.scanline ∧ p.scanline ≤ 239 ∧ 2 ≤ p.dot ∧ p.dot ≤ 257 ∧ p.mask.getLsbD 4 = true then
          p.sprites.mapIdx (fun i u => if i < p.sprCount then advanceUnit u else u)
        else p.sprites) ∧
      ∃ line dot odd done, (ppuDot params c p).2 =
        { verticalBlank (fetchSprites c (evaluateSprites r)) with
          scanline := line, dot, oddFrame := odd, frameComplete := done } := by
  refine ⟨composePixel c (advanceSprites (background c p)), ?_⟩
  obtain ⟨hit, fb, e, -⟩ := composePixel_eq c (advanceSprites (background c p))
  rw [e]
  obtain ⟨_, _, _, k1, k2, k3, k4, _, _, _, k5, k6, _⟩ := advanceSprites_keeps.comp (background_keeps c) p
  obtain ⟨_, _, _, b1, b2, b3, _⟩ := background_keeps c p
  have hu := background_units c p
  have ha : KeepsEvaluation advanceSprites := fun p => by
    unfold advanceSprites
    split <;> exact ⟨rfl, rfl, rfl, rfl, rfl⟩
  refine ⟨(ha.comp (background_evaluation c)) p, ?_, k1, k2, k3, k4, k5, k6, ?_, ?_⟩
  · rw [← hu.2.1]
    unfold advanceSprites
    split <;> rfl
  · have hc : (onVisibleLine (background c p) && dotIn (background c p) 2 257 && (background c p).mask.getLsbD 4) =
        true ↔ (0 ≤ p.scanline ∧ p.scanline ≤ 239 ∧ 2 ≤ p.dot ∧ p.dot ≤ 257 ∧ p.mask.getLsbD 4 = true) := by
      simp only [onVisibleLine, dotIn, b1, b2, b3, Bool.and_eq_true, decide_eq_true_eq, and_assoc]
    dsimp only
    unfold advanceSprites
    simp only [hc, hu.1, hu.2.1]
    split <;> simp_all
  · unfold ppuDot
    dsimp only
    rw [e]
    exact advanceCursor_eq params _

/-- A read of the PPU's address space depends on its memories alone. -/
theorem ppuRead_congr (c : Cartridge) {p r : Ppu} (h1 : r.vram = p.vram) (h2 : r.palette = p.palette) (a : PpuAddr) :
    ppuRead c r a = ppuRead c p a := by
  unfold ppuRead
  rw [h1, h2]

end Sys2Proof.Machine
end

