-- ==== Sys2Proof/Laws/OpcodeMap.lean ====
section
/-! SUPPORT. The opcode byte and the length of what `decodeOp` gives, for every opcode and whatever the two
bytes after it are (spec/30_encoding.md R58, R61, R64).  One lemma a row of the opcode map. -/

namespace Sys2Proof

open Sys2Proof.Machine

set_option maxRecDepth 2000

theorem decodeOp_opcode_row0 {n : Nat} (h : 0 ≤ n) (h' : n < 16) (b1 b2 : Byte) :
    (decodeOp (BitVec.ofNat 8 n) b1 b2).opcode = BitVec.ofNat 8 n := by
  interval_cases n <;> rfl

theorem decodeOp_opcode_row1 {n : Nat} (h : 16 ≤ n) (h' : n < 32) (b1 b2 : Byte) :
    (decodeOp (BitVec.ofNat 8 n) b1 b2).opcode = BitVec.ofNat 8 n := by
  interval_cases n <;> rfl

theorem decodeOp_opcode_row2 {n : Nat} (h : 32 ≤ n) (h' : n < 48) (b1 b2 : Byte) :
    (decodeOp (BitVec.ofNat 8 n) b1 b2).opcode = BitVec.ofNat 8 n := by
  interval_cases n <;> rfl

theorem decodeOp_opcode_row3 {n : Nat} (h : 48 ≤ n) (h' : n < 64) (b1 b2 : Byte) :
    (decodeOp (BitVec.ofNat 8 n) b1 b2).opcode = BitVec.ofNat 8 n := by
  interval_cases n <;> rfl

theorem decodeOp_opcode_row4 {n : Nat} (h : 64 ≤ n) (h' : n < 80) (b1 b2 : Byte) :
    (decodeOp (BitVec.ofNat 8 n) b1 b2).opcode = BitVec.ofNat 8 n := by
  interval_cases n <;> rfl

theorem decodeOp_opcode_row5 {n : Nat} (h : 80 ≤ n) (h' : n < 96) (b1 b2 : Byte) :
    (decodeOp (BitVec.ofNat 8 n) b1 b2).opcode = BitVec.ofNat 8 n := by
  interval_cases n <;> rfl

theorem decodeOp_opcode_row6 {n : Nat} (h : 96 ≤ n) (h' : n < 112) (b1 b2 : Byte) :
    (decodeOp (BitVec.ofNat 8 n) b1 b2).opcode = BitVec.ofNat 8 n := by
  interval_cases n <;> rfl

theorem decodeOp_opcode_row7 {n : Nat} (h : 112 ≤ n) (h' : n < 128) (b1 b2 : Byte) :
    (decodeOp (BitVec.ofNat 8 n) b1 b2).opcode = BitVec.ofNat 8 n := by
  interval_cases n <;> rfl

theorem decodeOp_opcode_row8 {n : Nat} (h : 128 ≤ n) (h' : n < 144) (b1 b2 : Byte) :
    (decodeOp (BitVec.ofNat 8 n) b1 b2).opcode = BitVec.ofNat 8 n := by
  interval_cases n <;> rfl

theorem decodeOp_opcode_row9 {n : Nat} (h : 144 ≤ n) (h' : n < 160) (b1 b2 : Byte) :
    (decodeOp (BitVec.ofNat 8 n) b1 b2).opcode = BitVec.ofNat 8 n := by
  interval_cases n <;> rfl

theorem decodeOp_opcode_rowA {n : Nat} (h : 160 ≤ n) (h' : n < 176) (b1 b2 : Byte) :
    (decodeOp (BitVec.ofNat 8 n) b1 b2).opcode = BitVec.ofNat 8 n := by
  interval_cases n <;> rfl

theorem decodeOp_opcode_rowB {n : Nat} (h : 176 ≤ n) (h' : n < 192) (b1 b2 : Byte) :
    (decodeOp (BitVec.ofNat 8 n) b1 b2).opcode = BitVec.ofNat 8 n := by
  interval_cases n <;> rfl

theorem decodeOp_opcode_rowC {n : Nat} (h : 192 ≤ n) (h' : n < 208) (b1 b2 : Byte) :
    (decodeOp (BitVec.ofNat 8 n) b1 b2).opcode = BitVec.ofNat 8 n := by
  interval_cases n <;> rfl

theorem decodeOp_opcode_rowD {n : Nat} (h : 208 ≤ n) (h' : n < 224) (b1 b2 : Byte) :
    (decodeOp (BitVec.ofNat 8 n) b1 b2).opcode = BitVec.ofNat 8 n := by
  interval_cases n <;> rfl

theorem decodeOp_opcode_rowE {n : Nat} (h : 224 ≤ n) (h' : n < 240) (b1 b2 : Byte) :
    (decodeOp (BitVec.ofNat 8 n) b1 b2).opcode = BitVec.ofNat 8 n := by
  interval_cases n <;> rfl

theorem decodeOp_opcode_rowF {n : Nat} (h : 240 ≤ n) (h' : n < 256) (b1 b2 : Byte) :
    (decodeOp (BitVec.ofNat 8 n) b1 b2).opcode = BitVec.ofNat 8 n := by
  interval_cases n <;> rfl

/-- The opcode byte of what an opcode decodes to is that opcode. -/
theorem decodeOp_opcode (op b1 b2 : Byte) : (decodeOp op b1 b2).opcode = op := by
  have h := op.isLt
  have e : op = BitVec.ofNat 8 op.toNat := by simp
  generalize op.toNat = n at h e
  subst e
  rcases (by omega : n / 16 = 0 ∨ n / 16 = 1 ∨ n / 16 = 2 ∨ n / 16 = 3 ∨ n / 16 = 4 ∨ n / 16 = 5 ∨
    n / 16 = 6 ∨ n / 16 = 7 ∨ n / 16 = 8 ∨ n / 16 = 9 ∨ n / 16 = 10 ∨ n / 16 = 11 ∨ n / 16 = 12 ∨
    n / 16 = 13 ∨ n / 16 = 14 ∨ n / 16 = 15) with q | q | q | q | q | q | q | q | q | q | q | q | q | q | q | q
  · exact decodeOp_opcode_row0 (by omega) (by omega) b1 b2
  · exact decodeOp_opcode_row1 (by omega) (by omega) b1 b2
  · exact decodeOp_opcode_row2 (by omega) (by omega) b1 b2
  · exact decodeOp_opcode_row3 (by omega) (by omega) b1 b2
  · exact decodeOp_opcode_row4 (by omega) (by omega) b1 b2
  · exact decodeOp_opcode_row5 (by omega) (by omega) b1 b2
  · exact decodeOp_opcode_row6 (by omega) (by omega) b1 b2
  · exact decodeOp_opcode_row7 (by omega) (by omega) b1 b2
  · exact decodeOp_opcode_row8 (by omega) (by omega) b1 b2
  · exact decodeOp_opcode_row9 (by omega) (by omega) b1 b2
  · exact decodeOp_opcode_rowA (by omega) (by omega) b1 b2
  · exact decodeOp_opcode_rowB (by omega) (by omega) b1 b2
  · exact decodeOp_opcode_rowC (by omega) (by omega) b1 b2
  · exact decodeOp_opcode_rowD (by omega) (by omega) b1 b2
  · exact decodeOp_opcode_rowE (by omega) (by omega) b1 b2
  · exact decodeOp_opcode_rowF (by omega) (by omega) b1 b2

theorem decodeOp_length_row0 {n : Nat} (h : 0 ≤ n) (h' : n < 16) (b1 b2 : Byte) :
    (decodeOp (BitVec.ofNat 8 n) b1 b2).length = opcodeLength (BitVec.ofNat 8 n) := by
  interval_cases n <;>
    first
      | exact (rfl : _ = 1).trans (rfl : 1 = _)
      | exact (rfl : _ = 2).trans (rfl : 2 = _)
      | exact (rfl : _ = 3).trans (rfl : 3 = _)

theorem decodeOp_length_row1 {n : Nat} (h : 16 ≤ n) (h' : n < 32) (b1 b2 : Byte) :
    (decodeOp (BitVec.ofNat 8 n) b1 b2).length = opcodeLength (BitVec.ofNat 8 n) := by
  interval_cases n <;>
    first
      | exact (rfl : _ = 1).trans (rfl : 1 = _)
      | exact (rfl : _ = 2).trans (rfl : 2 = _)
      | exact (rfl : _ = 3).trans (rfl : 3 = _)

theorem decodeOp_length_row2 {n : Nat} (h : 32 ≤ n) (h' : n < 48) (b1 b2 : Byte) :
    (decodeOp (BitVec.ofNat 8 n) b1 b2).length = opcodeLength (BitVec.ofNat 8 n) := by
  interval_cases n <;>
    first
      | exact (rfl : _ = 1).trans (rfl : 1 = _)
      | exact (rfl : _ = 2).trans (rfl : 2 = _)
      | exact (rfl : _ = 3).trans (rfl : 3 = _)

theorem decodeOp_length_row3 {n : Nat} (h : 48 ≤ n) (h' : n < 64) (b1 b2 : Byte) :
    (decodeOp (BitVec.ofNat 8 n) b1 b2).length = opcodeLength (BitVec.ofNat 8 n) := by
  interval_cases n <;>
    first
      | exact (rfl : _ = 1).trans (rfl : 1 = _)
      | exact (rfl : _ = 2).trans (rfl : 2 = _)
      | exact (rfl : _ = 3).trans (rfl : 3 = _)

theorem decodeOp_length_row4 {n : Nat} (h : 64 ≤ n) (h' : n < 80) (b1 b2 : Byte) :
    (decodeOp (BitVec.ofNat 8 n) b1 b2).length = opcodeLength (BitVec.ofNat 8 n) := by
  interval_cases n <;>
    first
      | exact (rfl : _ = 1).trans (rfl : 1 = _)
      | exact (rfl : _ = 2).trans (rfl : 2 = _)
      | exact (rfl : _ = 3).trans (rfl : 3 = _)

theorem decodeOp_length_row5 {n : Nat} (h : 80 ≤ n) (h' : n < 96) (b1 b2 : Byte) :
    (decodeOp (BitVec.ofNat 8 n) b1 b2).length = opcodeLength (BitVec.ofNat 8 n) := by
  interval_cases n <;>
    first
      | exact (rfl : _ = 1).trans (rfl : 1 = _)
      | exact (rfl : _ = 2).trans (rfl : 2 = _)
      | exact (rfl : _ = 3).trans (rfl : 3 = _)

theorem decodeOp_length_row6 {n : Nat} (h : 96 ≤ n) (h' : n < 112) (b1 b2 : Byte) :
    (decodeOp (BitVec.ofNat 8 n) b1 b2).length = opcodeLength (BitVec.ofNat 8 n) := by
  interval_cases n <;>
    first
      | exact (rfl : _ = 1).trans (rfl : 1 = _)
      | exact (rfl : _ = 2).trans (rfl : 2 = _)
      | exact (rfl : _ = 3).trans (rfl : 3 = _)

theorem decodeOp_length_row7 {n : Nat} (h : 112 ≤ n) (h' : n < 128) (b1 b2 : Byte) :
    (decodeOp (BitVec.ofNat 8 n) b1 b2).length = opcodeLength (BitVec.ofNat 8 n) := by
  interval_cases n <;>
    first
      | exact (rfl : _ = 1).trans (rfl : 1 = _)
      | exact (rfl : _ = 2).trans (rfl : 2 = _)
      | exact (rfl : _ = 3).trans (rfl : 3 = _)

theorem decodeOp_length_row8 {n : Nat} (h : 128 ≤ n) (h' : n < 144) (b1 b2 : Byte) :
    (decodeOp (BitVec.ofNat 8 n) b1 b2).length = opcodeLength (BitVec.ofNat 8 n) := by
  interval_cases n <;>
    first
      | exact (rfl : _ = 1).trans (rfl : 1 = _)
      | exact (rfl : _ = 2).trans (rfl : 2 = _)
      | exact (rfl : _ = 3).trans (rfl : 3 = _)

theorem decodeOp_length_row9 {n : Nat} (h : 144 ≤ n) (h' : n < 160) (b1 b2 : Byte) :
    (decodeOp (BitVec.ofNat 8 n) b1 b2).length = opcodeLength (BitVec.ofNat 8 n) := by
  interval_cases n <;>
    first
      | exact (rfl : _ = 1).trans (rfl : 1 = _)
      | exact (rfl : _ = 2).trans (rfl : 2 = _)
      | exact (rfl : _ = 3).trans (rfl : 3 = _)

theorem decodeOp_length_rowA {n : Nat} (h : 160 ≤ n) (h' : n < 176) (b1 b2 : Byte) :
    (decodeOp (BitVec.ofNat 8 n) b1 b2).length = opcodeLength (BitVec.ofNat 8 n) := by
  interval_cases n <;>
    first
      | exact (rfl : _ = 1).trans (rfl : 1 = _)
      | exact (rfl : _ = 2).trans (rfl : 2 = _)
      | exact (rfl : _ = 3).trans (rfl : 3 = _)

theorem decodeOp_length_rowB {n : Nat} (h : 176 ≤ n) (h' : n < 192) (b1 b2 : Byte) :
    (decodeOp (BitVec.ofNat 8 n) b1 b2).length = opcodeLength (BitVec.ofNat 8 n) := by
  interval_cases n <;>
    first
      | exact (rfl : _ = 1).trans (rfl : 1 = _)
      | exact (rfl : _ = 2).trans (rfl : 2 = _)
      | exact (rfl : _ = 3).trans (rfl : 3 = _)

theorem decodeOp_length_rowC {n : Nat} (h : 192 ≤ n) (h' : n < 208) (b1 b2 : Byte) :
    (decodeOp (BitVec.ofNat 8 n) b1 b2).length = opcodeLength (BitVec.ofNat 8 n) := by
  interval_cases n <;>
    first
      | exact (rfl : _ = 1).trans (rfl : 1 = _)
      | exact (rfl : _ = 2).trans (rfl : 2 = _)
      | exact (rfl : _ = 3).trans (rfl : 3 = _)

theorem decodeOp_length_rowD {n : Nat} (h : 208 ≤ n) (h' : n < 224) (b1 b2 : Byte) :
    (decodeOp (BitVec.ofNat 8 n) b1 b2).length = opcodeLength (BitVec.ofNat 8 n) := by
  interval_cases n <;>
    first
      | exact (rfl : _ = 1).trans (rfl : 1 = _)
      | exact (rfl : _ = 2).trans (rfl : 2 = _)
      | exact (rfl : _ = 3).trans (rfl : 3 = _)

theorem decodeOp_length_rowE {n : Nat} (h : 224 ≤ n) (h' : n < 240) (b1 b2 : Byte) :
    (decodeOp (BitVec.ofNat 8 n) b1 b2).length = opcodeLength (BitVec.ofNat 8 n) := by
  interval_cases n <;>
    first
      | exact (rfl : _ = 1).trans (rfl : 1 = _)
      | exact (rfl : _ = 2).trans (rfl : 2 = _)
      | exact (rfl : _ = 3).trans (rfl : 3 = _)

theorem decodeOp_length_rowF {n : Nat} (h : 240 ≤ n) (h' : n < 256) (b1 b2 : Byte) :
    (decodeOp (BitVec.ofNat 8 n) b1 b2).length = opcodeLength (BitVec.ofNat 8 n) := by
  interval_cases n <;>
    first
      | exact (rfl : _ = 1).trans (rfl : 1 = _)
      | exact (rfl : _ = 2).trans (rfl : 2 = _)
      | exact (rfl : _ = 3).trans (rfl : 3 = _)

/-- The length of what an opcode decodes to is the opcode's alone (R64). -/
theorem decodeOp_length (op b1 b2 : Byte) : (decodeOp op b1 b2).length = opcodeLength op := by
  have h := op.isLt
  have e : op = BitVec.ofNat 8 op.toNat := by simp
  generalize op.toNat = n at h e
  subst e
  rcases (by omega : n / 16 = 0 ∨ n / 16 = 1 ∨ n / 16 = 2 ∨ n / 16 = 3 ∨ n / 16 = 4 ∨ n / 16 = 5 ∨
    n / 16 = 6 ∨ n / 16 = 7 ∨ n / 16 = 8 ∨ n / 16 = 9 ∨ n / 16 = 10 ∨ n / 16 = 11 ∨ n / 16 = 12 ∨
    n / 16 = 13 ∨ n / 16 = 14 ∨ n / 16 = 15) with q | q | q | q | q | q | q | q | q | q | q | q | q | q | q | q
  · exact decodeOp_length_row0 (by omega) (by omega) b1 b2
  · exact decodeOp_length_row1 (by omega) (by omega) b1 b2
  · exact decodeOp_length_row2 (by omega) (by omega) b1 b2
  · exact decodeOp_length_row3 (by omega) (by omega) b1 b2
  · exact decodeOp_length_row4 (by omega) (by omega) b1 b2
  · exact decodeOp_length_row5 (by omega) (by omega) b1 b2
  · exact decodeOp_length_row6 (by omega) (by omega) b1 b2
  · exact decodeOp_length_row7 (by omega) (by omega) b1 b2
  · exact decodeOp_length_row8 (by omega) (by omega) b1 b2
  · exact decodeOp_length_row9 (by omega) (by omega) b1 b2
  · exact decodeOp_length_rowA (by omega) (by omega) b1 b2
  · exact decodeOp_length_rowB (by omega) (by omega) b1 b2
  · exact decodeOp_length_rowC (by omega) (by omega) b1 b2
  · exact decodeOp_length_rowD (by omega) (by omega) b1 b2
  · exact decodeOp_length_rowE (by omega) (by omega) b1 b2
  · exact decodeOp_length_rowF (by omega) (by omega) b1 b2

end Sys2Proof
end

