-- ==== Sys2Proof/Laws/PerInstr.lean ====
section
/-! SUPPORT. Per instruction: the length its opcode byte announces is the length of its encoding
(spec/30_encoding.md R57, R58, R64). -/

namespace Sys2Proof.Laws.Encoding

/-- A well-formed instruction is as long as its opcode byte alone says (R64). -/
def Statement (i : Instr) : Prop := i.wf = true → opcodeLength i.opcode = (encode i).length

theorem lda (src : Source) : Statement (.lda src) := by
  rcases src with b | m
  · exact fun _ => rfl
  · cases m <;> first | exact fun _ => rfl | exact fun h => by cases h

theorem ldx (src : Source) : Statement (.ldx src) := by
  rcases src with b | m
  · exact fun _ => rfl
  · cases m <;> first | exact fun _ => rfl | exact fun h => by cases h

theorem ldy (src : Source) : Statement (.ldy src) := by
  rcases src with b | m
  · exact fun _ => rfl
  · cases m <;> first | exact fun _ => rfl | exact fun h => by cases h

theorem sta (m : MemOperand) : Statement (.sta m) := by
  cases m <;> first | exact fun _ => rfl | exact fun h => by cases h

theorem stx (m : MemOperand) : Statement (.stx m) := by
  cases m <;> first | exact fun _ => rfl | exact fun h => by cases h

theorem sty (m : MemOperand) : Statement (.sty m) := by
  cases m <;> first | exact fun _ => rfl | exact fun h => by cases h

theorem tax : Statement (.tax) := fun _ => rfl

theorem tay : Statement (.tay) := fun _ => rfl

theorem txa : Statement (.txa) := fun _ => rfl

theorem tya : Statement (.tya) := fun _ => rfl

theorem tsx : Statement (.tsx) := fun _ => rfl

theorem txs : Statement (.txs) := fun _ => rfl

theorem pha : Statement (.pha) := fun _ => rfl

theorem php : Statement (.php) := fun _ => rfl

theorem pla : Statement (.pla) := fun _ => rfl

theorem plp : Statement (.plp) := fun _ => rfl

theorem adc (src : Source) : Statement (.adc src) := by
  rcases src with b | m
  · exact fun _ => rfl
  · cases m <;> first | exact fun _ => rfl | exact fun h => by cases h

theorem sbc (src : Source) : Statement (.sbc src) := by
  rcases src with b | m
  · exact fun _ => rfl
  · cases m <;> first | exact fun _ => rfl | exact fun h => by cases h

theorem and (src : Source) : Statement (.and src) := by
  rcases src with b | m
  · exact fun _ => rfl
  · cases m <;> first | exact fun _ => rfl | exact fun h => by cases h

theorem ora (src : Source) : Statement (.ora src) := by
  rcases src with b | m
  · exact fun _ => rfl
  · cases m <;> first | exact fun _ => rfl | exact fun h => by cases h

theorem eor (src : Source) : Statement (.eor src) := by
  rcases src with b | m
  · exact fun _ => rfl
  · cases m <;> first | exact fun _ => rfl | exact fun h => by cases h

theorem bit (m : MemOperand) : Statement (.bit m) := by
  cases m <;> first | exact fun _ => rfl | exact fun h => by cases h

theorem cmp (src : Source) : Statement (.cmp src) := by
  rcases src with b | m
  · exact fun _ => rfl
  · cases m <;> first | exact fun _ => rfl | exact fun h => by cases h

theorem cpx (src : Source) : Statement (.cpx src) := by
  rcases src with b | m
  · exact fun _ => rfl
  · cases m <;> first | exact fun _ => rfl | exact fun h => by cases h

theorem cpy (src : Source) : Statement (.cpy src) := by
  rcases src with b | m
  · exact fun _ => rfl
  · cases m <;> first | exact fun _ => rfl | exact fun h => by cases h

theorem inc (m : MemOperand) : Statement (.inc m) := by
  cases m <;> first | exact fun _ => rfl | exact fun h => by cases h

theorem dec (m : MemOperand) : Statement (.dec m) := by
  cases m <;> first | exact fun _ => rfl | exact fun h => by cases h

theorem inx : Statement (.inx) := fun _ => rfl

theorem iny : Statement (.iny) := fun _ => rfl

theorem dex : Statement (.dex) := fun _ => rfl

theorem dey : Statement (.dey) := fun _ => rfl

theorem asl (t : Target) : Statement (.asl t) := by
  rcases t with _ | m
  · exact fun _ => rfl
  · cases m <;> first | exact fun _ => rfl | exact fun h => by cases h

theorem lsr (t : Target) : Statement (.lsr t) := by
  rcases t with _ | m
  · exact fun _ => rfl
  · cases m <;> first | exact fun _ => rfl | exact fun h => by cases h

theorem rol (t : Target) : Statement (.rol t) := by
  rcases t with _ | m
  · exact fun _ => rfl
  · cases m <;> first | exact fun _ => rfl | exact fun h => by cases h

theorem ror (t : Target) : Statement (.ror t) := by
  rcases t with _ | m
  · exact fun _ => rfl
  · cases m <;> first | exact fun _ => rfl | exact fun h => by cases h

theorem bpl (offset : Byte) : Statement (.bpl offset) := fun _ => rfl

theorem bmi (offset : Byte) : Statement (.bmi offset) := fun _ => rfl

theorem bvc (offset : Byte) : Statement (.bvc offset) := fun _ => rfl

theorem bvs (offset : Byte) : Statement (.bvs offset) := fun _ => rfl

theorem bcc (offset : Byte) : Statement (.bcc offset) := fun _ => rfl

theorem bcs (offset : Byte) : Statement (.bcs offset) := fun _ => rfl

theorem bne (offset : Byte) : Statement (.bne offset) := fun _ => rfl

theorem beq (offset : Byte) : Statement (.beq offset) := fun _ => rfl

theorem jmp (j : JumpOperand) : Statement (.jmp j) := by
  cases j <;> exact fun _ => rfl

theorem jsr (target : Word) : Statement (.jsr target) := fun _ => rfl

theorem rts : Statement (.rts) := fun _ => rfl

theorem brk : Statement (.brk) := fun _ => rfl

theorem rti : Statement (.rti) := fun _ => rfl

theorem clc : Statement (.clc) := fun _ => rfl

theorem sec : Statement (.sec) := fun _ => rfl

theorem cli : Statement (.cli) := fun _ => rfl

theorem sei : Statement (.sei) := fun _ => rfl

theorem clv : Statement (.clv) := fun _ => rfl

theorem cld : Statement (.cld) := fun _ => rfl

theorem sed : Statement (.sed) := fun _ => rfl

theorem nop : Statement (.nop) := fun _ => rfl

theorem nopImp (op : Byte) : Statement (.nopImp op) := by
  intro h
  have hall : ∀ op ∈ nopImpOpcodes, opcodeLength op = 1 := by decide +kernel
  exact hall op (by simpa [Instr.wf] using h)

theorem nopImm (op : Byte) (value : Byte) : Statement (.nopImm op value) := by
  intro h
  have hall : ∀ op ∈ nopImmOpcodes, opcodeLength op = 2 := by decide +kernel
  exact hall op (by simpa [Instr.wf] using h)

theorem nopZp (op : Byte) (addr : Byte) : Statement (.nopZp op addr) := by
  intro h
  have hall : ∀ op ∈ nopZpOpcodes, opcodeLength op = 2 := by decide +kernel
  exact hall op (by simpa [Instr.wf] using h)

theorem nopZpx (op : Byte) (base : Byte) : Statement (.nopZpx op base) := by
  intro h
  have hall : ∀ op ∈ nopZpxOpcodes, opcodeLength op = 2 := by decide +kernel
  exact hall op (by simpa [Instr.wf] using h)

theorem nopAbs (addr : Word) : Statement (.nopAbs addr) := fun _ => rfl

theorem nopAbx (op : Byte) (base : Word) : Statement (.nopAbx op base) := by
  intro h
  have hall : ∀ op ∈ nopAbxOpcodes, opcodeLength op = 3 := by decide +kernel
  exact hall op (by simpa [Instr.wf] using h)

theorem sbcAlias (value : Byte) : Statement (.sbcAlias value) := fun _ => rfl

theorem unlisted (op : Byte) : Statement (.unlisted op) := fun h => opcodeLength_unlisted h

end Sys2Proof.Laws.Encoding
end

