-- ==== Sys2Proof/Laws/Step.lean ====
section
/-! SUPPORT. What the fetch, one CPU cycle and one step can answer, said once. -/

namespace Sys2Proof.Machine

/-- Every instruction has a meaning: `exec` answers a next state. -/
theorem exec_next (i : Instr) (s : State) : ∃ t, exec i s = .next t := by
  cases i <;> first
    | exact ⟨_, rfl⟩
    | (rename_i j; cases j <;> exact ⟨_, rfl⟩)

/-- One CPU cycle answers a next state. -/
theorem clock_next (s : State) : ∃ t, clock s = .next t := by
  unfold clock
  split
  · exact ⟨_, rfl⟩
  split
  · exact ⟨_, rfl⟩
  split
  · exact ⟨_, rfl⟩
  split
  · exact ⟨_, rfl⟩
  obtain ⟨t, ht⟩ := exec_next (fetchInstr { s with cpu := { s.cpu with irqPending := false } }).1
    (fetchInstr { s with cpu := { s.cpu with irqPending := false } }).2
  unfold runInstr
  dsimp only
  rw [ht]
  dsimp only
  split <;> exact ⟨_, rfl⟩

/-- The NMI check changes the CPU's queue and the PPU's edge only (spec/61_bus.md R170). -/
theorem nmiCheck_eq (s : State) :
    nmiCheck s = if s.ppu.nmiEdge then { s with
        cpu := { s.cpu with nmiPending := true }, ppu := { s.ppu with nmiEdge := false } } else s := rfl

/-- The IRQ check queues an IRQ where a source asserts one and I is clear, and does nothing else
(spec/61_bus.md R171). -/
theorem irqCheck_eq (s : State) :
    irqCheck s = if (apuIrq s.apu || cartIrq s.cart) && !flagI s.cpu.p then
        { s with cpu := { s.cpu with irqPending := true } } else s := by
  unfold irqCheck cpuIrq
  cases apuIrq s.apu || cartIrq s.cart <;> cases flagI s.cpu.p <;> rfl

/-- Of the machine, only the bus, the PPU, the APU and the cartridge bear on a read with no side effect, and
the parameters and the draws where a controller or PPUSTATUS is read. -/
theorem peek_congr {s t : State} (hb : t.bus = s.bus) (hp : t.ppu = s.ppu) (ha : t.apu = s.apu)
    (hc : t.cart = s.cart) (hq : t.params = s.params) (hd : t.draws = s.draws) (addr : Word) :
    peek t addr = peek s addr := by
  obtain ⟨c, b, p, a, k, q, d, r, z, w⟩ := t
  cases hb
  cases hp
  cases ha
  cases hc
  cases hq
  cases hd
  unfold peek busReadWith
  split
  · unfold ppuRegRead
    split <;> rfl
  split
  · rfl
  split
  · simp only [controllerRead1, latchedForRead]
    split <;> rfl
  split
  · simp only [controllerRead2, latchedForRead]
    split <;> rfl
  split
  · rfl
  split
  · simp only [*]
  · simp only [*]
    split <;> rfl

/-- The fetch of an instruction that lies in memory: nothing but the latched opcode and PC changes, and for an
unlisted opcode nothing at all (spec/60_exceptions.md R150, R151). -/
theorem fetchInstr_memory {s : State} {i : Instr} {rest : List Byte}
    (hm : ∀ k, k < i.length → IsMemory (s.cpu.pc + BitVec.ofNat 16 k))
    (hd : decode [peek s s.cpu.pc, peek s (s.cpu.pc + 1), peek s (s.cpu.pc + 2)] = .ok (i, rest)) :
    fetchInstr s =
      (i, if unlistedOpcodes.contains i.opcode then s
        else { s with cpu := { s.cpu with
          opcode := i.opcode, pc := s.cpu.pc + BitVec.ofNat 16 i.length } }) := by
  have hm0 : IsMemory s.cpu.pc := by
    have := hm 0 (by simp [Instr.length])
    simpa using this
  have hread (a : Word) (ha : IsMemory a) (u : State) (h1 : u.bus.ram = s.bus.ram) (h2 : u.cart = s.cart) :
      busRead a u = (peek s a, u) := by
    rw [busRead_memory ha, peek_memory_congr ha h1 h2]
  have hb : busRead s.cpu.pc s = (peek s s.cpu.pc, s) := busRead_memory hm0 s
  unfold fetchInstr
  simp only [hb]
  generalize peek s s.cpu.pc = op at *
  by_cases hu : unlistedOpcodes.contains op = true
  · rw [if_pos hu]
    rw [decode_one _ (opcodeLength_unlisted hu)] at hd
    cases hd
    rw [decodeOp_opcode, if_pos hu]
  · rw [if_neg hu]
    rcases opcodeLength_cases op with h | h | h
    · rw [decode_one _ h] at hd
      cases hd
      simp only [fetchOperands, h]
      rw [decodeOp_opcode, if_neg hu, decodeOp_length, h]
      rfl
    · rw [decode_two _ _ h] at hd
      cases hd
      have hm1 : IsMemory (s.cpu.pc + 1) := hm 1 (by rw [decodeOp_length, h]; decide)
      rw [decodeOp_opcode, if_neg hu, decodeOp_length, h]
      simp only [fetchOperands, h, fetchByte]
      rw [hread _ hm1 _ (by rfl) (by rfl)]
      simp only [State.setPC, BitVec.add_assoc]
      rfl
    · rw [decode_three _ _ _ h] at hd
      cases hd
      have hm1 : IsMemory (s.cpu.pc + 1) := hm 1 (by rw [decodeOp_length, h]; decide)
      have hm2 : IsMemory (s.cpu.pc + 1 + 1) := by
        rw [BitVec.add_assoc]
        exact hm 2 (by rw [decodeOp_length, h]; decide)
      have hpc : s.cpu.pc + 1 + 1 = s.cpu.pc + 2 := by rw [BitVec.add_assoc]; rfl
      rw [decodeOp_opcode, if_neg hu, decodeOp_length, h]
      simp only [fetchOperands, h, fetchByte]
      rw [hread _ hm1 _ (by rfl) (by rfl)]
      simp only [State.setPC]
      rw [hread _ hm2 _ (by rfl) (by rfl), hpc]
      simp only [BitVec.add_assoc]
      rfl

end Sys2Proof.Machine
end

