-- ==== Sys2Proof/Tests/Slice0.lean ====
section
/-! SUPPORT. Tests: the well-formedness checks, the decoder on every listed opcode, one or two vectors of
spec/95_test_vectors.md for each instruction, vectors of the bus and the devices, and, for each obligation
with hypotheses, a state and operands that meet them. -/

namespace Sys2Proof.Tests

open Sys2Proof.Machine Sys2Proof.Claims

set_option maxRecDepth 20000
set_option Elab.async false

/-! Well-formedness: an ill-formed term for each check, beside a well-formed one. -/

theorem test_wf_accMode : Instr.wf (.lda (.mem (.zpy 0x10))) = false ∧ Instr.wf (.lda (.mem (.zpx 0x10))) = true := by
  decide

theorem test_wf_ldxMode : Instr.wf (.ldx (.mem (.zpx 0x10))) = false ∧ Instr.wf (.ldx (.mem (.zpy 0x10))) = true := by
  decide

theorem test_wf_xMode : Instr.wf (.ldy (.mem (.aby 0x1234))) = false ∧ Instr.wf (.inc (.abx 0x1234)) = true := by
  decide

theorem test_wf_plainMode : Instr.wf (.cpx (.mem (.zpx 0x10))) = false ∧ Instr.wf (.bit (.abs 0x1234)) = true := by
  decide

theorem test_wf_stxMode : Instr.wf (.stx (.zpx 0x10)) = false ∧ Instr.wf (.stx (.zpy 0x10)) = true := by decide

theorem test_wf_styMode : Instr.wf (.sty (.zpy 0x10)) = false ∧ Instr.wf (.sty (.zpx 0x10)) = true := by decide

theorem test_wf_sta : Instr.wf (.sta (.zpy 0x10)) = false ∧ Instr.wf (.sta (.izy 0x10)) = true := by decide

theorem test_wf_target : Instr.wf (.asl (.mem (.izx 0x10))) = false ∧ Instr.wf (.asl .acc) = true := by decide

theorem test_wf_nopImp : Instr.wf (.nopImp 0xEA) = false ∧ Instr.wf (.nopImp 0xFA) = true := by decide

theorem test_wf_nopImm : Instr.wf (.nopImm 0x04 0x10) = false ∧ Instr.wf (.nopImm 0x89 0x10) = true := by decide

theorem test_wf_nopZp : Instr.wf (.nopZp 0x14 0x10) = false ∧ Instr.wf (.nopZp 0x64 0x10) = true := by decide

theorem test_wf_nopZpx : Instr.wf (.nopZpx 0x04 0x10) = false ∧ Instr.wf (.nopZpx 0xF4 0x10) = true := by decide

theorem test_wf_nopAbx : Instr.wf (.nopAbx 0x0C 0x1234) = false ∧ Instr.wf (.nopAbx 0xFC 0x1234) = true := by decide

theorem test_wf_unlisted : Instr.wf (.unlisted 0xEA) = false ∧ Instr.wf (.unlisted 0xFF) = true := by decide

/-! Decoding: the 179 listed opcodes of spec/opcode_table.json, each as its bits with the operand bytes 0x34 and
0x12, and the refusals of the decoder. -/

/-- Every list of bytes decodes to the instruction beside it, and nothing is left over. -/
abbrev DecodesTo (rows : List (List Byte × Instr)) : Prop :=
  rows.map (fun r => decode r.1) = rows.map (fun r => .ok (r.2, []))

theorem test_decode_load_store_transfer1 :
    DecodesTo
      [([0b10000001, 0x34], .sta (.izx 0x34)), ([0b10000100, 0x34], .sty (.zp 0x34)),
       ([0b10000101, 0x34], .sta (.zp 0x34)), ([0b10000110, 0x34], .stx (.zp 0x34)),
       ([0b10001010], .txa), ([0b10001100, 0x34, 0x12], .sty (.abs 0x1234)),
       ([0b10001101, 0x34, 0x12], .sta (.abs 0x1234)), ([0b10001110, 0x34, 0x12], .stx (.abs 0x1234)),
       ([0b10010001, 0x34], .sta (.izy 0x34)), ([0b10010100, 0x34], .sty (.zpx 0x34)),
       ([0b10010101, 0x34], .sta (.zpx 0x34)), ([0b10010110, 0x34], .stx (.zpy 0x34)),
       ([0b10011000], .tya), ([0b10011001, 0x34, 0x12], .sta (.aby 0x1234)), ([0b10011010], .txs),
       ([0b10011101, 0x34, 0x12], .sta (.abx 0x1234)), ([0b10100000, 0x34], .ldy (.imm 0x34)),
       ([0b10100001, 0x34], .lda (.mem (.izx 0x34))), ([0b10100010, 0x34], .ldx (.imm 0x34)),
       ([0b10100100, 0x34], .ldy (.mem (.zp 0x34))), ([0b10100101, 0x34], .lda (.mem (.zp 0x34))),
       ([0b10100110, 0x34], .ldx (.mem (.zp 0x34))), ([0b10101000], .tay),
       ([0b10101001, 0x34], .lda (.imm 0x34)), ([0b10101010], .tax),
       ([0b10101100, 0x34, 0x12], .ldy (.mem (.abs 0x1234))),
       ([0b10101101, 0x34, 0x12], .lda (.mem (.abs 0x1234))),
       ([0b10101110, 0x34, 0x12], .ldx (.mem (.abs 0x1234))),
       ([0b10110001, 0x34], .lda (.mem (.izy 0x34))), ([0b10110100, 0x34], .ldy (.mem (.zpx 0x34))),
       ([0b10110101, 0x34], .lda (.mem (.zpx 0x34))), ([0b10110110, 0x34], .ldx (.mem (.zpy 0x34)))] := rfl

theorem test_decode_load_store_transfer2 :
    DecodesTo
      [([0b10111001, 0x34, 0x12], .lda (.mem (.aby 0x1234))), ([0b10111010], .tsx),
       ([0b10111100, 0x34, 0x12], .ldy (.mem (.abx 0x1234))),
       ([0b10111101, 0x34, 0x12], .lda (.mem (.abx 0x1234))),
       ([0b10111110, 0x34, 0x12], .ldx (.mem (.aby 0x1234)))] := rfl

theorem test_decode_stack :
    DecodesTo
      [([0b00001000], .php), ([0b00101000], .plp), ([0b01001000], .pha), ([0b01101000], .pla)] := rfl

theorem test_decode_arith_logic1 :
    DecodesTo
      [([0b00000001, 0x34], .ora (.mem (.izx 0x34))), ([0b00000101, 0x34], .ora (.mem (.zp 0x34))),
       ([0b00001001, 0x34], .ora (.imm 0x34)), ([0b00001101, 0x34, 0x12], .ora (.mem (.abs 0x1234))),
       ([0b00010001, 0x34], .ora (.mem (.izy 0x34))), ([0b00010101, 0x34], .ora (.mem (.zpx 0x34))),
       ([0b00011001, 0x34, 0x12], .ora (.mem (.aby 0x1234))),
       ([0b00011101, 0x34, 0x12], .ora (.mem (.abx 0x1234))),
       ([0b00100001, 0x34], .and (.mem (.izx 0x34))), ([0b00100100, 0x34], .bit (.zp 0x34)),
       ([0b00100101, 0x34], .and (.mem (.zp 0x34))), ([0b00101001, 0x34], .and (.imm 0x34)),
       ([0b00101100, 0x34, 0x12], .bit (.abs 0x1234)),
       ([0b00101101, 0x34, 0x12], .and (.mem (.abs 0x1234))),
       ([0b00110001, 0x34], .and (.mem (.izy 0x34))), ([0b00110101, 0x34], .and (.mem (.zpx 0x34))),
       ([0b00111001, 0x34, 0x12], .and (.mem (.aby 0x1234))),
       ([0b00111101, 0x34, 0x12], .and (.mem (.abx 0x1234))),
       ([0b01000001, 0x34], .eor (.mem (.izx 0x34))), ([0b01000101, 0x34], .eor (.mem (.zp 0x34))),
       ([0b01001001, 0x34], .eor (.imm 0x34)), ([0b01001101, 0x34, 0x12], .eor (.mem (.abs 0x1234))),
       ([0b01010001, 0x34], .eor (.mem (.izy 0x34))), ([0b01010101, 0x34], .eor (.mem (.zpx 0x34))),
       ([0b01011001, 0x34, 0x12], .eor (.mem (.aby 0x1234))),
       ([0b01011101, 0x34, 0x12], .eor (.mem (.abx 0x1234))),
       ([0b01100001, 0x34], .adc (.mem (.izx 0x34))), ([0b01100101, 0x34], .adc (.mem (.zp 0x34))),
       ([0b01101001, 0x34], .adc (.imm 0x34)), ([0b01101101, 0x34, 0x12], .adc (.mem (.abs 0x1234))),
       ([0b01110001, 0x34], .adc (.mem (.izy 0x34))), ([0b01110101, 0x34], .adc (.mem (.zpx 0x34)))] := rfl

theorem test_decode_arith_logic2 :
    DecodesTo
      [([0b01111001, 0x34, 0x12], .adc (.mem (.aby 0x1234))),
       ([0b01111101, 0x34, 0x12], .adc (.mem (.abx 0x1234))), ([0b11000000, 0x34], .cpy (.imm 0x34)),
       ([0b11000001, 0x34], .cmp (.mem (.izx 0x34))), ([0b11000100, 0x34], .cpy (.mem (.zp 0x34))),
       ([0b11000101, 0x34], .cmp (.mem (.zp 0x34))), ([0b11001001, 0x34], .cmp (.imm 0x34)),
       ([0b11001100, 0x34, 0x12], .cpy (.mem (.abs 0x1234))),
       ([0b11001101, 0x34, 0x12], .cmp (.mem (.abs 0x1234))),
       ([0b11010001, 0x34], .cmp (.mem (.izy 0x34))), ([0b11010101, 0x34], .cmp (.mem (.zpx 0x34))),
       ([0b11011001, 0x34, 0x12], .cmp (.mem (.aby 0x1234))),
       ([0b11011101, 0x34, 0x12], .cmp (.mem (.abx 0x1234))), ([0b11100000, 0x34], .cpx (.imm 0x34)),
       ([0b11100001, 0x34], .sbc (.mem (.izx 0x34))), ([0b11100100, 0x34], .cpx (.mem (.zp 0x34))),
       ([0b11100101, 0x34], .sbc (.mem (.zp 0x34))), ([0b11101001, 0x34], .sbc (.imm 0x34)),
       ([0b11101100, 0x34, 0x12], .cpx (.mem (.abs 0x1234))),
       ([0b11101101, 0x34, 0x12], .sbc (.mem (.abs 0x1234))),
       ([0b11110001, 0x34], .sbc (.mem (.izy 0x34))), ([0b11110101, 0x34], .sbc (.mem (.zpx 0x34))),
       ([0b11111001, 0x34, 0x12], .sbc (.mem (.aby 0x1234))),
       ([0b11111101, 0x34, 0x12], .sbc (.mem (.abx 0x1234)))] := rfl

theorem test_decode_incdec_shift :
    DecodesTo
      [([0b00000110, 0x34], .asl (.mem (.zp 0x34))), ([0b00001010], .asl .acc),
       ([0b00001110, 0x34, 0x12], .asl (.mem (.abs 0x1234))),
       ([0b00010110, 0x34], .asl (.mem (.zpx 0x34))),
       ([0b00011110, 0x34, 0x12], .asl (.mem (.abx 0x1234))),
       ([0b00100110, 0x34], .rol (.mem (.zp 0x34))), ([0b00101010], .rol .acc),
       ([0b00101110, 0x34, 0x12], .rol (.mem (.abs 0x1234))),
       ([0b00110110, 0x34], .rol (.mem (.zpx 0x34))),
       ([0b00111110, 0x34, 0x12], .rol (.mem (.abx 0x1234))),
       ([0b01000110, 0x34], .lsr (.mem (.zp 0x34))), ([0b01001010], .lsr .acc),
       ([0b01001110, 0x34, 0x12], .lsr (.mem (.abs 0x1234))),
       ([0b01010110, 0x34], .lsr (.mem (.zpx 0x34))),
       ([0b01011110, 0x34, 0x12], .lsr (.mem (.abx 0x1234))),
       ([0b01100110, 0x34], .ror (.mem (.zp 0x34))), ([0b01101010], .ror .acc),
       ([0b01101110, 0x34, 0x12], .ror (.mem (.abs 0x1234))),
       ([0b01110110, 0x34], .ror (.mem (.zpx 0x34))),
       ([0b01111110, 0x34, 0x12], .ror (.mem (.abx 0x1234))), ([0b10001000], .dey),
       ([0b11000110, 0x34], .dec (.zp 0x34)), ([0b11001000], .iny), ([0b11001010], .dex),
       ([0b11001110, 0x34, 0x12], .dec (.abs 0x1234)), ([0b11010110, 0x34], .dec (.zpx 0x34)),
       ([0b11011110, 0x34, 0x12], .dec (.abx 0x1234)), ([0b11100110, 0x34], .inc (.zp 0x34)),
       ([0b11101000], .inx), ([0b11101110, 0x34, 0x12], .inc (.abs 0x1234)),
       ([0b11110110, 0x34], .inc (.zpx 0x34)), ([0b11111110, 0x34, 0x12], .inc (.abx 0x1234))] := rfl

theorem test_decode_control :
    DecodesTo
      [([0b00000000], .brk), ([0b00010000, 0x34], .bpl 0x34), ([0b00100000, 0x34, 0x12], .jsr 0x1234),
       ([0b00110000, 0x34], .bmi 0x34), ([0b01000000], .rti),
       ([0b01001100, 0x34, 0x12], .jmp (.abs 0x1234)), ([0b01010000, 0x34], .bvc 0x34),
       ([0b01100000], .rts), ([0b01101100, 0x34, 0x12], .jmp (.ind 0x1234)),
       ([0b01110000, 0x34], .bvs 0x34), ([0b10010000, 0x34], .bcc 0x34),
       ([0b10110000, 0x34], .bcs 0x34), ([0b11010000, 0x34], .bne 0x34),
       ([0b11110000, 0x34], .beq 0x34)] := rfl

theorem test_decode_flags_nop1 :
    DecodesTo
      [([0b00000100, 0x34], .nopZp 0x04 0x34), ([0b00001100, 0x34, 0x12], .nopAbs 0x1234),
       ([0b00010100, 0x34], .nopZpx 0x14 0x34), ([0b00011000], .clc), ([0b00011010], .nopImp 0x1A),
       ([0b00011100, 0x34, 0x12], .nopAbx 0x1C 0x1234), ([0b00110100, 0x34], .nopZpx 0x34 0x34),
       ([0b00111000], .sec), ([0b00111010], .nopImp 0x3A),
       ([0b00111100, 0x34, 0x12], .nopAbx 0x3C 0x1234), ([0b01000100, 0x34], .nopZp 0x44 0x34),
       ([0b01010100, 0x34], .nopZpx 0x54 0x34), ([0b01011000], .cli), ([0b01011010], .nopImp 0x5A),
       ([0b01011100, 0x34, 0x12], .nopAbx 0x5C 0x1234), ([0b01100100, 0x34], .nopZp 0x64 0x34),
       ([0b01110100, 0x34], .nopZpx 0x74 0x34), ([0b01111000], .sei), ([0b01111010], .nopImp 0x7A),
       ([0b01111100, 0x34, 0x12], .nopAbx 0x7C 0x1234), ([0b10000000, 0x34], .nopImm 0x80 0x34),
       ([0b10000010, 0x34], .nopImm 0x82 0x34), ([0b10001001, 0x34], .nopImm 0x89 0x34),
       ([0b10111000], .clv), ([0b11000010, 0x34], .nopImm 0xC2 0x34),
       ([0b11010100, 0x34], .nopZpx 0xD4 0x34), ([0b11011000], .cld), ([0b11011010], .nopImp 0xDA),
       ([0b11011100, 0x34, 0x12], .nopAbx 0xDC 0x1234), ([0b11100010, 0x34], .nopImm 0xE2 0x34),
       ([0b11101010], .nop), ([0b11101011, 0x34], .sbcAlias 0x34)] := rfl

theorem test_decode_flags_nop2 :
    DecodesTo
      [([0b11110100, 0x34], .nopZpx 0xF4 0x34), ([0b11111000], .sed), ([0b11111010], .nopImp 0xFA),
       ([0b11111100, 0x34, 0x12], .nopAbx 0xFC 0x1234)] := rfl

theorem test_decode_unlisted : DecodesTo (unlistedOpcodes.map (fun op => ([op], .unlisted op))) := rfl

theorem test_decode_short : decode [] = .error .empty ∧ decode [0xAD, 0x34] = .error (.missingOperand 0xAD) :=
  ⟨rfl, rfl⟩

/-- The bytes beyond a table row's bits are zero (`LDA abs` with the row's eight bits only). -/
theorem test_decodeTableWord :
    decodeTableWord 8 0xAD = some (.lda (.mem (.abs 0x0000))) ∧
    decodeTableWord 24 0x1234AD = some (.lda (.mem (.abs 0x1234))) := by
  decide +kernel

/-! CPU vectors (spec/95_test_vectors.md section 2): one instruction, run by `clock` from a boundary. -/

/-- A machine at an instruction boundary with the given registers, code at PC and bytes of memory. -/
def machineAt (pc : Word) (code : List Byte) (a x y sp p : Byte) (mem : List (Word × Byte)) : State :=
  let s := { State.reset with cpu := { State.reset.cpu with pc, a, x, y, sp, p, cyclesRemaining := 0 } }
  pokeBytes pc code (mem.foldl (fun s m => pokeByte m.1 m.2 s) s)

/-- PC, the registers A, X, Y, SP and P, the length of the window, and the bytes at the given addresses, after
the first cycle. -/
def outcome (s : State) (addrs : List Word) : Option (Word × List Byte × Nat × List Byte) :=
  match clock s with
  | .next t =>
    some (t.cpu.pc, [t.cpu.a, t.cpu.x, t.cpu.y, t.cpu.sp, t.cpu.p], t.cpu.cyclesRemaining + 1,
      addrs.map (peek t))
  | _ => none

/-- The recorded refusal after the first cycle, if no register but the mark changed. -/
def refusal (s : State) : Option (Byte × Word) :=
  match clock s with
  | .next t =>
    match t.cpu.refused with
    | some m => if t.cpu = { s.cpu with refused := some m } then some (m.opcode, m.address) else none
    | none => none
  | _ => none

/-- What one step answers: `true` a next state, `false` a stop. -/
def answersNext (s : State) : Bool :=
  match step s with
  | .next _ => true
  | _ => false

theorem step_next_of_answersNext {s : State} (h : answersNext s = true) : ∃ t, step s = .next t := by
  unfold answersNext at h
  split at h
  · exact ⟨_, ‹_›⟩
  · cases h

theorem test_v8_lda :
    outcome (machineAt 0x8000 [0xA1, 0xFF] 0x00 0x00 0x00 0xFD 0x24 [(0x00FF, 0x34), (0x0000, 0x12), (0x1234, 0x5A)]) [] =
      some (0x8002, [0x5A, 0x00, 0x00, 0xFD, 0x24], 6, []) := by decide +kernel

theorem test_v11_lda :
    outcome (machineAt 0x8000 [0xB1, 0x10] 0x00 0x00 0x10 0xFD 0x24 [(0x0010, 0xF8), (0x0011, 0x04), (0x0508, 0x67)]) [] =
      some (0x8002, [0x67, 0x00, 0x10, 0xFD, 0x24], 6, []) := by decide +kernel

theorem test_v4_ldx :
    outcome (machineAt 0x8000 [0xB6, 0xFF] 0x00 0x00 0x02 0xFD 0x24 [(0x0001, 0x07)]) [] =
      some (0x8002, [0x00, 0x07, 0x02, 0xFD, 0x24], 4, []) := by decide +kernel

theorem test_v93_ldy :
    outcome (machineAt 0x8000 [0xAC, 0x34, 0x12] 0x00 0x00 0x00 0xFD 0x24 [(0x1234, 0xFE)]) [] =
      some (0x8003, [0x00, 0x00, 0xFE, 0xFD, 0xA4], 4, []) := by decide +kernel

theorem test_v94_ldy :
    outcome (machineAt 0x8000 [0xB4, 0x10] 0x00 0x01 0x00 0xFD 0xA4 [(0x0011, 0x00)]) [] =
      some (0x8002, [0x00, 0x01, 0x00, 0xFD, 0x26], 4, []) := by decide +kernel

theorem test_v13_sta :
    outcome (machineAt 0x8000 [0x9D, 0xF0, 0x02] 0x5E 0x10 0x00 0xFD 0x24 []) [0x0300] =
      some (0x8003, [0x5E, 0x10, 0x00, 0xFD, 0x24], 5, [0x5E]) := by decide +kernel

theorem test_v15_sta :
    outcome (machineAt 0x8000 [0x91, 0x10] 0x01 0x00 0x01 0xFD 0x24 [(0x0010, 0x00), (0x0011, 0x02)]) [0x0201] =
      some (0x8002, [0x01, 0x00, 0x01, 0xFD, 0x24], 6, [0x01]) := by decide +kernel

theorem test_v16_stx :
    outcome (machineAt 0x8000 [0x96, 0x10] 0x00 0xAB 0xF5 0xFD 0x24 []) [0x0005] =
      some (0x8002, [0x00, 0xAB, 0xF5, 0xFD, 0x24], 4, [0xAB]) := by decide +kernel

theorem test_v95_sty :
    outcome (machineAt 0x8000 [0x94, 0xFF] 0x00 0x02 0x3C 0xFD 0x24 []) [0x0001] =
      some (0x8002, [0x00, 0x02, 0x3C, 0xFD, 0x24], 4, [0x3C]) := by decide +kernel

theorem test_v18_tax :
    outcome (machineAt 0x8000 [0xAA] 0x80 0x00 0x00 0xFD 0x24 []) [] =
      some (0x8001, [0x80, 0x80, 0x00, 0xFD, 0xA4], 2, []) := by decide +kernel

theorem test_v97_tay :
    outcome (machineAt 0x8000 [0xA8] 0x00 0x00 0x55 0xFD 0x24 []) [] =
      some (0x8001, [0x00, 0x00, 0x00, 0xFD, 0x26], 2, []) := by decide +kernel

theorem test_v98_txa :
    outcome (machineAt 0x8000 [0x8A] 0x00 0x90 0x00 0xFD 0x24 []) [] =
      some (0x8001, [0x90, 0x90, 0x00, 0xFD, 0xA4], 2, []) := by decide +kernel

theorem test_v99_tya :
    outcome (machineAt 0x8000 [0x98] 0x00 0x00 0x01 0xFD 0xA6 []) [] =
      some (0x8001, [0x01, 0x00, 0x01, 0xFD, 0x24], 2, []) := by decide +kernel

theorem test_v20_tsx :
    outcome (machineAt 0x8000 [0xBA] 0x00 0x00 0x00 0x00 0x24 []) [] =
      some (0x8001, [0x00, 0x00, 0x00, 0x00, 0x26], 2, []) := by decide +kernel

theorem test_v19_txs :
    outcome (machineAt 0x8000 [0x9A] 0x00 0x00 0x00 0xFD 0x24 []) [] =
      some (0x8001, [0x00, 0x00, 0x00, 0x00, 0x24], 2, []) := by decide +kernel

theorem test_v21_pha :
    outcome (machineAt 0x8000 [0x48] 0x3C 0x00 0x00 0x00 0x24 []) [0x0100] =
      some (0x8001, [0x3C, 0x00, 0x00, 0xFF, 0x24], 3, [0x3C]) := by decide +kernel

theorem test_v22_pla :
    outcome (machineAt 0x8000 [0x68] 0x00 0x00 0x00 0xFF 0x24 [(0x0100, 0x80)]) [] =
      some (0x8001, [0x80, 0x00, 0x00, 0x00, 0xA4], 4, []) := by decide +kernel

theorem test_v23_php :
    outcome (machineAt 0x8000 [0x08] 0x00 0x00 0x00 0xFD 0x24 []) [0x01FD] =
      some (0x8001, [0x00, 0x00, 0x00, 0xFC, 0x24], 3, [0x34]) := by decide +kernel

theorem test_v24_php :
    outcome (machineAt 0x8000 [0x08] 0x00 0x00 0x00 0xFD 0xEF []) [0x01FD] =
      some (0x8001, [0x00, 0x00, 0x00, 0xFC, 0xEF], 3, [0xFF]) := by decide +kernel

theorem test_v25_plp :
    outcome (machineAt 0x8000 [0x28] 0x00 0x00 0x00 0xFC 0x24 [(0x01FD, 0xFF)]) [] =
      some (0x8001, [0x00, 0x00, 0x00, 0xFD, 0xEF], 4, []) := by decide +kernel

theorem test_v26_plp :
    outcome (machineAt 0x8000 [0x28] 0x00 0x00 0x00 0xFC 0x24 [(0x01FD, 0x00)]) [] =
      some (0x8001, [0x00, 0x00, 0x00, 0xFD, 0x20], 4, []) := by decide +kernel

theorem test_v31_adc :
    outcome (machineAt 0x8000 [0x69, 0x00] 0x7F 0x00 0x00 0xFD 0x25 []) [] =
      some (0x8002, [0x80, 0x00, 0x00, 0xFD, 0xE4], 2, []) := by decide +kernel

theorem test_v112_adc :
    outcome (machineAt 0x8000 [0x7D, 0xFF, 0x12] 0x01 0x01 0x00 0xFD 0x24 [(0x1300, 0x01)]) [] =
      some (0x8003, [0x02, 0x01, 0x00, 0xFD, 0x24], 5, []) := by decide +kernel

theorem test_v34_sbc :
    outcome (machineAt 0x8000 [0xE9, 0xB0] 0x50 0x00 0x00 0xFD 0x25 []) [] =
      some (0x8002, [0xA0, 0x00, 0x00, 0xFD, 0xE4], 2, []) := by decide +kernel

theorem test_v37_sbc :
    outcome (machineAt 0x8000 [0xE9, 0x03] 0x05 0x00 0x00 0xFD 0x24 []) [] =
      some (0x8002, [0x01, 0x00, 0x00, 0xFD, 0x25], 2, []) := by decide +kernel

theorem test_v106_and :
    outcome (machineAt 0x8000 [0x21, 0x20] 0xFF 0x02 0x00 0xFD 0x24 [(0x0022, 0x00), (0x0023, 0x03), (0x0300, 0x81)]) [] =
      some (0x8002, [0x81, 0x02, 0x00, 0xFD, 0xA4], 6, []) := by decide +kernel

theorem test_v107_ora :
    outcome (machineAt 0x8000 [0x19, 0x00, 0x03] 0x00 0x00 0x01 0xFD 0x24 [(0x0301, 0x00)]) [] =
      some (0x8003, [0x00, 0x00, 0x01, 0xFD, 0x26], 4, []) := by decide +kernel

theorem test_v108_eor :
    outcome (machineAt 0x8000 [0x51, 0x20] 0x0F 0x00 0x00 0xFD 0x24 [(0x0020, 0x00), (0x0021, 0x03), (0x0300, 0xFF)]) [] =
      some (0x8002, [0xF0, 0x00, 0x00, 0xFD, 0xA4], 5, []) := by decide +kernel

theorem test_v42_bit :
    outcome (machineAt 0x8000 [0x24, 0x10] 0x3F 0x00 0x00 0xFD 0x24 [(0x0010, 0xC0)]) [] =
      some (0x8002, [0x3F, 0x00, 0x00, 0xFD, 0xE6], 3, []) := by decide +kernel

theorem test_v43_bit :
    outcome (machineAt 0x8000 [0x24, 0x10] 0x01 0x00 0x00 0xFD 0xE6 [(0x0010, 0x01)]) [] =
      some (0x8002, [0x01, 0x00, 0x00, 0xFD, 0x24], 3, []) := by decide +kernel

theorem test_v47_cmp :
    outcome (machineAt 0x8000 [0xC9, 0x80] 0x00 0x00 0x00 0xFD 0x24 []) [] =
      some (0x8002, [0x00, 0x00, 0x00, 0xFD, 0xA4], 2, []) := by decide +kernel

theorem test_v44_cmp :
    outcome (machineAt 0x8000 [0xC9, 0x40] 0x40 0x00 0x00 0xFD 0x24 []) [] =
      some (0x8002, [0x40, 0x00, 0x00, 0xFD, 0x27], 2, []) := by decide +kernel

theorem test_v48_cpx :
    outcome (machineAt 0x8000 [0xE0, 0x10] 0x00 0x20 0x00 0xFD 0x24 []) [] =
      some (0x8002, [0x00, 0x20, 0x00, 0xFD, 0x25], 2, []) := by decide +kernel

theorem test_v110_cpx :
    outcome (machineAt 0x8000 [0xE4, 0x10] 0x00 0x00 0x00 0xFD 0x24 [(0x0010, 0x01)]) [] =
      some (0x8002, [0x00, 0x00, 0x00, 0xFD, 0xA4], 3, []) := by decide +kernel

theorem test_v49_cpy :
    outcome (machineAt 0x8000 [0xC0, 0xFF] 0x00 0x00 0xFF 0xFD 0x24 []) [] =
      some (0x8002, [0x00, 0x00, 0xFF, 0xFD, 0x27], 2, []) := by decide +kernel

theorem test_v52_inc :
    outcome (machineAt 0x8000 [0xFE, 0xF0, 0x02] 0x00 0x01 0x00 0xFD 0x24 [(0x02F1, 0x7F)]) [0x02F1] =
      some (0x8003, [0x00, 0x01, 0x00, 0xFD, 0xA4], 7, [0x80]) := by decide +kernel

theorem test_v51_dec :
    outcome (machineAt 0x8000 [0xC6, 0x10] 0x00 0x00 0x00 0xFD 0x24 [(0x0010, 0x00)]) [0x0010] =
      some (0x8002, [0x00, 0x00, 0x00, 0xFD, 0xA4], 5, [0xFF]) := by decide +kernel

theorem test_v53_inx :
    outcome (machineAt 0x8000 [0xE8] 0x00 0xFF 0x00 0xFD 0x24 []) [] =
      some (0x8001, [0x00, 0x00, 0x00, 0xFD, 0x26], 2, []) := by decide +kernel

theorem test_v100_iny :
    outcome (machineAt 0x8000 [0xC8] 0x00 0x00 0x7F 0xFD 0x24 []) [] =
      some (0x8001, [0x00, 0x00, 0x80, 0xFD, 0xA4], 2, []) := by decide +kernel

theorem test_v101_dex :
    outcome (machineAt 0x8000 [0xCA] 0x00 0x01 0x00 0xFD 0x24 []) [] =
      some (0x8001, [0x00, 0x00, 0x00, 0xFD, 0x26], 2, []) := by decide +kernel

theorem test_v54_dey :
    outcome (machineAt 0x8000 [0x88] 0x00 0x00 0x00 0xFD 0x24 []) [] =
      some (0x8001, [0x00, 0x00, 0xFF, 0xFD, 0xA4], 2, []) := by decide +kernel

theorem test_v55_asl :
    outcome (machineAt 0x8000 [0x0A] 0x80 0x00 0x00 0xFD 0x24 []) [] =
      some (0x8001, [0x00, 0x00, 0x00, 0xFD, 0x27], 2, []) := by decide +kernel

theorem test_v60_asl :
    outcome (machineAt 0x8000 [0x06, 0x10] 0x00 0x00 0x00 0xFD 0x24 [(0x0010, 0x41)]) [0x0010] =
      some (0x8002, [0x00, 0x00, 0x00, 0xFD, 0xA4], 5, [0x82]) := by decide +kernel

theorem test_v56_lsr :
    outcome (machineAt 0x8000 [0x4A] 0x01 0x00 0x00 0xFD 0x24 []) [] =
      some (0x8001, [0x00, 0x00, 0x00, 0xFD, 0x27], 2, []) := by decide +kernel

theorem test_v103_lsr :
    outcome (machineAt 0x8000 [0x56, 0x10] 0x00 0x01 0x00 0xFD 0x24 [(0x0011, 0x03)]) [0x0011] =
      some (0x8002, [0x00, 0x01, 0x00, 0xFD, 0x25], 6, [0x01]) := by decide +kernel

theorem test_v57_rol :
    outcome (machineAt 0x8000 [0x2A] 0x80 0x00 0x00 0xFD 0x25 []) [] =
      some (0x8001, [0x01, 0x00, 0x00, 0xFD, 0x25], 2, []) := by decide +kernel

theorem test_v104_rol :
    outcome (machineAt 0x8000 [0x2E, 0x34, 0x12] 0x00 0x00 0x00 0xFD 0x24 [(0x1234, 0xC0)]) [0x1234] =
      some (0x8003, [0x00, 0x00, 0x00, 0xFD, 0xA5], 6, [0x80]) := by decide +kernel

theorem test_v58_ror :
    outcome (machineAt 0x8000 [0x6A] 0x01 0x00 0x00 0xFD 0x25 []) [] =
      some (0x8001, [0x80, 0x00, 0x00, 0xFD, 0xA5], 2, []) := by decide +kernel

theorem test_v105_ror :
    outcome (machineAt 0x8000 [0x7E, 0x30, 0x12] 0x00 0x04 0x00 0xFD 0x25 [(0x1234, 0x00)]) [0x1234] =
      some (0x8003, [0x00, 0x04, 0x00, 0xFD, 0xA4], 7, [0x80]) := by decide +kernel

theorem test_v71_bpl :
    outcome (machineAt 0x8000 [0x10, 0x04] 0x00 0x00 0x00 0xFD 0x24 []) [] =
      some (0x8006, [0x00, 0x00, 0x00, 0xFD, 0x24], 3, []) := by decide +kernel

theorem test_v68_bmi :
    outcome (machineAt 0x8000 [0x30, 0xFE] 0x00 0x00 0x00 0xFD 0xA4 []) [] =
      some (0x8000, [0x00, 0x00, 0x00, 0xFD, 0xA4], 3, []) := by decide +kernel

theorem test_v69_bvc :
    outcome (machineAt 0x8000 [0x50, 0x04] 0x00 0x00 0x00 0xFD 0x24 []) [] =
      some (0x8006, [0x00, 0x00, 0x00, 0xFD, 0x24], 3, []) := by decide +kernel

theorem test_v70_bvs :
    outcome (machineAt 0x8000 [0x70, 0x04] 0x00 0x00 0x00 0xFD 0x24 []) [] =
      some (0x8002, [0x00, 0x00, 0x00, 0xFD, 0x24], 2, []) := by decide +kernel

theorem test_v67_bcc :
    outcome (machineAt 0xFFF0 [0x90, 0x7F] 0x00 0x00 0x00 0xFD 0x24 []) [] =
      some (0x0071, [0x00, 0x00, 0x00, 0xFD, 0x24], 4, []) := by decide +kernel

theorem test_v72_bcc :
    outcome (machineAt 0x8000 [0x90, 0x04] 0x00 0x00 0x00 0xFD 0x25 []) [] =
      some (0x8002, [0x00, 0x00, 0x00, 0xFD, 0x25], 2, []) := by decide +kernel

theorem test_v65_bcs :
    outcome (machineAt 0x8000 [0xB0, 0x7F] 0x00 0x00 0x00 0xFD 0x25 []) [] =
      some (0x8081, [0x00, 0x00, 0x00, 0xFD, 0x25], 3, []) := by decide +kernel

theorem test_v66_bcs :
    outcome (machineAt 0x80F0 [0xB0, 0x7F] 0x00 0x00 0x00 0xFD 0x25 []) [] =
      some (0x8171, [0x00, 0x00, 0x00, 0xFD, 0x25], 4, []) := by decide +kernel

theorem test_v61_bne :
    outcome (machineAt 0x8000 [0xD0, 0x10] 0x00 0x00 0x00 0xFD 0x26 []) [] =
      some (0x8002, [0x00, 0x00, 0x00, 0xFD, 0x26], 2, []) := by decide +kernel

theorem test_v63_bne :
    outcome (machineAt 0x8000 [0xD0, 0x80] 0x00 0x00 0x00 0xFD 0x24 []) [] =
      some (0x7F82, [0x00, 0x00, 0x00, 0xFD, 0x24], 4, []) := by decide +kernel

theorem test_v64_beq :
    outcome (machineAt 0x8000 [0xF0, 0x00] 0x00 0x00 0x00 0xFD 0x26 []) [] =
      some (0x8002, [0x00, 0x00, 0x00, 0xFD, 0x26], 3, []) := by decide +kernel

theorem test_v73_jmp :
    outcome (machineAt 0x8000 [0x4C, 0x34, 0x12] 0x00 0x00 0x00 0xFD 0x24 []) [] =
      some (0x1234, [0x00, 0x00, 0x00, 0xFD, 0x24], 3, []) := by decide +kernel

theorem test_v75_jmp :
    outcome (machineAt 0x8000 [0x6C, 0xFF, 0x02] 0x00 0x00 0x00 0xFD 0x24 [(0x02FF, 0x50), (0x0200, 0x80), (0x0300, 0x00)]) [] =
      some (0x8050, [0x00, 0x00, 0x00, 0xFD, 0x24], 5, []) := by decide +kernel

theorem test_v76_jsr :
    outcome (machineAt 0x8000 [0x20, 0x00, 0x90] 0x00 0x00 0x00 0xFD 0x24 []) [0x01FD, 0x01FC] =
      some (0x9000, [0x00, 0x00, 0x00, 0xFB, 0x24], 6, [0x80, 0x02]) := by decide +kernel

theorem test_v77_rts :
    outcome (machineAt 0x8000 [0x60] 0x00 0x00 0x00 0xFB 0x24 [(0x01FC, 0x02), (0x01FD, 0x80)]) [] =
      some (0x8003, [0x00, 0x00, 0x00, 0xFD, 0x24], 6, []) := by decide +kernel

theorem test_v78_rts :
    outcome (machineAt 0x8000 [0x60] 0x00 0x00 0x00 0xFB 0x24 [(0x01FC, 0xFF), (0x01FD, 0xFF)]) [] =
      some (0x0000, [0x00, 0x00, 0x00, 0xFD, 0x24], 6, []) := by decide +kernel

theorem test_v79_brk :
    outcome (machineAt 0x8000 [0x00, 0xEA] 0x00 0x00 0x00 0xFD 0x21 [(0xFFFE, 0x00), (0xFFFF, 0x90)]) [0x01FD, 0x01FC, 0x01FB] =
      some (0x9000, [0x00, 0x00, 0x00, 0xFA, 0x25], 7, [0x80, 0x02, 0x31]) := by decide +kernel

theorem test_v80_rti :
    outcome (machineAt 0x8000 [0x40] 0x00 0x00 0x00 0xFA 0x24 [(0x01FB, 0xFF), (0x01FC, 0x0A), (0x01FD, 0x80)]) [] =
      some (0x800A, [0x00, 0x00, 0x00, 0xFD, 0xEF], 6, []) := by decide +kernel

theorem test_v114_clc :
    outcome (machineAt 0x8000 [0x18] 0x00 0x00 0x00 0xFD 0x25 []) [] =
      some (0x8001, [0x00, 0x00, 0x00, 0xFD, 0x24], 2, []) := by decide +kernel

theorem test_v81_sec :
    outcome (machineAt 0x8000 [0x38] 0x00 0x00 0x00 0xFD 0x24 []) [] =
      some (0x8001, [0x00, 0x00, 0x00, 0xFD, 0x25], 2, []) := by decide +kernel

theorem test_v82_cli :
    outcome (machineAt 0x8000 [0x58] 0x00 0x00 0x00 0xFD 0x24 []) [] =
      some (0x8001, [0x00, 0x00, 0x00, 0xFD, 0x20], 2, []) := by decide +kernel

theorem test_v116_sei :
    outcome (machineAt 0x8000 [0x78] 0x00 0x00 0x00 0xFD 0x20 []) [] =
      some (0x8001, [0x00, 0x00, 0x00, 0xFD, 0x24], 2, []) := by decide +kernel

theorem test_v84_clv :
    outcome (machineAt 0x8000 [0xB8] 0x00 0x00 0x00 0xFD 0x64 []) [] =
      some (0x8001, [0x00, 0x00, 0x00, 0xFD, 0x24], 2, []) := by decide +kernel

theorem test_v115_cld :
    outcome (machineAt 0x8000 [0xD8] 0x00 0x00 0x00 0xFD 0x2C []) [] =
      some (0x8001, [0x00, 0x00, 0x00, 0xFD, 0x24], 2, []) := by decide +kernel

theorem test_v83_sed :
    outcome (machineAt 0x8000 [0xF8] 0x00 0x00 0x00 0xFD 0x24 []) [] =
      some (0x8001, [0x00, 0x00, 0x00, 0xFD, 0x2C], 2, []) := by decide +kernel

theorem test_v85_nop :
    outcome (machineAt 0x8000 [0xEA] 0x00 0x00 0x00 0xFD 0x24 []) [] =
      some (0x8001, [0x00, 0x00, 0x00, 0xFD, 0x24], 2, []) := by decide +kernel

theorem test_v86_nop_unofficial :
    outcome (machineAt 0x8000 [0x1A] 0x00 0x00 0x00 0xFD 0x24 []) [] =
      some (0x8001, [0x00, 0x00, 0x00, 0xFD, 0x24], 2, []) := by decide +kernel

theorem test_v87_nop_unofficial :
    outcome (machineAt 0x8000 [0x80, 0x55] 0x00 0x00 0x00 0xFD 0x24 []) [] =
      some (0x8002, [0x00, 0x00, 0x00, 0xFD, 0x24], 2, []) := by decide +kernel

theorem test_v88_nop_unofficial :
    outcome (machineAt 0x8000 [0x04, 0x10] 0x00 0x00 0x00 0xFD 0x24 []) [] =
      some (0x8002, [0x00, 0x00, 0x00, 0xFD, 0x24], 3, []) := by decide +kernel

theorem test_v89_nop_unofficial :
    outcome (machineAt 0x8000 [0x14, 0x10] 0x00 0x00 0x00 0xFD 0x24 []) [] =
      some (0x8002, [0x00, 0x00, 0x00, 0xFD, 0x24], 4, []) := by decide +kernel

theorem test_v90_nop_unofficial :
    outcome (machineAt 0x8000 [0x0C, 0x00, 0x20] 0x00 0x00 0x00 0xFD 0x24 []) [] =
      some (0x8003, [0x00, 0x00, 0x00, 0xFD, 0x24], 4, []) := by decide +kernel

theorem test_v91_nop_unofficial :
    outcome (machineAt 0x8000 [0x1C, 0x00, 0x03] 0x00 0x01 0x00 0xFD 0x24 []) [] =
      some (0x8003, [0x00, 0x01, 0x00, 0xFD, 0x24], 4, []) := by decide +kernel

theorem test_v92_nop_unofficial :
    outcome (machineAt 0x8000 [0x1C, 0xFF, 0x03] 0x00 0x01 0x00 0xFD 0x24 []) [] =
      some (0x8003, [0x00, 0x01, 0x00, 0xFD, 0x24], 5, []) := by decide +kernel

theorem test_v38_sbc_unofficial :
    outcome (machineAt 0x8000 [0xEB, 0x03] 0x05 0x00 0x00 0xFD 0x24 []) [] =
      some (0x8002, [0x01, 0x00, 0x00, 0xFD, 0x25], 2, []) := by decide +kernel

theorem test_v118_unlisted : refusal (machineAt 0x8000 [0x02] 0x00 0x00 0x00 0xFD 0x24 []) = some (0x02, 0x8000) := by decide +kernel

theorem test_v119_unlisted : refusal (machineAt 0x8000 [0xA7, 0x10] 0x00 0x00 0x00 0xFD 0x24 []) = some (0xA7, 0x8000) := by decide +kernel

/-! The sequencer (section 3.1), with NOP at 0x8123, the NMI vector 0xA000 and the IRQ vector 0xB000. -/

def atNop (p : Byte) (nmi irq : Bool) (stall : Nat) : State :=
  let s := machineAt 0x8123 [0xEA] 0 0 0 0xFD p [(0xFFFA, 0x00), (0xFFFB, 0xA0), (0xFFFE, 0x00), (0xFFFF, 0xB0)]
  { s with cpu := { s.cpu with nmiPending := nmi, irqPending := irq, stallRemaining := stall } }

/-- IV1 -/
theorem test_iv1_nmi :
    outcome (atNop 0x21 true false 0) [0x01FD, 0x01FC, 0x01FB] =
      some (0xA000, [0, 0, 0, 0xFA, 0x25], 8, [0x81, 0x23, 0x21]) := by decide +kernel

/-- IV2 -/
theorem test_iv2_irq :
    outcome (atNop 0x20 false true 0) [0x01FD, 0x01FC, 0x01FB] =
      some (0xB000, [0, 0, 0, 0xFA, 0x24], 8, [0x81, 0x23, 0x20]) := by decide +kernel

/-- IV3: the masked request is dropped and the NOP runs. -/
theorem test_iv3_masked :
    outcome (atNop 0x24 false true 0) [] = some (0x8124, [0, 0, 0, 0xFD, 0x24], 2, []) := by decide +kernel

/-- IV4: the NMI comes first. -/
theorem test_iv4_priority :
    outcome (atNop 0x20 true true 0) [] = some (0xA000, [0, 0, 0, 0xFA, 0x24], 8, []) := by decide +kernel

/-- IV5: a stall cycle before the NMI makes no access. -/
theorem test_iv5_stall :
    outcome (atNop 0x20 true false 2) [0x01FD] = some (0x8123, [0, 0, 0, 0xFD, 0x20], 1, [0x00]) := by decide +kernel

/-! The bus and the PPU's registers (sections 3.3 and 4.1). -/

/-- BUS-M1 -/
theorem test_bus_m1 :
    [0x0FFF, 0x17FF, 0x1FFF].map (peek (busWrite 0x07FF 0xAB State.reset)) = [0xAB, 0xAB, 0xAB] := by decide +kernel

/-- PPU-R1, PPU-R2 -/
theorem test_ppu_scroll_address :
    let s := busWrite 0x2005 0x5E (busWrite 0x2005 0x7D (busWrite 0x2000 0x01 State.reset))
    let u := busWrite 0x2006 0xFF (busWrite 0x2006 0xFF State.reset)
    (s.ppu.t, s.ppu.fineX, s.ppu.w, u.ppu.t, u.ppu.v) = (0x656F, 5, false, 0x3FFF, 0x3FFF) := rfl

/-- PPU-R3: the read is delayed by one. -/
theorem test_ppu_r3 :
    let p := { State.reset.ppu with vram := [(0, 0x12), (1, 0x34)], readBuffer := 0xB0, v := 0x2000 }
    let r1 := busRead 0x2007 { State.reset with ppu := p }
    let r2 := busRead 0x2007 r1.2
    let r3 := busRead 0x2007 r2.2
    (r1.1, r2.1, r3.1, r3.2.ppu.v) = (0xB0, 0x12, 0x34, 0x2003) := rfl

/-- PPU-R4: the palette is not delayed. -/
theorem test_ppu_r4 :
    let r := busRead 0x2007 { State.reset with ppu := { State.reset.ppu with palette := [(0, 0x0F)], v := 0x3F00 } }
    (r.1, r.2.ppu.readBuffer, r.2.ppu.v) = (0x0F, 0x0F, 0x3F01) := rfl

/-- PPU-R6, PPU-R7, PPU-R8 -/
theorem test_ppu_writes :
    let o := busWrite 0x2004 0x99 { State.reset with ppu := { State.reset.ppu with oamAddr := 0xFF } }
    let d := busWrite 0x2007 0x34 (busWrite 0x2007 0x12
      { State.reset with ppu := { State.reset.ppu with ctrl := 0x04, v := 0x2000 } })
    let e := busWrite 0x2007 0x01 { State.reset with ppu := { State.reset.ppu with v := 0x3FFF } }
    (o.ppu.oam, o.ppu.oamAddr, d.ppu.vram, d.ppu.v, e.ppu.palette, e.ppu.v) =
      ([(0xFF, 0x99)], 0x00, [(0x00, 0x12), (0x20, 0x34)], 0x2040, [(0x1F, 0x01)], 0x4000) := rfl

/-- PPU-P1 to PPU-P6 -/
theorem test_ppu_palette_index :
    [0x3F10, 0x3F14, 0x3F11, 0x3F30, 0x3F3C, 0x3FFF].map palIndex = [0x00, 0x04, 0x11, 0x00, 0x0C, 0x1F] := by decide

/-- PPU-N2, PPU-N3, PPU-N4, PPU-N6 -/
theorem test_ppu_nametable_index :
    [0x2400, 0x2800, 0x2C05, 0x3EFF].map (ntIndex .horizontal) = [0x000, 0x400, 0x405, 0x6FF] ∧
    [0x2400, 0x2800, 0x2C05, 0x3EFF].map (ntIndex .vertical) = [0x400, 0x000, 0x405, 0x6FF] ∧
    [0x2400, 0x2800, 0x2C05, 0x3EFF].map (ntIndex .oneScreenLow) = [0x000, 0x000, 0x005, 0x2FF] ∧
    [0x2400, 0x2800, 0x2C05, 0x3EFF].map (ntIndex .oneScreenHigh) = [0x400, 0x400, 0x405, 0x6FF] := by decide

/-- Every CPU write to a device is put out, newest first, also one that changes nothing, and no other write is
(spec/61_bus.md R179). -/
theorem test_device_writes :
    let run := [(0x0000, 1), (0x2002, 2), (0x4009, 3), (0x4018, 4), (0x6000, 5), (0x8000, 6)].foldl
      (fun s (w : Word × Byte) => busWrite w.1 w.2 s) State.reset
    run.deviceWrites = [(0x8000, 6), (0x6000, 5), (0x4009, 3), (0x2002, 2)] := by decide +kernel

/-! The APU (section 4.2). -/

/-- A period below 2 halts the triangle's sequence and silences it (spec/93_implementation_defined.md I2). -/
theorem test_triangle_silenced :
    let t (period : BitVec 11) := triangleTimer { Triangle.reset with period, length := 1, linCounter := 1, seq := 4 }
    ((t 1).seq, triangleOut (t 1), (t 2).seq, triangleOut (t 2)) = (4, 0, 5, 10) := rfl

/-- APU-N1, APU-N2 -/
theorem test_apu_lfsr :
    lfsrStep false 0x0001 = 0x4000 ∧ lfsrStep true 0x0001 = 0x4000 ∧ lfsrStep false 0x4000 = 0x2000 := by decide

/-- APU-S1, APU-S2, APU-S3 -/
theorem test_apu_sweep :
    let p := { Pulse.reset with period := 0x100, swShift := 1, swNegate := true }
    (sweepTarget true p, sweepTarget false p,
      sweepMutes true { Pulse.reset with period := 0x600, swShift := 1 }) = (0x7F, 0x80, true) := rfl

/-- APU-L1, APU-L2 -/
theorem test_apu_length :
    let a := apuWrite Apu.reset 0x4015 0x01
    ([0x08, 0x00, 0xF8, 0x18].map (fun d => (apuWrite a 0x4003 d).pulse1.length),
      (apuWrite Apu.reset 0x4003 0x08).pulse1.length) = ([254, 10, 30, 2], 0) := rfl

/-- APU-D2, APU-D4, APU-D5 -/
theorem test_apu_dmc :
    let a := apuWrite (apuWrite Apu.reset 0x4012 0xFF) 0x4013 0xFF
    (a.dmc.sampleAddr, a.dmc.sampleLen, dmcLevel 126 true, dmcLevel 125 true, dmcLevel 1 false, dmcLevel 2 false) =
      (0xFFC0, 4081, 126, 127, 1, 0) := rfl

/-- APU-D6 -/
theorem test_apu_d6 :
    let s := busWrite 0x4015 0x10 (busWrite 0x4013 0x00 (busWrite 0x4012 0x00 (busWrite 0x4010 0x80 State.reset)))
    let t := apuTick s
    (t.cpu.stallRemaining, t.apu.dmc.curAddr, t.apu.dmc.remaining, t.apu.dmc.irq) = (4, 0xC001, 0, true) := rfl

/-- APU-F3, APU-F4 -/
theorem test_apu_frame_irq :
    let a := { Apu.reset with frame := { Apu.reset.frame with irq := true } }
    let w := apuWrite a 0x4017 0x40
    (w.frame.irq, w.frame.inhibit, (apuStatus a).getLsbD 6, (afterStatusReadApu a).frame.irq) =
      (false, true, true, false) := rfl

/-! The cartridge (section 4.3). -/

def mmc1Cart : Cartridge := { Cartridge.empty with mapper := .mmc1 Mmc1.reset }

/-- MAP-1-1 and scenario S6 -/
theorem test_map_1_1 :
    let c := mmc1Writes 0x8000 [0, 1, 0, 0, 0] mmc1Cart
    (c.mapper, c.mirror) = (.mmc1 { Mmc1.reset with control := 0x02 }, .vertical) := rfl

/-- MAP-1-2, MAP-1-3 -/
theorem test_map_1_2 :
    (mmc1Writes 0xE000 [1, 0, 1, 0, 0] mmc1Cart).mapper = .mmc1 { Mmc1.reset with prg := 0x05 } ∧
    (mmc1Writes 0x8000 [1, 1, 0x80, 1, 1, 0, 0, 0] mmc1Cart).mapper =
      .mmc1 { Mmc1.reset with control := 0x03 } := by decide +kernel

def mmc3Cart (mode : Bool) : Cartridge :=
  { Cartridge.empty with
    prgBanks := 16, mapper := .mmc3 { Mmc3.reset with prgMode := mode, r := (Mmc3.reset.r.set 6 4).set 7 9 } }

/-- MAP-4-1, MAP-4-2 -/
theorem test_map_4_prg :
    [0x8000, 0xA000, 0xC000, 0xE000].map (fun a => prgOffset (mmc3Cart false) a / 8192) = [4, 9, 30, 31] ∧
    [0x8000, 0xA000, 0xC000, 0xE000].map (fun a => prgOffset (mmc3Cart true) a / 8192) = [30, 9, 4, 31] := by
  decide +kernel

/-- MAP-66-1 -/
theorem test_map_66 :
    let c := controlWrite { Cartridge.empty with prgBanks := 4, chrBanks := 4, mapper := .gxrom 0 0 } 0x8000 0x13
    (c.mapper, prgOffset c 0x8000, chrOffset c 0x0000) = (.gxrom 1 3, 0x8000, 0x6000) := rfl

/-- An iNES image shorter than its header says is refused by the loader (spec/64_cartridge.md R231). -/
theorem test_ines_truncated :
    (match loadINes [0x4E, 0x45, 0x53, 0x1A, 1, 1, 0, 0, 0, 0, 0, 0, 0, 0, 0, 0] with
      | .ok _ => false
      | .error _ => true) = true := by decide +kernel

/-- The first step after `withFetchWord` runs the instruction placed (`LDA #$80`, row A9). -/
theorem test_withFetchWord :
    (match step (State.reset.withFetchWord 16 0x80A9) with
      | .next t => some (t.cpu.a, t.cpu.cyclesRemaining)
      | _ => none) = some (0x80, 1) := by decide +kernel

/-! Witnesses: for each obligation with hypotheses, values that meet them together, at the edges of their ranges. -/

theorem test_witness_DecodeOfEncode :
    Instr.wf (.lda (.mem (.zpx 0xFF))) = true ∧ Instr.wf (.unlisted 0xFF) = true := by decide

theorem test_witness_EncodeOfDecode :
    decode [0x9D, 0x00, 0x02, 0xFF] = .ok (.sta (.abx 0x0200), [0xFF]) := rfl

/-- `LDA $02F0,X` at 0x8000, a tick before its fetch. -/
def fetching : State := machineAt 0x8000 [0xBD, 0xF0, 0x02] 0 0x10 0 0xFD 0x24 [(0x0300, 0x22)]

theorem test_witness_StepRunsDecodedInstruction :
    fetching.cpu.refused = none ∧ AtFetch (tickBefore fetching) ∧
    (∀ k, k < 3 → IsMemory ((tickBefore fetching).cpu.pc + BitVec.ofNat 16 k)) ∧
    decode [peek (tickBefore fetching) (tickBefore fetching).cpu.pc,
      peek (tickBefore fetching) ((tickBefore fetching).cpu.pc + 1),
      peek (tickBefore fetching) ((tickBefore fetching).cpu.pc + 2)] =
        .ok (.lda (.mem (.abx 0x02F0)), []) := by
  unfold AtFetch IsMemory
  decide +kernel

/-- A fetch at the top of memory wraps to 0x0000; a masked request is pending. -/
theorem test_witness_StepRunsDecodedInstruction_wrap :
    let s := machineAt 0xFFFF [0xA9, 0x01] 0 0 0 0xFD 0x24 []
    let t := { s with cpu := { s.cpu with irqPending := true } }
    t.cpu.refused = none ∧ AtFetch (tickBefore t) ∧
    (∀ k, k < 2 → IsMemory ((tickBefore t).cpu.pc + BitVec.ofNat 16 k)) ∧
    peek (tickBefore t) (tickBefore t).cpu.pc = 0xA9 := by
  unfold AtFetch IsMemory
  decide +kernel

/-- A cycle of each other kind is a step's too: a window's, a stall's, an NMI's entry and an IRQ's entry, by the cycles
and the stall left after it (spec/60_exceptions.md R150, spec/61_bus.md R169). -/
theorem test_step_other_cycles :
    let after (s : State) : Option (Nat × Nat) :=
      match step s with
      | .next t => some (t.cpu.cyclesRemaining, t.cpu.stallRemaining)
      | _ => none
    after State.reset = some (6, 0) ∧ after (atNop 0x20 true true 2) = some (0, 1) ∧
    after (atNop 0x24 true false 0) = some (7, 0) ∧ after (atNop 0x20 false true 0) = some (7, 0) := by
  decide +kernel

def marked : State :=
  { State.reset with cpu := { State.reset.cpu with refused := some { opcode := 0xFF, address := 0xFFFF } } }

theorem test_witness_StepStopsOnlyOnRefusalMark :
    marked.cpu.refused = some { opcode := 0xFF, address := 0xFFFF } ∧ fetching.cpu.refused = none := by
  decide +kernel

theorem test_witness_UnlistedOpcodeRefuses :
    let s := machineAt 0xFFFF [0xFF] 0 0 0 0xFD 0x24 []
    s.cpu.refused = none ∧ AtFetch (tickBefore s) ∧ IsMemory (tickBefore s).cpu.pc ∧
    peek (tickBefore s) (tickBefore s).cpu.pc = 0xFF ∧ (0xFF : Byte) ∈ unlistedOpcodes := by
  unfold AtFetch IsMemory
  decide +kernel

theorem test_witness_WindowAndStallCycles :
    State.reset.cpu.refused = none ∧ State.reset.cpu.cyclesRemaining = 7 ∧
    ({ State.reset with cpu := { State.reset.cpu with cyclesRemaining := 1 } } : State).cpu.cyclesRemaining = 1 ∧
    (atNop 0x20 true true 1).cpu.refused = none ∧ (atNop 0x20 true true 1).cpu.cyclesRemaining = 0 ∧
    (atNop 0x20 true true 1).cpu.stallRemaining = 1 := by
  decide +kernel

theorem test_witness_NmiTaken :
    let s := atNop 0x25 true true 0
    s.cpu.refused = none ∧ s.cpu.cyclesRemaining = 0 ∧ s.cpu.stallRemaining = 0 ∧ s.cpu.nmiPending = true := by
  decide +kernel

theorem test_witness_IrqTaken :
    let s := atNop 0x20 false true 0
    s.cpu.refused = none ∧ s.cpu.cyclesRemaining = 0 ∧ s.cpu.stallRemaining = 0 ∧ s.cpu.nmiPending = false ∧
    s.cpu.irqPending = true ∧ flagI s.cpu.p = false := by decide +kernel

/-- The carries and the alternatives an instruction statement quantifies over. -/
theorem test_witness_AddSubtractResult :
    Instr.sbcAlias 0xFF = .sbcAlias 0xFF ∧ Source.imm 0xFF = .imm 0xFF ∧ Instr.sbc (.imm 0) = .sbc (.imm 0) :=
  ⟨rfl, rfl, rfl⟩

theorem test_witness_ShiftRotateResult (s : State) :
    (∃ i f, i = Instr.rol ∧ f = fun v : Byte => v <<< 1 ||| (BitVec.ofBool (flagC s.cpu.p)).setWidth 8) ∧
    (∃ i : Target → Instr, i = Instr.asl) ∧ (∃ i : Target → Instr, i = Instr.lsr) ∧
    ∃ i : Target → Instr, i = Instr.ror := by
  exact ⟨⟨_, _, rfl, rfl⟩, ⟨_, rfl⟩, ⟨_, rfl⟩, ⟨_, rfl⟩⟩

/-- Each branch's condition is true of one status and false of another. -/
theorem test_witness_BranchResult :
    [flagN, flagV, flagC, flagZ].map (fun f => f 0xE7) = [true, true, true, true] ∧
    [flagN, flagV, flagC, flagZ].map (fun f => f 0x24) = [false, false, false, false] := by decide

/-- The store at the edges of the regions that `Stored` names, and two aliases of one byte of RAM. -/
theorem test_witness_StoreResult :
    RamAlias 0x07FF 0x1FFF ∧ ¬ RamAlias 0x0000 0x0001 ∧ IsMemory 0x1FFF ∧ IsMemory 0x6000 ∧ IsMemory 0xFFFF ∧
    (0x6000 : Word).toNat ≤ (0x7FFF : Word).toNat ∧ (0x2000 : Word).toNat % 8 ≠ 7 ∧
    (0x3FFC : Word).toNat % 8 = 4 ∧ (0x2007 : Word).toNat % 8 = 7 := by
  unfold RamAlias IsMemory
  decide

/-- A store to OAMDMA stalls the CPU 513 cycles, or 514 on an odd cycle count; one beside it does not
(spec/61_bus.md R172). -/
theorem test_store_oamDma :
    let stall (a : Word) (n : Nat) : Option Nat :=
      match exec (.sta (.abs a)) { State.reset with cpu := { State.reset.cpu with a := 0x02, totalCycles := n } } with
      | .next t => some t.cpu.stallRemaining
      | _ => none
    stall 0x4014 4 = some 513 ∧ stall 0x4014 5 = some 514 ∧ stall 0x4015 5 = some 0 := by decide +kernel

theorem test_witness_FlagInstructionResult :
    Instr.clc ≠ .sec ∧ Instr.cld ≠ .sed ∧ ∃ i, i = Instr.sec ∧ true = true := by
  exact ⟨by decide, by decide, _, rfl, rfl⟩

/-- Each of the three sources, and no request queued. -/
theorem test_witness_InterruptDisableResult :
    let dmc := { State.reset with apu := { Apu.reset with dmc := { Dmc.reset with irq := true } } }
    let frame := { State.reset with apu := { Apu.reset with frame := { Apu.reset.frame with irq := true } } }
    let m := { Mmc3.reset with irqLine := true }
    let line := { State.reset with cart := { Cartridge.empty with mapper := .mmc3 m } }
    dmc.cpu.irqPending = false ∧ dmc.apu.dmc.irq = true ∧ Instr.cli ≠ .sei ∧
    (line.cart.mapper = .mmc3 m ∧ m.irqLine = true) ∧
    (frame.apu.frame.irq = true ∧ DmcReadsMemory frame.apu.dmc) := by
  unfold DmcReadsMemory
  decide +kernel

theorem test_witness_RamMirrored :
    (0x1FFF : Word).toNat ≤ 0x1FFF ∧ RamAlias 0x1FFF 0x07FF ∧ ¬ RamAlias 0x1FFF 0x2000 := by
  unfold RamAlias
  decide

/-- Both ends of each range of addresses, and of the devices. -/
theorem test_witness_UnmappedAccesses :
    [0x2000, 0x2001, 0x2003, 0x2005, 0x3FFE].all (fun a : Word =>
      decide (0x2000 ≤ a.toNat ∧ a.toNat ≤ 0x3FFF ∧
        (a.toNat % 8 = 0 ∨ a.toNat % 8 = 1 ∨ a.toNat % 8 = 3 ∨ a.toNat % 8 = 5 ∨ a.toNat % 8 = 6))) = true ∧
    [0x4000, 0x4014].all (fun a : Word => decide (0x4000 ≤ a.toNat ∧ a.toNat ≤ 0x4014)) = true ∧
    [0x4018, 0x5FFF].all (fun a : Word => decide (0x4018 ≤ a.toNat ∧ a.toNat ≤ 0x5FFF)) = true ∧
    [0x2002, 0x3FFA].all (fun a : Word =>
      decide (0x2000 ≤ a.toNat ∧ a.toNat ≤ 0x3FFF ∧ a.toNat % 8 = 2)) = true ∧
    [0x0000, 0x1FFF, 0x2000, 0x4017, 0x4018, 0x5FFF, 0x6000, 0xFFFF].map
      (fun a => (PutOut a 0 State.reset).length) = [0, 0, 1, 1, 0, 0, 1, 1] := by decide

theorem test_witness_ReadSideEffects :
    (0x3FFA : Word).toNat % 8 = 2 ∧ (0x3FFA : Word).toNat ≤ 0x3FFF ∧ (0x4015 : Word).toNat = 0x4015 ∧
    (0x4016 : Word).toNat = 0x4016 ∧ (0x4017 : Word).toNat = 0x4017 ∧ State.reset.bus.strobe = false ∧
    State.reset.params.zapperPresent = false ∧
    (let s := (busWrite 0x4016 0x01 { State.reset with params := { Params.default with zapperPresent := true } })
     s.bus.strobe = true ∧ s.params.zapperPresent = true) ∧ 4 < 5 ∧
    [0x0000, 0x1FFF, 0x2000, 0x2004, 0x3FFE, 0x4000, 0x4014, 0x4018, 0xFFFF].all (fun a : Word =>
      decide ((a.toNat < 0x2000 ∨ 0x3FFF < a.toNat ∨ (a.toNat % 8 ≠ 2 ∧ a.toNat % 8 ≠ 7)) ∧
        a.toNat ≠ 0x4015 ∧ a.toNat ≠ 0x4016 ∧ a.toNat ≠ 0x4017)) = true := by decide

/-- A read-only read of a port with the strobe high gives the fresh latch and keeps the old one
(spec/20_memory.md R48). -/
theorem test_read_only_port :
    let s := { State.reset with bus := { State.reset.bus with strobe := true, shift1 := 0x02, shift2 := 0x04 } }
    busReadWith true 0x4016 s = ((busRead 0x4016 s).1, s) ∧ busReadWith true 0x4017 s = ((busRead 0x4017 s).1, s) ∧
    (busRead 0x4016 s).2.draws = 1 := ⟨rfl, rfl, rfl⟩

theorem test_witness_OamDmaCopiesPage :
    0 < 256 ∧ 255 < 256 ∧ (0x1F : Byte).toNat < 0x20 ∧ 0x60 ≤ (0x60 : Byte).toNat ∧ 0x60 ≤ (0xFF : Byte).toNat ∧
    State.reset.cpu.totalCycles % 2 = 0 := by decide

/-- A write of an odd byte to 0x4016 leaves the strobe high; a Zapper may be present. -/
theorem test_witness_ControllerReadsButtons :
    (busWrite 0x4016 0x01 State.reset).bus.strobe = true ∧
    ({ State.reset with params := { Params.default with zapperPresent := true } } : State).params.zapperPresent
      = true := ⟨rfl, rfl⟩

/-- Both ends of each register's mirrors, and both values of the write toggle. -/
theorem test_witness_ScrollAndAddressWrites :
    [(0, 0x2000, 0x3FF8), (1, 0x2001, 0x3FF9), (3, 0x2003, 0x3FFB), (4, 0x2004, 0x3FFC), (5, 0x2005, 0x3FFD),
      (6, 0x2006, 0x3FFE)].all (fun (r : Nat × Word × Word) =>
        decide (0x2000 ≤ r.2.1.toNat ∧ r.2.1.toNat % 8 = r.1 ∧ r.2.2.toNat ≤ 0x3FFF ∧ r.2.2.toNat % 8 = r.1)) = true ∧
    State.reset.ppu.w = false ∧ (busWrite 0x2005 0 State.reset).ppu.w = true := by decide +kernel

/-- Both ends of the port's addresses; the last address of the palette, of the nametables and of CHR RAM. -/
theorem test_witness_PpuDataAccess :
    [0x2007, 0x3FFF].all (fun a : Word => decide (0x2000 ≤ a.toNat ∧ a.toNat ≤ 0x3FFF ∧ a.toNat % 8 = 7)) = true ∧
    0x3F00 ≤ (BitVec.ofNat 14 (0x7FFF : BitVec 15).toNat).toNat ∧
    (BitVec.ofNat 14 (0x7EFF : BitVec 15).toNat).toNat = 0x3EFF ∧
    (BitVec.ofNat 14 (0x5FFF : BitVec 15).toNat).toNat = 0x1FFF ∧
    ({ Cartridge.empty with chrBanks := 0 } : Cartridge).chrBanks = 0 := by decide

/-- Addresses of one cell and of different cells, in the palette and in the nametables. -/
theorem test_witness_PpuMemoryAliases :
    (0x3F00 ≤ (0x3F10 : PpuAddr).toNat ∧ 0x3F00 ≤ (0x3FE0 : PpuAddr).toNat ∧ (0x3F10 : PpuAddr).toNat % 16 = (0x3FE0 : PpuAddr).toNat % 16 ∧
      (0x3F10 : PpuAddr).toNat % 4 = 0 ∧ (0x3FE0 : PpuAddr).toNat % 4 = 0) ∧
    ((0x2000 : PpuAddr).toNat % 1024 = (0x2400 : PpuAddr).toNat % 1024 ∧ (0x2400 : PpuAddr).toNat < 0x3F00) ∧
    (0x3F11 : PpuAddr).toNat % 32 ≠ (0x3F01 : PpuAddr).toNat % 32 ∧ (0x3EFF : PpuAddr).toNat % 1024 ≠ 0 := by decide

theorem test_witness_VblankAndNmiEdge :
    let p := { Ppu.reset [] [] [] [] with scanline := 241, dot := 1, ctrl := 0x80 }
    let q := { Ppu.reset [] [] [] [] with dot := 1 }
    p.scanline = 241 ∧ p.dot = 1 ∧ p.ctrl.getLsbD 7 = true ∧ q.scanline = -1 ∧ q.dot = 1 := by decide

theorem test_witness_CursorAdvances :
    let p := { Ppu.reset [] [] [] [] with scanline := 260, dot := 340 }
    p.scanline ≤ 260 ∧ -1 ≤ p.scanline ∧ p.dot ≤ 340 ∧ Params.default.oddFrameSkip = false := by decide

/-- The last dot of the pre-render line of an odd frame, with the skip, without it, and with rendering disabled
(spec/62_ppu.md R195, D27). -/
theorem test_odd_frame_skip :
    let after (skip : Bool) (mask : Byte) : Int × Nat :=
      let q := (ppuDot { Params.default with oddFrameSkip := skip } Cartridge.empty
        { Ppu.reset [] [] [] [] with dot := 340, mask, oddFrame := true }).2
      (q.scanline, q.dot)
    after true 0x08 = (0, 1) ∧ after false 0x08 = (0, 0) ∧ after true 0x00 = (0, 0) := by decide +kernel

/-- Each kind of dot with rendering enabled, at the ends of its range, and a dot of none of them. -/
theorem test_witness_ScrollUpdates :
    let p := { Ppu.reset [] [] [] [] with scanline := 239, mask := 0x10 }
    let q := { p with scanline := -1, mask := 0x08 }
    (-1 ≤ p.scanline ∧ p.scanline ≤ 239 ∧ p.mask.getLsbD 4 = true) ∧
    (-1 ≤ q.scanline ∧ q.scanline ≤ 239 ∧ q.mask.getLsbD 3 = true) ∧
    [8, 248, 328, 336].all (fun d =>
      let r := { p with dot := d }
      decide (r.dot % 8 = 0 ∧ (8 ≤ r.dot ∧ r.dot ≤ 248 ∨ 328 ≤ r.dot ∧ r.dot ≤ 336))) = true ∧
    ({ p with dot := 256 }.dot = 256 ∧ { p with dot := 257 }.dot = 257) ∧
    [280, 304].all (fun d =>
      let r := { q with dot := d }
      decide (r.scanline = -1 ∧ 280 ≤ r.dot ∧ r.dot ≤ 304)) = true ∧
    (let r := { q with dot := 320 }
     ¬ (r.dot % 8 = 0 ∧ (8 ≤ r.dot ∧ r.dot ≤ 248 ∨ 328 ≤ r.dot ∧ r.dot ≤ 336)) ∧ r.dot ≠ 256 ∧ r.dot ≠ 257 ∧
       ¬ (r.scanline = -1 ∧ 280 ≤ r.dot ∧ r.dot ≤ 304)) := by decide

/-- Both ends of the visible lines, with rendering enabled and disabled. -/
theorem test_witness_SpriteEvaluation :
    let p := { Ppu.reset [] [] [] [] with scanline := 0, dot := 256, mask := 0x08 }
    let q := { p with scanline := 239, mask := 0 }
    (0 ≤ p.scanline ∧ p.scanline ≤ 239 ∧ p.dot = 256 ∧ p.mask.getLsbD 3 = true) ∧
    (0 ≤ q.scanline ∧ q.scanline ≤ 239 ∧ q.dot = 256 ∧ q.mask.getLsbD 3 = false ∧ q.mask.getLsbD 4 = false) := by
  decide

/-- The dots of the sprite fetch and of the units' counting, at the ends of their ranges. -/
theorem test_witness_SpriteEvaluation_units :
    let p := { Ppu.reset [] [] [] [] with scanline := 239, dot := 320, mask := 0x10 }
    (p.dot = 320 ∧ 0 ≤ p.scanline ∧ p.scanline ≤ 239 ∧ p.mask.getLsbD 4 = true) ∧
    ({ p with mask := 0 }.mask.getLsbD 3 = false ∧ { p with mask := 0 }.mask.getLsbD 4 = false) ∧
    { p with scanline := -1 }.scanline = -1 ∧ ({ p with dot := 2 }.dot ≠ 320 ∧ 2 ≤ 2 ∧ 257 ≤ 257) ∧
    ({ p with scanline := 240 }.scanline ≠ -1 ∧ ¬ { p with scanline := 240 }.scanline ≤ 239) := by decide

/-- The sprite fetch: tile 2, row 1 of an 8 x 8 sprite flipped both ways, from the table of PPUCTRL bit 3 at 0x1000:
row 6 at 0x1026 and 0x102E (spec/62_ppu.md R201). -/
theorem test_sprite_fetch :
    let p := { Ppu.reset [] [] [] [] with
      scanline := 11, dot := 320, mask := 0x10, ctrl := 0x08, spriteCount := 1, sprite0Next := true
      secOam := (Vector.replicate 8 (⟨0, 0, 0, 0⟩ : SpriteEntry)).set 0 { y := 10, tile := 2, attr := 0xC1, x := 0x40 } }
    let c := { Cartridge.empty with chrBanks := 0, chr := [(0x1026, 0x01), (0x102E, 0xC0)] }
    let q := (ppuDot Params.default c p).2
    q.sprites[0] = { lo := 0x80, hi := 0x03, x := 0x40, attr := 0xC1 } ∧ q.sprCount = 1 ∧ q.sprite0Line = true := by
  decide +kernel

/-- A dot at which the hit is set, an opaque sprite 0 over an opaque background, and the pixel it puts out. -/
theorem test_witness_SpriteZeroHitConditions :
    let p := { Ppu.reset [] [] [] [] with
      scanline := 239, dot := 255, mask := 0x1E, bgLo := 0xFFFF, sprCount := 1, sprite0Line := true
      palette := [(1, 0x0A), (17, 0x25)]
      sprites := (Vector.replicate 8 (⟨0, 0, 0, 0⟩ : SpriteUnit)).set 0 ⟨0xFF, 0, 0, 0⟩ }
    let q := (ppuDot Params.default Cartridge.empty p).2
    q.sprite0Hit = true ∧ q.framebuffer = [(239 * 256 + 254, 0x25)] := by decide +kernel

/-- Neither hit nor sprite at the last column's dot without sprites, and the flag's clear at (-1, 1). -/
theorem test_witness_SpriteZeroHitConditions_edges :
    let p := { Ppu.reset [] [] [] [] with scanline := 0, dot := 1, mask := 0x0A, bgLo := 0x8000, palette := [(1, 0x0A)] }
    let q := { Ppu.reset [] [] [] [] with dot := 1, sprite0Hit := true }
    (ppuDot Params.default Cartridge.empty p).2.framebuffer = [(0, 0x0A)] ∧
    (ppuDot Params.default Cartridge.empty q).2.sprite0Hit = false := by decide +kernel

theorem test_witness_DotFrame :
    let p := { Ppu.reset [] [] [] [] with scanline := 239, dot := 260, mask := 0x10 }
    (0 ≤ p.scanline ∧ p.scanline ≤ 239 ∧ p.dot = 260 ∧ p.mask.getLsbD 4 = true) ∧
    ((Ppu.reset [] [] [] []).mask.getLsbD 3 = false ∧ (Ppu.reset [] [] [] []).mask.getLsbD 4 = false) := by decide

/-- The fetches of a window, for the tile at column 2, row 3 (address 0x2062, attribute 0x23C0 shifted by 6), and the
shifters at its first dot and at dot 257 (spec/62_ppu.md R197). -/
theorem test_background_fetch :
    let p := { Ppu.reset [(0x62, 0x05), (0x3C0, 0x9B)] [] [] [] with
      scanline := 0, mask := 0x08, v := 0x0062, ntLatch := 5, atLatch := 1, loLatch := 0xAA, bgLo := 0x1234 }
    let c := { Cartridge.empty with chrBanks := 0, chr := [(0x50, 0x11), (0x58, 0x22)] }
    let q (n : Nat) : Ppu := (ppuDot Params.default c { p with dot := n }).2
    (q 1).ntLatch = 0x05 ∧ (q 3).atLatch = 2 ∧ (q 5).loLatch = 0x11 ∧ (q 7).hiLatch = 0x22 ∧ (q 1).bgLo = 0x12AA ∧
    (q 2).bgLo = 0x2468 ∧ (q 257).bgLo = 0x24AA ∧ (q 257).atLo = 0x00FF ∧ (q 258).bgLo = 0x1234 := by decide +kernel

theorem test_witness_FrameIrqTiming :
    Apu.reset.frame.counter = 0 ∧ Apu.reset.frame.irq = false ∧ Apu.reset.frame.fiveStep = false ∧
    Apu.reset.frame.inhibit = false ∧ (apuWriteFrame Apu.reset 0x80).frame.fiveStep = true ∧
    (apuWriteFrame Apu.reset 0x80).frame.counter = 0 ∧ (apuWriteFrame Apu.reset 0x80).frame.irq = false ∧
    (0x7F : Byte).getLsbD 7 = false ∧ (0x80 : Byte).getLsbD 7 = true := by
  decide +kernel

/-- A count one before each kind of event: a quarter-frame steps the envelopes, a half-frame the lengths too, and
every other cycle neither. -/
theorem test_witness_FrameIrqTiming_events :
    let a := apuWrite (apuWrite Apu.reset 0x4015 0x08) 0x400F 0x18
    let at' (n : Nat) (five : Bool) : Apu := { a with frame := { a.frame with counter := n, fiveStep := five } }
    [(7456, false), (22370, true), (14912, true), (29828, false), (37280, true), (29828, true), (37280, false)].map
      (fun r => let b := frameStep (at' r.1 r.2); (b.noise.env.decay, b.noise.length)) =
    [(15, 2), (15, 2), (15, 1), (15, 1), (15, 1), (0, 2), (0, 2)] := by decide +kernel

/-- The frame counter and IRQ around the end of each sequence (spec/63_apu.md R216). -/
theorem test_witness_FrameIrqTiming_ends :
    [(29826, false), (29827, false), (29828, false), (29829, false), (29829, true), (37281, true)].map
      (fun (r : Nat × Bool) =>
        let b := frameStep { Apu.reset with frame := { Apu.reset.frame with counter := r.1, fiveStep := r.2 } }
        (b.frame.counter, b.frame.irq)) =
    [(29827, false), (29828, true), (29829, true), (0, true), (29830, false), (0, false)] := by decide +kernel

/-- The output unit's timer running and at 0, in the middle of a byte and at its last bit, with the buffer full and
empty (spec/63_apu.md R225): the level rises by 2, the timer takes its rate, and the buffer moves. -/
theorem test_witness_DmcReaderFetch_output :
    let m := { Dmc.reset with timer := 0, bits := 8, shift := 0x03, silence := false, rateIndex := 15, level := 5 }
    let last := { m with bits := 1, buffer := 0xA5, bufferEmpty := false }
    m.timer.toNat = 0 ∧ 1 ≤ m.bits ∧ 1 ≤ last.bits ∧ ({ m with timer := 1 } : Dmc).timer.toNat ≠ 0 ∧
    (let r := dmcTimer m; (r.timer, r.level, r.shift, r.bits) = (53, 7, 1, 7)) ∧
    (let r := dmcTimer last; (r.shift, r.bits, r.silence, r.bufferEmpty) = (0xA5, 8, false, true)) ∧
    (let r := dmcTimer { last with bufferEmpty := true }; (r.shift, r.silence) = (0x01, true)) := by decide +kernel

/-- The reader idle, in the middle of a sample at 0xFFFF, and at its end with and without the loop; a write to 0x4015
that stops the sample, starts it, and finds it running. -/
theorem test_witness_DmcReaderFetch :
    let dmc (n : BitVec 12) (loop : Bool) := { Dmc.reset with curAddr := 0xFFFF, remaining := n, loop }
    Dmc.reset.remaining.toNat = 0 ∧ (dmc 2 false).bufferEmpty = true ∧ (dmc 2 false).remaining.toNat ≠ 1 ∧
    (dmc 2 false).remaining.toNat ≠ 0 ∧ IsMemory (dmc 2 false).curAddr ∧ (dmc 1 true).loop = true ∧
    (dmc 1 true).remaining.toNat = 1 ∧ (dmc 1 false).loop = false ∧ (0x0F : Byte).getLsbD 4 = false ∧
    (0x10 : Byte).getLsbD 4 = true := by
  unfold IsMemory
  decide

/-- The last silent value of each condition, and a channel of each kind that sounds. -/
theorem test_witness_ChannelOutputRanges :
    Apu.reset.pulse1.length.toNat = 0 ∧ Apu.reset.pulse2.length.toNat = 0 ∧ Apu.reset.noise.length.toNat = 0 ∧
    ({ Pulse.reset with period := 7 } : Pulse).period.toNat < 8 ∧
    ({ Triangle.reset with period := 1 } : Triangle).period.toNat < 2 ∧
    pulseOut true { Pulse.reset with period := 8, length := 1, seq := 1, env := { Envelope.reset with decay := 9 } } = 9 ∧
    triangleOut { Triangle.reset with period := 2, seq := 31 } = 15 ∧
    noiseOut { Noise.reset with length := 1, lfsr := 2, env := { Envelope.reset with constant := true, volume := 7 } } = 7 := by
  decide +kernel

/-- A timer at 0 and at its last value, and the registers' numbers at both ends. -/
theorem test_witness_ChannelOutputRanges_timers :
    ({ Pulse.reset with timer := 0 } : Pulse).timer.toNat = 0 ∧ ({ Pulse.reset with timer := 0x7FF } : Pulse).timer.toNat ≠ 0 ∧
    (0 < 4 ∧ 3 < 4) ∧ Apu.reset.apuCycle % 2 = 0 ∧ ({ Apu.reset with apuCycle := 1 } : Apu).apuCycle % 2 ≠ 0 ∧
    (BitVec.ofNat 16 (0x4004 + 3) : Word) = 0x4007 := by decide

/-- Both ends of the ROM's addresses, of the CHR addresses, and a cartridge with each mapper. -/
theorem test_witness_PrgOffsetInRange :
    1 ≤ Cartridge.empty.prgBanks ∧ 0x8000 ≤ (0x8000 : Word).toNat ∧ 0x8000 ≤ (0xFFFF : Word).toNat ∧
    0 < 0x2000 ∧ 0x1FFF < 0x2000 ∧ Cartridge.empty.mapper = .nrom ∧ mmc1Cart.mapper = .mmc1 Mmc1.reset ∧
    ({ Cartridge.empty with mapper := .uxrom 0xFF } : Cartridge).mapper = .uxrom 0xFF ∧
    ({ Cartridge.empty with mapper := .cnrom 0xFF } : Cartridge).mapper = .cnrom 0xFF ∧
    ({ Cartridge.empty with mapper := .mmc3 Mmc3.reset } : Cartridge).mapper = .mmc3 Mmc3.reset ∧
    ({ Cartridge.empty with mapper := .gxrom 3 3 } : Cartridge).mapper = .gxrom 3 3 := by decide +kernel

theorem test_witness_Mmc1SerialLoad :
    mmc1Cart.mapper = .mmc1 Mmc1.reset ∧ Mmc1.reset.count = 0 ∧ 0x8000 ≤ (0x8000 : Word).toNat ∧
    (0x7F : Byte).getLsbD 7 = false ∧ (0x80 : Byte).getLsbD 7 = true ∧ (0x9FFF : Word).toNat < 0xA000 ∧
    0xE000 ≤ (0xFFFF : Word).toNat := by decide +kernel

/-- Both ends of each address range, even and odd; a counter that raises the line at its last tick. -/
theorem test_witness_Mmc3CounterRaisesLine :
    let m := { Mmc3.reset with irqReload := true, irqEnable := true, irqLatch := 0xFF }
    m.irqReload = true ∧ m.irqEnable = true ∧ m.irqLine = false ∧ m.irqLatch.toNat + 1 ≤ 256 ∧
    (mmc3Cart true).mapper = .mmc3 { Mmc3.reset with prgMode := true, r := (Mmc3.reset.r.set 6 4).set 7 9 } ∧
    [(0x8000, 0x9FFF), (0xA000, 0xBFFF), (0xC000, 0xDFFF), (0xE000, 0xFFFF)].all (fun (r : Word × Word) =>
      decide (0x8000 ≤ r.1.toNat ∧ r.1.toNat % 2 = 0 ∧ r.2.toNat % 2 = 1 ∧ r.1.toNat + 0x1FFF = r.2.toNat)) = true := by
  decide +kernel

/-- A state other than reset's that has the invariant and answers a next state. -/
theorem test_witness_InvariantKeptByStep : MachineInv fetching ∧ ∃ t, step fetching = .next t := by
  refine ⟨⟨by unfold StatusOk; decide +kernel, by unfold ParamsOk; decide +kernel,
    by unfold WindowOk; decide +kernel, by unfold CursorOk; decide +kernel, by unfold SpritesOk; decide +kernel,
    by unfold ApuOk DmcReadsMemory; decide +kernel, ⟨by decide +kernel, fun m hm => ?_⟩, by unfold MemoriesWf; decide +kernel,
    by unfold MemoriesInRange; decide +kernel⟩, step_next_of_answersNext (by decide +kernel)⟩
  have h : fetching.cart.mapper = .nrom := by decide +kernel
  rw [h] at hm
  cases hm

theorem test_witness_StepKeepsConfiguration :
    fetching.cart.chrBanks ≠ 0 ∧ ∃ t, step fetching = .next t :=
  ⟨by decide +kernel, step_next_of_answersNext (by decide +kernel)⟩

theorem test_witness_StepCountsOneCycle : ∃ t, step fetching = .next t ∧ t.cpu.refused = none := by
  have h : (match step fetching with
      | .next t => t.cpu.refused.isNone
      | _ => false) = true := by decide +kernel
  split at h
  · exact ⟨_, ‹_›, by simpa using h⟩
  · cases h

/-- The resampler with no sample due, and with one due at exactly its period. -/
theorem test_witness_StepCountsOneCycle_resample :
    let p := State.reset.params
    let due := { State.reset with bus := { State.reset.bus with resampleAcc := p.cpuHz - p.sampleHz } }
    State.reset.bus.resampleAcc + p.sampleHz < p.cpuHz ∧ p.cpuHz ≤ due.bus.resampleAcc + p.sampleHz ∧
    (resample State.reset).samples.length = 0 ∧ (resample due).samples.length = 1 ∧
    (resample due).bus.resampleAcc = 0 := by decide +kernel

theorem test_witness_BusResetState :
    mmc1Cart.mapper = .mmc1 Mmc1.reset ∧ Cartridge.empty.mapper = .nrom := by decide +kernel

end Sys2Proof.Tests
end

section
/-! PROOFS. Loads, stores and transfers (spec/41_load_store_transfer.md R82 to R93).  First what holds of every
instruction of a shape (a register instruction, a read, a store), then the three statements. -/

namespace Sys2Proof.Proofs

open Sys2Proof.Machine Sys2Proof.Claims

/-! What a state keeps. -/

/-- The memories, the cartridge and the list of device writes are the same: everything that `SameMemory` and
`Stored` look at. -/
structure SameStores (s t : State) : Prop where
  ram : t.bus.ram = s.bus.ram
  cart : t.cart = s.cart
  vram : t.ppu.vram = s.ppu.vram
  palette : t.ppu.palette = s.ppu.palette
  oam : t.ppu.oam = s.ppu.oam
  deviceWrites : t.deviceWrites = s.deviceWrites

theorem SameStores.sameMemory {s t : State} (h : SameStores s t) : SameMemory s t :=
  ⟨fun _ ha => peek_memory_congr ha h.ram h.cart, fun _ => by rw [h.vram], fun _ => by rw [h.palette],
    fun _ => by rw [h.oam], fun _ => by rw [h.cart]⟩

theorem sameStores_of_sameDevices {s t : State} (h : SameDevices s t) : SameStores s t := by
  obtain ⟨hbus, hppu, -, hcart, -, -, -, hwrites⟩ := h
  exact ⟨by rw [hbus], hcart, by rw [hppu], by rw [hppu], by rw [hppu], hwrites⟩

theorem SameStores.trans {s t u : State} (h : SameStores s t) (h' : SameStores t u) : SameStores s u :=
  ⟨h'.ram.trans h.ram, h'.cart.trans h.cart, h'.vram.trans h.vram, h'.palette.trans h.palette, h'.oam.trans h.oam,
    h'.deviceWrites.trans h.deviceWrites⟩

/-- A read, whatever its side effect, writes no memory (spec/20_memory.md R48). -/
theorem sameStores_busRead (addr : Word) (s : State) : SameStores s (busRead addr s).2 := by
  constructor <;> simp

/-- A change of the CPU alone is none of the devices. -/
theorem sameDevices_setCpu (s : State) (c : Cpu) : SameDevices s { s with cpu := c } :=
  ⟨rfl, rfl, rfl, rfl, rfl, rfl, rfl, rfl⟩

theorem sameStores_setCpu (s : State) (c : Cpu) : SameStores s { s with cpu := c } :=
  sameStores_of_sameDevices (sameDevices_setCpu s c)

theorem sameStores_loadSource (src : Source) (s : State) : SameStores s (loadSource src s).2 := by
  cases src with
  | imm b => exact sameStores_setCpu s s.cpu
  | mem m =>
    rw [loadSource_mem]
    exact (sameStores_setCpu s _).trans (sameStores_busRead _ _)

/-! Where an operand lies, in the words of the laws of the operands. -/

@[simp] theorem locate_ea (m : MemOperand) (s : State) : (locate m s).1.ea = addressOf m s := rfl

@[simp] theorem locate_crossed (m : MemOperand) (s : State) :
    (locate m s).1.crossed = (effectiveAddress m s).1.crossed := rfl

@[simp] theorem locate_state (m : MemOperand) (s : State) : (locate m s).2 = s.setEA (addressOf m s) := by
  rw [locate_eq]

/-! The shapes. -/

/-- `NZ(v)` sets N and Z and no other flag (spec/00_scope.md R15). -/
theorem setsNZ_putNZ (p v : Byte) : SetsNZ p (putNZ p v) v := by
  simp [SetsNZ, ← BitVec.toNat_inj]

/-- An instruction that turns the CPU into `cpu` with the status `q`, and touches nothing else. -/
theorem completesRegs_of_finish {i : Instr} {s : State} {cpu : Cpu} {n : Nat} {q : Byte} {status : Byte → Prop}
    (hexec : exec i s = finish n { s with cpu := { cpu with p := q } }) (hstatus : status q) :
    CompletesRegs i s cpu n status :=
  ⟨_, hexec, rfl, hstatus, sameDevices_setCpu s _, (sameStores_setCpu s _).sameMemory, rfl⟩

/-- A read instruction whose action, with the operand `v`, turns the CPU into `cpu v` with the status `q v`, and
touches nothing else.  When the action runs, the CPU is that of `s` but for the latched address. -/
theorem completesRead_of_execRead {i : Instr} {src : Source} {s : State} {act : Byte → State → State}
    {cpu : Byte → Cpu} {q : Byte → Byte} {status : Byte → Byte → Prop}
    (hexec : exec i s = execRead src act s)
    (hact : ∀ v e (t : State), act v { t with cpu := { s.cpu with ea := e } } =
      { t with cpu := { cpu v with p := q v, ea := e } })
    (hea : ∀ v, (cpu v).ea = s.cpu.ea) (hstatus : ∀ v, status v (q v)) : CompletesRead i src s cpu status := by
  have hact_of_cpu : ∀ v e (t : State), t.cpu = { s.cpu with ea := e } →
      act v t = { t with cpu := { cpu v with p := q v, ea := e } } := fun v e t ht => by
    have h := hact v e t
    rw [← ht] at h
    exact h
  rw [execRead_eq] at hexec
  have hload := sameStores_loadSource src s
  cases src with
  | imm b =>
    rw [loadSource_imm, hact_of_cpu b s.cpu.ea s rfl, ← hea b] at hexec
    exact ⟨_, hexec, (sameStores_setCpu s _).sameMemory, rfl, rfl, hstatus b, sameDevices_setCpu s _⟩
  | mem m =>
    rw [loadSource_mem] at hexec hload
    rw [hact_of_cpu _ (addressOf m s) _ (by simp)] at hexec
    refine ⟨_, hexec, (hload.trans (sameStores_setCpu _ _)).sameMemory, ?_, ?_⟩
    · exact busRead_retired _ _
    · simp only [locate_ea, locate_crossed, locate_state]
      exact ⟨rfl, hstatus _, sameDevices_setCpu _ _⟩

/-! What a write stores. -/

/-- Writing one cell of CPU RAM writes the byte at every address of that cell, and no other. -/
theorem wrote_of_ram {a : Word} {v : Byte} {s t : State} (ha : a.toNat ≤ 0x1FFF)
    (hram : t.bus.ram = writeCell s.bus.ram (a.toNat % 2048) v) (hcart : t.cart = s.cart) :
    Wrote s t [(a, v)] := by
  intro b hb
  simp only [List.mem_singleton, forall_eq]
  by_cases hr : b.toNat ≤ 0x1FFF
  · rw [peek_ram hr, peek_ram hr, hram, readCell_writeCell]
    constructor
    · rintro ⟨-, -, h⟩
      exact if_pos h.symm
    · exact fun h => if_neg fun e => h ⟨ha, hr, e.symm⟩
  · rw [peek_cart_congr (hb.resolve_left hr) hcart]
    exact ⟨fun h => absurd h.2.1 hr, fun _ => rfl⟩

/-- Writing one cell of PRG RAM writes the byte at that address and at no other (spec/64_cartridge.md R232). -/
theorem peek_of_prgRam {a : Word} {v : Byte} {s t : State} (ha : 0x6000 ≤ a.toNat) (ha' : a.toNat ≤ 0x7FFF)
    (hram : t.bus.ram = s.bus.ram)
    (hcart : t.cart = { s.cart with prgRam := writeCell s.cart.prgRam (a.toNat - 0x6000) v }) {b : Word}
    (hb : IsMemory b) : peek t b = if b = a then v else peek s b := by
  by_cases hr : b.toNat ≤ 0x1FFF
  · have hne : b ≠ a := by rintro rfl; omega
    rw [if_neg hne, peek_ram hr, peek_ram hr, hram]
  have hb6 : 0x6000 ≤ b.toNat := hb.resolve_left hr
  by_cases hb7 : b.toNat ≤ 0x7FFF
  · have hcell : b.toNat - 0x6000 = a.toNat - 0x6000 ↔ b = a := by rw [← BitVec.toNat_inj]; omega
    rw [peek_prgRam hb6 hb7, peek_prgRam hb6 hb7, hcart, readCell_writeCell]
    simp only [hcell]
  · have hne : b ≠ a := by rintro rfl; omega
    rw [if_neg hne, peek_prg (by omega), peek_prg (by omega), hcart]
    rfl

/-- A bus write is a store.  It starts from `u`, which may differ from `s` where no store is seen (the latched
address, a read's side effects), and `t` may so differ from the state it leaves. -/
theorem stored_of_busWrite {a : Word} {v : Byte} {s u t : State} (hs : SameStores s u)
    (ht : SameStores (busWrite a v u) t) : Stored a v s t := by
  refine ⟨?_, fun ha => ?_, fun ha ha' b hb => ?_, fun ha _ => ?_, fun ha _ => ?_, fun _ => ?_, fun ha => ?_,
    fun ha ha' _ => ?_⟩
  · rw [ht.deviceWrites, busWrite_deviceWrites, hs.deviceWrites]
    simp only [PutOut, isDevice_iff]
  · rw [busWrite_ram ha] at ht
    refine wrote_of_ram ha ?_ (ht.cart.trans hs.cart)
    rw [ht.ram, ← hs.ram]
    rfl
  · have hcart : (busWrite a v u).cart = cartCpuWrite s.cart a v := by rw [busWrite_cartSpace ha, hs.cart]
    rw [cartCpuWrite, if_pos ha'] at hcart
    exact peek_of_prgRam ha ha' (by rw [ht.ram, busWrite_busRam (by omega), hs.ram]) (ht.cart.trans hcart) hb
  · rw [ht.ram, busWrite_busRam ha, hs.ram]
  · rw [ht.cart, (busWrite_prg a v u).2 ha, hs.cart]
  · rw [ht.cart, (busWrite_prg a v u).1, hs.cart]
  · obtain ⟨hvram, hpalette, hchr⟩ := busWrite_ppuMemories ha v u
    refine ⟨fun _ => ?_, fun _ => ?_, fun _ => ?_⟩
    · rw [ht.vram, hvram, hs.vram]
    · rw [ht.palette, hpalette, hs.palette]
    · rw [ht.cart, hchr, hs.cart]
  · rw [ht.oam, busWrite_oam ha ha', hs.oam]

/-- A store instruction of the byte `v`. -/
theorem completesStore_of_execStore {i : Instr} {m : MemOperand} {s : State} {v : Byte}
    (hexec : exec i s = execStore m v s) : CompletesStore i m s v := by
  rw [execStore_eq] at hexec
  simp only [CompletesStore, locate_ea, locate_state]
  have hdev : SameDevices (busWrite (addressOf m s) v (s.setEA (addressOf m s)))
      ((busWrite (addressOf m s) v (s.setEA (addressOf m s))).setCycles (storeCycles m)) :=
    sameDevices_setCpu _ _
  refine ⟨_, hexec, ?_, fun h => ?_, hdev, ?_, ?_⟩
  · exact congrArg (fun c : Cpu => { c with cyclesRemaining := storeCycles m }) (busWrite_cpu _ _ _)
  · exact busWrite_stall h _ _
  · exact stored_of_busWrite (sameStores_setCpu s _) (sameStores_of_sameDevices hdev)
  · exact busWrite_retired _ _ _

/-! The loads are of the shape of a read (spec/41_load_store_transfer.md R82 to R84). -/

theorem exec_lda (src : Source) (s : State) :
    exec (.lda src) s = execRead src (fun v s => (s.setA v).setNZ v) s := rfl

theorem exec_ldx (src : Source) (s : State) :
    exec (.ldx src) s = execRead src (fun v s => (s.setX v).setNZ v) s := rfl

theorem exec_ldy (src : Source) (s : State) :
    exec (.ldy src) s = execRead src (fun v s => (s.setY v).setNZ v) s := rfl

/-! The tables of encodings and cycles (spec/30_encoding.md R61). -/

theorem readCosts : ReadCosts := fun _ _ _ => ⟨rfl, rfl, rfl, rfl, rfl, rfl, rfl, rfl, rfl⟩

theorem storeCosts : StoreCosts := fun _ _ => ⟨rfl, rfl, rfl, rfl, rfl, rfl, rfl, rfl⟩

theorem lda_encodings : AccReadEncodings .lda 0xA9 0xA5 0xB5 0xAD 0xBD 0xB9 0xA1 0xB1 :=
  fun _ _ => ⟨rfl, rfl, rfl, rfl, rfl, rfl, rfl, rfl⟩

/-! The statements. -/

/-- Settles O12: the load is one bus read at the located address, and the action on the loaded byte writes the
register, N and Z alone. -/
theorem loadResult : Obligations.LoadResult := by
  refine ⟨readCosts, lda_encodings, fun _ _ => ⟨rfl, rfl, rfl, rfl, rfl, rfl, rfl, rfl, rfl, rfl⟩, fun src s => ?_⟩
  have hstatus : ∀ v, SetsNZ s.cpu.p (putNZ s.cpu.p v) v := setsNZ_putNZ s.cpu.p
  refine ⟨?lda, ?ldx, ?ldy⟩
  case lda => exact completesRead_of_execRead (exec_lda src s) (fun _ _ _ => rfl) (fun _ => rfl) hstatus
  case ldx => exact completesRead_of_execRead (exec_ldx src s) (fun _ _ _ => rfl) (fun _ => rfl) hstatus
  case ldy => exact completesRead_of_execRead (exec_ldy src s) (fun _ _ _ => rfl) (fun _ => rfl) hstatus

/-- Settles O13: the store is one bus write at the located address. -/
theorem storeResult : Obligations.StoreResult :=
  ⟨storeCosts, fun _ _ => ⟨rfl, rfl, rfl, rfl, rfl, rfl, rfl, rfl, rfl, rfl, rfl, rfl, rfl⟩, fun _ _ =>
    ⟨completesStore_of_execStore rfl, completesStore_of_execStore rfl, completesStore_of_execStore rfl⟩⟩

/-- Settles O14: each transfer changes the CPU alone; TXS keeps the status, the others apply `NZ` to it. -/
theorem transferResult : Obligations.TransferResult :=
  ⟨rfl, rfl, rfl, rfl, rfl, rfl, fun s =>
    ⟨completesRegs_of_finish rfl (setsNZ_putNZ s.cpu.p s.cpu.a),
      completesRegs_of_finish rfl (setsNZ_putNZ s.cpu.p s.cpu.a),
      completesRegs_of_finish rfl (setsNZ_putNZ s.cpu.p s.cpu.x),
      completesRegs_of_finish rfl (setsNZ_putNZ s.cpu.p s.cpu.y),
      completesRegs_of_finish rfl (setsNZ_putNZ s.cpu.p s.cpu.sp),
      completesRegs_of_finish (q := s.cpu.p) rfl rfl⟩⟩

end Sys2Proof.Proofs
end

section
/-! PROOFS. The stack instructions (spec/42_stack.md R94, R96).  First what holds of every instruction that pushes
one byte or pulls one byte, then the statement. -/

namespace Sys2Proof.Proofs

open Sys2Proof.Machine Sys2Proof.Claims

/-! One byte of the stack (spec/10_state.md R21). -/

theorem stackAddr_eq_ofNat (sp : Byte) : stackAddr sp = BitVec.ofNat 16 (0x0100 + sp.toNat) := by
  have := sp.isLt
  rw [← BitVec.toNat_inj, stackAddr_toNat, BitVec.toNat_ofNat]
  omega

theorem peek_stackAddr (sp : Byte) (s : State) :
    peek s (stackAddr sp) = readCell s.bus.ram (256 + sp.toNat) := by
  have hram : (stackAddr sp).toNat ≤ 0x1FFF := by
    have := sp.isLt
    rw [stackAddr_toNat]; omega
  rw [peek_ram hram, stackAddr_ram]

/-- A pull reads at the incremented SP (spec/00_scope.md R14). -/
theorem pull_eq_peek (s : State) :
    pull s = (peek s (stackAddr (s.cpu.sp + 1)), s.setSP (s.cpu.sp + 1)) := by
  rw [pull_eq, peek_stackAddr]

/-- What stores `v` in the RAM cell of the stack address writes that byte and no other. -/
theorem wrote_of_stackCell {sp v : Byte} {s t : State}
    (hram : t.bus.ram = writeCell s.bus.ram (256 + sp.toNat) v) (hcart : t.cart = s.cart) :
    Wrote s t [(stackAddr sp, v)] := by
  have := sp.isLt
  refine wrote_of_ram (by rw [stackAddr_toNat]; omega) ?_ hcart
  rw [stackAddr_ram, hram]

/-- An instruction that pushes `v` stores it at the stack address, decrements SP, and touches nothing else. -/
theorem completesPush {i : Instr} {s : State} {v : Byte} {n : Nat} (hexec : exec i s = finish n (push v s)) :
    ∃ t, exec i s = .next t ∧ t.cpu = { s.cpu with sp := s.cpu.sp - 1, cyclesRemaining := n } ∧
      Wrote s t [(stackAddr s.cpu.sp, v)] ∧ SameButRam s t ∧ t.retired = s.retired := by
  rw [push_eq] at hexec
  exact ⟨_, hexec, rfl, wrote_of_stackCell rfl rfl, ⟨rfl, rfl, rfl, rfl, rfl, rfl, rfl, rfl⟩, rfl⟩

/-! The instructions. -/

theorem exec_pha (s : State) : exec .pha s = finish 3 (push s.cpu.a s) := rfl

/-- PLA: `A` and `NZ` from the byte at the incremented SP (spec/42_stack.md R96). -/
theorem exec_pla (s : State) :
    exec .pla s =
      finish 4 (((s.setSP (s.cpu.sp + 1)).setA (peek s (stackAddr (s.cpu.sp + 1)))).setNZ
        (peek s (stackAddr (s.cpu.sp + 1)))) := by
  have hexec : exec .pla s = finish 4 (((pull s).2.setA (pull s).1).setNZ (pull s).1) := rfl
  rw [hexec, pull_eq_peek]

/-- Settles O15: PHA is a push of A; PLA changes the CPU alone, by the byte that its pull reads.  SP wraps because
its arithmetic is that of a byte. -/
theorem accumulatorPushPull : Obligations.AccumulatorPushPull := by
  refine ⟨rfl, rfl, fun s => ⟨?pha, ?pla⟩⟩
  case pha =>
    obtain ⟨t, hexec, hcpu, hwrote, hframe, hretired⟩ := completesPush (exec_pha s)
    have hsp : t.cpu.sp = s.cpu.sp - 1 := by rw [hcpu]
    have hwrap : (s.cpu.sp - 1).toNat = (s.cpu.sp.toNat + 255) % 256 := by
      rw [BitVec.toNat_sub, Nat.add_comm]; rfl
    rw [stackAddr_eq_ofNat] at hwrote
    exact ⟨t, hexec, by rw [hsp, hcpu], by rw [hsp, hwrap], hwrote, hframe, hretired⟩
  case pla =>
    refine ⟨_, exec_pla s, rfl, BitVec.toNat_add _ _, ?_, setsNZ_putNZ _ _, sameDevices_setCpu s _,
      (sameStores_setCpu s _).sameMemory, rfl⟩
    exact congrArg (peek s) (stackAddr_eq_ofNat _)

end Sys2Proof.Proofs
end

section
/-! PROOFS. Arithmetic, logic and compare (spec/43_arith_logic.md R99 to R107), and SBC's second opcode 0xEB
(spec/46_flags_nop.md R147).  Each instruction here is a read, so what remains is its arithmetic: first the signed
overflow, then the status bytes, then the statements. -/

namespace Sys2Proof.Proofs

open Sys2Proof.Machine Sys2Proof.Claims

/-! Bit 7 and the signed view (R98). -/

/-- Masking with `0x80` tests bit 7. -/
theorem and_signBit_ne_zero (x : Byte) : x &&& 0x80 ≠ 0 ↔ x.msb = true := by
  have hmask : (0x80 : Byte) = BitVec.twoPow 8 7 := rfl
  rw [hmask, BitVec.and_twoPow, BitVec.msb_eq_getLsbD_last]
  cases x.getLsbD 7 <;> decide

/-- The source's formula for V is signed overflow: the result's sign differs from that of both operands exactly when
the signed sum is out of range. -/
theorem addBytes_overflow_iff (a m : Byte) (c : Bool) :
    (addBytes a m c).overflow = true ↔
      a.toInt + m.toInt + c.toNat < -128 ∨ 127 < a.toInt + m.toInt + c.toNat := by
  have hformula : (addBytes a m c).overflow = true ↔
      a.msb ≠ (addBytes a m c).value.msb ∧ m.msb ≠ (addBytes a m c).value.msb := by
    have h := and_signBit_ne_zero ((a ^^^ (addBytes a m c).value) &&& (m ^^^ (addBytes a m c).value))
    rw [BitVec.msb_and, BitVec.msb_xor, BitVec.msb_xor, Bool.and_eq_true, bne_iff_ne, bne_iff_ne] at h
    exact decide_eq_true_iff.trans h
  have hsum := addBytes_value_toNat a m c
  have ha := a.isLt
  have hm := m.isLt
  have hc := Bool.toNat_le c
  rw [hformula, BitVec.msb_eq_decide, BitVec.msb_eq_decide, BitVec.msb_eq_decide, hsum,
    BitVec.toInt_eq_toNat_cond, BitVec.toInt_eq_toNat_cond]
  simp only [ne_eq, decide_eq_decide]
  omega

/-! The operand of a subtraction is the one's complement (R98). -/

theorem xor_allOnes_toNat (m : Byte) : (m ^^^ 0xFF).toNat = 255 - m.toNat := by
  have hnot : m ^^^ 0xFF = ~~~m := BitVec.xor_allOnes
  rw [hnot, BitVec.toNat_not]

theorem xor_allOnes_toInt (m : Byte) : (m ^^^ 0xFF).toInt = -m.toInt - 1 := by
  have := m.isLt
  rw [BitVec.toInt_eq_toNat_cond, BitVec.toInt_eq_toNat_cond, xor_allOnes_toNat]
  omega

theorem subBytes_value (a m : Byte) (c : Bool) :
    ((addBytes a (m ^^^ 0xFF) c).value.toNat : Int) = ((a.toNat : Int) - m.toNat - (1 - c.toNat)) % 256 := by
  have := m.isLt
  rw [addBytes_value_toNat, xor_allOnes_toNat]
  omega

/-- The carry of the complement's addition is the inverted borrow. -/
theorem subBytes_carry (a m : Byte) (c : Bool) :
    (addBytes a (m ^^^ 0xFF) c).carry = decide (m.toNat + 1 ≤ a.toNat + c.toNat) := by
  have := m.isLt
  rw [addBytes_carry, xor_allOnes_toNat, decide_eq_decide]
  omega

theorem subBytes_overflow_iff (a m : Byte) (c : Bool) :
    (addBytes a (m ^^^ 0xFF) c).overflow = true ↔
      a.toInt - m.toInt - (1 - c.toNat) < -128 ∨ 127 < a.toInt - m.toInt - (1 - c.toNat) := by
  rw [addBytes_overflow_iff, xor_allOnes_toInt]
  omega

/-- A byte difference is the integer difference modulo 256. -/
theorem sub_toNat_emod (r m : Byte) : ((r - m).toNat : Int) = ((r.toNat : Int) - m.toNat) % 256 := by
  have := m.isLt
  rw [BitVec.toNat_sub]
  omega

/-- The AND is zero exactly when no bit is set in both. -/
theorem and_eq_zero_iff (a m : Byte) :
    a &&& m = 0 ↔ ∀ k, k < 8 → ¬(a.getLsbD k = true ∧ m.getLsbD k = true) := by
  have hbit (k : Nat) : (a &&& m).getLsbD k = true ↔ a.getLsbD k = true ∧ m.getLsbD k = true := by
    rw [BitVec.getLsbD_and, Bool.and_eq_true]
  constructor
  · intro h k _ hk
    rw [← hbit, h] at hk
    simp at hk
  · intro h
    refine BitVec.eq_of_getLsbD_eq fun k hk => ?_
    rw [Bool.eq_false_iff.mpr (mt (hbit k).mp (h k hk))]
    simp

/-! The status bytes. -/

/-- Writing C and then `NZ(v)`, as the compares, shifts and rotates do. -/
theorem setsCNZ_putNZ_putC (p : Byte) (c : Bool) (v : Byte) : SetsCNZ p (putNZ (putC p c) v) c v := by
  simp [SetsCNZ, ← BitVec.toNat_inj]

/-- ADC and SBC write C, N, Z and, besides, V. -/
theorem setsCNZ_putAdd (p : Byte) (r : AddResult) :
    SetsCNZ (putV p (flagV (putAdd p r))) (putAdd p r) r.carry r.value := by
  simp [SetsCNZ, ← BitVec.toNat_inj]

/-! The instructions are of the shape of a read. -/

theorem exec_adc (src : Source) (s : State) : exec (.adc src) s = execRead src accumulateAdd s := rfl

theorem exec_sbc (src : Source) (s : State) : exec (.sbc src) s = execRead src accumulateSub s := rfl

theorem exec_sbcAlias (m : Byte) (s : State) :
    exec (.sbcAlias m) s = execRead (.imm m) accumulateSub s := rfl

theorem exec_and (src : Source) (s : State) :
    exec (.and src) s = execRead src (fun m s => (s.setA (s.cpu.a &&& m)).setNZ (s.cpu.a &&& m)) s := rfl

theorem exec_ora (src : Source) (s : State) :
    exec (.ora src) s = execRead src (fun m s => (s.setA (s.cpu.a ||| m)).setNZ (s.cpu.a ||| m)) s := rfl

theorem exec_eor (src : Source) (s : State) :
    exec (.eor src) s = execRead src (fun m s => (s.setA (s.cpu.a ^^^ m)).setNZ (s.cpu.a ^^^ m)) s := rfl

theorem exec_bit (o : MemOperand) (s : State) :
    exec (.bit o) s = execRead (.mem o) (fun m s => s.setP (putBitTest s.cpu.p s.cpu.a m)) s := rfl

theorem exec_cmp (src : Source) (s : State) :
    exec (.cmp src) s = execRead src (fun m s => s.setP (putCompare s.cpu.p s.cpu.a m)) s := rfl

theorem exec_cpx (src : Source) (s : State) :
    exec (.cpx src) s = execRead src (fun m s => s.setP (putCompare s.cpu.p s.cpu.x m)) s := rfl

theorem exec_cpy (src : Source) (s : State) :
    exec (.cpy src) s = execRead src (fun m s => s.setP (putCompare s.cpu.p s.cpu.y m)) s := rfl

/-! The statements. -/

/-- Settles O17: SBC, also as 0xEB, is the addition of the operand's complement, whose value, carry and overflow are
those of the subtraction. -/
theorem addSubtractResult : Obligations.AddSubtractResult := by
  refine ⟨readCosts, fun _ _ => ⟨rfl, rfl, rfl, rfl, rfl, rfl, rfl, rfl⟩,
    fun _ _ => ⟨rfl, rfl, rfl, rfl, rfl, rfl, rfl, rfl⟩, fun _ => rfl, fun s => ?_⟩
  refine ⟨fun m => (addBytes s.cpu.a m (flagC s.cpu.p)).value,
    fun m => (addBytes s.cpu.a (m ^^^ 0xFF) (flagC s.cpu.p)).value,
    fun m => addBytes_value_toNat _ m _, fun m => subBytes_value _ m _, fun src => ?adc, fun i src hi => ?sbc⟩
  case adc =>
    refine completesRead_of_execRead (q := fun m => putAdd s.cpu.p (addBytes s.cpu.a m (flagC s.cpu.p)))
      (exec_adc src s) (fun _ _ _ => rfl) (fun _ => rfl) fun m => ?_
    refine ⟨setsCNZ_putAdd s.cpu.p _, ?_, flagV_putAdd _ _⟩
    rw [flagV_putAdd, addBytes_overflow_iff]
  case sbc =>
    have hexec : exec i s = execRead src accumulateSub s := by
      obtain rfl | ⟨m, rfl, rfl⟩ := hi
      · exact exec_sbc src s
      · exact exec_sbcAlias m s
    refine completesRead_of_execRead (q := fun m => putAdd s.cpu.p (addBytes s.cpu.a (m ^^^ 0xFF) (flagC s.cpu.p)))
      hexec (fun _ _ _ => rfl) (fun _ => rfl) fun m => ?_
    refine ⟨?_, ?_, flagV_putAdd _ _⟩
    · rw [← subBytes_carry]
      exact setsCNZ_putAdd s.cpu.p _
    · rw [flagV_putAdd, subBytes_overflow_iff]

/-- Settles O18: the byte operations are bitwise, and the status is `NZ` of the result. -/
theorem logicResult : Obligations.LogicResult := by
  refine ⟨readCosts, fun _ _ => ⟨rfl, rfl, rfl, rfl, rfl, rfl, rfl, rfl⟩,
    fun _ _ => ⟨rfl, rfl, rfl, rfl, rfl, rfl, rfl, rfl⟩, fun _ _ => ⟨rfl, rfl, rfl, rfl, rfl, rfl, rfl, rfl⟩,
    fun s => ⟨(s.cpu.a &&& ·), (s.cpu.a ||| ·), (s.cpu.a ^^^ ·), fun _ _ _ => BitVec.getLsbD_and,
      fun _ _ _ => BitVec.getLsbD_or, fun _ _ _ => BitVec.getLsbD_xor, fun src => ?_⟩⟩
  have hstatus (f : Byte → Byte) : ∀ m, SetsNZ s.cpu.p (putNZ s.cpu.p (f m)) (f m) := fun _ => setsNZ_putNZ _ _
  refine ⟨?and, ?ora, ?eor⟩
  case and => exact completesRead_of_execRead (exec_and src s) (fun _ _ _ => rfl) (fun _ => rfl) (hstatus _)
  case ora => exact completesRead_of_execRead (exec_ora src s) (fun _ _ _ => rfl) (fun _ => rfl) (hstatus _)
  case eor => exact completesRead_of_execRead (exec_eor src s) (fun _ _ _ => rfl) (fun _ => rfl) (hstatus _)

/-- Settles O19: the action writes the status alone. -/
theorem bitResult : Obligations.BitResult := by
  refine ⟨readCosts, fun _ _ => ⟨rfl, rfl⟩, fun o s => ?_⟩
  refine completesRead_of_execRead (q := putBitTest s.cpu.p s.cpu.a) (exec_bit o s) (fun _ _ _ => rfl)
    (fun _ => rfl) fun m => ?_
  have hzero : flagZ (putBitTest s.cpu.p s.cpu.a m) = true ↔
      ∀ k, k < 8 → ¬(s.cpu.a.getLsbD k = true ∧ m.getLsbD k = true) := by
    rw [flagZ_putBitTest, decide_eq_true_iff, and_eq_zero_iff]
  exact ⟨hzero, flagN_putBitTest .., flagV_putBitTest .., flagC_putBitTest .., flagI_putBitTest ..,
    flagD_putBitTest .., flagB_putBitTest .., flagU_putBitTest ..⟩

/-- Settles O20: the action writes the status alone, from the unsigned comparison and the difference. -/
theorem compareResult : Obligations.CompareResult := by
  refine ⟨readCosts, fun _ _ => ⟨rfl, rfl, rfl, rfl, rfl, rfl, rfl, rfl⟩, fun _ _ => ⟨rfl, rfl, rfl⟩,
    fun _ _ => ⟨rfl, rfl, rfl⟩, fun src s => ⟨(· - ·), sub_toNat_emod, ?_⟩⟩
  have hstatus (r m : Byte) : SetsCNZ s.cpu.p (putCompare s.cpu.p r m) (decide (m.toNat ≤ r.toNat)) (r - m) :=
    setsCNZ_putNZ_putC _ _ _
  refine ⟨?cmp, ?cpx, ?cpy⟩
  case cmp => exact completesRead_of_execRead (exec_cmp src s) (fun _ _ _ => rfl) (fun _ => rfl) (hstatus s.cpu.a)
  case cpx => exact completesRead_of_execRead (exec_cpx src s) (fun _ _ _ => rfl) (fun _ => rfl) (hstatus s.cpu.x)
  case cpy => exact completesRead_of_execRead (exec_cpy src s) (fun _ _ _ => rfl) (fun _ => rfl) (hstatus s.cpu.y)

end Sys2Proof.Proofs
end

section
/-! PROOFS. Increment, decrement, shift and rotate (spec/44_incdec_shift.md R108 to R117).  First what holds of every
read-modify-write, on memory and on the accumulator, then the arithmetic of a shift, then the statements. -/

namespace Sys2Proof.Proofs

open Sys2Proof.Machine Sys2Proof.Claims

/-! The shape. -/

/-- A read-modify-write of memory by `f`, which leaves the status `put p v` of the old status and the old byte: one
bus read and one bus write at the located address (spec/40_addressing_modes.md R66). -/
theorem completesModify_of_execModify {i : Instr} {m : MemOperand} {s : State} {f : Byte → Byte}
    {put : Byte → Byte → Byte} {status : Byte → Byte → Prop} (hexec : exec i s = execModify (.mem m) f put s)
    (hstatus : ∀ v, status v (put s.cpu.p v)) : CompletesModify i m s f status := by
  rw [execModify_eq, modifyTarget_mem] at hexec
  have hread := (sameStores_setCpu s _).trans (sameStores_busRead (addressOf m s) (s.setEA (addressOf m s)))
  have hcpu : (busRead (addressOf m s) (s.setEA (addressOf m s))).2.cpu = { s.cpu with ea := addressOf m s } :=
    busRead_cpu _ _
  have hretired : (busRead (addressOf m s) (s.setEA (addressOf m s))).2.retired = s.retired := busRead_retired _ _
  simp only [CompletesModify, locate_ea, locate_state]
  generalize busRead (addressOf m s) (s.setEA (addressOf m s)) = r at hexec hread hcpu hretired ⊢
  obtain ⟨v, u⟩ := r
  have hwrite : (busWrite (addressOf m s) (f v) u).cpu =
      { s.cpu with
        ea := addressOf m s, stallRemaining := (busWrite (addressOf m s) (f v) u).cpu.stallRemaining } := by
    rw [busWrite_cpu, hcpu]
  have hp : (busWrite (addressOf m s) (f v) u).cpu.p = s.cpu.p := by rw [hwrite]
  dsimp only at hexec
  rw [hp] at hexec
  have hdev := sameDevices_setCpu (busWrite (addressOf m s) (f v) u)
  refine ⟨_, hexec, ?cpu, hstatus v, fun ha => ?stall, hdev _, ?stored, ?retired⟩
  case cpu =>
    exact congrArg (fun c : Cpu => { c with p := put s.cpu.p v, cyclesRemaining := modifyCycles (.mem m) }) hwrite
  case stall => exact (busWrite_stall ha _ _).trans (by rw [hcpu])
  case stored => exact stored_of_busWrite hread (sameStores_of_sameDevices (hdev _))
  case retired => exact (busWrite_retired _ _ _).trans hretired

/-- A read-modify-write of the accumulator changes the CPU alone. -/
theorem completesRegs_of_execModify {i : Instr} {s : State} {f : Byte → Byte} {put : Byte → Byte → Byte}
    {status : Byte → Prop} (hexec : exec i s = execModify .acc f put s) (hstatus : status (put s.cpu.p s.cpu.a)) :
    CompletesRegs i s { s.cpu with a := f s.cpu.a } 2 status :=
  completesRegs_of_finish hexec hstatus

/-- A shift or rotate, on either kind of target: `out` is the bit that goes to C. -/
theorem completesShift {i : Target → Instr} {s : State} {f : Byte → Byte} {out : Nat}
    (hexec : ∀ t, exec (i t) s = execModify t f (fun p v => putShift p (v.getLsbD out) (f v)) s) :
    CompletesRegs (i .acc) s { s.cpu with a := f s.cpu.a } 2
        (fun q => SetsCNZ s.cpu.p q (s.cpu.a.getLsbD out) (f s.cpu.a)) ∧
      ∀ m, CompletesModify (i (.mem m)) m s f (fun v q => SetsCNZ s.cpu.p q (v.getLsbD out) (f v)) :=
  ⟨completesRegs_of_execModify (hexec .acc) (setsCNZ_putNZ_putC _ _ _), fun m =>
    completesModify_of_execModify (hexec (.mem m)) fun _ => setsCNZ_putNZ_putC _ _ _⟩

theorem modifyCosts : ModifyCosts := fun _ _ => ⟨rfl, rfl, rfl, rfl, rfl⟩

/-! The arithmetic. -/

/-- Setting a bit that is clear adds its weight. -/
theorem or_bitAt_toNat {n k : Nat} (hk : k < n) {x : BitVec n} (hx : x.getLsbD k = false) (c : Bool) :
    (x ||| bitAt n k c).toNat = x.toNat + 2 ^ k * c.toNat := by
  cases c with
  | false => simp [bitAt]
  | true =>
    have hbit : bitAt n k true = BitVec.twoPow n k := rfl
    have hdisjoint : x &&& BitVec.twoPow n k = 0#n := by rw [BitVec.and_twoPow, hx]; rfl
    rw [hbit, ← BitVec.add_eq_or_of_and_eq_zero _ _ hdisjoint, BitVec.toNat_add_of_and_eq_zero hdisjoint,
      BitVec.toNat_twoPow_of_lt hk, Bool.toNat_true, Nat.mul_one]

theorem shiftLeft_toNat (c : Bool) (v : Byte) : (shiftLeft c v).toNat = (2 * v.toNat + c.toNat) % 256 := by
  have hclear : (v <<< 1).getLsbD 0 = false := by simp
  have hc := Bool.toNat_le c
  rw [shiftLeft, or_bitAt_toNat (by decide) hclear, BitVec.toNat_shiftLeft, Nat.shiftLeft_eq]
  omega

theorem shiftRight_toNat (c : Bool) (v : Byte) : (shiftRight c v).toNat = v.toNat / 2 + 128 * c.toNat := by
  have hclear : (v >>> 1).getLsbD 7 = false := by simp
  rw [shiftRight, or_bitAt_toNat (by decide) hclear, BitVec.toNat_ushiftRight, Nat.shiftRight_eq_div_pow]
  omega

/-- Incrementing a byte adds 1 modulo 256. -/
theorem add_one_toNat (v : Byte) : (v + 1).toNat = (v.toNat + 1) % 256 := BitVec.toNat_add v 1

/-- Decrementing a byte adds 255 modulo 256. -/
theorem sub_one_toNat (v : Byte) : (v - 1).toNat = (v.toNat + 255) % 256 := by
  rw [BitVec.toNat_sub, Nat.add_comm]
  rfl

/-! The instructions are of the shape of a read-modify-write. -/

theorem exec_inc (m : MemOperand) (s : State) :
    exec (.inc m) s = execModify (.mem m) (· + 1) (fun p v => putNZ p (v + 1)) s := rfl

theorem exec_dec (m : MemOperand) (s : State) :
    exec (.dec m) s = execModify (.mem m) (· - 1) (fun p v => putNZ p (v - 1)) s := rfl

theorem exec_asl (t : Target) (s : State) :
    exec (.asl t) s =
      execModify t (shiftLeft false) (fun p v => putShift p (v.getLsbD 7) (shiftLeft false v)) s := rfl

theorem exec_rol (t : Target) (s : State) :
    exec (.rol t) s =
      execModify t (shiftLeft (flagC s.cpu.p))
        (fun p v => putShift p (v.getLsbD 7) (shiftLeft (flagC s.cpu.p) v)) s := rfl

theorem exec_lsr (t : Target) (s : State) :
    exec (.lsr t) s =
      execModify t (shiftRight false) (fun p v => putShift p (v.getLsbD 0) (shiftRight false v)) s := rfl

theorem exec_ror (t : Target) (s : State) :
    exec (.ror t) s =
      execModify t (shiftRight (flagC s.cpu.p))
        (fun p v => putShift p (v.getLsbD 0) (shiftRight (flagC s.cpu.p) v)) s := rfl

/-! The statements. -/

/-- Settles O21: both are read-modify-writes of memory with the status `NZ` of the result. -/
theorem memoryIncrementDecrement : Obligations.MemoryIncrementDecrement := by
  refine ⟨modifyCosts, fun _ _ => ⟨rfl, rfl, rfl, rfl⟩, fun _ _ => ⟨rfl, rfl, rfl, rfl⟩, (· + 1), (· - 1),
    add_one_toNat, sub_one_toNat, fun m s => ⟨?inc, ?dec⟩⟩
  case inc => exact completesModify_of_execModify (exec_inc m s) fun v => setsNZ_putNZ s.cpu.p (v + 1)
  case dec => exact completesModify_of_execModify (exec_dec m s) fun v => setsNZ_putNZ s.cpu.p (v - 1)

/-- Settles O22: each changes the CPU alone, by a byte's addition or subtraction, with the status `NZ` of the
result. -/
theorem registerIncrementDecrement : Obligations.RegisterIncrementDecrement :=
  ⟨rfl, rfl, rfl, rfl, (· + 1), (· - 1), add_one_toNat, sub_one_toNat, fun s =>
    ⟨completesRegs_of_finish rfl (setsNZ_putNZ s.cpu.p (s.cpu.x + 1)),
      completesRegs_of_finish rfl (setsNZ_putNZ s.cpu.p (s.cpu.y + 1)),
      completesRegs_of_finish rfl (setsNZ_putNZ s.cpu.p (s.cpu.x - 1)),
      completesRegs_of_finish rfl (setsNZ_putNZ s.cpu.p (s.cpu.y - 1))⟩⟩

/-- Settles O23: a rotate is the shift with C as the bit shifted in. -/
theorem shiftRotateResult : Obligations.ShiftRotateResult := by
  refine ⟨modifyCosts, rfl, rfl, rfl, rfl, fun _ _ => ⟨rfl, rfl, rfl, rfl⟩, fun _ _ => ⟨rfl, rfl, rfl, rfl⟩,
    fun _ _ => ⟨rfl, rfl, rfl, rfl⟩, fun _ _ => ⟨rfl, rfl, rfl, rfl⟩, shiftLeft, shiftRight, shiftLeft_toNat,
    shiftRight_toNat, fun s => ⟨?left, ?right⟩⟩
  case left =>
    rintro i f (⟨rfl, rfl⟩ | ⟨rfl, rfl⟩)
    · exact completesShift fun t => exec_asl t s
    · exact completesShift fun t => exec_rol t s
  case right =>
    rintro i f (⟨rfl, rfl⟩ | ⟨rfl, rfl⟩)
    · exact completesShift fun t => exec_lsr t s
    · exact completesShift fun t => exec_ror t s

end Sys2Proof.Proofs
end

section
/-! PROOFS. Control transfer (spec/45_control_transfer.md R118 to R130).  First what holds of every branch, then how
the bytes of several stack writes add up, then the statements. -/

namespace Sys2Proof.Proofs

open Sys2Proof.Machine Sys2Proof.Claims

/-! The branches. -/

theorem branchTarget_crossed (next : Word) (offset : Byte) :
    (branchTarget next offset).crossed = crosses (branchTarget next offset).ea next := rfl

/-- A taken branch pays one cycle more where its target is in another page than the next instruction
(spec/45_control_transfer.md R118). -/
theorem branchCycles_taken (next : Word) (offset : Byte) :
    branchCycles true (branchTarget next offset).crossed =
      if (branchTarget next offset).ea.toNat / 256 = next.toNat / 256 then 3 else 4 := by
  rw [branchTarget_crossed]
  split
  case isTrue hpage => rw [Bool.eq_false_iff.mpr fun h => (crosses_iff _ _).mp h hpage]; rfl
  case isFalse hpage => rw [(crosses_iff _ _).mpr hpage]; rfl

/-- A branch changes the CPU alone. -/
theorem completesBranch_of_execBranch {i : Instr} {taken : Bool} {offset : Byte} {s : State}
    (hexec : exec i s = execBranch taken offset s) : CompletesBranch i taken offset s := by
  cases taken with
  | false =>
    exact ⟨_, hexec, rfl, nofun, fun _ => ⟨rfl, rfl⟩, sameDevices_setCpu s _, (sameStores_setCpu s _).sameMemory, rfl⟩
  | true =>
    exact ⟨_, hexec, rfl, fun _ => ⟨branchTarget_toNat _ _, branchCycles_taken _ _⟩, nofun, sameDevices_setCpu s _,
      (sameStores_setCpu s _).sameMemory, rfl⟩

/-! Several bytes of the stack. -/

/-- Two addresses of one byte are aliases of each other. -/
theorem ramAlias_of_common {a a' b : Word} (h : RamAlias a b) (h' : RamAlias a' b) : RamAlias a a' := by
  obtain ⟨ha, -, hcell⟩ := h
  obtain ⟨ha', -, hcell'⟩ := h'
  exact ⟨ha, ha', hcell.trans hcell'.symm⟩

/-- Stores of disjoint bytes, one after the other, store them all. -/
theorem wrote_append {s u t : State} {xs ys : List (Word × Byte)} (hx : Wrote s u xs) (hy : Wrote u t ys)
    (hdisjoint : ∀ x ∈ xs, ∀ y ∈ ys, ¬ RamAlias x.1 y.1) : Wrote s t (xs ++ ys) := by
  intro b hb
  obtain ⟨hxs, hxframe⟩ := hx b hb
  obtain ⟨hys, hyframe⟩ := hy b hb
  constructor
  · intro av hav halias
    rcases List.mem_append.mp hav with hmem | hmem
    · have hkept : ∀ y ∈ ys, ¬ RamAlias y.1 b := fun y hy' halias' =>
        hdisjoint av hmem y hy' (ramAlias_of_common halias halias')
      rw [hyframe hkept, hxs av hmem halias]
    · exact hys av hmem halias
  · intro hnone
    rw [hyframe fun y hmem => hnone y (List.mem_append_right xs hmem),
      hxframe fun x hmem => hnone x (List.mem_append_left ys hmem)]

/-- The addresses of the stack page are those of 256 different bytes (spec/10_state.md R21). -/
theorem ramAlias_stackAddr {sp sp' : Byte} (h : RamAlias (stackAddr sp) (stackAddr sp')) : sp = sp' := by
  obtain ⟨-, -, hcell⟩ := h
  rw [stackAddr_ram, stackAddr_ram] at hcell
  exact BitVec.eq_of_toNat_eq (Nat.add_left_cancel hcell)

/-- What stores a word in the two RAM cells from the stack address down, high byte first, writes those two bytes and
no other (spec/20_memory.md R44). -/
theorem wrote_of_stackWord {sp : Byte} {w : Word} {s t : State}
    (hram : t.bus.ram =
      writeCell (writeCell s.bus.ram (256 + sp.toNat) (hiByte w)) (256 + (sp - 1).toNat) (loByte w))
    (hcart : t.cart = s.cart) : Wrote s t [(stackAddr sp, hiByte w), (stackAddr (sp - 1), loByte w)] := by
  have hhi : Wrote s (s.setRam (256 + sp.toNat) (hiByte w)) [(stackAddr sp, hiByte w)] :=
    wrote_of_stackCell rfl rfl
  have hlo : Wrote (s.setRam (256 + sp.toNat) (hiByte w)) t [(stackAddr (sp - 1), loByte w)] :=
    wrote_of_stackCell hram hcart
  refine wrote_append hhi hlo ?_
  simp only [List.mem_singleton, forall_eq]
  intro halias
  have hsp := ramAlias_stackAddr halias
  bv_omega

/-- A pull of a word reads at the two addresses above SP, the low byte first. -/
theorem pullWord_eq_peek (s : State) :
    pullWord s =
      (mkWord (peek s (stackAddr (s.cpu.sp + 2))) (peek s (stackAddr (s.cpu.sp + 1))), s.setSP (s.cpu.sp + 2)) := by
  rw [pullWord_eq, peek_stackAddr, peek_stackAddr]

/-! The instructions. -/

/-- JMP indirect jumps to the word that its two bus reads give, the second in the pointer's own page
(spec/40_addressing_modes.md R78). -/
theorem exec_jmp_ind {p : Word} {lo hi : Byte} {s u u' : State} (hlo : busRead p s = (lo, u))
    (hhi : busRead (mkWord (hiByte p) (loByte p + 1)) u = (hi, u')) :
    exec (.jmp (.ind p)) s = finish 5 ((u'.setEA (mkWord hi lo)).setPC (mkWord hi lo)) := by
  have hexec : exec (.jmp (.ind p)) s =
      finish 5 (((indirectTarget p s).2.setEA (indirectTarget p s).1).setPC (indirectTarget p s).1) := rfl
  have htarget : indirectTarget p s = (mkWord hi lo, u') := by
    simp only [indirectTarget_eq, read16, hlo, hhi]
  rw [hexec, htarget]

theorem exec_jsr (target : Word) (s : State) :
    exec (.jsr target) s = finish 6 ((pushWord (s.cpu.pc - 1) (s.setEA target)).setPC target) := rfl

theorem exec_rts (s : State) : exec .rts s = finish 6 ((pullWord s).2.setPC ((pullWord s).1 + 1)) := rfl

/-! The statements. -/

/-- Settles O24: each branch is one on its own condition. -/
theorem branchResult : Obligations.BranchResult := fun _ _ =>
  ⟨rfl, rfl, rfl, rfl, rfl, rfl, rfl, rfl,
    completesBranch_of_execBranch rfl, completesBranch_of_execBranch rfl,
    completesBranch_of_execBranch rfl, completesBranch_of_execBranch rfl,
    completesBranch_of_execBranch rfl, completesBranch_of_execBranch rfl,
    completesBranch_of_execBranch rfl, completesBranch_of_execBranch rfl⟩

/-- Settles O25: the indirect form's two bus reads write no memory and leave the CPU as it was. -/
theorem jumpResult : Obligations.JumpResult := by
  refine fun w s => ⟨rfl, rfl, completesRegs_of_finish (q := s.cpu.p) rfl rfl, ?ind⟩
  obtain ⟨lo, u, hlo⟩ : ∃ lo u, busRead w s = (lo, u) := ⟨_, _, rfl⟩
  obtain ⟨hi, u', hhi⟩ : ∃ hi u', busRead (mkWord (hiByte w) (loByte w + 1)) u = (hi, u') := ⟨_, _, rfl⟩
  have hstores := (sameStores_busRead w s).trans (sameStores_busRead (mkWord (hiByte w) (loByte w + 1)) _)
  have hcpu := (busRead_cpu (mkWord (hiByte w) (loByte w + 1)) _).trans (busRead_cpu w s)
  have hretired := (busRead_retired (mkWord (hiByte w) (loByte w + 1)) _).trans (busRead_retired w s)
  rw [hlo, hhi] at hstores hcpu hretired
  refine ⟨lo, hi, u, u', _, hlo, hhi, exec_jmp_ind hlo hhi, ?cpu, sameDevices_setCpu u' _,
    (hstores.trans (sameStores_setCpu u' _)).sameMemory, hretired⟩
  exact congrArg (fun c : Cpu => { c with pc := mkWord hi lo, ea := mkWord hi lo, cyclesRemaining := 5 }) hcpu

/-- Settles O26: JSR pushes a word and RTS pulls one. -/
theorem callReturnResult : Obligations.CallReturnResult := by
  refine fun w s => ⟨rfl, rfl, ?jsr, ?rts⟩
  case jsr =>
    have hexec := exec_jsr w s
    rw [pushWord_eq] at hexec
    exact ⟨_, hexec, rfl, wrote_of_stackWord rfl rfl, ⟨rfl, rfl, rfl, rfl, rfl, rfl, rfl, rfl⟩, rfl⟩
  case rts =>
    have hexec := exec_rts s
    rw [pullWord_eq_peek] at hexec
    refine ⟨_, hexec, rfl, ?pc, sameDevices_setCpu s _, (sameStores_setCpu s _).sameMemory, rfl⟩
    exact (BitVec.toNat_add _ _).trans (by rw [mkWord_toNat]; rfl)

end Sys2Proof.Proofs
end

section
/-! PROOFS. The flag instructions and the official NOP (spec/46_flags_nop.md R133, R140).  First what each `put` of a
flag does to all eight flags, then the instructions, then the statement. -/

namespace Sys2Proof.Proofs

open Sys2Proof.Machine Sys2Proof.Claims

/-! Writing one flag leaves the other seven. -/

theorem putC_writes_flagC_alone (p : Byte) (b : Bool) :
    flagC (putC p b) = b ∧ flagZ (putC p b) = flagZ p ∧ flagI (putC p b) = flagI p ∧ flagD (putC p b) = flagD p ∧
      flagB (putC p b) = flagB p ∧ flagU (putC p b) = flagU p ∧ flagV (putC p b) = flagV p ∧
      flagN (putC p b) = flagN p :=
  ⟨flagC_putC p b, flagZ_putC p b, flagI_putC p b, flagD_putC p b, flagB_putC p b, flagU_putC p b, flagV_putC p b,
    flagN_putC p b⟩

theorem putV_writes_flagV_alone (p : Byte) (b : Bool) :
    flagV (putV p b) = b ∧ flagC (putV p b) = flagC p ∧ flagZ (putV p b) = flagZ p ∧ flagI (putV p b) = flagI p ∧
      flagD (putV p b) = flagD p ∧ flagB (putV p b) = flagB p ∧ flagU (putV p b) = flagU p ∧
      flagN (putV p b) = flagN p :=
  ⟨flagV_putV p b, flagC_putV p b, flagZ_putV p b, flagI_putV p b, flagD_putV p b, flagB_putV p b, flagU_putV p b,
    flagN_putV p b⟩

theorem putD_writes_flagD_alone (p : Byte) (b : Bool) :
    flagD (putD p b) = b ∧ flagC (putD p b) = flagC p ∧ flagZ (putD p b) = flagZ p ∧ flagI (putD p b) = flagI p ∧
      flagB (putD p b) = flagB p ∧ flagU (putD p b) = flagU p ∧ flagV (putD p b) = flagV p ∧
      flagN (putD p b) = flagN p :=
  ⟨flagD_putD p b, flagC_putD p b, flagZ_putD p b, flagI_putD p b, flagB_putD p b, flagU_putD p b, flagV_putD p b,
    flagN_putD p b⟩

/-! The instructions. -/

theorem exec_clc (s : State) : exec .clc s = finish 2 (s.setP (putC s.cpu.p false)) := rfl

theorem exec_sec (s : State) : exec .sec s = finish 2 (s.setP (putC s.cpu.p true)) := rfl

theorem exec_clv (s : State) : exec .clv s = finish 2 (s.setP (putV s.cpu.p false)) := rfl

theorem exec_cld (s : State) : exec .cld s = finish 2 (s.setP (putD s.cpu.p false)) := rfl

theorem exec_sed (s : State) : exec .sed s = finish 2 (s.setP (putD s.cpu.p true)) := rfl

theorem exec_nop (s : State) : exec .nop s = finish 2 s := rfl

/-- Settles O31: each flag instruction changes the status alone, by the `put` of its one flag, and NOP changes
nothing but the cycle count. -/
theorem flagInstructionResult : Obligations.FlagInstructionResult := by
  refine ⟨rfl, rfl, rfl, rfl, rfl, rfl, fun s => ⟨?carry, ?overflow, ?decimal, ?nop⟩⟩
  case carry =>
    rintro i b (⟨rfl, rfl⟩ | ⟨rfl, rfl⟩)
    · exact completesRegs_of_finish (exec_clc s) (putC_writes_flagC_alone _ _)
    · exact completesRegs_of_finish (exec_sec s) (putC_writes_flagC_alone _ _)
  case overflow => exact completesRegs_of_finish (exec_clv s) (putV_writes_flagV_alone _ _)
  case decimal =>
    rintro i b (⟨rfl, rfl⟩ | ⟨rfl, rfl⟩)
    · exact completesRegs_of_finish (exec_cld s) (putD_writes_flagD_alone _ _)
    · exact completesRegs_of_finish (exec_sed s) (putD_writes_flagD_alone _ _)
  case nop => exact completesRegs_of_finish (q := s.cpu.p) (exec_nop s) rfl

end Sys2Proof.Proofs
end

section
/-! PROOFS. The PPU's registers on the CPU bus (spec/62_ppu.md R185, R186, R188 to R191). -/

namespace Sys2Proof.Proofs

open Sys2Proof.Machine Sys2Proof.Claims

/-! One register of the PPU (spec/20_memory.md R42). -/

theorem ppuReg_of_mod {a : Word} {k : BitVec 3} (hk : a.toNat % 8 = k.toNat) : a.extractLsb' 0 3 = k :=
  BitVec.eq_of_toNat_eq ((ppuReg_toNat a).trans hk)

/-- A write to a PPU register, at any of its mirrors, whose effect is on the PPU alone is put out and does nothing
else. -/
theorem busWrite_ppuRegister {a : Word} {d : Byte} {s : State} {k : BitVec 3} {q : Ppu} (h : 0x2000 ≤ a.toNat)
    (h' : a.toNat ≤ 0x3FFF) (hk : a.toNat % 8 = k.toNat) (hq : ppuRegWrite k d s = { s with ppu := q }) :
    busWrite a d s = { s with ppu := q, deviceWrites := (a, d) :: s.deviceWrites } := by
  rw [busWrite_ppu h h', ppuReg_of_mod hk, hq, noteWrite_device (.inl ⟨h, by omega⟩)]

/-- A read of OAMDATA gives the byte of OAM at OAMADDR and changes nothing. -/
theorem busRead_oamData {a : Word} (h : 0x2000 ≤ a.toNat) (h' : a.toNat ≤ 0x3FFF) (hk : a.toNat % 8 = 4)
    (s : State) : busRead a s = (readCell s.ppu.oam s.ppu.oamAddr.toNat, s) := by
  rw [busRead, busReadWith_ppu h h', ppuReg_of_mod (k := 4) hk]
  rfl

/-! The fields of `t` after a write, as arithmetic (spec/62_ppu.md R181). -/

/-- A PPUCTRL write puts the byte's low two bits at bits 11 and 10 of `t`. -/
theorem writeCtrl_t_toNat (p : Ppu) (d : Byte) :
    (writeCtrl p d).t.toNat = p.t.toNat / 0x1000 * 0x1000 + d.toNat % 4 * 0x400 + p.t.toNat % 0x400 := by
  have hfields : (writeCtrl p d).t = p.t.extractLsb' 12 3 ++ (d.extractLsb' 0 2 ++ p.t.extractLsb' 0 10) := by
    unfold writeCtrl
    apply BitVec.eq_of_getLsbD_eq
    intro i hi
    simp only [BitVec.getLsbD_append]
    interval_cases i <;> simp
  have := p.t.isLt
  rw [hfields]
  simp only [toNat_append_eq, BitVec.extractLsb'_toNat, Nat.shiftRight_eq_div_pow]
  omega

/-- A first PPUADDR write puts the byte's low six bits above the low byte of `t`. -/
theorem addrHigh_toNat (t : BitVec 15) (d : Byte) :
    ((t &&& (0x00FF : BitVec 15)) ||| ((d &&& 0x3F).setWidth 15 <<< 8)).toNat = d.toNat % 64 * 256 + t.toNat % 256 := by
  have hfields : (t &&& (0x00FF : BitVec 15)) ||| ((d &&& 0x3F).setWidth 15 <<< 8) =
      0#1 ++ (d.extractLsb' 0 6 ++ t.extractLsb' 0 8) := by
    apply BitVec.eq_of_getLsbD_eq
    intro i hi
    simp only [BitVec.getLsbD_append]
    interval_cases i <;> simp
  rw [hfields]
  simp only [toNat_append_eq, BitVec.toNat_ofNat, BitVec.extractLsb'_toNat, Nat.shiftRight_eq_div_pow]
  omega

/-- A second PPUADDR write replaces the low byte of `t`. -/
theorem addrLow_toNat (t : BitVec 15) (d : Byte) :
    ((t &&& (0x7F00 : BitVec 15)) ||| d.setWidth 15).toNat = t.toNat / 256 * 256 + d.toNat := by
  have hfields : (t &&& (0x7F00 : BitVec 15)) ||| d.setWidth 15 = t.extractLsb' 8 7 ++ d := by
    apply BitVec.eq_of_getLsbD_eq
    intro i hi
    simp only [BitVec.getLsbD_append]
    interval_cases i <;> simp
  have := t.isLt
  rw [hfields]
  simp only [toNat_append_eq, BitVec.extractLsb'_toNat, Nat.shiftRight_eq_div_pow]
  omega

/-- Writing coarse-X leaves the bits above it. -/
theorem withCoarseX_div (t : BitVec 15) (c : BitVec 5) : (withCoarseX t c).toNat / 32 = t.toNat / 32 := by
  have hhigh : (withCoarseX t c).extractLsb' 5 10 = t.extractLsb' 5 10 := by
    apply BitVec.eq_of_getLsbD_eq
    intro i hi
    interval_cases i <;> simp [withCoarseX]
  have hnat := congrArg BitVec.toNat hhigh
  have := t.isLt
  have := (withCoarseX t c).isLt
  simp only [BitVec.extractLsb'_toNat, Nat.shiftRight_eq_div_pow] at hnat
  omega

/-- A byte's bits 7 to 3 and 2 to 0 are its quotient and remainder by 8. -/
theorem byteHigh5_toNat (d : Byte) : (d.extractLsb' 3 5).toNat = d.toNat / 8 := by
  have := d.isLt
  rw [BitVec.extractLsb'_toNat, Nat.shiftRight_eq_div_pow]
  omega

theorem byteLow3_toNat (d : Byte) : (d.extractLsb' 0 3).toNat = d.toNat % 8 := by
  simp [BitVec.extractLsb'_toNat]

/-! The effect of the two registers with a write toggle, for each of its values. -/

theorem writeScroll_first {p : Ppu} (hw : p.w = false) (d : Byte) :
    writeScroll p d = { p with t := withCoarseX p.t (d.extractLsb' 3 5), fineX := d.extractLsb' 0 3, w := true } := by
  rw [writeScroll, hw]; rfl

theorem writeScroll_second {p : Ppu} (hw : p.w = true) (d : Byte) :
    writeScroll p d =
      { p with t := withCoarseY (withFineY p.t (d.extractLsb' 0 3)) (d.extractLsb' 3 5), w := false } := by
  rw [writeScroll, hw]; rfl

theorem writeAddr_first {p : Ppu} (hw : p.w = false) (d : Byte) :
    writeAddr p d = { p with t := (p.t &&& 0x00FF) ||| ((d &&& 0x3F).setWidth 15 <<< 8), w := true } := by
  rw [writeAddr, hw]; rfl

theorem writeAddr_second {p : Ppu} (hw : p.w = true) (d : Byte) :
    writeAddr p d =
      { p with t := (p.t &&& 0x7F00) ||| d.setWidth 15, v := (p.t &&& 0x7F00) ||| d.setWidth 15, w := false } := by
  rw [writeAddr, hw]; rfl

/-! The statement. -/

/-- Settles O41: each register's write is one function of the PPU, whose fields of `t` are arithmetic. -/
theorem scrollAndAddressWrites : Obligations.ScrollAndAddressWrites := by
  intro a d s h h' t out
  refine ⟨fun hk => ?ctrl, fun hk => ?mask, fun hk => ?oamAddr, fun hk => ?oamData, fun hk hw => ?scrollFirst,
    fun hk hw => ?scrollSecond, fun hk hw => ?addrFirst, fun hk hw => ?addrSecond⟩
  case ctrl =>
    have ht : t = _ := busWrite_ppuRegister (k := 0) h h' hk rfl
    rw [ht]
    exact ⟨rfl, writeCtrl_t_toNat s.ppu d⟩
  case mask => exact busWrite_ppuRegister (k := 1) h h' hk rfl
  case oamAddr => exact busWrite_ppuRegister (k := 3) h h' hk rfl
  case oamData =>
    have ht : t = _ := busWrite_ppuRegister (k := 4) h h' hk rfl
    rw [ht]
    exact ⟨busRead_oamData h h' hk s, rfl, BitVec.toNat_add _ _, fun n => readCell_writeCell _ _ n d⟩
  case scrollFirst =>
    have ht : t = _ := busWrite_ppuRegister (k := 5) h h' hk rfl
    rw [ht, writeScroll_first hw]
    exact ⟨rfl, by rw [coarseX_withCoarseX, byteHigh5_toNat], byteLow3_toNat d, withCoarseX_div _ _⟩
  case scrollSecond =>
    have ht : t = _ := busWrite_ppuRegister (k := 5) h h' hk rfl
    rw [ht, writeScroll_second hw]
    exact ⟨rfl, by rw [fineY_withCoarseY, fineY_withFineY, byteLow3_toNat],
      by rw [coarseY_withCoarseY, byteHigh5_toNat], by rw [coarseX_withCoarseY, coarseX_withFineY], by simp, by simp⟩
  case addrFirst =>
    have ht : t = _ := busWrite_ppuRegister (k := 6) h h' hk rfl
    rw [ht, writeAddr_first hw]
    exact ⟨rfl, addrHigh_toNat _ _⟩
  case addrSecond =>
    have ht : t = _ := busWrite_ppuRegister (k := 6) h h' hk rfl
    rw [ht, writeAddr_second hw]
    exact ⟨rfl, addrLow_toNat _ _⟩

end Sys2Proof.Proofs
end

section
/-! PROOFS. The banking of the six mappers (spec/64_cartridge.md R232, R233, R237 to R247).  First the bank that each
mapper selects, as arithmetic, then that every offset lies in its memory, then the statement. -/

namespace Sys2Proof.Proofs

open Sys2Proof.Machine Sys2Proof.Claims

/-! Fields of registers and addresses. -/

/-- Bits 14 and 13 of an address at or above 0x8000 number its 8 KB unit. -/
theorem romUnit_toNat (addr : Word) : (addr.extractLsb' 13 2).toNat = addr.toNat / 0x2000 % 4 := by
  rw [BitVec.extractLsb'_toNat, Nat.shiftRight_eq_div_pow]

theorem clearBit0_toNat (b : Byte) : (b &&& 0xFE).toNat = b.toNat - b.toNat % 2 := by
  have hfields : b &&& (0xFE : Byte) = b.extractLsb' 1 7 ++ 0#1 := by
    apply BitVec.eq_of_getLsbD_eq
    intro i hi
    simp only [BitVec.getLsbD_append]
    interval_cases i <;> simp
  have := b.isLt
  rw [hfields, toNat_append_eq, BitVec.extractLsb'_toNat, Nat.shiftRight_eq_div_pow, BitVec.toNat_ofNat]
  omega

theorem setBit0_toNat (b : Byte) : (b ||| 0x01).toNat = b.toNat - b.toNat % 2 + 1 := by
  have hfields : b ||| (0x01 : Byte) = b.extractLsb' 1 7 ++ 1#1 := by
    apply BitVec.eq_of_getLsbD_eq
    intro i hi
    simp only [BitVec.getLsbD_append]
    interval_cases i <;> simp
  have := b.isLt
  rw [hfields, toNat_append_eq, BitVec.extractLsb'_toNat, Nat.shiftRight_eq_div_pow, BitVec.toNat_ofNat]
  omega

/-- Flipping bit 12 of a PPU address below 0x2000 moves it four 1 KB units on, modulo the eight. -/
theorem flipBit12_unit {a : Nat} (ha : a < 0x2000) : (a ^^^ 0x1000) / 0x400 = (a / 0x400 + 4) % 8 := by
  have hdiv : (a ^^^ 0x1000) / 0x400 = a / 0x400 ^^^ 4 := Nat.xor_div_two_pow (n := 10)
  have hunit : a / 0x400 < 8 := by omega
  rw [hdiv]
  interval_cases a / 0x400 <;> rfl

/-! PRG ROM (R239, R244). -/

theorem mmc1PrgBank_eq (m : Mmc1) (n : Nat) (addr : Word) :
    mmc1PrgBank m n addr =
      let mode := m.control.toNat / 4 % 4
      let b := m.prg.toNat % 16
      if mode = 2 then (if addr.toNat < 0xC000 then 0 else b % n)
      else if mode = 3 then (if addr.toNat < 0xC000 then b % n else n - 1)
      else if addr.toNat < 0xC000 then (b - b % 2) % n else (b - b % 2 + 1) % n := by
  have hmode : (m.control.extractLsb' 2 2).toNat = m.control.toNat / 4 % 4 := by
    rw [BitVec.extractLsb'_toNat, Nat.shiftRight_eq_div_pow]
  have hb : (m.prg.extractLsb' 0 4).toNat = m.prg.toNat % 16 := by simp [BitVec.extractLsb'_toNat]
  have heven : m.prg.toNat % 16 / 2 * 2 = m.prg.toNat % 16 - m.prg.toNat % 16 % 2 := by omega
  simp only [mmc1PrgBank, hmode, hb, heven]
  split
  case h_1 h => rw [if_pos h]
  case h_2 h => rw [h, if_neg (by decide : ¬ 3 = 2), if_pos rfl]
  case h_3 h2 h3 => rw [if_neg h2, if_neg h3]

theorem mmc3PrgUnit_eq (m : Mmc3) (n : Nat) {addr : Word} (ha : 0x8000 ≤ addr.toNat) :
    mmc3PrgUnit m n addr =
      if addr.toNat < 0xA000 then (if m.prgMode then 2 * n - 2 else m.r[6].toNat % (2 * n))
      else if addr.toNat < 0xC000 then m.r[7].toNat % (2 * n)
      else if addr.toNat < 0xE000 then (if m.prgMode then m.r[6].toNat % (2 * n) else 2 * n - 2)
      else 2 * n - 1 := by
  have := addr.isLt
  have hunit := romUnit_toNat addr
  unfold mmc3PrgUnit
  split
  case h_1 h =>
    have hA : addr.toNat < 0xA000 := by omega
    rw [if_pos hA]
  case h_2 h =>
    have hA : ¬ addr.toNat < 0xA000 := by omega
    have hC : addr.toNat < 0xC000 := by omega
    rw [if_neg hA, if_pos hC]
  case h_3 h =>
    have hA : ¬ addr.toNat < 0xA000 := by omega
    have hC : ¬ addr.toNat < 0xC000 := by omega
    have hE : addr.toNat < 0xE000 := by omega
    rw [if_neg hA, if_neg hC, if_pos hE]
  case h_4 h0 h1 h2 =>
    simp only [imp_false, hunit] at h0 h1 h2
    have hA : ¬ addr.toNat < 0xA000 := by omega
    have hC : ¬ addr.toNat < 0xC000 := by omega
    have hE : ¬ addr.toNat < 0xE000 := by omega
    rw [if_neg hA, if_neg hC, if_neg hE]

theorem mmc1PrgBank_lt (m : Mmc1) {n : Nat} (hn : 1 ≤ n) (addr : Word) : mmc1PrgBank m n addr < n := by
  have hmod (u : Nat) : u % n < n := Nat.mod_lt u hn
  have hfirst : 0 < n := hn
  have hlast : n - 1 < n := Nat.sub_one_lt_of_lt hn
  rw [mmc1PrgBank_eq]
  dsimp only
  split_ifs <;> simp only [hmod, hfirst, hlast]

theorem mmc3PrgUnit_lt (m : Mmc3) {n : Nat} (hn : 1 ≤ n) {addr : Word} (ha : 0x8000 ≤ addr.toNat) :
    mmc3PrgUnit m n addr < 2 * n := by
  have hmod (u : Nat) : u % (2 * n) < 2 * n := Nat.mod_lt u (by omega)
  have hlast : 2 * n - 1 < 2 * n := by omega
  have hlastButOne : 2 * n - 2 < 2 * n := by omega
  rw [mmc3PrgUnit_eq m n ha]
  split_ifs <;> simp only [hmod, hlast, hlastButOne]

/-- A PRG offset lies in PRG ROM (D50). -/
theorem prgOffset_lt {c : Cartridge} {addr : Word} (hn : 1 ≤ c.prgBanks) (ha : 0x8000 ≤ addr.toNat) :
    prgOffset c addr < 16384 * c.prgBanks := by
  have hmod (u : Nat) : u % (16384 * c.prgBanks) < 16384 * c.prgBanks := Nat.mod_lt u (by omega)
  unfold prgOffset
  cases c.mapper with
  | nrom => exact hmod _
  | cnrom b => exact hmod _
  | gxrom b k => exact hmod _
  | mmc1 m =>
    have := mmc1PrgBank_lt m hn addr
    dsimp only
    omega
  | uxrom b =>
    have := Nat.mod_lt b.toNat hn
    dsimp only
    split <;> omega
  | mmc3 m =>
    have := mmc3PrgUnit_lt m hn ha
    dsimp only
    omega

/-! CHR memory (R240, R245). -/

theorem mmc1ChrUnit_eq (m : Mmc1) (c4 : Nat) {a : Nat} (ha : a < 0x2000) :
    mmc1ChrUnit m c4 a =
      (if m.control.getLsbD 4 then (if a < 0x1000 then m.chr0.toNat else m.chr1.toNat)
        else m.chr0.toNat - m.chr0.toNat % 2 + a / 0x1000) % c4 := by
  have heven : m.chr0.toNat / 2 * 2 = m.chr0.toNat - m.chr0.toNat % 2 := by omega
  unfold mmc1ChrUnit
  rw [heven]
  by_cases hlow : a < 0x1000
  · have hunit : a / 0x1000 = 0 := by omega
    simp only [hlow, hunit, if_true, Nat.add_zero]
    split <;> rfl
  · have hunit : a / 0x1000 = 1 := by omega
    simp only [hlow, hunit, if_false]
    split <;> rfl

theorem mmc3ChrUnit_eq (m : Mmc3) {a : Nat} (ha : a < 0x2000) :
    mmc3ChrUnit m a =
      let r (i : Fin 8) : Nat := m.r[i].toNat
      let slots : List Nat :=
        [r 0 - r 0 % 2, r 0 - r 0 % 2 + 1, r 1 - r 1 % 2, r 1 - r 1 % 2 + 1, r 2, r 3, r 4, r 5]
      slots.getD ((a / 0x400 + if m.chrInv then 4 else 0) % 8) 0 := by
  have hslot : (if m.chrInv then a ^^^ 0x1000 else a) / 0x400 = (a / 0x400 + if m.chrInv then 4 else 0) % 8 := by
    split
    · exact flipBit12_unit ha
    · omega
  have hlt : (a / 0x400 + if m.chrInv then 4 else 0) % 8 < 8 := Nat.mod_lt _ (by decide)
  unfold mmc3ChrUnit
  rw [hslot]
  simp only [clearBit0_toNat, setBit0_toNat]
  interval_cases (a / 0x400 + if m.chrInv then 4 else 0) % 8 <;> rfl

/-! Control writes (R237 to R247). -/

theorem cartCpuWrite_rom {addr : Word} (ha : 0x8000 ≤ addr.toNat) (c : Cartridge) (d : Byte) :
    cartCpuWrite c addr d = controlWrite c addr d := if_neg (by omega)

theorem controlWrite_gxrom {c : Cartridge} {b k : BitVec 2} (hm : c.mapper = .gxrom b k) (addr : Word) (d : Byte) :
    controlWrite c addr d =
      { c with mapper := .gxrom (BitVec.ofNat 2 (d.toNat / 16 % 4)) (BitVec.ofNat 2 (d.toNat % 4)) } := by
  have hfield (u : Nat) : BitVec.ofNat 2 (u % 4) = BitVec.ofNat 2 u := by simp [← BitVec.toNat_inj]
  simp only [controlWrite, hm, extractLsb'_eq_ofNat, hfield, Nat.reducePow, Nat.div_one]

/-! The statement. -/

/-- Settles O53: each mapper's offset is its table's, and a read or write of the ROM's addresses is the cartridge's. -/
theorem prgOffsetInRange : Obligations.PrgOffsetInRange := by
  intro c addr hn ha a n bank size
  refine ⟨prgOffset_lt hn ha, ?nrom, ?mmc1, ?uxrom, ?mmc3, ?gxrom, fun x hx => ⟨chrOffset_lt c hx, rfl, ?chr⟩,
    fun d s => ⟨?read, ?write, ?control⟩⟩
  case nrom => rintro (hm | ⟨b, hm⟩) <;> simp only [prgOffset, hm] <;> rfl
  case mmc1 => intro m hm; simp only [prgOffset, hm, mmc1PrgBank_eq]; rfl
  case uxrom => intro b hm; simp only [prgOffset, hm]; rfl
  case mmc3 => intro m hm; simp only [prgOffset, hm, mmc3PrgUnit_eq m _ ha]; rfl
  case gxrom => intro b k hm; simp only [prgOffset, hm]; rfl
  case chr =>
    have hbank : x % 8192 = x := Nat.mod_eq_of_lt hx
    refine ⟨?_, ?_, ?_, ?_, ?_⟩
    · rintro (hm | ⟨b, hm⟩) <;> simp only [chrOffset, hm]
    · intro m hm; simp only [chrOffset, hm, mmc1ChrUnit_eq m _ hx]; rfl
    · intro b hm; simp only [chrOffset, hm, hbank]; rfl
    · intro m hm; simp only [chrOffset, hm, mmc3ChrUnit_eq m hx]; rfl
    · intro b k hm; simp only [chrOffset, hm, hbank]; rfl
  case read => rw [busRead_memory (.inr (by omega)), peek_prg ha]
  case write => rw [busWrite_cartSpace (by omega), cartCpuWrite_rom ha]
  case control =>
    exact ⟨fun hm => by simp only [controlWrite, hm], fun b hm => by simp only [controlWrite, hm],
      fun b hm => by simp only [controlWrite, hm], fun b k hm => controlWrite_gxrom hm addr d⟩

end Sys2Proof.Proofs
end

section
/-! PROOFS. The frame sequencer (spec/63_apu.md R214, R216 to R221).  First the units that quarter- and half-frames
clock, then one count of the sequencer and many of them, then the statement. -/

namespace Sys2Proof.Proofs

open Sys2Proof.Machine Sys2Proof.Claims

/-! The units (R218 to R221). -/

theorem clockEnvelope_start (halt : Bool) {e : Envelope} (hs : e.start = true) :
    clockEnvelope halt e = { e with start := false, decay := 15, divider := e.volume } := if_pos hs

theorem clockEnvelope_reload (halt : Bool) {e : Envelope} (hs : e.start = false) (hd : e.divider = 0) :
    clockEnvelope halt e =
      { e with
        divider := e.volume, decay := if e.decay ≠ 0 then e.decay - 1 else if halt then 15 else e.decay } := by
  rw [clockEnvelope, hs, if_neg nofun, if_pos hd]

theorem clockEnvelope_count (halt : Bool) {e : Envelope} (hs : e.start = false) (hd : e.divider ≠ 0) :
    clockEnvelope halt e = { e with divider := e.divider - 1 } := by
  rw [clockEnvelope, hs, if_neg nofun, if_neg hd]

/-- The decay level counts down, and from 0 to 15 in a loop. -/
theorem decay_toNat (halt : Bool) (x : BitVec 4) :
    (if x ≠ 0 then x - 1 else if halt then 15 else x).toNat =
      if x.toNat ≠ 0 then x.toNat - 1 else if halt then 15 else 0 := by
  by_cases hx : x = 0
  · subst hx; cases halt <;> rfl
  · have hx' : x.toNat ≠ 0 := mt (bitVec_eq_zero x).2 hx
    rw [if_pos hx, if_pos hx', bitVec_pred hx]

/-- Clocking an envelope is an envelope's step. -/
theorem envelopeStep_clockEnvelope (halt : Bool) (e : Envelope) : EnvelopeStep halt e (clockEnvelope halt e) := by
  simp only [EnvelopeStep, ne_eq, ← bitVec_eq_zero e.divider]
  cases hs : e.start
  case true =>
    rw [clockEnvelope_start halt hs]
    exact ⟨rfl, rfl, rfl, fun _ => ⟨rfl, rfl⟩, nofun, nofun⟩
  case false =>
    by_cases hd : e.divider = 0
    case pos =>
      rw [clockEnvelope_reload halt hs hd]
      exact ⟨rfl, rfl, hs, nofun, fun _ _ => ⟨rfl, decay_toNat halt e.decay⟩, fun _ h => absurd hd h⟩
    case neg =>
      rw [clockEnvelope_count halt hs hd]
      exact ⟨rfl, rfl, hs, nofun, fun _ h => absurd h hd, fun _ _ => ⟨bitVec_pred hd, rfl⟩⟩

theorem sweepMutes_iff (first : Bool) (p : Pulse) : sweepMutes first p = true ↔ Muted first p := by
  rw [sweepMutes, Bool.or_eq_true, decide_eq_true_eq, decide_eq_true_eq, sweepTarget_eq]
  rfl

/-- The sweep may change the period (R221). -/
def SweepUpdates (first : Bool) (p : Pulse) : Prop :=
  p.swDivider.toNat = 0 ∧ p.swEnabled = true ∧ p.swShift.toNat ≠ 0 ∧ ¬ Muted first p

theorem sweepUpdates_iff (first : Bool) (p : Pulse) :
    p.swDivider = 0 ∧ p.swEnabled = true ∧ p.swShift ≠ 0 ∧ ¬ sweepMutes first p = true ↔ SweepUpdates first p := by
  rw [SweepUpdates, ne_eq, ne_eq, bitVec_eq_zero, bitVec_eq_zero, sweepMutes_iff]

/-- The period after a clock of the sweep. -/
def sweptPeriod (first : Bool) (p : Pulse) : BitVec 11 :=
  if p.swDivider = 0 ∧ p.swEnabled ∧ p.swShift ≠ 0 ∧ ¬ sweepMutes first p then BitVec.ofInt 11 (sweepTarget first p)
  else p.period

theorem sweptPeriod_of_updates {first : Bool} {p : Pulse} (h : SweepUpdates first p) :
    ((sweptPeriod first p).toNat : Int) = sweepAim first p := by
  rw [sweptPeriod, if_pos ((sweepUpdates_iff first p).2 h)]
  obtain ⟨-, -, hshift, hmuted⟩ := h
  rw [← sweepMutes_iff, Bool.not_eq_true] at hmuted
  exact (sweepTarget_fits first p hshift hmuted).trans (sweepTarget_eq first p)

theorem sweptPeriod_of_not_updates {first : Bool} {p : Pulse} (h : ¬ SweepUpdates first p) :
    sweptPeriod first p = p.period := if_neg fun h' => h ((sweepUpdates_iff first p).1 h')

theorem clockSweep_reload (first : Bool) {p : Pulse} (h : p.swDivider.toNat = 0 ∨ p.swReload = true) :
    clockSweep first p = { p with period := sweptPeriod first p, swDivider := p.swPeriod, swReload := false } := by
  rw [← bitVec_eq_zero] at h
  exact if_pos (by simpa using h)

theorem clockSweep_count (first : Bool) {p : Pulse} (hd : p.swDivider.toNat ≠ 0) (hr : p.swReload = false) :
    clockSweep first p = { p with period := sweptPeriod first p, swDivider := p.swDivider - 1 } := by
  rw [ne_eq, ← bitVec_eq_zero] at hd
  exact if_neg (by simpa [hr] using hd)

/-- A half-frame clocks a pulse's length counter and then its sweep, which does not read the counter. -/
theorem pulseHalfStep_pulseHalf (first : Bool) (p : Pulse) : PulseHalfStep first p (pulseHalf first p) := by
  have hlength := clockLength_toNat p.halt p.length
  by_cases h : p.swDivider.toNat = 0 ∨ p.swReload = true
  case pos =>
    have hsweep : pulseHalf first p = _ :=
      clockSweep_reload first (p := { p with length := clockLength p.halt p.length }) h
    rw [hsweep]
    exact ⟨rfl, hlength, sweptPeriod_of_updates, sweptPeriod_of_not_updates, rfl, fun _ => rfl, fun hd hr =>
      absurd h (not_or.2 ⟨hd, by rw [hr]; nofun⟩)⟩
  case neg =>
    obtain ⟨hd, hr⟩ := not_or.1 h
    rw [Bool.not_eq_true] at hr
    have hsweep : pulseHalf first p = _ :=
      clockSweep_count first (p := { p with length := clockLength p.halt p.length }) hd hr
    rw [hsweep]
    exact ⟨rfl, hlength, sweptPeriod_of_updates, sweptPeriod_of_not_updates, hr, fun h' => absurd h' h,
      fun _ _ => bitVec_pred (mt (bitVec_eq_zero _).1 hd)⟩

/-- A quarter-frame, whatever becomes of the sequencer. -/
theorem quarterStep_quarterFrame (a : Apu) (f : FrameSeq) : QuarterStep a { quarterFrame a with frame := f } :=
  ⟨rfl, envelopeStep_clockEnvelope _ _, envelopeStep_clockEnvelope _ _, envelopeStep_clockEnvelope _ _,
    clockLinear_toNat a.triangle, rfl⟩

/-- A half-frame, whatever becomes of the sequencer. -/
theorem halfStep_halfFrame (a : Apu) (f : FrameSeq) : HalfStep a { halfFrame a with frame := f } :=
  ⟨rfl, pulseHalfStep_pulseHalf true a.pulse1, pulseHalfStep_pulseHalf false a.pulse2, clockLength_toNat _ _,
    clockLength_toNat _ _⟩

/-! One count (R216). -/

/-- The counts at which a quarter-frame alone is clocked. -/
def QuarterAt (n : Nat) : Prop := n = 7457 ∨ n = 22371

/-- The counts at which a quarter- and a half-frame are clocked. -/
def BothAt (fiveStep : Bool) (n : Nat) : Prop :=
  n = 14913 ∨ (fiveStep = false ∧ n = 29829) ∨ (fiveStep = true ∧ n = 37281)

/-- The sequencer after one count. -/
def nextFrame (f : FrameSeq) : FrameSeq :=
  { f with
    counter := if f.counter + 1 = (if f.fiveStep then 37282 else 29830) then 0 else f.counter + 1
    irq :=
      f.irq ||
        (!f.fiveStep && !f.inhibit && decide (29828 ≤ f.counter + 1) && decide (f.counter + 1 ≤ 29830)) }

theorem frameStep_frame (a : Apu) : (frameStep a).frame = nextFrame a.frame := by
  unfold frameStep nextFrame
  dsimp only
  cases hfive : a.frame.fiveStep
  case false =>
    split <;> simp_all [quarterFrame, halfFrame, raiseFrameIrq, restartFrame]
    omega
  case true =>
    split <;> simp_all [quarterFrame, halfFrame, restartFrame]

theorem frameStep_quarter {a : Apu} (h : QuarterAt (a.frame.counter + 1)) :
    frameStep a = { quarterFrame a with frame := nextFrame a.frame } := by
  rw [← frameStep_frame]
  unfold frameStep
  dsimp only
  rcases h with h | h <;> simp only [h] <;> rfl

theorem frameStep_both {a : Apu} (h : BothAt a.frame.fiveStep (a.frame.counter + 1)) :
    frameStep a = { halfFrame (quarterFrame a) with frame := nextFrame a.frame } := by
  rw [← frameStep_frame]
  unfold frameStep
  dsimp only
  rcases h with h | ⟨hfive, h⟩ | ⟨hfive, h⟩
  · simp only [h]; rfl
  · simp only [h, hfive]; rfl
  · simp only [h, hfive]; rfl

theorem frameStep_other {a : Apu} (hq : ¬ QuarterAt (a.frame.counter + 1))
    (hb : ¬ BothAt a.frame.fiveStep (a.frame.counter + 1)) :
    frameStep a = { a with frame := nextFrame a.frame } := by
  rw [← frameStep_frame]
  unfold QuarterAt at hq
  unfold BothAt at hb
  unfold frameStep
  dsimp only
  split <;> simp_all [raiseFrameIrq, restartFrame]

/-! Many counts. -/

theorem times_frameStep_frame (n : Nat) (a : Apu) : (times frameStep n a).frame = times nextFrame n a.frame := by
  induction n with
  | zero => rfl
  | succ n ih => simp only [times, frameStep_frame, ih]

/-- In 4-step mode the flag is set by the last three counts of the sequence. -/
theorem times_nextFrame_fourStep {f : FrameSeq} (hc : f.counter = 0) (hi : f.irq = false)
    (hfive : f.fiveStep = false) (hinhibit : f.inhibit = false) {n : Nat} (hn : n ≤ 29830) :
    times nextFrame n f = { f with counter := n % 29830, irq := decide (29828 ≤ n) } := by
  induction n with
  | zero => cases f; cases hc; cases hi; rfl
  | succ n ih =>
    have hcounter : (if n = 29829 then 0 else n + 1) = (n + 1) % 29830 := by split <;> omega
    have hbefore : n % 29830 = n := Nat.mod_eq_of_lt hn
    have hirq : (decide (29828 ≤ n) || decide (29827 ≤ n) && decide (n < 29830)) = decide (29827 ≤ n) := by
      rw [Bool.eq_iff_iff]
      simp only [Bool.or_eq_true, Bool.and_eq_true, decide_eq_true_eq]
      omega
    rw [times, ih (by omega), hbefore]
    simp [nextFrame, hfive, hinhibit, hcounter, hirq]

/-- In 5-step mode the flag stays clear. -/
theorem times_nextFrame_fiveStep {f : FrameSeq} (hc : f.counter = 0) (hfive : f.fiveStep = true) (n : Nat) :
    times nextFrame n f = { f with counter := n % 37282 } := by
  induction n with
  | zero => cases f; cases hc; rfl
  | succ n ih =>
    have hcounter : (if n % 37282 = 37281 then 0 else n % 37282 + 1) = (n + 1) % 37282 := by split <;> omega
    rw [times, ih]
    simp [nextFrame, hfive, hcounter]

/-! The write to 0x4017 (R214). -/

/-- The addresses at which a write is to a register of the APU (spec/20_memory.md R40). -/
abbrev IsApuRegister (a : Word) : Prop :=
  (0x4000 ≤ a.toNat ∧ a.toNat ≤ 0x4017) ∧ a.toNat ≠ 0x4014 ∧ a.toNat ≠ 0x4016

theorem apuAfter_of_apuWrite {a : Word} {d : Byte} {s : State} {u : Apu} (ha : IsApuRegister a)
    (hu : apuWrite s.apu a d = u) : ApuAfter a d s u := by
  obtain ⟨⟨h, h'⟩, h4, h6⟩ := ha
  rw [ApuAfter, busWrite_apu h h' h4 h6, hu]

theorem apuWriteFrame_of_bit7_clear (a : Apu) {d : Byte} (h : d.getLsbD 7 = false) :
    apuWriteFrame a d =
      { a with frame :=
        { fiveStep := d.getLsbD 7, counter := 0, inhibit := d.getLsbD 6, irq := a.frame.irq && !d.getLsbD 6 } } := by
  rw [apuWriteFrame, h]; rfl

theorem apuWriteFrame_of_bit7_set (a : Apu) {d : Byte} (h : d.getLsbD 7 = true) :
    apuWriteFrame a d =
      { halfFrame (quarterFrame a) with frame :=
        { fiveStep := d.getLsbD 7, counter := 0, inhibit := d.getLsbD 6, irq := a.frame.irq && !d.getLsbD 6 } } := by
  rw [apuWriteFrame, h]; rfl

/-! The statement. -/

/-- Settles O50: the counts by induction, and each event by what a count clocks. -/
theorem frameIrqTiming : Obligations.FrameIrqTiming := by
  refine ⟨fun a n hc hi => ⟨?fourStep, ?fiveStep⟩, fun a => ⟨?quarter, ?both, ?other, frameStep_frame a⟩,
    fun d s => ⟨?clear, ?set⟩⟩
  case fourStep =>
    intro hfive hinhibit hn
    rw [times_frameStep_frame, times_nextFrame_fourStep hc hi hfive hinhibit hn]
    exact ⟨decide_eq_true_iff, rfl⟩
  case fiveStep =>
    intro hfive
    rw [times_frameStep_frame, times_nextFrame_fiveStep hc hfive]
    exact ⟨hi, rfl⟩
  case quarter =>
    intro h
    rw [frameStep_quarter h]
    exact quarterStep_quarterFrame a _
  case both =>
    intro h
    rw [frameStep_both h]
    exact ⟨quarterFrame a, quarterStep_quarterFrame a a.frame, halfStep_halfFrame (quarterFrame a) _⟩
  case other =>
    intro hq hb
    rw [frameStep_other hq hb]
  case clear =>
    intro h
    exact apuAfter_of_apuWrite (by decide) (apuWriteFrame_of_bit7_clear s.apu h)
  case set =>
    intro h
    exact ⟨quarterFrame s.apu, _, apuAfter_of_apuWrite (by decide) (apuWriteFrame_of_bit7_set s.apu h), rfl,
      quarterStep_quarterFrame s.apu s.apu.frame, halfStep_halfFrame (quarterFrame s.apu) _⟩

end Sys2Proof.Proofs
end

section
/-! PROOFS. The DMC (spec/63_apu.md R207, R211, R212, R215, R225, R226).  First its timer and output unit, then its
registers, then its reader, then the statement. -/

namespace Sys2Proof.Proofs

open Sys2Proof.Machine Sys2Proof.Claims

/-! The timer and the output unit (R215, R225). -/

theorem dmcTimer_count {m : Dmc} (h : m.timer.toNat ≠ 0) : dmcTimer m = { m with timer := m.timer - 1 } :=
  if_neg (mt (bitVec_eq_zero _).1 h)

theorem dmcTimer_zero {m : Dmc} (h : m.timer.toNat = 0) :
    dmcTimer m = dmcOutput { m with timer := BitVec.ofNat 9 (dmcRate.getD m.rateIndex.toNat 0 - 1) } :=
  if_pos ((bitVec_eq_zero _).2 h)

/-- Every rate fits the timer. -/
theorem dmcReload_toNat (i : BitVec 4) :
    (BitVec.ofNat 9 (dmcRate.getD i.toNat 0 - 1)).toNat = dmcRate.getD i.toNat 0 - 1 := by
  have hfits : ∀ i : BitVec 4, dmcRate.getD i.toNat 0 - 1 < 2 ^ 9 := by decide
  rw [BitVec.toNat_ofNat, Nat.mod_eq_of_lt (hfits i)]

/-- An output bit moves the level by two, within 0 to 127 (D65). -/
theorem dmcLevel_toNat (level : BitVec 7) (bit : Bool) :
    ((dmcLevel level bit).toNat : Int) =
      level.toNat + if bit then (if level.toNat ≤ 125 then 2 else 0) else if 2 ≤ level.toNat then -2 else 0 := by
  have := level.isLt
  cases bit with
  | true =>
    by_cases hup : level.toNat ≤ 125
    · have hsum : (level + 2).toNat = level.toNat + 2 := by bv_omega
      simp only [dmcLevel, hup, hsum, reduceIte]
      omega
    · simp [dmcLevel, hup]
  | false =>
    by_cases hdown : 2 ≤ level.toNat
    · have hdiff : (level - 2).toNat = level.toNat - 2 := by bv_omega
      simp only [dmcLevel, hdown, hdiff, reduceIte, Bool.false_eq_true]
      omega
    · simp [dmcLevel, hdown]

/-- The level after a clock of the output unit. -/
def outputLevel (m : Dmc) : BitVec 7 := if m.silence then m.level else dmcLevel m.level (m.shift.getLsbD 0)

theorem outputLevel_toNat (m : Dmc) :
    ((outputLevel m).toNat : Int) =
      m.level.toNat +
        if m.silence then 0
        else if m.shift.getLsbD 0 then (if m.level.toNat ≤ 125 then 2 else 0)
        else if 2 ≤ m.level.toNat then -2
        else 0 := by
  unfold outputLevel
  split
  · rw [Int.add_zero]
  · exact dmcLevel_toNat _ _

theorem shiftRight_one_eq (v : Byte) : v >>> 1 = BitVec.ofNat 8 (v.toNat / 2) := by
  have := v.isLt
  apply BitVec.eq_of_toNat_eq
  simp only [BitVec.toNat_ushiftRight, Nat.shiftRight_eq_div_pow, BitVec.toNat_ofNat]
  omega

/-- The output unit shifts, and at the last bit of a byte it takes the buffer or falls silent. -/
theorem dmcOutput_eq {m : Dmc} (h : 1 ≤ m.bits) :
    dmcOutput m =
      let last : Bool := decide (m.bits = 1)
      { m with
        level := outputLevel m, bits := if last then 8 else m.bits - 1
        shift := if last && !m.bufferEmpty then m.buffer else BitVec.ofNat 8 (m.shift.toNat / 2)
        silence := if last then m.bufferEmpty else m.silence, bufferEmpty := m.bufferEmpty || last } := by
  rw [← shiftRight_one_eq]
  by_cases h1 : m.bits = 1
  case pos => cases hempty : m.bufferEmpty <;> simp [dmcOutput, outputLevel, h1, hempty]
  case neg =>
    have hbits : m.bits - 1 ≠ 0 := by omega
    simp [dmcOutput, outputLevel, h1, hbits]

/-! The registers (R211, R212). -/

/-- The low bits of a byte are its remainder. -/
theorem lowBits_eq_ofNat (d : Byte) (n : Nat) : d.extractLsb' 0 n = BitVec.ofNat n (d.toNat % 2 ^ n) := by
  apply BitVec.eq_of_toNat_eq
  simp [BitVec.extractLsb'_toNat]

/-- A write to an APU register that turns the DMC into `m` and leaves the other channels. -/
theorem apuAfter_dmcWrite {a : Word} {d : Byte} {s : State} {m' m : Dmc} (ha : IsApuRegister a)
    (hw : apuWrite s.apu a d = { s.apu with dmc := m' }) (hm : m' = m) :
    ApuAfter a d s { s.apu with dmc := m } := by
  subst hm
  exact apuAfter_of_apuWrite ha hw

theorem dmcWrite0_eq (m : Dmc) (d : Byte) :
    dmcWrite0 m d =
      { m with
        irqEnable := d.getLsbD 7, loop := d.getLsbD 6, rateIndex := BitVec.ofNat 4 (d.toNat % 16)
        irq := m.irq && d.getLsbD 7 } := by
  rw [dmcWrite0, lowBits_eq_ofNat]; rfl

theorem dmcWrite1_eq (m : Dmc) (d : Byte) :
    dmcWrite1 m d = { m with level := BitVec.ofNat 7 (d.toNat % 128) } := by
  rw [dmcWrite1, lowBits_eq_ofNat]; rfl

theorem dmcWrite2_eq (m : Dmc) (d : Byte) :
    dmcWrite2 m d = { m with sampleAddr := BitVec.ofNat 16 (0xC000 + d.toNat * 64) } := by
  have haddr : (0xC000 : Word) + d.setWidth 16 * 64 = BitVec.ofNat 16 (0xC000 + d.toNat * 64) := by
    apply BitVec.eq_of_toNat_eq
    simp [BitVec.toNat_add, BitVec.toNat_mul]
  rw [dmcWrite2, haddr]

theorem dmcWrite3_eq (m : Dmc) (d : Byte) :
    dmcWrite3 m d = { m with sampleLen := BitVec.ofNat 12 (d.toNat * 16 + 1) } := by
  have hlen : d.setWidth 12 * 16 + 1 = BitVec.ofNat 12 (d.toNat * 16 + 1) := by
    apply BitVec.eq_of_toNat_eq
    simp [BitVec.toNat_add, BitVec.toNat_mul]
  rw [dmcWrite3, hlen]

theorem dmcEnable_eq (m : Dmc) (on : Bool) :
    dmcEnable m on =
      if on = false then { m with remaining := 0, irq := false }
      else if m.remaining.toNat = 0 then { m with curAddr := m.sampleAddr, remaining := m.sampleLen, irq := false }
      else { m with irq := false } := by
  simp only [← bitVec_eq_zero]
  cases on <;> rfl

theorem apuWriteEnable_eq (a : Apu) (d : Byte) :
    apuWriteEnable a d =
      { a with
        pulse1 := pulseEnable a.pulse1 (d.getLsbD 0), pulse2 := pulseEnable a.pulse2 (d.getLsbD 1)
        triangle := { a.triangle with enabled := d.getLsbD 2, length := if d.getLsbD 2 then a.triangle.length else 0 }
        noise := { a.noise with enabled := d.getLsbD 3, length := if d.getLsbD 3 then a.noise.length else 0 }
        dmc :=
          if d.getLsbD 4 = false then { a.dmc with remaining := 0, irq := false }
          else if a.dmc.remaining.toNat = 0 then
            { a.dmc with curAddr := a.dmc.sampleAddr, remaining := a.dmc.sampleLen, irq := false }
          else { a.dmc with irq := false } } := by
  rw [apuWriteEnable, dmcEnable_eq]

/-! The reader (R226). -/

theorem dmcReader_idle {s : State} (h : s.apu.dmc.bufferEmpty = false ∨ s.apu.dmc.remaining.toNat = 0) :
    dmcReader s = s := by
  rw [← bitVec_eq_zero] at h
  exact if_neg (by rcases h with h | h <;> simp [h])

/-- A fetch at an address of memory stalls the CPU and changes the DMC, and nothing else. -/
theorem dmcReader_fetch {s : State} (he : s.apu.dmc.bufferEmpty = true) (hr : s.apu.dmc.remaining.toNat ≠ 0)
    (hm : IsMemory s.apu.dmc.curAddr) :
    dmcReader s =
      { s with
        cpu := { s.cpu with stallRemaining := s.cpu.stallRemaining + 4 }
        apu := { s.apu with dmc := dmcTakeByte s.apu.dmc (peek s s.apu.dmc.curAddr) } } := by
  have hr' : s.apu.dmc.remaining ≠ 0 := mt (bitVec_eq_zero _).1 hr
  have hpeek : peek (s.stall Config.dmcDmaStall) s.apu.dmc.curAddr = peek s s.apu.dmc.curAddr :=
    peek_memory_congr hm rfl rfl
  rw [dmcReader, if_pos (by rw [he, decide_eq_true hr']; rfl), busRead_memory hm, hpeek]
  rfl

/-- The address after one byte. -/
theorem nextAddr_toNat (a : Word) :
    (if a = 0xFFFF then 0x8000 else a + 1 : Word).toNat = if a.toNat = 0xFFFF then 0x8000 else a.toNat + 1 := by
  have hlast : a = 0xFFFF ↔ a.toNat = 0xFFFF := (BitVec.toNat_inj (y := 0xFFFF)).symm
  by_cases h : a.toNat = 0xFFFF
  · rw [if_pos (hlast.2 h), if_pos h]; rfl
  · rw [if_neg fun e => h (hlast.1 e), if_neg h]
    bv_omega

/-- A byte before the last of the sample. -/
theorem dmcTakeByte_middle {m : Dmc} (h1 : m.remaining.toNat ≠ 1) (b : Byte) :
    dmcTakeByte m b =
      { m with
        buffer := b, bufferEmpty := false, curAddr := if m.curAddr = 0xFFFF then 0x8000 else m.curAddr + 1
        remaining := m.remaining - 1 } :=
  if_neg fun h : m.remaining - 1 = 0 => by bv_omega

theorem remaining_pred_of_one {m : Dmc} (h1 : m.remaining.toNat = 1) : m.remaining - 1 = 0 := by bv_omega

/-- The last byte of a sample that loops. -/
theorem dmcTakeByte_loop {m : Dmc} (h1 : m.remaining.toNat = 1) (hl : m.loop = true) (b : Byte) :
    dmcTakeByte m b =
      { m with buffer := b, bufferEmpty := false, curAddr := m.sampleAddr, remaining := m.sampleLen } := by
  simp only [dmcTakeByte, dmcRestart, remaining_pred_of_one h1, hl, reduceIte]

/-- The last byte of a sample that does not loop. -/
theorem dmcTakeByte_end {m : Dmc} (h1 : m.remaining.toNat = 1) (hl : m.loop = false) (b : Byte) :
    dmcTakeByte m b =
      { m with
        buffer := b, bufferEmpty := false, curAddr := if m.curAddr = 0xFFFF then 0x8000 else m.curAddr + 1
        remaining := 0, irq := m.irq || m.irqEnable } := by
  simp only [dmcTakeByte, remaining_pred_of_one h1, hl, reduceIte, Bool.false_eq_true]

/-- Of the DMC a byte read changes the buffer, the cursor and the interrupt flag only. -/
theorem dmcTakeByte_frame (m : Dmc) (b : Byte) :
    dmcTakeByte m b =
      { m with
        buffer := b, bufferEmpty := false, curAddr := (dmcTakeByte m b).curAddr
        remaining := (dmcTakeByte m b).remaining, irq := (dmcTakeByte m b).irq } := by
  unfold dmcTakeByte dmcRestart
  dsimp only
  split
  · split <;> rfl
  · rfl

theorem dmcTakeByte_buffer (m : Dmc) (b : Byte) : (dmcTakeByte m b).buffer = b :=
  congrArg (·.buffer) (dmcTakeByte_frame m b)

/-! The statement. -/

/-- Settles O51: the output unit by its timer and its last bit, the reader by where it stands in the sample. -/
theorem dmcReaderFetch : Obligations.DmcReaderFetch := by
  refine ⟨fun s => rfl, fun m => ⟨?count, ?output⟩, fun d s => ⟨?rate, ?level, ?addr, ?len, ?enable⟩,
    fun s => ⟨dmcReader_idle, ?fetch⟩⟩
  case count => exact fun h => ⟨_, dmcTimer_count h, bitVec_pred (mt (bitVec_eq_zero _).1 h)⟩
  case output =>
    intro h hbits last move
    refine ⟨BitVec.ofNat 9 (dmcRate.getD m.rateIndex.toNat 0 - 1), outputLevel m, ?_, dmcReload_toNat _,
      outputLevel_toNat m⟩
    rw [dmcTimer_zero h]
    exact dmcOutput_eq hbits
  case rate => exact apuAfter_dmcWrite (by decide) rfl (dmcWrite0_eq _ _)
  case level => exact apuAfter_dmcWrite (by decide) rfl (dmcWrite1_eq _ _)
  case addr => exact apuAfter_dmcWrite (by decide) rfl (dmcWrite2_eq _ _)
  case len => exact apuAfter_dmcWrite (by decide) rfl (dmcWrite3_eq _ _)
  case enable => exact apuAfter_of_apuWrite (by decide) (apuWriteEnable_eq _ _)
  case fetch =>
    intro he hr hm u
    have hread := dmcReader_fetch he hr hm
    have hu : u = dmcTakeByte s.apu.dmc (peek s s.apu.dmc.curAddr) := congrArg (fun t : State => t.apu.dmc) hread
    clear_value u
    subst hu
    refine ⟨hread, ?frame, dmcTakeByte_buffer _ _, fun h1 => ?middle, fun h1 hl => ?loop, fun h1 hl => ?finish⟩
    case frame =>
      rw [dmcTakeByte_buffer]
      exact dmcTakeByte_frame _ _
    case middle =>
      rw [dmcTakeByte_middle h1]
      exact ⟨bitVec_pred (mt (bitVec_eq_zero _).1 hr), rfl, nextAddr_toNat _⟩
    case loop =>
      rw [dmcTakeByte_loop h1 hl]
      exact ⟨rfl, rfl, rfl⟩
    case finish =>
      rw [dmcTakeByte_end h1 hl]
      exact ⟨rfl, rfl⟩

end Sys2Proof.Proofs
end

section
/-! PROOFS. Encoding and decoding (spec/30_encoding.md R57 to R64).  First that `decodeOp` gives every instruction
back from its opcode and operand bytes, then what it gives for each of the 256 opcodes. -/

namespace Sys2Proof.Proofs

open Sys2Proof.Machine

/-! From an instruction. -/

/-- The opcode and the operand bytes of a well-formed instruction decode to it; the cases are the modes R81 gives
each instruction, and a word is its two bytes put together again (R59). -/
theorem decodeOp_opcode_operandBytes {i : Instr} (h : i.wf = true) :
    decodeOp i.opcode (i.operandBytes.getD 0 0) (i.operandBytes.getD 1 0) = i := by
  cases i with
  | lda src | adc src | sbc src | and src | ora src | eor src | cmp src =>
    rcases src with b | m
    · rfl
    · cases m with
      | zpy _ => cases h
      | abs w | abx w | aby w =>
        conv_rhs => rw [← mkWord_hiByte_loByte w]
        rfl
      | _ => rfl
  | sta m =>
    cases m with
    | zpy _ => cases h
    | abs w | abx w | aby w =>
      conv_rhs => rw [← mkWord_hiByte_loByte w]
      rfl
    | _ => rfl
  | ldx src =>
    rcases src with b | m
    · rfl
    · cases m with
      | zpx _ | abx _ | izx _ | izy _ => cases h
      | abs w | aby w =>
        conv_rhs => rw [← mkWord_hiByte_loByte w]
        rfl
      | _ => rfl
  | ldy src =>
    rcases src with b | m
    · rfl
    · cases m with
      | zpy _ | aby _ | izx _ | izy _ => cases h
      | abs w | abx w =>
        conv_rhs => rw [← mkWord_hiByte_loByte w]
        rfl
      | _ => rfl
  | inc m | dec m =>
    cases m with
    | zpy _ | aby _ | izx _ | izy _ => cases h
    | abs w | abx w =>
      conv_rhs => rw [← mkWord_hiByte_loByte w]
      rfl
    | _ => rfl
  | asl t | lsr t | rol t | ror t =>
    rcases t with _ | m
    · rfl
    · cases m with
      | zpy _ | aby _ | izx _ | izy _ => cases h
      | abs w | abx w =>
        conv_rhs => rw [← mkWord_hiByte_loByte w]
        rfl
      | _ => rfl
  | cpx src | cpy src =>
    rcases src with b | m
    · rfl
    · cases m with
      | zp _ => rfl
      | abs w =>
        conv_rhs => rw [← mkWord_hiByte_loByte w]
        rfl
      | _ => cases h
  | bit m =>
    cases m with
    | zp _ => rfl
    | abs w =>
      conv_rhs => rw [← mkWord_hiByte_loByte w]
      rfl
    | _ => cases h
  | stx m =>
    cases m with
    | zp _ | zpy _ => rfl
    | abs w =>
      conv_rhs => rw [← mkWord_hiByte_loByte w]
      rfl
    | _ => cases h
  | sty m =>
    cases m with
    | zp _ | zpx _ => rfl
    | abs w =>
      conv_rhs => rw [← mkWord_hiByte_loByte w]
      rfl
    | _ => cases h
  | jmp j =>
    cases j with
    | abs w | ind w =>
      conv_rhs => rw [← mkWord_hiByte_loByte w]
      rfl
  | jsr w | nopAbs w =>
    conv_rhs => rw [← mkWord_hiByte_loByte w]
    rfl
  | nopAbx op w =>
    have hop : op ∈ nopAbxOpcodes := List.contains_iff_mem.1 h
    fin_cases hop <;> (conv_rhs => rw [← mkWord_hiByte_loByte w]) <;> rfl
  | nopImp op =>
    have hop : op ∈ nopImpOpcodes := List.contains_iff_mem.1 h
    fin_cases hop <;> rfl
  | nopImm op _ =>
    have hop : op ∈ nopImmOpcodes := List.contains_iff_mem.1 h
    fin_cases hop <;> rfl
  | nopZp op _ =>
    have hop : op ∈ nopZpOpcodes := List.contains_iff_mem.1 h
    fin_cases hop <;> rfl
  | nopZpx op _ =>
    have hop : op ∈ nopZpxOpcodes := List.contains_iff_mem.1 h
    fin_cases hop <;> rfl
  | unlisted op => exact decodeOp_unlisted h
  | _ => rfl

/-- The opcode byte gives every well-formed instruction its length (R64). -/
theorem opcodeLength_opcode {i : Instr} (h : i.wf = true) : opcodeLength i.opcode = 1 + i.operandBytes.length := by
  rw [← decodeOp_length i.opcode (i.operandBytes.getD 0 0) (i.operandBytes.getD 1 0),
    decodeOp_opcode_operandBytes h, Instr.length]

/-! From an opcode. -/

/-- The operand bytes of an instruction of length `n`, from the two bytes after its opcode; those of a word are what
its assembly leaves (R58, R59). -/
def operandBytesRead (n : Nat) (b1 b2 : Byte) : List Byte :=
  match n with
  | 1 => []
  | 2 => [b1]
  | _ => [loByte (mkWord b2 b1), hiByte (mkWord b2 b1)]

/-- What the decoder gives for the opcode of each row and column of the map is well-formed, and its operand bytes are
those after the opcode (R61). -/
theorem decodeOp_row_column (hi lo : Fin 16) (b1 b2 : Byte) :
    (decodeOp (BitVec.ofNat 8 (16 * hi + lo)) b1 b2).wf = true ∧
    (decodeOp (BitVec.ofNat 8 (16 * hi + lo)) b1 b2).operandBytes =
      operandBytesRead (opcodeLength (BitVec.ofNat 8 (16 * hi + lo))) b1 b2 := by
  fin_cases hi
  all_goals fin_cases lo <;> exact ⟨rfl, rfl⟩

theorem decodeOp_wf_operandBytes (op b1 b2 : Byte) :
    (decodeOp op b1 b2).wf = true ∧
    (decodeOp op b1 b2).operandBytes = operandBytesRead (opcodeLength op) b1 b2 := by
  have hrow := decodeOp_row_column ⟨op.toNat / 16, by omega⟩ ⟨op.toNat % 16, by omega⟩ b1 b2
  rwa [Nat.div_add_mod, BitVec.ofNat_toNat, BitVec.setWidth_eq] at hrow

theorem encode_decodeOp (op b1 b2 : Byte) :
    encode (decodeOp op b1 b2) = op :: operandBytesRead (opcodeLength op) b1 b2 := by
  rw [encode, decodeOp_opcode, (decodeOp_wf_operandBytes op b1 b2).2]

/-- The 77 opcodes of R63 have no operand, so what follows them does not matter. -/
theorem decodeOp_eq_unlisted_iff (op b1 b2 : Byte) : decodeOp op b1 b2 = .unlisted op ↔ op ∈ unlistedOpcodes := by
  obtain ⟨hwf, hbytes⟩ := decodeOp_wf_operandBytes op b1 b2
  constructor
  · intro h
    rw [h] at hwf
    exact List.contains_iff_mem.1 hwf
  · intro h
    have hop : unlistedOpcodes.contains op = true := List.contains_iff_mem.2 h
    have hself := decodeOp_opcode_operandBytes hwf
    rw [decodeOp_opcode, hbytes, opcodeLength_unlisted hop] at hself
    exact hself.symm.trans (decodeOp_unlisted hop)

/-! The statements. -/

/-- Settles O1, by the length of the operand. -/
theorem decodeOfEncode : Obligations.DecodeOfEncode := by
  intro i rest hwf
  have hlen := opcodeLength_opcode hwf
  have hle := operandBytes_length_le i
  have hdecode : decode (encode i ++ rest) =
      .ok (decodeOp i.opcode (i.operandBytes.getD 0 0) (i.operandBytes.getD 1 0), rest) := by
    unfold encode
    match i.operandBytes, hlen, hle with
    | [], hlen, _ => exact decode_one rest hlen
    | [b1], hlen, _ => exact decode_two b1 rest hlen
    | [b1, b2], hlen, _ => exact decode_three b1 b2 rest hlen
    | _ :: _ :: _ :: _, _, hle => exact absurd hle (by simp)
  rw [hdecode, decodeOp_opcode_operandBytes hwf]

/-- Settles O2, by the length that the opcode byte announces: the decoder consumes as many bytes, and they are the
encoding of what it gives. -/
theorem encodeOfDecode : Obligations.EncodeOfDecode := by
  intro bytes i rest h
  match bytes with
  | [] => cases h
  | op :: tail =>
    have hwf := fun b1 b2 => (decodeOp_wf_operandBytes op b1 b2).1
    have henc := encode_decodeOp op
    rcases opcodeLength_cases op with hlen | hlen | hlen
    · rw [decode_one _ hlen] at h
      cases h
      exact ⟨hwf 0 0, by rw [henc, hlen]; rfl⟩
    · match tail with
      | [] => simp [decode, hlen] at h
      | b1 :: tail =>
        rw [decode_two _ _ hlen] at h
        cases h
        exact ⟨hwf b1 0, by rw [henc, hlen]; rfl⟩
    · match tail with
      | [] | [_] => simp [decode, hlen] at h
      | b1 :: b2 :: tail =>
        rw [decode_three _ _ _ hlen] at h
        cases h
        exact ⟨hwf b1 b2, by rw [henc, hlen]; simp [operandBytesRead]⟩

/-- Settles O3. -/
theorem opcodeClasses : Obligations.OpcodeClasses :=
  ⟨decodeOp_eq_unlisted_iff, rfl, rfl, by decide +kernel⟩

/-- Settles O4: the words, one by one, with the length that each opcode announces. -/
theorem sampleWordsDecode : Obligations.SampleWordsDecode := by
  refine ⟨?_, ?_, ?_, ?_, ?_, ?_, ?_, ?_, ?_, ?_, ?_, ?_, ?_, ?_, ?_⟩ <;> rfl

end Sys2Proof.Proofs
end

section
/-! PROOFS. The whole machine, step by step: what one CPU cycle and one step can do, and what every instruction keeps.
From these the machine's invariant (spec/10_state.md R36), the configuration that no step changes
(spec/64_cartridge.md R232, R233) and the count of cycles (spec/60_exceptions.md R150). -/

namespace Sys2Proof.Proofs

open Sys2Proof.Machine Sys2Proof.Claims

/-! What every instruction keeps. -/

/-- B and U of `q` are those of `p`, or are 0 and 1 as in a pulled status (spec/10_state.md R28, R29, R32). -/
def StatusFrom (p q : Byte) : Prop :=
  (flagB q = flagB p ∧ flagU q = flagU p) ∨ (flagB q = false ∧ flagU q = true)

theorem StatusFrom.refl (p : Byte) : StatusFrom p p := .inl ⟨rfl, rfl⟩

theorem statusFrom_putNZ (p v : Byte) : StatusFrom p (putNZ p v) := .inl ⟨by simp, by simp⟩

theorem statusFrom_putAdd (p : Byte) (r : AddResult) : StatusFrom p (putAdd p r) := .inl ⟨by simp, by simp⟩

theorem statusFrom_putCompare (p reg m : Byte) : StatusFrom p (putCompare p reg m) := .inl ⟨by simp, by simp⟩

theorem statusFrom_putBitTest (p a m : Byte) : StatusFrom p (putBitTest p a m) := .inl ⟨by simp, by simp⟩

theorem statusFrom_putShift (p : Byte) (c : Bool) (r : Byte) : StatusFrom p (putShift p c r) :=
  .inl ⟨by simp, by simp⟩

theorem statusFrom_putC (p : Byte) (b : Bool) : StatusFrom p (putC p b) := .inl ⟨by simp, by simp⟩

theorem statusFrom_putI (p : Byte) (b : Bool) : StatusFrom p (putI p b) := .inl ⟨by simp, by simp⟩

theorem statusFrom_putD (p : Byte) (b : Bool) : StatusFrom p (putD p b) := .inl ⟨by simp, by simp⟩

theorem statusFrom_putV (p : Byte) (b : Bool) : StatusFrom p (putV p b) := .inl ⟨by simp, by simp⟩

theorem statusFrom_pulledStatus (p m : Byte) : StatusFrom p (pulledStatus m) := .inr ⟨by simp, by simp⟩

/-- What an instruction's bus accesses, its register and status writes and its window's length all keep, so that the
whole instruction keeps it.  The cycle count is in no instruction's reach. -/
structure KeptByParts (P : State → Prop) : Prop where
  setCpu : ∀ (s : State) (c : Cpu), StatusFrom s.cpu.p c.p → c.cyclesRemaining = s.cpu.cyclesRemaining →
    c.totalCycles = s.cpu.totalCycles → P s → P { s with cpu := c }
  setCycles : ∀ (s : State) (n : Nat), n ≤ 8 → P s → P (s.setCycles n)
  busRead : ∀ (addr : Word) (s : State), P s → P (busRead addr s).2
  busWrite : ∀ (addr : Word) (v : Byte) (s : State), P s → P (busWrite addr v s)

/-- The outcome is no next state but one with `P`. -/
def Answers (P : State → Prop) (o : Host.Outcome State Fault Refusal) : Prop := ∀ t, o = .next t → P t

section
variable {P : State → Prop}

theorem Answers.intro {s : State} (h : P s) : Answers P (.next s) := fun _ e => by cases e; exact h

namespace KeptByParts
variable (hP : KeptByParts P)
include hP

/-- A change of the registers alone. -/
theorem setRegs {s : State} {c : Cpu} (hs : P s) (hp : c.p = s.cpu.p)
    (hc : c.cyclesRemaining = s.cpu.cyclesRemaining) (ht : c.totalCycles = s.cpu.totalCycles) :
    P { s with cpu := c } :=
  hP.setCpu s c (hp ▸ StatusFrom.refl _) hc ht hs

theorem setP {s : State} {q : Byte} (hs : P s) (hq : StatusFrom s.cpu.p q) : P (s.setP q) :=
  hP.setCpu s _ hq rfl rfl hs

theorem setNZ {s : State} (v : Byte) (hs : P s) : P (s.setNZ v) := hP.setP hs (statusFrom_putNZ _ _)

theorem setA {s : State} (v : Byte) (hs : P s) : P (s.setA v) := hP.setRegs hs rfl rfl rfl

theorem setX {s : State} (v : Byte) (hs : P s) : P (s.setX v) := hP.setRegs hs rfl rfl rfl

theorem setY {s : State} (v : Byte) (hs : P s) : P (s.setY v) := hP.setRegs hs rfl rfl rfl

theorem setPC {s : State} (w : Word) (hs : P s) : P (s.setPC w) := hP.setRegs hs rfl rfl rfl

theorem setEA {s : State} (w : Word) (hs : P s) : P (s.setEA w) := hP.setRegs hs rfl rfl rfl

theorem setSP {s : State} (v : Byte) (hs : P s) : P (s.setSP v) := hP.setRegs hs rfl rfl rfl

theorem finish {s : State} {n : Nat} (hn : n ≤ 8) (hs : P s) : Answers P (finish n s) :=
  .intro (hP.setCycles s n hn hs)

theorem push {s : State} (v : Byte) (hs : P s) : P (push v s) :=
  hP.setSP _ (hP.busWrite _ _ _ hs)

theorem pull {s : State} (hs : P s) : P (pull s).2 := hP.busRead _ _ (hP.setSP _ hs)

theorem read16 {s : State} (lo hi : Word) (hs : P s) : P (read16 lo hi s).2 :=
  hP.busRead _ _ (hP.busRead _ _ hs)

theorem fetchByte {s : State} (hs : P s) : P (fetchByte s).2 := hP.setPC _ (hP.busRead _ _ hs)

theorem pushWord {s : State} (w : Word) (hs : P s) : P (pushWord w s) := hP.push _ (hP.push _ hs)

theorem pullWord {s : State} (hs : P s) : P (pullWord s).2 := hP.pull (hP.pull hs)

theorem takeException {s : State} (vector : Word) (status : Byte) (hs : P s) :
    P (takeException vector status s) :=
  hP.setPC _ (hP.read16 _ _ (hP.setP (hP.push _ (hP.pushWord _ hs)) (statusFrom_putI _ _)))

theorem returnFromException {s : State} (hs : P s) : P (returnFromException s) :=
  hP.setPC _ (hP.pullWord (hP.setP (hP.pull hs) (statusFrom_pulledStatus _ _)))

theorem locate {s : State} (m : MemOperand) (hs : P s) : P (locate m s).2 := by
  rw [locate_state]
  exact hP.setEA _ hs

theorem loadSource {s : State} (src : Source) (hs : P s) : P (loadSource src s).2 := by
  cases src with
  | imm b => exact hs
  | mem m => exact hP.busRead _ _ (hP.locate m hs)

theorem execRead {s : State} {src : Source} {act : Byte → State → State} (hact : ∀ v s, P s → P (act v s))
    (hs : P s) : Answers P (execRead src act s) :=
  hP.finish ((readCycles_le _ _).2.trans (by decide)) (hact _ _ (hP.loadSource src hs))

theorem execStore {s : State} {m : MemOperand} {v : Byte} (hs : P s) : Answers P (execStore m v s) :=
  hP.finish ((storeCycles_le m).2.trans (by decide)) (hP.busWrite _ _ _ (hP.locate m hs))

theorem execModify {s : State} {t : Target} {f : Byte → Byte} {status : Byte → Byte → Byte}
    (hstatus : ∀ p v, StatusFrom p (status p v)) (hs : P s) : Answers P (execModify t f status s) := by
  refine hP.finish (modifyCycles_le t).2 (hP.setP ?_ (hstatus _ _))
  cases t with
  | acc => exact hP.setRegs hs rfl rfl rfl
  | mem m => exact hP.busWrite _ _ _ (hP.busRead _ _ (hP.locate m hs))

theorem execBranch {s : State} {taken : Bool} {offset : Byte} (hs : P s) :
    Answers P (execBranch taken offset s) := by
  refine hP.finish ((branchCycles_le _ _).2.trans (by decide)) ?_
  split
  · exact hP.setPC _ hs
  · exact hs

/-- Every instruction is made of those parts. -/
theorem exec (i : Instr) {s : State} (hs : P s) : Answers P (exec i s) := by
  cases i with
  | lda src | ldx src | ldy src =>
    simp only [exec_lda, exec_ldx, exec_ldy]
    exact hP.execRead (fun v u hu => hP.setNZ v (hP.setRegs hu rfl rfl rfl)) hs
  | and src | ora src | eor src =>
    simp only [exec_and, exec_ora, exec_eor]
    exact hP.execRead (fun v u hu => hP.setNZ _ (hP.setA _ hu)) hs
  | adc src | sbc src | sbcAlias v =>
    simp only [exec_adc, exec_sbc, exec_sbcAlias]
    exact hP.execRead (fun v u hu => hP.setP (hP.setA _ hu) (statusFrom_putAdd _ _)) hs
  | bit m =>
    rw [exec_bit]
    exact hP.execRead (fun v u hu => hP.setP hu (statusFrom_putBitTest _ _ _)) hs
  | cmp src | cpx src | cpy src =>
    simp only [exec_cmp, exec_cpx, exec_cpy]
    exact hP.execRead (fun v u hu => hP.setP hu (statusFrom_putCompare _ _ _)) hs
  | sta m | stx m | sty m => exact hP.execStore hs
  | inc m | dec m =>
    simp only [exec_inc, exec_dec]
    exact hP.execModify (fun _ _ => statusFrom_putNZ _ _) hs
  | asl t | lsr t | rol t | ror t =>
    simp only [exec_asl, exec_lsr, exec_rol, exec_ror]
    exact hP.execModify (fun _ _ => statusFrom_putShift _ _ _) hs
  | tax | tsx | inx | dex => exact hP.finish (by decide) (hP.setNZ _ (hP.setX _ hs))
  | tay | iny | dey => exact hP.finish (by decide) (hP.setNZ _ (hP.setY _ hs))
  | txa | tya => exact hP.finish (by decide) (hP.setNZ _ (hP.setA _ hs))
  | txs => exact hP.finish (by decide) (hP.setSP _ hs)
  | clc | sec => exact hP.finish (by decide) (hP.setP hs (statusFrom_putC _ _))
  | cli | sei => exact hP.finish (by decide) (hP.setP hs (statusFrom_putI _ _))
  | cld | sed => exact hP.finish (by decide) (hP.setP hs (statusFrom_putD _ _))
  | clv => exact hP.finish (by decide) (hP.setP hs (statusFrom_putV _ _))
  | bpl o | bmi o | bvc o | bvs o | bcc o | bcs o | bne o | beq o => exact hP.execBranch hs
  | pha | php => exact hP.finish (by decide) (hP.push _ hs)
  | pla => exact hP.finish (by decide) (hP.setNZ _ (hP.setA _ (hP.pull hs)))
  | plp => exact hP.finish (by decide) (hP.setP (hP.pull hs) (statusFrom_pulledStatus _ _))
  | jmp j =>
    cases j with
    | abs w => exact hP.finish (by decide) (hP.setPC _ (hP.setEA _ hs))
    | ind p => exact hP.finish (by decide) (hP.setPC _ (hP.setEA _ (hP.read16 _ _ hs)))
  | jsr w => exact hP.finish (by decide) (hP.setPC _ (hP.pushWord _ (hP.setEA _ hs)))
  | rts => exact hP.finish (by decide) (hP.setPC _ (hP.pullWord hs))
  | brk => exact hP.finish (by decide) (hP.takeException _ _ (hP.setPC _ hs))
  | rti => exact hP.finish (by decide) (hP.returnFromException hs)
  | nop | nopImp _ | nopImm _ _ => exact hP.finish (by decide) hs
  | nopZp _ b => exact hP.finish (by decide) (hP.locate (.zp b) hs)
  | nopZpx _ b => exact hP.finish (by decide) (hP.locate (.zpx b) hs)
  | nopAbs w => exact hP.finish (by decide) (hP.locate (.abs w) hs)
  | nopAbx _ w =>
    exact hP.finish ((Nat.add_le_add_left (Bool.toNat_le _) 4).trans (by decide)) (hP.locate (.abx w) hs)
  | unlisted op => exact .intro (hP.setRegs hs rfl rfl rfl)

theorem fetchInstr {s : State} (hs : P s) : P (fetchInstr s).2 := by
  have hop := hP.busRead s.cpu.pc s hs
  unfold Machine.fetchInstr
  dsimp only
  split
  · exact hop
  · have hpc : P { (Machine.busRead s.cpu.pc s).2 with
        cpu := { (Machine.busRead s.cpu.pc s).2.cpu with
          opcode := (Machine.busRead s.cpu.pc s).1, pc := (Machine.busRead s.cpu.pc s).2.cpu.pc + 1 } } :=
      hP.setRegs hop rfl rfl rfl
    unfold fetchOperands
    split
    · exact hpc
    · exact hP.fetchByte hpc
    · exact hP.fetchByte (hP.fetchByte hpc)

end KeptByParts
end

/-! One CPU cycle and one step. -/

/-- What an instruction's first cycle answers: the count of the cycle, but for a recorded refusal, which ends it
(spec/60_exceptions.md R150, R151). -/
theorem runInstr_cases {s t : State} (h : runInstr s = .next t) :
    ∃ u, exec (fetchInstr s).1 (fetchInstr s).2 = .next u ∧
      ((u.cpu.refused.isSome = true ∧ t = { u with retired := false }) ∨
        (u.cpu.refused.isSome = false ∧ t = countCycle u)) := by
  obtain ⟨u, hu⟩ := exec_next (fetchInstr s).1 (fetchInstr s).2
  refine ⟨u, hu, ?_⟩
  unfold runInstr at h
  simp only [hu] at h
  split at h
  · next hr => cases h; exact .inl ⟨hr, rfl⟩
  · next hr => cases h; exact .inr ⟨by simpa using hr, rfl⟩

/-- Every kind of CPU cycle (spec/60_exceptions.md R150, R158). -/
theorem clock_cases {s t : State} (h : clock s = .next t) :
    (s.cpu.cyclesRemaining ≠ 0 ∧ t = countCycle s) ∨
    t = stallCycle s ∨
    t = countCycle (nmiEntry s) ∨
    t = countCycle (irqEntry s) ∨
    runInstr { s with cpu := { s.cpu with irqPending := false } } = .next t := by
  unfold clock at h
  split at h
  · next hw => cases h; exact .inl ⟨hw, rfl⟩
  split at h
  · cases h; exact .inr (.inl rfl)
  split at h
  · cases h; exact .inr (.inr (.inl rfl))
  split at h
  · cases h; exact .inr (.inr (.inr (.inl rfl)))
  · exact .inr (.inr (.inr (.inr h)))

/-- A step with no refusal recorded is the CPU's cycle inside the tick; a refusal recorded in it ends it
(spec/61_bus.md R169, log entry 13). -/
theorem step_of_refused_none {s u : State} (hr : s.cpu.refused = none) (hu : clock (tickBefore s) = .next u) :
    step s = if u.cpu.refused.isSome then .next u else .next (tickAfter u) := by
  unfold step tick
  simp only [hr, hu]

theorem step_of_refused_some {s : State} {m : RefusalMark} (hr : s.cpu.refused = some m) :
    step s = .refused (.unlistedOpcode m.opcode m.address) := by
  unfold step tick
  simp only [hr]

theorem step_cases {s t : State} (h : step s = .next t) :
    ∃ u, clock (tickBefore s) = .next u ∧
      ((u.cpu.refused.isSome = true ∧ t = u) ∨ (u.cpu.refused.isSome = false ∧ t = tickAfter u)) := by
  obtain ⟨u, hu⟩ := clock_next (tickBefore s)
  refine ⟨u, hu, ?_⟩
  cases hr : s.cpu.refused with
  | some m => rw [step_of_refused_some hr] at h; cases h
  | none =>
    rw [step_of_refused_none hr hu] at h
    split at h
    · next hm => cases h; exact .inl ⟨hm, rfl⟩
    · next hm => cases h; exact .inr ⟨by simpa using hm, rfl⟩

/-! The rest of the tick, outside the CPU's cycle. -/

@[simp] theorem ppuTick_cpu (s : State) : (ppuTick s).cpu = s.cpu := by rw [ppuTick]

@[simp] theorem nmiCheck_cpu (s : State) :
    (nmiCheck s).cpu = { s.cpu with nmiPending := s.cpu.nmiPending || s.ppu.nmiEdge } := by
  rw [nmiCheck_eq]
  cases s.ppu.nmiEdge <;> simp

theorem nmiCheck_frame (s : State) :
    nmiCheck s = { s with cpu := (nmiCheck s).cpu, ppu := { s.ppu with nmiEdge := false } } := by
  rw [nmiCheck_eq]
  split
  · rfl
  · next h => rw [← Bool.eq_false_iff.2 h]

/-- Before the CPU's cycle only an NMI request can reach the CPU (spec/61_bus.md R169, R170). -/
theorem tickBefore_cpu (s : State) :
    (tickBefore s).cpu = { s.cpu with nmiPending := (tickBefore s).cpu.nmiPending } := by
  unfold tickBefore
  simp only [nmiCheck_cpu, ppuTick_cpu]

theorem tickBefore_frame (s : State) :
    tickBefore s = { s with
      cpu := (tickBefore s).cpu, ppu := (tickBefore s).ppu, cart := (tickBefore s).cart } := by
  unfold tickBefore
  rw [nmiCheck_frame]
  simp only [ppuTick]

theorem irqCheck_frame (s : State) : irqCheck s = { s with cpu := (irqCheck s).cpu } := by
  rw [irqCheck_eq]
  split <;> rfl

@[simp] theorem irqCheck_cpu (s : State) :
    (irqCheck s).cpu =
      { s.cpu with irqPending := s.cpu.irqPending || ((apuIrq s.apu || cartIrq s.cart) && !flagI s.cpu.p) } := by
  rw [irqCheck_eq]
  cases (apuIrq s.apu || cartIrq s.cart) && !flagI s.cpu.p <;> simp

/-- The resampler changes its accumulator and the list of samples (spec/61_bus.md R177). -/
theorem resample_frame (s : State) :
    resample s = { s with
      bus := { s.bus with resampleAcc := (resample s).bus.resampleAcc }, samples := (resample s).samples } := by
  unfold resample
  dsimp only
  split <;> rfl

/-- The DMC's reader reads one byte on the bus and stalls the CPU (spec/63_apu.md R226). -/
theorem dmcReader_kept {P : State → Prop} (hstall : ∀ s n, P s → P (s.stall n))
    (hread : ∀ addr s, P s → P (busRead addr s).2) (hapu : ∀ s a, P s → P { s with apu := a }) {s : State}
    (hs : P s) : P (dmcReader s) := by
  unfold dmcReader
  split
  · exact hapu _ _ (hread _ _ (hstall _ _ hs))
  · exact hs

/-- After the CPU's cycle only a stall and an IRQ request can reach the CPU (spec/61_bus.md R169, R171). -/
theorem tickAfter_cpu (s : State) :
    (tickAfter s).cpu =
      { s.cpu with
        stallRemaining := (tickAfter s).cpu.stallRemaining, irqPending := (tickAfter s).cpu.irqPending } := by
  have hreader : (dmcReader { s with apu := apuUnits s.apu }).cpu =
      { s.cpu with stallRemaining := (dmcReader { s with apu := apuUnits s.apu }).cpu.stallRemaining } :=
    dmcReader_kept (P := fun u => u.cpu = { s.cpu with stallRemaining := u.cpu.stallRemaining })
      (fun u n hu => by rw [State.stall_cpu, hu]) (fun _ _ hu => by rwa [busRead_cpu]) (fun _ _ hu => hu) rfl
  have hstages : (tickAfter s).cpu = (irqCheck (resample (apuTick s))).cpu := rfl
  rw [hstages, irqCheck_cpu, resample_frame]
  exact hreader ▸ rfl

end Sys2Proof.Proofs
end

section
/-! PROOFS. The invariant, the configuration and the cycle count of a step (spec/10_state.md R36,
spec/64_cartridge.md R232, R233, spec/60_exceptions.md R150), each from what the parts of a tick keep. -/

namespace Sys2Proof.Proofs

open Sys2Proof.Machine Sys2Proof.Claims

/-! Taking an interrupt is taking an exception, with the request dropped before and the window set after. -/

theorem KeptByParts.nmiEntry {P : State → Prop} (hP : KeptByParts P) {s : State} (hs : P s) : P (nmiEntry s) := by
  have h : P { s with cpu := { s.cpu with nmiPending := false } } := hP.setRegs hs rfl rfl rfl
  exact hP.setCycles _ _ (by decide) (hP.takeException _ _ h)

/-- The window of IRQ entry is a parameter, so that `P` has to allow it. -/
theorem KeptByParts.irqEntry {P : State → Prop} (hP : KeptByParts P) {s : State} (hs : P s)
    (hcycles : ∀ u, P u → P (u.setCycles s.params.irqEntryCycles)) : P (irqEntry s) := by
  have h : P { s with cpu := { s.cpu with irqPending := false } } := hP.setRegs hs rfl rfl rfl
  exact hcycles _ (hP.takeException _ _ h)

/-! The invariant. -/

theorem StatusFrom.of_eq {p q : Byte} (h : q = p) : StatusFrom p q := h ▸ .refl p

theorem StatusFrom.statusOk {s t : State} (h : StatusFrom s.cpu.p t.cpu.p) (hs : StatusOk s) : StatusOk t := by
  rcases h with ⟨hb, hu⟩ | h
  · exact ⟨hb.trans hs.1, hu.trans hs.2⟩
  · exact h

/-- The invariant of a state whose devices are sound and whose CPU comes from a CPU that was. -/
theorem inv_of_deviceInv {s t : State} (hs : MachineInv s) (hd : DeviceInv t) (hp : StatusFrom s.cpu.p t.cpu.p)
    (hc : t.cpu.cyclesRemaining ≤ 8) (hq : t.params = s.params) : MachineInv t := by
  obtain ⟨hstatus, hparams, -, -⟩ := (inv_iff s).1 hs
  exact (inv_iff t).2 ⟨hp.statusOk hstatus, by unfold ParamsOk; rwa [hq], hc, hd⟩

theorem deviceInv_of_inv {s : State} (hs : MachineInv s) : DeviceInv s := ((inv_iff s).1 hs).2.2.2

theorem window_of_inv {s : State} (hs : MachineInv s) : s.cpu.cyclesRemaining ≤ 8 := ((inv_iff s).1 hs).2.2.1

/-- A change of the CPU alone. -/
theorem inv_setCpu {s : State} (hs : MachineInv s) (c : Cpu) (r : Bool) (hp : StatusFrom s.cpu.p c.p)
    (hc : c.cyclesRemaining ≤ 8) : MachineInv { s with cpu := c, retired := r } :=
  inv_of_deviceInv hs ((deviceInv_of_inv hs).congr rfl rfl rfl rfl) hp hc rfl

theorem machineInv_keptByParts : KeptByParts MachineInv where
  setCpu s c hp hc _ hs := inv_setCpu hs c s.retired hp (hc ▸ (window_of_inv hs))
  setCycles s n hn hs := inv_setCpu hs { s.cpu with cyclesRemaining := n } s.retired (StatusFrom.refl _) hn
  busRead addr s hs :=
    inv_of_deviceInv hs (busRead_inv (deviceInv_of_inv hs) addr) (busRead_cpu addr s ▸ StatusFrom.refl _)
      (busRead_cpu addr s ▸ (window_of_inv hs)) (busRead_params addr s)
  busWrite addr v s hs :=
    inv_of_deviceInv hs (busWrite_inv (deviceInv_of_inv hs) addr v)
      (.of_eq (by rw [busWrite_cpu])) (by rw [busWrite_cpu]; exact window_of_inv hs)
      (busWrite_params addr v s)

theorem countCycle_inv {s : State} (hs : MachineInv s) : MachineInv (countCycle s) :=
  inv_setCpu hs _ _ (StatusFrom.refl _) ((Nat.sub_le _ _).trans (window_of_inv hs))

theorem runInstr_inv {s t : State} (hs : MachineInv s) (h : runInstr s = .next t) : MachineInv t := by
  obtain ⟨u, hu, ⟨-, rfl⟩ | ⟨-, rfl⟩⟩ := runInstr_cases h
  all_goals have hinv := machineInv_keptByParts.exec _ (machineInv_keptByParts.fetchInstr hs) u hu
  · exact inv_setCpu hinv u.cpu false (StatusFrom.refl _) (window_of_inv hinv)
  · exact countCycle_inv hinv

theorem clock_inv {s t : State} (hs : MachineInv s) (h : clock s = .next t) : MachineInv t := by
  rcases clock_cases h with ⟨-, rfl⟩ | rfl | rfl | rfl | hrun
  · exact countCycle_inv hs
  · exact inv_setCpu hs _ _ (StatusFrom.refl _) (window_of_inv hs)
  · exact countCycle_inv (machineInv_keptByParts.nmiEntry hs)
  · have hparams : ParamsOk s := hs.2.1
    exact countCycle_inv (machineInv_keptByParts.irqEntry hs fun u => machineInv_keptByParts.setCycles u _ hparams.2)
  · have hdrop : MachineInv { s with cpu := { s.cpu with irqPending := false } } :=
      machineInv_keptByParts.setRegs hs rfl rfl rfl
    exact runInstr_inv hdrop hrun

theorem tickBefore_params (s : State) : (tickBefore s).params = s.params := by
  unfold tickBefore
  rw [nmiCheck_frame]
  simp only [ppuTick]

theorem tickBefore_inv {s : State} (hs : MachineInv s) : MachineInv (tickBefore s) := by
  have hd : DeviceInv (tickBefore s) := nmiCheck_inv (ppuTick_inv (ppuTick_inv (ppuTick_inv (deviceInv_of_inv hs))))
  refine inv_of_deviceInv hs hd (.of_eq (by rw [tickBefore_cpu])) ?_ (tickBefore_params s)
  rw [tickBefore_cpu]
  dsimp only
  exact window_of_inv hs

@[simp] theorem busRead_clock (addr : Word) (s : State) : (busRead addr s).2.bus.clock = s.bus.clock := by
  rw [busRead, busReadWith_frame false addr s _ rfl]

/-- After the CPU's cycle the cartridge and the parameters stay, and the tick is counted (spec/61_bus.md R169). -/
theorem tickAfter_keeps (s : State) :
    (tickAfter s).cart = s.cart ∧ (tickAfter s).params = s.params ∧
      (tickAfter s).bus.clock = s.bus.clock + 1 := by
  let u := dmcReader { s with apu := apuUnits s.apu }
  have hreader : u.cart = s.cart ∧ u.params = s.params ∧ u.bus.clock = s.bus.clock := by
    refine dmcReader_kept (P := fun u => u.cart = s.cart ∧ u.params = s.params ∧ u.bus.clock = s.bus.clock)
      (fun _ _ hu => hu) (fun addr u hu => ?_) (fun _ _ hu => hu) ⟨rfl, rfl, rfl⟩
    rwa [busRead_cart, busRead_params, busRead_clock]
  obtain ⟨hcart, hparams, hclock⟩ := hreader
  unfold tickAfter
  rw [irqCheck_frame, resample_frame]
  exact ⟨hcart, hparams, congrArg (· + 1) hclock⟩

theorem tickAfter_inv {s : State} (hs : MachineInv s) : MachineInv (tickAfter s) := by
  have hd : DeviceInv (tickAfter s) :=
    (irqCheck_inv (resample_inv (apuTick_inv (deviceInv_of_inv hs)))).congr rfl rfl rfl rfl
  exact inv_of_deviceInv hs hd (.of_eq (by rw [tickAfter_cpu])) (by rw [tickAfter_cpu]; exact window_of_inv hs)
    (tickAfter_keeps s).2.1

/-- Settles O57: the dots and the NMI check, the CPU's cycle and the rest of the tick each keep the invariant. -/
theorem invariantKeptByStep : Obligations.InvariantKeptByStep := by
  intro s t hs h
  obtain ⟨u, hu, hcases⟩ := step_cases h
  have hinv := clock_inv (tickBefore_inv hs) hu
  rcases hcases with ⟨-, rfl⟩ | ⟨-, rfl⟩
  · exact hinv
  · exact tickAfter_inv hinv

/-- Settles O56. -/
theorem invariantAtReset : Obligations.InvariantAtReset :=
  (inv_iff _).2 ⟨⟨rfl, rfl⟩, ⟨by decide, by decide⟩, Nat.le_succ 7, reset_deviceInv⟩

/-! The configuration. -/

/-- What the cartridge is made of: all but the mapper's registers, the mirror mode, PRG RAM and CHR RAM
(spec/64_cartridge.md R229, R232, R233). -/
def SameConfiguration (c d : Cartridge) : Prop :=
  d.prg = c.prg ∧ d.prgBanks = c.prgBanks ∧ d.chrBanks = c.chrBanks ∧ d.headerMirror = c.headerMirror ∧
  (c.chrBanks ≠ 0 → d.chr = c.chr)

theorem SameConfiguration.refl (c : Cartridge) : SameConfiguration c c := ⟨rfl, rfl, rfl, rfl, fun _ => rfl⟩

theorem SameConfiguration.trans {c d e : Cartridge} (h : SameConfiguration c d) (h' : SameConfiguration d e) :
    SameConfiguration c e := by
  obtain ⟨hprg, hbanks, hchrBanks, hmirror, hchr⟩ := h
  obtain ⟨hprg', hbanks', hchrBanks', hmirror', hchr'⟩ := h'
  exact ⟨hprg'.trans hprg, hbanks'.trans hbanks, hchrBanks'.trans hchrBanks, hmirror'.trans hmirror,
    fun h0 => (hchr' (hchrBanks ▸ h0)).trans (hchr h0)⟩

theorem sameConfiguration_chrWrite (c : Cartridge) (a : Nat) (d : Byte) :
    SameConfiguration c (chrWrite c a d) := by
  unfold chrWrite
  split
  · next h => exact ⟨rfl, rfl, rfl, rfl, fun h0 => absurd h h0⟩
  · exact .refl c

theorem sameConfiguration_writeData (c : Cartridge) (p : Ppu) (d : Byte) :
    SameConfiguration c (writeData c p d).1 := by
  change SameConfiguration c (ppuWrite c p (vAddr p.v) d).1
  unfold ppuWrite
  split
  · exact sameConfiguration_chrWrite c _ d
  · split <;> exact .refl c

theorem sameConfiguration_cartCpuWrite (c : Cartridge) (addr : Word) (d : Byte) :
    SameConfiguration c (cartCpuWrite c addr d) := by
  unfold cartCpuWrite
  split
  · exact .refl c
  · unfold controlWrite
    split <;> exact .refl c

theorem sameConfiguration_mapperTick (c : Cartridge) (p : Ppu) : SameConfiguration c (mapperTick c p) := by
  unfold mapperTick
  split
  · unfold scanlineTick
    split <;> exact .refl c
  · exact .refl c

/-- The cartridge after a bus write: only PPUDATA and the cartridge's own space reach it. -/
theorem sameConfiguration_busWrite (addr : Word) (v : Byte) (s : State) :
    SameConfiguration s.cart (busWrite addr v s).cart := by
  by_cases hcart : 0x6000 ≤ addr.toNat
  · rw [busWrite_cartSpace hcart]
    exact sameConfiguration_cartCpuWrite _ _ _
  by_cases hppu : 0x2000 ≤ addr.toNat ∧ addr.toNat ≤ 0x3FFF
  · rw [busWrite_ppu hppu.1 hppu.2]
    unfold noteWrite ppuRegWrite
    dsimp only
    split
    case h_7 => exact sameConfiguration_writeData _ _ _
    all_goals exact .refl _
  · rw [busWrite_cart (by omega)]
    exact .refl _

/-- The configuration and the parameters are those of `s`. -/
def KeepsConfiguration (s t : State) : Prop := SameConfiguration s.cart t.cart ∧ t.params = s.params

theorem keepsConfiguration_keptByParts (s : State) : KeptByParts (KeepsConfiguration s) where
  setCpu _ _ _ _ _ h := h
  setCycles _ _ _ h := h
  busRead addr t h := by
    rwa [KeepsConfiguration, busRead_cart, busRead_params]
  busWrite addr v t h :=
    ⟨h.1.trans (sameConfiguration_busWrite addr v t), (busWrite_params addr v t).trans h.2⟩

theorem keepsConfiguration_runInstr {s u t : State} (hu : KeepsConfiguration s u) (h : runInstr u = .next t) :
    KeepsConfiguration s t := by
  have hparts := keepsConfiguration_keptByParts s
  obtain ⟨r, hr, ⟨-, rfl⟩ | ⟨-, rfl⟩⟩ := runInstr_cases h
  all_goals exact hparts.exec _ (hparts.fetchInstr hu) r hr

theorem keepsConfiguration_clock {s t : State} (h : clock s = .next t) : KeepsConfiguration s t := by
  have hparts := keepsConfiguration_keptByParts s
  have hs : KeepsConfiguration s s := ⟨.refl _, rfl⟩
  rcases clock_cases h with ⟨-, rfl⟩ | rfl | rfl | rfl | hrun
  · exact hs
  · exact hs
  · have h := hparts.nmiEntry hs
    exact h
  · have h := hparts.irqEntry hs fun _ hu => hu
    exact h
  · exact keepsConfiguration_runInstr (u := { s with cpu := { s.cpu with irqPending := false } }) hs hrun

theorem sameConfiguration_tickBefore (s : State) : SameConfiguration s.cart (tickBefore s).cart := by
  have hdot (u : State) : SameConfiguration u.cart (ppuTick u).cart := sameConfiguration_mapperTick _ _
  unfold tickBefore
  rw [nmiCheck_frame]
  dsimp only
  exact ((hdot s).trans (hdot _)).trans (hdot _)

/-- Settles O58: the same for each part of a tick. -/
theorem stepKeepsConfiguration : Obligations.StepKeepsConfiguration := by
  intro s t h
  obtain ⟨u, hu, hcases⟩ := step_cases h
  obtain ⟨hcart, hparams⟩ := keepsConfiguration_clock hu
  have ht : t.cart = u.cart ∧ t.params = u.params := by
    rcases hcases with ⟨-, rfl⟩ | ⟨-, rfl⟩
    · exact ⟨rfl, rfl⟩
    · exact ⟨(tickAfter_keeps u).1, (tickAfter_keeps u).2.1⟩
  obtain ⟨hprg, hbanks, hchrBanks, hmirror, hchr⟩ := (sameConfiguration_tickBefore s).trans hcart
  rw [ht.1, ht.2]
  exact ⟨hprg, hbanks, hchrBanks, hmirror, hparams.trans (tickBefore_params s), hchr⟩

/-! The cycle count. -/

/-- A bus write leaves the system clock alone. -/
theorem busWrite_clock (addr : Word) (v : Byte) (s : State) : (busWrite addr v s).bus.clock = s.bus.clock := by
  have hcopy (n : Nat) (a : Word) (u : State) : (oamCopy n a u).bus.clock = u.bus.clock := by
    induction n generalizing a u with
    | zero => rfl
    | succ n ih =>
      rw [oamCopy, ih]
      exact busRead_clock a u
  simp only [busWrite, noteWrite]
  unfold routeWrite
  split
  · unfold ppuRegWrite; split <;> rfl
  split
  · simp only [oamDma, State.stall_bus, hcopy]
  split
  · unfold controllerStrobe; split <;> rfl
  split
  · rfl
  split
  · rfl
  split <;> rfl

/-- The cycle count and the system clock are those of `s`. -/
def KeepsClocks (s t : State) : Prop := t.cpu.totalCycles = s.cpu.totalCycles ∧ t.bus.clock = s.bus.clock

theorem keepsClocks_keptByParts (s : State) : KeptByParts (KeepsClocks s) where
  setCpu _ _ _ _ ht h := ⟨ht.trans h.1, h.2⟩
  setCycles _ _ _ h := h
  busRead addr t h :=
    ⟨(congrArg Cpu.totalCycles (busRead_cpu addr t)).trans h.1, (busRead_clock addr t).trans h.2⟩
  busWrite addr v t h :=
    ⟨by rw [busWrite_cpu]; exact h.1, (busWrite_clock addr v t).trans h.2⟩

/-- A CPU cycle that records no refusal is counted once, and the system clock is not touched. -/
theorem clock_counts {s t : State} (h : clock s = .next t) (hr : t.cpu.refused.isSome = false) :
    t.cpu.totalCycles = s.cpu.totalCycles + 1 ∧ t.bus.clock = s.bus.clock := by
  have hparts := keepsClocks_keptByParts s
  have hs : KeepsClocks s s := ⟨rfl, rfl⟩
  have hcount {u : State} (hu : KeepsClocks s u) :
      (countCycle u).cpu.totalCycles = s.cpu.totalCycles + 1 ∧ (countCycle u).bus.clock = s.bus.clock :=
    ⟨congrArg (· + 1) hu.1, hu.2⟩
  rcases clock_cases h with ⟨-, rfl⟩ | rfl | rfl | rfl | hrun
  · exact hcount hs
  · exact ⟨rfl, rfl⟩
  · exact hcount (hparts.nmiEntry hs)
  · exact hcount (hparts.irqEntry hs fun _ hu => hu)
  · obtain ⟨u, hu, ⟨hm, rfl⟩ | ⟨-, rfl⟩⟩ := runInstr_cases hrun
    · exact absurd (hr.symm.trans hm) Bool.false_ne_true
    · have hdrop : KeepsClocks s { s with cpu := { s.cpu with irqPending := false } } := hs
      exact hcount (hparts.exec _ (hparts.fetchInstr hdrop) u hu)

/-- Settles O59: of the parts of a tick only the CPU's cycle and the tick's last count are counted. -/
theorem stepCountsOneCycle : Obligations.StepCountsOneCycle := by
  refine ⟨fun s t h hr => ?_, fun _ => rfl, fun _ => rfl, fun s => ⟨fun h => ?_, fun h => ?_⟩⟩
  · obtain ⟨u, hu, ⟨hm, rfl⟩ | ⟨hm, rfl⟩⟩ := step_cases h
    · rw [hr] at hm; cases hm
    · obtain ⟨htotal, hclock⟩ := clock_counts hu hm
      rw [tickAfter_cpu, (tickAfter_keeps u).2.2, htotal, hclock, tickBefore_cpu, tickBefore_frame]
      exact ⟨rfl, rfl⟩
  · exact if_neg (Nat.not_le.2 h)
  · exact if_pos h

end Sys2Proof.Proofs
end

section
/-! PROOFS. The fetch and the kinds of CPU cycle (spec/60_exceptions.md R150, R151, R158), and the two interrupt checks
of a tick (spec/61_bus.md R170, R171). -/

namespace Sys2Proof.Proofs

open Sys2Proof.Machine Sys2Proof.Claims

/-! The fetch. -/

/-- At a fetching boundary the CPU's cycle is an instruction's first; a masked IRQ request is dropped before. -/
theorem clock_of_atFetch {s : State} (h : AtFetch s) :
    clock s = runInstr { s with cpu := { s.cpu with irqPending := false } } := by
  obtain ⟨hwindow, hstall, hnmi, hirq⟩ := h
  have hmasked : (s.cpu.irqPending && !flagI s.cpu.p) = false := by
    cases hq : s.cpu.irqPending with
    | false => rfl
    | true => rw [hirq hq]; rfl
  simp [clock, hwindow, hstall, hnmi, hmasked]

/-- No read depends on the CPU. -/
theorem peek_setCpu (s : State) (c : Cpu) (a : Word) : peek { s with cpu := c } a = peek s a :=
  peek_congr (s := s) (t := { s with cpu := c }) rfl rfl rfl rfl rfl rfl a

/-- An instruction whose bytes all lie in memory is fetched with no side effect. -/
theorem fetchInstr_afterFetch {s : State} {i : Instr} {rest : List Byte}
    (hm : ∀ k, k < i.length → IsMemory (s.cpu.pc + BitVec.ofNat 16 k))
    (hd : decode [peek s s.cpu.pc, peek s (s.cpu.pc + 1), peek s (s.cpu.pc + 2)] = .ok (i, rest)) :
    fetchInstr { s with cpu := { s.cpu with irqPending := false } } = (i, afterFetch i s) := by
  rw [fetchInstr_memory (s := { s with cpu := { s.cpu with irqPending := false } }) (rest := rest) hm
    (by simp only [peek_setCpu]; exact hd)]
  unfold afterFetch
  split <;> rfl

/-- The cycle that fetches an instruction runs it and is counted, but for a refusal (R150, R151). -/
theorem clock_of_exec {s t : State} {i : Instr} {rest : List Byte} (h : AtFetch s)
    (hm : ∀ k, k < i.length → IsMemory (s.cpu.pc + BitVec.ofNat 16 k))
    (hd : decode [peek s s.cpu.pc, peek s (s.cpu.pc + 1), peek s (s.cpu.pc + 2)] = .ok (i, rest))
    (ht : exec i (afterFetch i s) = .next t) :
    clock s = if t.cpu.refused.isSome then .next { t with retired := false } else .next (countCycle t) := by
  rw [clock_of_atFetch h, runInstr, fetchInstr_afterFetch hm hd]
  simp only [ht]

/-- A step whose CPU cycle fetches an instruction from memory. -/
theorem step_of_exec {s t : State} {i : Instr} {rest : List Byte} (hr : s.cpu.refused = none)
    (h : AtFetch (tickBefore s))
    (hm : ∀ k, k < i.length → IsMemory ((tickBefore s).cpu.pc + BitVec.ofNat 16 k))
    (hd : decode [peek (tickBefore s) (tickBefore s).cpu.pc, peek (tickBefore s) ((tickBefore s).cpu.pc + 1),
      peek (tickBefore s) ((tickBefore s).cpu.pc + 2)] = .ok (i, rest))
    (ht : exec i (afterFetch i (tickBefore s)) = .next t) :
    step s =
      if t.cpu.refused.isSome then .next { t with retired := false } else .next (tickAfter (countCycle t)) := by
  have hclock := clock_of_exec h hm hd ht
  cases hm : t.cpu.refused.isSome with
  | true =>
    rw [hm, if_pos rfl] at hclock
    rw [step_of_refused_none hr hclock, if_pos hm, if_pos rfl]
  | false =>
    rw [hm, if_neg Bool.false_ne_true] at hclock
    have hcount : (countCycle t).cpu.refused.isSome = false := hm
    rw [step_of_refused_none hr hclock, hcount, if_neg Bool.false_ne_true, if_neg Bool.false_ne_true]

/-- The opcode of an unlisted instruction is all of it (spec/30_encoding.md R63). -/
theorem decode_unlisted {op : Byte} (hop : op ∈ unlistedOpcodes) (rest : List Byte) :
    decode (op :: rest) = .ok (.unlisted op, rest) := by
  have hc : unlistedOpcodes.contains op = true := List.contains_iff_mem.2 hop
  rw [decode_one rest (opcodeLength_unlisted hc), decodeOp_unlisted hc]

/-- An unlisted instruction after its fetch, which leaves PC at the opcode (spec/60_exceptions.md R151). -/
theorem exec_unlisted_afterFetch {op : Byte} (hop : op ∈ unlistedOpcodes) (s : State) :
    exec (.unlisted op) (afterFetch (.unlisted op) s) =
      .next { s with cpu := { s.cpu with
        irqPending := false, refused := some { opcode := op, address := s.cpu.pc } } } := by
  have hfetch : afterFetch (.unlisted op) s = { s with cpu := { s.cpu with irqPending := false } } :=
    if_pos (List.contains_iff_mem.2 hop)
  rw [hfetch]
  rfl

/-! The statements. -/

/-- Settles O5: the first conjunct is the definition of a tick, the second the fetch. -/
theorem stepRunsDecodedInstruction : Obligations.StepRunsDecodedInstruction := by
  refine ⟨fun s hr => ?_, fun s i rest hr hfetch hm hd => ?_⟩
  · obtain ⟨u, hu⟩ := clock_next (tickBefore s)
    simp only [step_of_refused_none hr hu, hu]
  · obtain ⟨t, ht⟩ := exec_next i (afterFetch i (tickBefore s))
    simp only [step_of_exec hr hfetch hm hd ht, ht]

/-- Settles O6: `clock` answers a next state from every state. -/
theorem stepStopsOnlyOnRefusalMark : Obligations.StepStopsOnlyOnRefusalMark := by
  refine fun s => ⟨fun m hm => step_of_refused_some hm, fun hr => ?_⟩
  obtain ⟨u, hu⟩ := clock_next (tickBefore s)
  rw [step_of_refused_none hr hu]
  split
  · exact ⟨_, rfl⟩
  · exact ⟨_, rfl⟩

/-- Settles O7: the fetch of an unlisted opcode leaves PC, so that the mark's address is the opcode's. -/
theorem unlistedOpcodeRefuses : Obligations.UnlistedOpcodeRefuses := by
  refine ⟨fun op s => ⟨_, rfl, rfl⟩, fun s op hr hfetch hm hpeek hop => ?_⟩
  have hbytes : ∀ k, k < (Instr.unlisted op).length → IsMemory ((tickBefore s).cpu.pc + BitVec.ofNat 16 k) := by
    intro k hk
    obtain rfl : k = 0 := Nat.lt_one_iff.1 hk
    simpa using hm
  have hstep := step_of_exec hr hfetch hbytes (by rw [hpeek]; exact decode_unlisted hop _)
    (exec_unlisted_afterFetch hop _)
  simp only [Option.isSome_some, if_true] at hstep
  have hnext (t : State) (ht : t.cpu.refused = some ⟨op, (tickBefore s).cpu.pc⟩) := step_of_refused_some ht
  generalize tickBefore s = u at hstep hnext
  refine ⟨_, hstep, rfl, ⟨rfl, rfl, rfl, rfl, rfl, rfl, rfl, rfl⟩, ?_, rfl, hnext _ rfl⟩
  exact SameStores.sameMemory ⟨rfl, rfl, rfl, rfl, rfl, rfl⟩

/-- Settles O8. -/
theorem windowAndStallCycles : Obligations.WindowAndStallCycles := by
  refine fun s _ => ⟨fun hwindow => ?_, fun hboundary hstall => ?_⟩
  · refine ⟨countCycle s, if_pos hwindow, rfl, ⟨rfl, rfl, rfl, rfl, rfl, rfl, rfl, rfl⟩, ?_⟩
    rw [countCycle, decide_eq_true_iff]
    omega
  · refine ⟨stallCycle s, ?_, rfl, ⟨rfl, rfl, rfl, rfl, rfl, rfl, rfl, rfl⟩, rfl⟩
    simp [clock, hboundary, hstall]

/-- Settles O11. -/
theorem interruptRequestsQueued : Obligations.InterruptRequestsQueued := by
  intro s
  have hframe := nmiCheck_frame s
  refine ⟨nmiCheck_cpu s, by rw [hframe], ?_, irqCheck_frame s, irqCheck_cpu s, ?_⟩
  · rw [hframe]
  · rw [irqCheck_frame]
    exact sameDevices_setCpu s _

end Sys2Proof.Proofs
end

section
/-! PROOFS. The status on the stack, exceptions and the returns (spec/42_stack.md R95, R97,
spec/45_control_transfer.md R129 to R132, spec/60_exceptions.md R152 to R154, R159). -/

namespace Sys2Proof.Proofs

open Sys2Proof.Machine Sys2Proof.Claims

/-! Taking an exception. -/

/-- The three bytes of an exception's frame: the return address, high byte first, and a copy of the status. -/
theorem wrote_of_pushFrame {s t : State} {status : Byte} (hram : t.bus.ram = (s.pushFrame status).bus.ram)
    (hcart : t.cart = s.cart) :
    Wrote s t
      [(stackAddr s.cpu.sp, hiByte s.cpu.pc), (stackAddr (s.cpu.sp - 1), loByte s.cpu.pc),
        (stackAddr (s.cpu.sp - 2), status)] := by
  let u := (s.setRam (256 + s.cpu.sp.toNat) (hiByte s.cpu.pc)).setRam (256 + (s.cpu.sp - 1).toNat) (loByte s.cpu.pc)
  have hword : Wrote s u [(stackAddr s.cpu.sp, hiByte s.cpu.pc), (stackAddr (s.cpu.sp - 1), loByte s.cpu.pc)] :=
    wrote_of_stackWord rfl rfl
  have hstatus : Wrote u t [(stackAddr (s.cpu.sp - 2), status)] := wrote_of_stackCell hram hcart
  refine wrote_append hword hstatus fun x hx y hy halias => ?_
  simp only [List.mem_cons, List.not_mem_nil, or_false] at hx hy
  subst hy
  rcases hx with rfl | rfl
  · have hsp := ramAlias_stackAddr halias
    bv_omega
  · have hsp := ramAlias_stackAddr halias
    bv_omega

theorem sameButRam_setRam (s : State) (c : Cpu) (ram : Mem) (r : Bool) :
    SameButRam s { s with cpu := c, bus := { s.bus with ram := ram }, retired := r } :=
  ⟨rfl, rfl, rfl, rfl, rfl, rfl, rfl, rfl⟩

theorem setsI_putI (p : Byte) : SetsI p (putI p true) := by simp [SetsI]

/-- What was written does not depend on the CPU. -/
theorem wrote_setCpu {s t : State} {c : Cpu} {bytes : List (Word × Byte)} :
    Wrote { s with cpu := c } t bytes ↔ Wrote s t bytes := by
  simp only [Wrote, peek_setCpu]

theorem exec_brk (s : State) :
    exec .brk s = finish 7
      (((((s.setPC (s.cpu.pc + 1)).pushFrame (softwareStatus s.cpu.p)).setSP (s.cpu.sp - 3)).setP
        (putI s.cpu.p true)).setPC (mkWord (peek s 0xFFFF) (peek s 0xFFFE))) := by
  have h := takeException_eq (vector := 0xFFFE) (by decide) (by decide) (softwareStatus s.cpu.p)
    (s.setPC (s.cpu.pc + 1))
  have hpeek (a : Word) : peek (s.setPC (s.cpu.pc + 1)) a = peek s a := peek_setCpu s _ a
  rw [hpeek, hpeek] at h
  exact congrArg (finish 7) h

theorem exec_rti (s : State) :
    exec .rti s = finish 6
      (((s.setP (pulledStatus (peek s (stackAddr (s.cpu.sp + 1))))).setSP (s.cpu.sp + 3)).setPC
        (mkWord (peek s (stackAddr (s.cpu.sp + 3))) (peek s (stackAddr (s.cpu.sp + 2))))) := by
  simp only [peek_stackAddr]
  exact congrArg (finish 6) (returnFromException_eq s)

theorem exec_php (s : State) : exec .php s = finish 3 (push (softwareStatus s.cpu.p) s) := rfl

theorem exec_plp (s : State) :
    exec .plp s =
      finish 4 ((s.setSP (s.cpu.sp + 1)).setP (pulledStatus (peek s (stackAddr (s.cpu.sp + 1))))) := by
  have h : exec .plp s = finish 4 ((pull s).2.setP (pulledStatus (pull s).1)) := rfl
  rw [h, pull_eq_peek]

theorem pulled_pulledStatus (m : Byte) : Pulled m (pulledStatus m) := by simp [Pulled]

theorem pulled_pulledStatus_softwareStatus (p : Byte) : Pulled p (pulledStatus (softwareStatus p)) := by
  simp [Pulled]

/-! The statements. -/

/-- Settles O9. -/
theorem nmiTaken : Obligations.NmiTaken := by
  intro s _ hwindow hstall hnmi
  refine ⟨countCycle (nmiEntry s), by simp [clock, hwindow, hstall, hnmi], ?_⟩
  rw [nmiEntry, interruptEntry, takeException_eq (by decide) (by decide), peek_setCpu, peek_setCpu]
  exact ⟨rfl, setsI_putI _, wrote_of_pushFrame rfl rfl, sameButRam_setRam s _ _ _, rfl⟩

/-- Settles O10. -/
theorem irqTaken : Obligations.IrqTaken := by
  intro s _ hwindow hstall hnmi hirq hI
  refine ⟨countCycle (irqEntry s), by simp [clock, hwindow, hstall, hnmi, hirq, hI], ?_⟩
  rw [irqEntry, interruptEntry, takeException_eq (by decide) (by decide), peek_setCpu, peek_setCpu]
  exact ⟨rfl, setsI_putI _, wrote_of_pushFrame rfl rfl, sameButRam_setRam s _ _ _⟩

/-- Settles O16. -/
theorem statusPushPull : Obligations.StatusPushPull := by
  refine ⟨rfl, rfl, fun s => ⟨completesPush (exec_php s), ?_⟩⟩
  exact ⟨_, exec_plp s, rfl, pulled_pulledStatus _, sameDevices_setCpu s _, (sameStores_setCpu s _).sameMemory, rfl⟩

/-- Settles O27. -/
theorem brkResult : Obligations.BrkResult := by
  refine ⟨rfl, fun s => ⟨_, exec_brk s, rfl, setsI_putI _, ?_, sameButRam_setRam s _ _ _, rfl⟩⟩
  exact wrote_setCpu.1 (wrote_of_pushFrame (s := s.setPC (s.cpu.pc + 1)) rfl rfl)

/-- Settles O28. -/
theorem rtiResult : Obligations.RtiResult :=
  ⟨rfl, fun s => ⟨_, exec_rti s, rfl, pulled_pulledStatus _, sameDevices_setCpu s _,
    (sameStores_setCpu s _).sameMemory, rfl⟩⟩

/-- A byte of the stack after it was written. -/
theorem peek_of_wrote {s t : State} {bytes : List (Word × Byte)} (h : Wrote s t bytes) {sp v : Byte}
    (hmem : (stackAddr sp, v) ∈ bytes) : peek t (stackAddr sp) = v := by
  have hram : (stackAddr sp).toNat ≤ 0x1FFF := by rw [stackAddr_toNat]; omega
  exact (h _ (isMemory_stackAddr sp)).1 _ hmem ⟨hram, hram, rfl⟩

theorem SameButRam.trans_sameDevices {s t u : State} (h : SameButRam s t) (h' : SameDevices t u) :
    SameButRam s u := by
  obtain ⟨hbus, hppu, hapu, hcart, hparams, hdraws, hsamples, hwrites⟩ := h
  obtain ⟨hbus', hppu', hapu', hcart', hparams', hdraws', hsamples', hwrites'⟩ := h'
  exact ⟨by rw [hbus', ← hbus], hppu'.trans hppu, hapu'.trans hapu, hcart'.trans hcart, hparams'.trans hparams,
    hdraws'.trans hdraws, hsamples'.trans hsamples, hwrites'.trans hwrites⟩

/-- Settles O29, from what JSR leaves on the stack and RTS takes from it. -/
theorem rtsReturnsFromJsr : Obligations.RtsReturnsFromJsr := by
  intro w s
  obtain ⟨-, -, ⟨t, ht, htcpu, hwrote, htram, -⟩, -⟩ := callReturnResult w s
  obtain ⟨-, -, -, ⟨u, hu, hucpu, hupc, hudevices, -⟩⟩ := callReturnResult w t
  have hsp : t.cpu.sp = s.cpu.sp - 2 := by rw [htcpu]
  have hpc : u.cpu.pc = s.cpu.pc := by
    rw [hsp, show s.cpu.sp - 2 + 2 = s.cpu.sp by bv_omega, show s.cpu.sp - 2 + 1 = s.cpu.sp - 1 by bv_omega,
      peek_of_wrote hwrote (.head _), peek_of_wrote hwrote (.tail _ (.head _)), hiByte_toNat, loByte_toNat] at hupc
    bv_omega
  refine ⟨t, u, ht, hu, ?_, SameButRam.trans_sameDevices htram hudevices⟩
  rw [hpc] at hucpu
  rw [hucpu, htcpu]
  simp

/-- Settles O30, from what BRK leaves on the stack and RTI takes from it. -/
theorem rtiReturnsFromBrk : Obligations.RtiReturnsFromBrk := by
  intro s
  obtain ⟨t, ht, htcpu, -, hwrote, htram, -⟩ := brkResult.2 s
  obtain ⟨u, hu, hucpu, hpulled, hudevices, -⟩ := rtiResult.2 t
  have hsp : t.cpu.sp = s.cpu.sp - 3 := by rw [htcpu]
  have hhi := peek_of_wrote hwrote (.head _)
  have hlo := peek_of_wrote hwrote (.tail _ (.head _))
  have hstatus := peek_of_wrote hwrote (.tail _ (.tail _ (.head _)))
  rw [hsp, show s.cpu.sp - 3 + 3 = s.cpu.sp by bv_omega, show s.cpu.sp - 3 + 2 = s.cpu.sp - 1 by bv_omega, hhi, hlo,
    mkWord_hiByte_loByte] at hucpu
  rw [hsp, show s.cpu.sp - 3 + 1 = s.cpu.sp - 2 by bv_omega, hstatus] at hpulled
  refine ⟨t, u, ht, hu, ?_, ?_, SameButRam.trans_sameDevices htram hudevices⟩
  · rw [hucpu, htcpu]
  · simpa [Pulled, flagC, flagZ, flagI, flagD, flagV, flagN] using hpulled

end Sys2Proof.Proofs
end

section
/-! PROOFS. The interrupt-disable flag inside a tick (spec/46_flags_nop.md R135, R136, spec/61_bus.md R171), the
unofficial NOPs (spec/46_flags_nop.md R141 to R146) and the effective addresses (spec/40_addressing_modes.md R71 to
R80). -/

namespace Sys2Proof.Proofs

open Sys2Proof.Machine Sys2Proof.Claims

/-! The IRQ check at the end of a tick. -/

/-- The APU's tick may stall the CPU, and leaves it otherwise alone, as it does the cartridge. -/
theorem apuTick_cpu_cart (s : State) :
    (apuTick s).cpu = { s.cpu with stallRemaining := (apuTick s).cpu.stallRemaining } ∧
      (apuTick s).cart = s.cart := by
  let P (u : State) : Prop := u.cpu = { s.cpu with stallRemaining := u.cpu.stallRemaining } ∧ u.cart = s.cart
  have hreader : P (dmcReader { s with apu := apuUnits s.apu }) := by
    refine dmcReader_kept (P := P) (fun u n hu => ?_) (fun addr u hu => ?_) (fun _ _ hu => hu) ⟨rfl, rfl⟩
    · exact ⟨by rw [State.stall_cpu, hu.1], hu.2⟩
    · simpa only [P, busRead_cpu, busRead_cart] using hu
  exact hreader

/-- An IRQ is queued at the end of a tick where one was, or where a source asserts one after the APU's tick and I is
clear (R171). -/
theorem tickAfter_irqPending (s : State) :
    (tickAfter s).cpu.irqPending =
      (s.cpu.irqPending || ((apuIrq (apuTick s).apu || cartIrq s.cart) && !flagI s.cpu.p)) := by
  obtain ⟨hcpu, hcart⟩ := apuTick_cpu_cart s
  have hcheck : (tickAfter s).cpu = (irqCheck (resample (apuTick s))).cpu := rfl
  rw [hcheck, irqCheck_cpu, resample_frame]
  dsimp only
  rw [hcart, hcpu]

/-- The DMC's reader clears no DMC IRQ. -/
theorem apuTick_dmcIrq {s : State} (h : s.apu.dmc.irq = true) : (apuTick s).apu.dmc.irq = true := by
  have hunits : (apuUnits s.apu).dmc.irq = true := by
    rw [(apuUnits_eq s.apu).2, (dmcTimer_reader _).1, h]
  change (dmcReader { s with apu := apuUnits s.apu }).apu.dmc.irq = true
  unfold dmcReader
  dsimp only
  split
  · refine dmcTakeByte_irq _ ?_
    rw [busRead, busReadWith_frame false _ (State.stall _ _) _ rfl]
    exact hunits
  · exact hunits

/-- Where the DMC reads memory its reader acknowledges no frame IRQ (R213, log entry 14). -/
theorem apuTick_frameIrq {s : State} (h : s.apu.frame.irq = true) (hm : DmcReadsMemory s.apu.dmc) :
    (apuTick s).apu.frame.irq = true := by
  obtain ⟨hframe, hdmc⟩ := apuUnits_eq s.apu
  have hunits : (apuUnits s.apu).frame.irq = true := by rw [hframe]; exact frameStep_irq h
  have hmemory : IsMemory (apuUnits s.apu).dmc.curAddr := by
    rw [hdmc, (dmcTimer_reader _).2.1]
    exact hm.isMemory
  change (dmcReader { s with apu := apuUnits s.apu }).apu.frame.irq = true
  by_cases hfetch : (apuUnits s.apu).dmc.bufferEmpty = false ∨ (apuUnits s.apu).dmc.remaining.toNat = 0
  · rw [dmcReader_idle (s := { s with apu := apuUnits s.apu }) hfetch]
    exact hunits
  · rw [not_or, Bool.not_eq_false] at hfetch
    rw [dmcReader_fetch (s := { s with apu := apuUnits s.apu }) hfetch.1 hfetch.2 hmemory]
    exact hunits

theorem putI_writes_flagI_alone (p : Byte) (b : Bool) :
    flagI (putI p b) = b ∧ flagC (putI p b) = flagC p ∧ flagZ (putI p b) = flagZ p ∧ flagD (putI p b) = flagD p ∧
      flagB (putI p b) = flagB p ∧ flagU (putI p b) = flagU p ∧ flagV (putI p b) = flagV p ∧
      flagN (putI p b) = flagN p := by
  simp

theorem exec_cli (s : State) : exec .cli s = finish 2 (s.setP (putI s.cpu.p false)) := rfl

theorem exec_sei (s : State) : exec .sei s = finish 2 (s.setP (putI s.cpu.p true)) := rfl

/-- Settles O32: the check at the end of the tick sees the status that the instruction left. -/
theorem interruptDisableResult : Obligations.InterruptDisableResult := by
  refine ⟨rfl, rfl, fun s => ⟨?_, fun hsource => ?_, fun hidle => ?_⟩⟩
  · rintro i b (⟨rfl, rfl⟩ | ⟨rfl, rfl⟩)
    · exact completesRegs_of_finish (exec_cli s) (putI_writes_flagI_alone _ _)
    · exact completesRegs_of_finish (exec_sei s) (putI_writes_flagI_alone _ _)
  · refine ⟨_, exec_cli s, ?_⟩
    set u := countCycle ((s.setP (putI s.cpu.p false)).setCycles 2)
    have hasserted : (apuIrq (apuTick u).apu || cartIrq u.cart) = true := by
      rcases hsource with hdmc | ⟨m, hmapper, hline⟩ | ⟨hframe, hmemory⟩
      · have hirq : (apuTick u).apu.dmc.irq = true := apuTick_dmcIrq hdmc
        simp [apuIrq, hirq]
      · have hirq : cartIrq u.cart = true := by
          change cartIrq s.cart = true
          rw [cartIrq, hmapper]
          exact hline
        simp [hirq]
      · have hirq : (apuTick u).apu.frame.irq = true := apuTick_frameIrq hframe hmemory
        simp [apuIrq, hirq]
    have hclear : flagI u.cpu.p = false := flagI_putI s.cpu.p false
    rw [tickAfter_irqPending, hasserted, hclear]
    simp
  · refine ⟨_, exec_sei s, ?_⟩
    set u := countCycle ((s.setP (putI s.cpu.p true)).setCycles 2)
    have hset : flagI u.cpu.p = true := flagI_putI s.cpu.p true
    have hnone : u.cpu.irqPending = false := hidle
    rw [tickAfter_irqPending, hset, hnone]
    simp

/-! The unofficial NOPs. -/

/-- An instruction that computes an address and reads nothing. -/
theorem completesRegs_of_locate {i : Instr} {m : MemOperand} {s : State} {n : Nat}
    (h : exec i s = finish n (locate m s).2) :
    CompletesRegs i s { s.cpu with ea := addressOf m s } n (fun q => q = s.cpu.p) := by
  rw [locate_state] at h
  exact completesRegs_of_finish (q := s.cpu.p) h rfl

theorem indexed_toNat (base : Word) (index : Byte) :
    (indexed base index).ea.toNat = (base.toNat + index.toNat) % 0x10000 := by
  rw [indexed, BitVec.toNat_add, zext16_toNat]

theorem indexed_crossed (base : Word) (index : Byte) :
    (indexed base index).crossed = true ↔ (base.toNat + index.toNat) % 0x10000 / 256 ≠ base.toNat / 256 := by
  rw [← indexed_toNat]
  exact crosses_iff _ _

/-- Settles O33. -/
theorem unofficialNopResult : Obligations.UnofficialNopResult := by
  intro op b w s
  refine ⟨rfl, rfl, rfl, rfl, rfl, rfl, completesRegs_of_finish (q := s.cpu.p) rfl rfl,
    completesRegs_of_finish (q := s.cpu.p) rfl rfl, ⟨_, completesRegs_of_locate rfl⟩,
    ⟨_, completesRegs_of_locate rfl⟩, ⟨_, completesRegs_of_locate rfl⟩, ⟨_, completesRegs_of_locate (m := .abx w) ?_⟩⟩
  have hexec : exec (.nopAbx op w) s = finish (4 + (indexed w s.cpu.x).crossed.toNat) (locate (.abx w) s).2 := rfl
  rw [hexec]
  congr 1
  split
  · next h => simp [mt (indexed_crossed w s.cpu.x).1 (not_not.2 h)]
  · next h => simp [(indexed_crossed w s.cpu.x).2 h]

/-! The effective addresses. -/

/-- A zero-page pointer as a number, low byte first. -/
theorem zeroPagePointer_toNat (z : Byte) (s : State) :
    (zeroPagePointer z s).1.toNat =
      (readCell s.bus.ram z.toNat).toNat + 256 * (readCell s.bus.ram ((z.toNat + 1) % 256)).toNat := by
  rw [zeroPagePointer_eq, mkWord_toNat, add_one_toNat, Nat.add_comm]

/-- Settles O34, mode by mode. -/
theorem effectiveAddresses : Obligations.EffectiveAddresses := by
  intro b w s
  have hzx := zeroPagePointer_toNat (b + s.cpu.x) s
  have hzy := zeroPagePointer_toNat b s
  refine ⟨fun m => locate_state m s, ⟨zext16_toNat b, rfl⟩, ⟨?_, rfl⟩, ⟨?_, rfl⟩, ⟨rfl, rfl⟩,
    ⟨indexed_toNat _ _, indexed_crossed _ _⟩, ⟨indexed_toNat _ _, indexed_crossed _ _⟩, ⟨?_, rfl⟩, ?_⟩
  case refine_1 => exact (zext16_toNat _).trans (BitVec.toNat_add _ _)
  case refine_2 => exact (zext16_toNat _).trans (BitVec.toNat_add _ _)
  case refine_3 =>
    refine hzx.trans ?_
    rw [BitVec.toNat_add, Nat.mod_add_mod]
  case refine_4 =>
    have hlocated : (locate (.izy b) s).1 = indexed (zeroPagePointer b s).1 s.cpu.y := by
      simp only [locate, effectiveAddress, zeroPagePointer_eq]
    dsimp only
    rw [← hzy, hlocated]
    exact ⟨indexed_toNat _ _, indexed_crossed _ _⟩

end Sys2Proof.Proofs
end

section
/-! PROOFS. The bus (spec/20_memory.md R40 to R48, spec/61_bus.md R172 to R179): what a read returns and changes, region
by region, the controllers, OAM DMA and the bus reset (spec/70_reset_and_hazards.md R248 to R250). -/

namespace Sys2Proof.Proofs

open Sys2Proof.Machine Sys2Proof.Claims

/-! Reads. -/

/-- A read with no side effect returns the same byte (R48). -/
theorem busReadWith_value (ro : Bool) (addr : Word) (s : State) :
    (busReadWith ro addr s).1 = (busReadWith false addr s).1 := by
  have hppu (reg : BitVec 3) : (ppuRegRead ro reg s).1 = (ppuRegRead false reg s).1 := by
    unfold ppuRegRead
    split <;> rfl
  unfold busReadWith
  split
  · exact hppu _
  split
  · rfl
  split
  · rfl
  split
  · rfl
  split
  · rfl
  · split <;> rfl

/-- Of the PPU's registers only PPUSTATUS and PPUDATA have a read side effect (spec/62_ppu.md section 3). -/
theorem ppuRegRead_state {reg : BitVec 3} (hstatus : reg.toNat ≠ 2) (hdata : reg.toNat ≠ 7) (ro : Bool) (s : State) :
    (ppuRegRead ro reg s).2 = s := by
  unfold ppuRegRead
  split
  · next h => exact absurd h hstatus
  · rfl
  · next h => exact absurd h hdata
  · rfl

/-- The write-only registers read 0. -/
theorem ppuRegRead_writeOnly {reg : BitVec 3} (hstatus : reg.toNat ≠ 2) (hoam : reg.toNat ≠ 4) (hdata : reg.toNat ≠ 7)
    (ro : Bool) (s : State) : ppuRegRead ro reg s = (0, s) := by
  unfold ppuRegRead
  split
  · next h => exact absurd h hstatus
  · next h => exact absurd h hoam
  · next h => exact absurd h hdata
  · rfl

theorem busRead_ppuStatus {a : Word} (h : 0x2000 ≤ a.toNat) (h' : a.toNat ≤ 0x3FFF) (hk : a.toNat % 8 = 2) (s : State) :
    busRead a s = (statusByte s.ppu (Config.busLatch s.draws),
      { s with ppu := afterStatusRead s.ppu, draws := s.draws + 1 }) := by
  rw [busRead, busReadWith_ppu h h', ppuReg_of_mod (k := 2) hk]
  rfl

theorem busRead_apuStatus {a : Word} (h : a.toNat = 0x4015) (s : State) :
    busRead a s = (apuStatus s.apu, { s with apu := afterStatusReadApu s.apu }) := by
  simp [busRead, busReadWith, h]

theorem busRead_port1 {a : Word} (h : a.toNat = 0x4016) (s : State) : busRead a s = controllerRead1 false s := by
  simp [busRead, busReadWith, h]

theorem busRead_port2 {a : Word} (h : a.toNat = 0x4017) (s : State) : busRead a s = controllerRead2 false s := by
  simp [busRead, busReadWith, h]

/-- Every read but those of PPUSTATUS, PPUDATA, 0x4015 and the controllers changes nothing (R48). -/
theorem busRead_state {a : Word}
    (hppu : a.toNat < 0x2000 ∨ 0x3FFF < a.toNat ∨ (a.toNat % 8 ≠ 2 ∧ a.toNat % 8 ≠ 7)) (h5 : a.toNat ≠ 0x4015)
    (h6 : a.toNat ≠ 0x4016) (h7 : a.toNat ≠ 0x4017) (s : State) : (busRead a s).2 = s := by
  by_cases hm : a.toNat ≤ 0x1FFF ∨ 0x6000 ≤ a.toNat
  · rw [busRead_memory hm]
  by_cases hreg : a.toNat ≤ 0x3FFF
  · rw [busRead, busReadWith_ppu (by omega) hreg]
    exact ppuRegRead_state (by rw [ppuReg_toNat]; omega) (by rw [ppuReg_toNat]; omega) _ _
  · rw [busRead, busReadWith_hole (by omega)]

/-! Bits of a byte put together. -/

theorem getLsbD_bitAt {n k : Nat} (hk : k < n) (j : Nat) (b : Bool) :
    (bitAt n k b).getLsbD j = (b && decide (j = k)) := by
  cases b with
  | false => simp [bitAt]
  | true =>
    simp only [bitAt, if_true, BitVec.getLsbD_shiftLeft, BitVec.getLsbD_one, Bool.true_and]
    by_cases h : j = k
    · subst h; simp [hk, Nat.zero_lt_of_lt hk]
    · simp only [h, decide_false]
      simp only [Bool.and_eq_false_iff, decide_eq_false_iff_not, Bool.not_eq_false', decide_eq_true_iff]
      omega

/-- The bits of PPUSTATUS: three flags, and the draw below them (spec/62_ppu.md R187). -/
theorem statusByte_getLsbD (p : Ppu) (latch : BitVec 5) (k : Nat) :
    (statusByte p latch).getLsbD k =
      ((p.vblank && decide (k = 7) || p.sprite0Hit && decide (k = 6) || p.spriteOverflow && decide (k = 5)) ||
        (decide (k < 8) && latch.getLsbD k)) := by
  simp (disch := decide) only [statusByte, BitVec.getLsbD_or, getLsbD_bitAt, BitVec.getLsbD_setWidth]

/-- Bit 0 alone. -/
theorem bitAt_zero (b : Bool) : bitAt 8 0 b = if b then 0x01 else 0x00 := by cases b <;> rfl

/-- A read of port 2 with a Zapper: bits 0, 3 and 4 (spec/61_bus.md R175). -/
theorem portByte_toNat (button light released : Bool) :
    (bitAt 8 0 button ||| (bitAt 8 3 light ||| bitAt 8 4 released)).toNat =
      button.toNat + 8 * light.toNat + 16 * released.toNat := by
  revert button light released
  decide

theorem portByte_bits (button light released : Bool) :
    let v := bitAt 8 0 button ||| (bitAt 8 3 light ||| bitAt 8 4 released)
    v.getLsbD 0 = button ∧ v.getLsbD 3 = light ∧ v.getLsbD 4 = released := by
  revert button light released
  decide

/-! The controllers. -/

theorem latchedForRead_low {s : State} (h : s.bus.strobe = false) : latchedForRead s = s := by
  rw [latchedForRead, h]
  rfl

theorem latchedForRead_high {s : State} (h : s.bus.strobe = true) : latchedForRead s = latchControllers s := by
  rw [latchedForRead, h]
  rfl

/-- With the strobe high a read latches first, with the next draw (R174). -/
theorem latchedForRead_draws (s : State) :
    (latchedForRead s).draws = if s.bus.strobe then s.draws + 1 else s.draws := by
  unfold latchedForRead
  split <;> rfl

theorem latchedForRead_params (s : State) : (latchedForRead s).params = s.params := by
  unfold latchedForRead
  split <;> rfl

theorem latchedForRead_ppu (s : State) : (latchedForRead s).ppu = s.ppu := by
  unfold latchedForRead
  split <;> rfl

/-- The bit of port 2 that a read returns. -/
theorem latchedForRead_shift2_bit (s : State) :
    ((latchedForRead s).bus.shift2.getLsbD 0).toNat =
      (if s.bus.strobe then Config.buttons2 s.draws else s.bus.shift2).toNat % 2 := by
  have hbit (v : Byte) : (v.getLsbD 0).toNat = v.toNat % 2 := by
    rw [BitVec.getLsbD, Nat.testBit_zero]
    rcases Nat.mod_two_eq_zero_or_one v.toNat with h | h <;> simp [h]
  unfold latchedForRead
  split
  · exact hbit _
  · exact hbit _

/-- The Zapper sees light where it aims at a bright pixel of the picture (R176). -/
theorem zapperLight_eq_false_iff (p : Ppu) (aim : Int × Int) :
    let colour := Config.paletteRgb (readCell p.framebuffer (aim.2.toNat * 256 + aim.1.toNat))
    zapperLight p aim = false ↔
      0 ≤ aim.1 ∧ aim.1 < 256 ∧ 0 ≤ aim.2 ∧ aim.2 < 240 ∧
        180000 ≤ 299 * colour.r.toNat + 587 * colour.g.toNat + 114 * colour.b.toNat := by
  simp [zapperLight, bright, samplePixel, and_assoc]

/-- What a port read with a Zapper returns: the latched machine's bit, the light and the trigger. -/
theorem controllerRead2_zapper {s : State} (h : s.params.zapperPresent = true) :
    (controllerRead2 false s).1 =
      bitAt 8 0 ((latchedForRead s).bus.shift2.getLsbD 0) |||
        (bitAt 8 3 (zapperLight s.ppu (Config.zapperAim (latchedForRead s).draws)) |||
          bitAt 8 4 (!Config.zapperPressed (latchedForRead s).draws)) := by
  simp only [controllerRead2, zapperBits, latchedForRead_params, latchedForRead_ppu, h, if_true]

/-- The light bit as a number: 0 where the Zapper sees light. -/
theorem zapperLight_toNat (p : Ppu) (aim : Int × Int) :
    let colour := Config.paletteRgb (readCell p.framebuffer (aim.2.toNat * 256 + aim.1.toNat))
    8 * (zapperLight p aim).toNat =
      if 0 ≤ aim.1 ∧ aim.1 < 256 ∧ 0 ≤ aim.2 ∧ aim.2 < 240 ∧
        180000 ≤ 299 * colour.r.toNat + 587 * colour.g.toNat + 114 * colour.b.toNat then 0 else 8 := by
  intro colour
  split
  · next h => rw [(zapperLight_eq_false_iff p aim).2 h]; rfl
  · next h => rw [Bool.eq_true_of_not_eq_false (mt (zapperLight_eq_false_iff p aim).1 h)]; rfl

theorem controllerRead2_noZapper {s : State} (h : s.params.zapperPresent = false) :
    controllerRead2 false s = (bitAt 8 0 ((latchedForRead s).bus.shift2.getLsbD 0),
      { latchedForRead s with
        bus := { (latchedForRead s).bus with
          shift2 := shiftedPort (latchedForRead s).bus.strobe (latchedForRead s).bus.shift2 } }) := by
  simp [controllerRead2, latchedForRead_params, h]

/-- A port after `k` reads with the strobe low: its bits move down and ones come in (R175). -/
theorem times_shiftedPort_getLsbD (v : Byte) (k j : Nat) (hj : j < 8) :
    (times (shiftedPort false) k v).getLsbD j = if j + k < 8 then v.getLsbD (j + k) else true := by
  induction k generalizing j with
  | zero => simp [times, hj]
  | succ k ih =>
    have hshift : (times (shiftedPort false) (k + 1) v).getLsbD j =
        ((times (shiftedPort false) k v).getLsbD (j + 1) || decide (j = 7)) := by
      have htop : (128#8).getLsbD j = decide (j = 7) := by
        interval_cases j <;> rfl
      simp [htop, times, shiftedPort, Nat.add_comm]
    rw [hshift]
    by_cases h7 : j = 7
    · have hout : ¬ j + (k + 1) < 8 := by omega
      rw [if_neg hout, h7]
      simp
    · rw [ih (j + 1) (by omega), Nat.add_assoc, Nat.add_comm 1 k]
      simp [h7]

/-- After `k` reads of port 1 with the strobe low. -/
theorem afterReads_port1 {s : State} (h : s.bus.strobe = false) (k : Nat) :
    (afterReads 0x4016 k s).bus.strobe = false ∧
      (afterReads 0x4016 k s).bus.shift1 = times (shiftedPort false) k s.bus.shift1 := by
  induction k with
  | zero => exact ⟨h, rfl⟩
  | succ k ih =>
    obtain ⟨hstrobe, hshift⟩ := ih
    rw [afterReads, busRead_port1 (by decide), controllerRead1, latchedForRead_low hstrobe]
    exact ⟨hstrobe, congrArg₂ shiftedPort hstrobe hshift⟩

/-- After `k` reads of port 2 with the strobe low, with a Zapper or without. -/
theorem afterReads_port2 {s : State} (h : s.bus.strobe = false) (k : Nat) :
    (afterReads 0x4017 k s).bus.strobe = false ∧
      (afterReads 0x4017 k s).bus.shift2 = times (shiftedPort false) k s.bus.shift2 := by
  induction k with
  | zero => exact ⟨h, rfl⟩
  | succ k ih =>
    obtain ⟨hstrobe, hshift⟩ := ih
    rw [afterReads, busRead_port2 (by decide), controllerRead2, latchedForRead_low hstrobe]
    exact ⟨hstrobe, congrArg₂ shiftedPort hstrobe hshift⟩

/-- A strobe pulse latches both ports and leaves the strobe low (R173, R174). -/
theorem strobePulse (s : State) :
    let u := busWrite 0x4016 0x00 (busWrite 0x4016 0x01 s)
    u.bus.strobe = false ∧ u.bus.shift1 = Config.buttons1 s.draws ∧ u.bus.shift2 = Config.buttons2 s.draws :=
  ⟨rfl, rfl, rfl⟩

theorem controllerRead2_button (s : State) :
    (controllerRead2 false s).1.getLsbD 0 = (latchedForRead s).bus.shift2.getLsbD 0 := by
  cases hz : s.params.zapperPresent with
  | true => rw [controllerRead2_zapper hz]; exact (portByte_bits _ _ _).1
  | false => rw [controllerRead2_noZapper hz]; simp only [getLsbD_bitAt (by decide : 0 < 8), decide_true, Bool.and_true]

/-! The statements about reads. -/

/-- Settles O38. -/
theorem readOnlyReadAgrees : Obligations.ReadOnlyReadAgrees := fun a s =>
  Prod.ext (busReadWith_value true a s) (busReadWith_readOnly a s)

/-- Settles O36. -/
theorem unmappedAccesses : Obligations.UnmappedAccesses := by
  intro a v s
  refine ⟨fun h => ?_, fun h => busWrite_unmapped h.1 (by omega) v s, fun ⟨h, h', hk⟩ => ?_, ?_⟩
  · rcases h with ⟨h, h', hk⟩ | h
    · rw [busRead, busReadWith_ppu h h']
      refine ppuRegRead_writeOnly ?_ ?_ ?_ _ _ <;> rw [ppuReg_toNat] <;> omega
    · exact busReadWith_hole h _ _
  · exact busWrite_ppuRegister (k := 2) (q := s.ppu) h h' hk rfl
  · simp only [busWrite_deviceWrites, isDevice_iff, PutOut]

/-- Settles O37. -/
theorem readSideEffects : Obligations.ReadSideEffects := by
  intro a s
  refine ⟨fun h h' hk => ?_, fun h => ?_, fun h hstrobe => ?_, fun h hstrobe hz => ?_, fun h hstrobe => ?_,
    fun h hstrobe hz => ?_, fun h hz => ?_, fun hppu h5 h6 h7 => busRead_state hppu h5 h6 h7 s⟩
  case refine_1 =>
    rw [busRead_ppuStatus h h' hk]
    refine ⟨?_, ?_, ?_, fun k hlow => ?_, rfl⟩
    · rw [statusByte_getLsbD]; simp
    · rw [statusByte_getLsbD]; simp
    · rw [statusByte_getLsbD]; simp
    · have hhigh : k ≠ 7 ∧ k ≠ 6 ∧ k ≠ 5 ∧ k < 8 := by omega
      rw [statusByte_getLsbD]
      simp [hhigh]
  case refine_2 =>
    rw [busRead_apuStatus h]
    simp (disch := decide) only [apuStatus, BitVec.getLsbD_or, getLsbD_bitAt]
    simp [← BitVec.toNat_inj, afterStatusReadApu]
  case refine_3 =>
    rw [busRead_port1 h, controllerRead1, latchedForRead_low hstrobe]
    simp [bitAt_zero, shiftedPort, hstrobe]
  case refine_4 =>
    rw [busRead_port2 h, controllerRead2_noZapper hz, latchedForRead_low hstrobe]
    simp [bitAt_zero, shiftedPort, hstrobe]
  case refine_5 =>
    rw [busRead_port1 h, controllerRead1, latchedForRead_high hstrobe]
    simp [bitAt_zero, shiftedPort, hstrobe, latchControllers]
  case refine_6 =>
    rw [busRead_port2 h, controllerRead2_noZapper hz, latchedForRead_high hstrobe]
    simp [bitAt_zero, shiftedPort, hstrobe, latchControllers]
  case refine_7 =>
    have hdraws := latchedForRead_draws s
    rw [busRead_port2 h]
    refine ⟨?_, ?_⟩
    · rw [controllerRead2_zapper hz, portByte_toNat, hdraws, zapperLight_toNat, latchedForRead_shift2_bit]
      cases Config.zapperPressed (if s.bus.strobe then s.draws + 1 else s.draws) <;> simp
    · cases hstrobe : s.bus.strobe with
      | true => simp [controllerRead2, latchedForRead_high hstrobe, hz, latchControllers, shiftedPort, hstrobe]
      | false => simp [controllerRead2, latchedForRead_low hstrobe, hz, shiftedPort, hstrobe]

/-- Settles O40. -/
theorem controllerReadsButtons : Obligations.ControllerReadsButtons := by
  intro s k
  obtain ⟨hstrobe, hshift1, hshift2⟩ := strobePulse s
  refine ⟨?_, ?_, fun hhigh => ?_, fun hz => ?_⟩
  · obtain ⟨hlow, hport⟩ := afterReads_port1 hstrobe k
    rw [busRead_port1 (by decide), controllerRead1, latchedForRead_low hlow, hport, hshift1]
    dsimp only
    rw [times_shiftedPort_getLsbD _ _ _ (by decide), bitAt_zero, Nat.zero_add]
    split <;> simp
  · obtain ⟨hlow, hport⟩ := afterReads_port2 hstrobe k
    rw [busRead_port2 (by decide), controllerRead2_button, latchedForRead_low hlow, hport, hshift2,
      times_shiftedPort_getLsbD _ _ _ (by decide), Nat.zero_add]
  · rw [busRead_port1 (by decide), controllerRead1, latchedForRead_high hhigh]
    exact bitAt_zero _
  · have hdraws := latchedForRead_draws s
    obtain ⟨-, hlight, htrigger⟩ := portByte_bits ((latchedForRead s).bus.shift2.getLsbD 0)
      (zapperLight s.ppu (Config.zapperAim (latchedForRead s).draws)) (!Config.zapperPressed (latchedForRead s).draws)
    rw [busRead_port2 (by decide), controllerRead2_zapper hz]
    dsimp only
    rw [hlight, htrigger, hdraws]
    exact ⟨rfl, zapperLight_eq_false_iff _ _⟩

end Sys2Proof.Proofs
end

section
/-! PROOFS. CPU RAM (spec/20_memory.md R41), OAM DMA (spec/61_bus.md R172) and the bus reset
(spec/70_reset_and_hazards.md R248 to R250). -/

namespace Sys2Proof.Proofs

open Sys2Proof.Machine Sys2Proof.Claims

/-! The bus reset. -/

/-- The CPU's reset reads its vector from the cartridge, with no side effect (R248). -/
theorem cpuReset_eq (s : State) :
    cpuReset s =
      { s with cpu := Cpu.reset (mkWord (readCell s.cart.prg (prgOffset s.cart 0xFFFD))
        (readCell s.cart.prg (prgOffset s.cart 0xFFFC))) s.cpu.refused } := by
  unfold cpuReset
  rw [read16_memory (.inr (by decide)) (.inr (by decide)), peek_prg (by decide), peek_prg (by decide)]

/-- A bus reset, all at once: the vector is read through the mapper after its own reset, and from memory, so with no
side effect (R248, R249). -/
theorem busReset_eq (s : State) :
    busReset s =
      { s with
        cpu := Cpu.reset (mkWord (readCell s.cart.prg (prgOffset (cartReset s.cart) 0xFFFD))
          (readCell s.cart.prg (prgOffset (cartReset s.cart) 0xFFFC))) s.cpu.refused
        bus := Bus.reset s.bus.ram
        ppu := Ppu.reset s.ppu.vram s.ppu.palette s.ppu.oam s.ppu.framebuffer
        apu := Apu.reset
        cart := cartReset s.cart } := by
  unfold busReset
  simp only [cpuReset_eq]
  rfl

/-- Settles O60, through the single update `busReset_eq`; the mapper is told register by register. -/
theorem busResetState : Obligations.BusResetState := by
  refine ⟨?_, fun s => ?_⟩
  · rw [busReset_eq]
    rfl
  · rw [busReset_eq]
    have hflags : flagI 0x24 = true ∧ flagB 0x24 = false ∧ flagU 0x24 = true := by decide
    obtain ⟨hI, hB, hU⟩ := hflags
    refine ⟨rfl, hI, hB, hU, rfl, rfl, rfl, ?_, rfl, rfl, rfl, rfl⟩
    unfold cartReset
    cases s.cart.mapper <;> rfl

/-! CPU RAM. -/

/-- Settles O35: the store is one cell of RAM, and each of its four addresses names that cell. -/
theorem ramMirrored : Obligations.RamMirrored := by
  intro a b v s ha
  rw [busWrite_ram ha]
  have hwrote : Wrote s (s.setRam (a.toNat % 2048) v) [(a, v)] := wrote_of_ram ha rfl rfl
  refine ⟨hwrote, sameButRam_setRam s _ _ _, rfl, fun halias => ?_⟩
  have hpeek : readCell (s.setRam (a.toNat % 2048) v).bus.ram (b.toNat % 2048) = v := by
    rw [← peek_ram halias.2.1]
    exact (hwrote b (.inl halias.2.1)).1 _ (.head _) halias
  rw [busRead_ram halias.2.1, busRead_ram halias.2.1, busReset_eq]
  exact ⟨Prod.ext hpeek rfl, hpeek⟩

/-! OAM DMA. -/

/-- The bytes of a page, by their number. -/
theorem pageAddr (v : Byte) (i : Nat) : mkWord v 0 + BitVec.ofNat 16 i = BitVec.ofNat 16 (256 * v.toNat + i) := by
  apply BitVec.eq_of_toNat_eq
  rw [BitVec.toNat_add, mkWord_toNat, BitVec.toNat_ofNat, BitVec.toNat_ofNat]
  simp

theorem isMemory_page {v : Byte} (h : v.toNat < 0x20 ∨ 0x60 ≤ v.toNat) {i : Nat} (hi : i < 256) :
    IsMemory (mkWord v 0 + BitVec.ofNat 16 i) := by
  have hv := v.isLt
  have haddr : (mkWord v 0 + BitVec.ofNat 16 i).toNat = 256 * v.toNat + i := by
    rw [pageAddr, BitVec.toNat_ofNat]
    omega
  rw [IsMemory, haddr]
  omega

/-- The stall of an OAM DMA (D17). -/
theorem dmaStall (n : Nat) : 513 + n % 2 = if n % 2 = 0 then 513 else 514 := by
  split <;> omega

theorem busWrite_oamDma (v : Byte) (s : State) :
    busWrite 0x4014 v s =
      { oamCopy 256 (mkWord v 0) s with
        cpu := { s.cpu with
          stallRemaining := s.cpu.stallRemaining + if s.cpu.totalCycles % 2 = 0 then 513 else 514 }
        deviceWrites := (0x4014, v) :: s.deviceWrites } := by
  have hroute : routeWrite 0x4014 v s = oamDma v s := rfl
  rw [busWrite, hroute, noteWrite_device (.inl (by decide)), oamDma]
  simp only [State.stall, oamCopy_cpu, oamCopy_deviceWrites, dmaStall]

/-- One byte of the copy: a bus read, and the byte stored at OAMADDR (spec/62_ppu.md R194). -/
theorem oamCopy_step (n : Nat) (addr : Word) (s : State) :
    let u := oamCopy n addr s
    let t := oamCopy (n + 1) addr s
    let r := busRead (addr + BitVec.ofNat 16 n) u
    t = { r.2 with ppu := { r.2.ppu with oam := t.ppu.oam, oamAddr := t.ppu.oamAddr } } ∧
      t.ppu.oamAddr.toNat = (u.ppu.oamAddr.toNat + 1) % 256 ∧
      ∀ k, readCell t.ppu.oam k = if k = u.ppu.oamAddr.toNat then r.1 else readCell u.ppu.oam k := by
  intro u t r
  have hoamAddr : r.2.ppu.oamAddr = u.ppu.oamAddr := by
    show (busRead _ u).2.ppu.oamAddr = _
    rw [busRead, busReadWith_frame false _ u _ rfl]
  have ht : t = { r.2 with ppu := writeOam r.2.ppu r.1 } := oamCopy_succ n addr s
  clear_value t
  subst ht
  refine ⟨rfl, ?_, fun k => ?_⟩
  · rw [← hoamAddr]
    exact BitVec.toNat_add _ _
  · rw [← hoamAddr, ← busRead_oam (addr + BitVec.ofNat 16 n) u]
    exact readCell_writeCell _ _ _ _

/-- Settles O39: the copy read by read, and its closed form where the page is memory. -/
theorem oamDmaCopiesPage : Obligations.OamDmaCopiesPage := by
  refine ⟨fun v s => ⟨fun i => oamCopy i (mkWord v 0) s, rfl, fun i _ => ?_, busWrite_oamDma v s⟩, fun v s hv => ?_⟩
  · rw [← pageAddr]
    exact oamCopy_step i (mkWord v 0) s
  · obtain ⟨hcells, hframe⟩ := oamCopy_memory 256 (mkWord v 0) s (fun i hi => isMemory_page hv hi) le_rfl
    have haddr : s.ppu.oamAddr + BitVec.ofNat 8 256 = s.ppu.oamAddr := by simp
    rw [haddr] at hframe
    rw [busWrite_oamDma]
    refine ⟨fun i hi => ?_, ?_⟩
    · have hoff : ((s.ppu.oamAddr.toNat + i) % 256 + 256 - s.ppu.oamAddr.toNat) % 256 = i := by
        have := s.ppu.oamAddr.isLt
        omega
      dsimp only
      rw [hcells, hoff, if_pos ⟨by omega, hi⟩, pageAddr]
    · clear hcells
      generalize oamCopy 256 (mkWord v 0) s = u at hframe ⊢
      have hbus : u.bus = s.bus := by rw [hframe]
      have hapu : u.apu = s.apu := by rw [hframe]
      have hcart : u.cart = s.cart := by rw [hframe]
      have hdraws : u.draws = s.draws := by rw [hframe]
      have hparams : u.params = s.params := by rw [hframe]
      have hsamples : u.samples = s.samples := by rw [hframe]
      exact ⟨congrArg State.ppu hframe, rfl, hbus, hapu, hcart, hdraws, hparams, hsamples, rfl⟩

end Sys2Proof.Proofs
end

section
/-! PROOFS. What a dot does to the flags, the cursor, `v` and the background pipeline (spec/62_ppu.md sections 4, 5
and 8). -/

namespace Sys2Proof.Proofs

open Sys2Proof.Machine Sys2Proof.Claims

/-! The frame of a dot. -/

/-- What no stage of a dot before vertical blank touches: the cursor, the flags it reads, the registers a program
writes and the memories behind them. -/
def SameDotRegs (p r : Ppu) : Prop :=
  r.vblank = p.vblank ∧ r.nmiEdge = p.nmiEdge ∧ r.scanline = p.scanline ∧ r.dot = p.dot ∧ r.mask = p.mask ∧
    r.ctrl = p.ctrl ∧ r.oddFrame = p.oddFrame ∧ r.frameComplete = p.frameComplete ∧ r.vram = p.vram ∧
    r.palette = p.palette ∧ r.oam = p.oam ∧ r.oamAddr = p.oamAddr ∧ r.t = p.t ∧ r.fineX = p.fineX ∧ r.w = p.w ∧
    r.readBuffer = p.readBuffer

/-- A dot ends with vertical blank, the mapper's tick and the cursor, on a PPU `r` with the dot's own registers. -/
theorem ppuDot_ends (params : Params) (c : Cartridge) (p : Ppu) :
    ∃ r : Ppu, SameDotRegs p r ∧
      ppuDot params c p = (mapperTick c (verticalBlank r), advanceCursor params (verticalBlank r)) := by
  obtain ⟨p1, r, h1, ⟨_, _, _, _, _, _, _, _, _, h2, -⟩, e⟩ := ppuDot_eq params c p
  obtain ⟨k1, _, k2, k3, k4, k5, k6, _, k7, k8, k9, k10, k11, k12, k13, k14, k15, k16⟩ :=
    advanceSprites_keeps.comp (background_keeps c) p
  dsimp only at k1 k2 k3 k4 k5 k6 k7 k8 k9 k10 k11 k12 k13 k14 k15 k16
  rw [← h1] at k1 k2 k3 k4 k5 k6 k7 k8 k9 k10 k11 k12 k13 k14 k15 k16
  exact ⟨r, by rw [h2]; exact ⟨k1, k2, k3, k4, k5, k6, k7, k8, k9, k10, k11, k12, k13, k14, k15, k16⟩, e⟩

/-- Settles O44: the flags are what vertical blank leaves, for the cursor's advance does not touch them. -/
theorem vblankAndNmiEdge : Obligations.VblankAndNmiEdge := by
  intro params c p
  obtain ⟨r, ⟨hvb, hedge, hline, hdot, _, hctrl, _⟩, e⟩ := ppuDot_ends params c p
  obtain ⟨line, dot, odd, done, hcursor⟩ := advanceCursor_eq params (verticalBlank r)
  rw [e, hcursor]
  dsimp only
  unfold verticalBlank
  rw [hline, hdot]
  by_cases hset : p.scanline = 241 ∧ p.dot = 1
  · rw [if_pos hset, if_pos hset]
    refine ⟨rfl, fun h => absurd h (by omega), ?_⟩
    rw [hedge, hctrl, Bool.or_eq_true]
    simp only [hset, true_and]
  · rw [if_neg hset, if_neg hset]
    have hno : ¬ (p.scanline = 241 ∧ p.dot = 1 ∧ p.ctrl.getLsbD 7 = true) := fun h => hset ⟨h.1, h.2.1⟩
    by_cases hclear : p.scanline = -1 ∧ p.dot = 1
    · rw [if_pos hclear, if_pos hclear]
      exact ⟨rfl, fun _ _ => ⟨rfl, rfl⟩, by simp only [hedge, hno, or_false]⟩
    · rw [if_neg hclear, if_neg hclear]
      exact ⟨hvb, fun h h' => absurd ⟨h, h'⟩ hclear, by simp only [hedge, hno, or_false]⟩

/-- Vertical blank changes its three flags and the NMI edge alone. -/
theorem verticalBlank_frame (r : Ppu) :
    verticalBlank r =
      { r with
        vblank := (verticalBlank r).vblank, sprite0Hit := (verticalBlank r).sprite0Hit
        spriteOverflow := (verticalBlank r).spriteOverflow, nmiEdge := (verticalBlank r).nmiEdge } := by
  obtain ⟨vb, hit, ovf, edge, h⟩ := verticalBlank_eq r
  rw [h]

theorem renderingEnabled_iff (p : Ppu) :
    renderingEnabled p = true ↔ p.mask.getLsbD 3 = true ∨ p.mask.getLsbD 4 = true := by
  rw [renderingEnabled, Bool.or_eq_true]

/-- The cursor's advance, position by position, told from a PPU `p` with the same cursor, parity and mask (R195,
R196). -/
theorem advanceCursor_position (params : Params) {p r : Ppu} (hline : r.scanline = p.scanline) (hdot : r.dot = p.dot)
    (hmask : r.mask = p.mask) (hodd : r.oddFrame = p.oddFrame) (hdone : r.frameComplete = p.frameComplete)
    (h1 : -1 ≤ p.scanline) (h2 : p.scanline ≤ 260) (h3 : p.dot ≤ 340) :
    let q := advanceCursor params r
    let pos (p : Ppu) : Int := (p.scanline + 1) * 341 + p.dot
    let skips : Prop :=
      params.oddFrameSkip = true ∧ p.oddFrame = true ∧ (p.mask.getLsbD 3 = true ∨ p.mask.getLsbD 4 = true) ∧
        p.scanline = -1 ∧ p.dot = 340
    pos q = (pos p + if skips then 2 else 1) % (262 * 341) ∧ q.dot ≤ 340 ∧
    q.frameComplete = (p.frameComplete || decide (pos p = 262 * 341 - 1)) ∧
    q.oddFrame = (p.oddFrame != decide (pos p = 262 * 341 - 1)) := by
  intro q pos skips
  have hq : q = advanceCursor params r := rfl
  clear_value q
  subst hq
  unfold advanceCursor
  rw [hline, hdot, hodd]
  by_cases hlast : p.dot + 1 > 340
  · rw [if_pos hlast]
    by_cases hwrap : p.scanline + 1 > 260
    · have hpos : pos p = 262 * 341 - 1 := by dsimp only [pos]; omega
      have hskip : ¬ skips := fun ⟨_, _, _, h, _⟩ => by omega
      rw [if_pos hwrap, if_neg hskip, hpos]
      simp [pos]
    · have hpos : pos p ≠ 262 * 341 - 1 := by dsimp only [pos]; omega
      have hcond : (params.oddFrameSkip && p.oddFrame && renderingEnabled r && decide (p.scanline + 1 = 0)) = true ↔
          skips := by
        have hzero : p.scanline + 1 = 0 ↔ p.scanline = -1 ∧ p.dot = 340 := by omega
        simp only [skips, Bool.and_eq_true, decide_eq_true_eq, renderingEnabled_iff, hmask, hzero, and_assoc]
      rw [if_neg hwrap]
      simp only [hcond, hpos, hdone, decide_false, Bool.or_false, Bool.bne_false, and_true]
      by_cases hskip : skips
      · have hfirst : p.scanline = -1 := hskip.2.2.2.1
        simp only [hskip, if_true, pos, hfirst]
        omega
      · simp only [hskip, if_false, pos]
        omega
  · have hpos : pos p ≠ 262 * 341 - 1 := by dsimp only [pos]; omega
    have hskip : ¬ skips := fun ⟨_, _, _, _, h⟩ => by omega
    rw [if_neg hlast, if_neg hskip]
    simp only [hpos, hdone, decide_false, Bool.or_false, Bool.bne_false, and_true, pos]
    omega

/-- Settles O45: the cursor, its parity and its flag are those of the dot when it advances. -/
theorem cursorAdvances : Obligations.CursorAdvances := by
  intro params c p h1 h2 h3
  obtain ⟨r, ⟨_, _, hline, hdot, hmask, _, hodd, hdone, _⟩, e⟩ := ppuDot_ends params c p
  have hb := verticalBlank_frame r
  rw [e]
  exact advanceCursor_position params (by rw [hb]; exact hline) (by rw [hb]; exact hdot) (by rw [hb]; exact hmask)
    (by rw [hb]; exact hodd) (by rw [hb]; exact hdone) h1 h2 h3

/-! The scroll register. -/

/-- `increment_coarse_x()` steps coarse-X (R198). -/
theorem incrementCoarseX_step (p : Ppu) : CoarseXStep p.v (incrementCoarseX p).v := by
  unfold incrementCoarseX
  have hlt := (coarseX p.v).isLt
  by_cases h31 : coarseX p.v = 31
  · rw [if_pos h31]
    have hn : (coarseX p.v).toNat = 31 := by rw [h31]; rfl
    refine ⟨by simp [hn], ?_, by simp, by simp, by simp⟩
    rw [hn]
    simp
  · rw [if_neg h31]
    have hn : (coarseX p.v).toNat ≠ 31 := fun h => h31 (BitVec.eq_of_toNat_eq h)
    refine ⟨by simp [BitVec.toNat_add], ?_, by simp, by simp, by simp⟩
    rw [decide_eq_false hn]
    simp

/-- `increment_y()` steps the row (R198). -/
theorem incrementY_step (p : Ppu) : RowStep p.v (incrementY p).v := by
  unfold incrementY
  by_cases h7 : fineY p.v = 7
  · have hn : (fineY p.v).toNat = 7 := by rw [h7]; rfl
    rw [if_neg (fun h => h h7)]
    dsimp only
    rw [coarseY_withFineY]
    by_cases h29 : coarseY p.v = 29
    · have hy : (coarseY p.v).toNat = 29 := by rw [h29]; rfl
      rw [if_pos h29]
      refine ⟨by simp [hn], fun h => absurd hn h, fun _ => ⟨by simp [hy], ?_⟩, by simp, by simp⟩
      rw [hy]
      simp
    · have hy : (coarseY p.v).toNat ≠ 29 := fun h => h29 (BitVec.eq_of_toNat_eq h)
      rw [if_neg h29]
      by_cases h31 : coarseY p.v = 31
      · have hy' : (coarseY p.v).toNat = 31 := by rw [h31]; rfl
        rw [if_pos h31]
        exact ⟨by simp [hn], fun h => absurd hn h, fun _ => ⟨by simp [hy'], by simp [hy']⟩, by simp, by simp⟩
      · rw [if_neg h31]
        refine ⟨by simp [hn], fun h => absurd hn h, fun _ => ⟨?_, by simp [hy]⟩, by simp, by simp⟩
        rw [if_neg hy]
        simp [BitVec.toNat_add]
  · have hn : (fineY p.v).toNat ≠ 7 := fun h => h7 (BitVec.eq_of_toNat_eq h)
    rw [if_pos h7]
    exact ⟨by simp [BitVec.toNat_add], fun _ => ⟨by simp, by simp⟩, fun h => absurd h hn, by simp, by simp⟩

/-- Settles O46, by the kinds of dots; `r` is the PPU after the dot's fetch. -/
theorem scrollUpdates : Obligations.ScrollUpdates := by
  intro params c p h1 h2 hr w windowEnd copiesY
  obtain ⟨r, _, ht, _, hfetch, hv⟩ := background_v c p h1 h2 ((renderingEnabled_iff p).2 hr)
  have hw : w = (background c p).v := ppuDot_v params c p
  have hends : (1 ≤ p.dot ∧ p.dot ≤ 256 ∨ 321 ≤ p.dot ∧ p.dot ≤ 336) ∧ (p.dot - 1) % 8 = 7 ↔
      windowEnd ∨ p.dot = 256 := by
    dsimp only [windowEnd]
    omega
  clear_value w
  subst hw
  simp only [hends] at hfetch
  rw [hv]
  refine ⟨fun he => ?_, fun h => ?_, fun h => ?_, fun hc => ?_, fun he h256 h257 hc => ?_⟩
  · have h : p.dot ≠ 256 ∧ p.dot ≠ 257 ∧ ¬ copiesY := by dsimp only [windowEnd, copiesY] at he ⊢; omega
    rw [if_neg h.1, if_neg h.2.1, if_neg h.2.2, hfetch, if_pos (.inl he)]
    exact incrementCoarseX_step p
  · refine ⟨r.v, ?_, ?_⟩
    · rw [hfetch, if_pos (.inr h)]
      exact incrementCoarseX_step p
    · rw [if_pos h]
      exact incrementY_step r
  · have he : ¬ (windowEnd ∨ p.dot = 256) := by dsimp only [windowEnd]; omega
    rw [if_neg he] at hfetch
    rw [if_neg (by omega), if_pos h, ← ht, ← hfetch]
    exact copyX_fields r
  · have he : ¬ (windowEnd ∨ p.dot = 256) := by dsimp only [windowEnd, copiesY] at hc ⊢; omega
    rw [if_neg he] at hfetch
    rw [if_neg (by dsimp only [copiesY] at hc; omega), if_neg (by dsimp only [copiesY] at hc; omega), if_pos hc,
      ← ht, ← hfetch]
    exact copyY_fields r
  · rw [if_neg h256, if_neg h257, if_neg hc, hfetch, if_neg (by tauto)]

/-! The background pipeline. -/

/-- The register of a program, the memories and the cartridge across a dot. -/
theorem ppuDot_frame (params : Params) (c : Cartridge) (p : Ppu) :
    let q := (ppuDot params c p).2
    q.vram = p.vram ∧ q.palette = p.palette ∧ q.oam = p.oam ∧ q.ctrl = p.ctrl ∧ q.mask = p.mask ∧
    q.oamAddr = p.oamAddr ∧ q.t = p.t ∧ q.fineX = p.fineX ∧ q.w = p.w ∧ q.readBuffer = p.readBuffer ∧
    (ppuDot params c p).1 =
      (if 0 ≤ p.scanline ∧ p.scanline ≤ 239 ∧ p.dot = 260 ∧
          (p.mask.getLsbD 3 = true ∨ p.mask.getLsbD 4 = true)
        then scanlineTick c else c) := by
  obtain ⟨r, ⟨_, _, hline, hdot, hmask, hctrl, _, _, hvram, hpal, hoam, haddr, ht, hx, hw, hbuf⟩, e⟩ :=
    ppuDot_ends params c p
  obtain ⟨line, dot, odd, done, hcursor⟩ := advanceCursor_eq params (verticalBlank r)
  rw [e, hcursor, verticalBlank_frame r]
  refine ⟨hvram, hpal, hoam, hctrl, hmask, haddr, ht, hx, hw, hbuf, ?_⟩
  dsimp only
  simp only [mapperTick, onVisibleLine, renderingEnabled, hline, hdot, hmask, Bool.and_eq_true, Bool.or_eq_true,
    decide_eq_true_eq, and_assoc]

/-- A shifter after the dot, as a number (R197). -/
theorem shifter_toNat (r : BitVec 16) (b : Byte) {shifts loads : Prop} [Decidable shifts] [Decidable loads] :
    (if loads then loadLow (if shifts then r <<< 1 else r) b else if shifts then r <<< 1 else r).toNat =
      if loads then (if shifts then r.toNat * 2 % 0x10000 else r.toNat) / 0x100 * 0x100 + b.toNat
      else if shifts then r.toNat * 2 % 0x10000 else r.toNat := by
  have hshift : (r <<< 1).toNat = r.toNat * 2 % 0x10000 := by
    rw [BitVec.toNat_shiftLeft, Nat.shiftLeft_eq]
  by_cases hs : shifts
  · by_cases hl : loads
    · simp only [hs, hl, if_true, loadLow_toNat, hshift]
    · simp only [hs, hl, if_true, if_false, hshift]
  · by_cases hl : loads
    · simp only [hs, hl, if_true, if_false, loadLow_toNat]
    · simp only [hs, hl, if_false]

/-- Settles O49: the frame of a dot, and the pipeline on and off the rendered lines. -/
theorem dotFrame : Obligations.DotFrame := by
  intro params c p q
  obtain ⟨hvram, hpal, hoam, hctrl, hmask, haddr, ht, hx, hw, hbuf, hcart⟩ := ppuDot_frame params c p
  refine ⟨hvram, hpal, hoam, hctrl, hmask, haddr, ht, hx, hw, hbuf, hcart, ?_⟩
  clear hvram hpal hoam hctrl hmask haddr ht hx hw hbuf hcart
  obtain ⟨kv, knt, kat, klo, khi, kbl, kbh, kal, kah⟩ := ppuDot_pipeline params c p
  have hoff (h : ¬ (-1 ≤ p.scanline ∧ p.scanline ≤ 239 ∧ (p.mask.getLsbD 3 = true ∨ p.mask.getLsbD 4 = true))) :
      background c p = p := background_off c p (by rw [renderingEnabled_iff]; exact h)
  refine ⟨fun h3 h4 => ?_, ?_⟩
  · have hb : background c p = p := hoff (by rw [h3, h4]; simp)
    rw [hb] at kv knt kat klo khi kbl kbh kal kah
    exact ⟨kv, knt, kat, klo, khi, kbl, kbh, kal, kah⟩
  intro active fetches shifts loads shifted loaded read x y pattern
  by_cases ha : active
  · obtain ⟨hnt, hat, hlo, hhi, hbl, hbh, hal, hah⟩ :=
      background_latches c p ha.1 ha.2.1 ((renderingEnabled_iff p).2 ha.2.2)
    have hread8 : patternAddr p + 8 = BitVec.ofNat 14 (pattern + 8) := by
      rw [patternAddr_eq, BitVec.ofNat_add pattern 8]
      rfl
    rw [hnt] at knt
    rw [hat] at kat
    rw [hlo] at klo
    rw [hhi] at khi
    rw [hbl] at kbl
    rw [hbh] at kbh
    rw [hal] at kal
    rw [hah] at kah
    clear hnt hat hlo hhi hbl hbh hal hah kv
    simp only [loaded, loads, shifted, shifts, fetches, ha, true_and, not_true, false_implies]
    refine ⟨?_, ?_, ?_, ?_, ?_, ?_, ?_, ?_⟩
    · rw [knt, tileAddr_eq]
    · rw [kat, apply_ite BitVec.toNat, attrBits_toNat, attrAddr_eq]
    · rw [klo, patternAddr_eq]
    · rw [khi, hread8]
    · rw [kbl, shifter_toNat]
    · rw [kbh, shifter_toNat]
    · rw [kal, shifter_toNat, apply_ite BitVec.toNat]
      rfl
    · rw [kah, shifter_toNat, apply_ite BitVec.toNat]
      rfl
  · have hb : background c p = p := hoff ha
    rw [hb] at kv knt kat klo khi kbl kbh kal kah
    have hf (n : Nat) : ¬ fetches n := fun h => ha h.1
    have hs : ¬ shifts := fun h => ha h.1
    have hl : ¬ loads := fun h => h.elim (hf 0) (fun h => ha h.1)
    simp only [loaded, shifted, hf, hs, hl, if_false]
    exact ⟨fun _ => kv, knt, congrArg _ kat, klo, khi, congrArg _ kbl, congrArg _ kbh, congrArg _ kal, congrArg _ kah⟩

end Sys2Proof.Proofs
end

section
/-! PROOFS. Sprite evaluation, the sprite fetch and the sprite units (spec/62_ppu.md section 6). -/

namespace Sys2Proof.Proofs

open Sys2Proof.Machine Sys2Proof.Claims

/-! Evaluation (R200). -/

theorem onVisibleLine_iff (p : Ppu) : onVisibleLine p = true ↔ 0 ≤ p.scanline ∧ p.scanline ≤ 239 := by
  rw [onVisibleLine, Bool.and_eq_true, decide_eq_true_eq, decide_eq_true_eq]

theorem onPreRenderLine_iff (p : Ppu) : onPreRenderLine p = true ↔ p.scanline = -1 := by
  rw [onPreRenderLine, decide_eq_true_eq]

/-- Evaluation runs at dot 256 of a visible scanline alone. -/
theorem evaluateSprites_off (p : Ppu) (h : ¬ ((0 ≤ p.scanline ∧ p.scanline ≤ 239) ∧ p.dot = 256)) :
    evaluateSprites p = p := by
  rw [evaluateSprites, if_neg]
  rwa [Bool.and_eq_true, onVisibleLine_iff, decide_eq_true_eq]

theorem evaluateSprites_on (p : Ppu) (h1 : 0 ≤ p.scanline) (h2 : p.scanline ≤ 239) (hd : p.dot = 256) :
    evaluateSprites p =
      if renderingEnabled p then
        scanOam { p with
          spriteCount := 0, sprite0Next := false
          secOam := Vector.replicate 8 ⟨0xFF, 0xFF, 0xFF, 0xFF⟩ } (List.range 64)
      else { p with spriteCount := 0, sprite0Next := false } := by
  rw [evaluateSprites, if_pos]
  · rfl
  · rw [Bool.and_eq_true, onVisibleLine_iff, decide_eq_true_eq]
    exact ⟨⟨h1, h2⟩, hd⟩

/-- Sprite 0 is among the first eight of the sprites taken exactly when it is taken. -/
theorem take_filter_range_zero (f : Nat → Bool) :
    (((List.range 64).filter f).take 8).any (fun k => decide (k = 0)) = f 0 := by
  have hrange : List.range 64 = 0 :: (List.range 63).map Nat.succ := List.range_succ_eq_map
  rw [hrange]
  cases hf : f 0
  · rw [List.filter_cons_of_neg (by rw [hf]; decide), List.any_eq_false]
    intro k hk
    obtain ⟨j, _, rfl⟩ := List.mem_map.1 (List.mem_filter.1 (List.mem_of_mem_take hk)).1
    simp
  · rw [List.filter_cons_of_pos hf]
    rfl

/-! The fetch (R201). -/

theorem tileRow_toNat (tile : Byte) : (tile &&& 0xFE).toNat = tile.toNat / 2 * 2 := by
  have h : ∀ t : Byte, (t &&& 0xFE).toNat = t.toNat / 2 * 2 := by decide
  exact h tile

/-- The unit loaded for a sprite, by the address arithmetic of R201. -/
theorem fetchSprite_eq (c : Cartridge) (p : Ppu) (e : SpriteEntry) :
    let height : Int := if p.ctrl.getLsbD 5 then 16 else 8
    let row : Int := if e.attr.getLsbD 7 then height - 1 - (p.scanline - e.y.toNat) else p.scanline - e.y.toNat
    let pattern : Int :=
      if p.ctrl.getLsbD 5 then
        (if e.tile.getLsbD 0 then 0x1000 else 0) + (e.tile.toNat / 2 * 2 + if 8 ≤ row then 1 else 0) * 16 + row % 8
      else (if p.ctrl.getLsbD 3 then 0x1000 else 0) + e.tile.toNat * 16 + row
    let fetched (a : Int) : Byte :=
      let b := ppuRead c p (BitVec.ofInt 14 a)
      if e.attr.getLsbD 6 then b.reverse else b
    fetchSprite c p e = { lo := fetched pattern, hi := fetched (pattern + 8), x := e.x, attr := e.attr } := by
  intro height row pattern fetched
  have haddr : spriteAddr p e = BitVec.ofInt 14 pattern := by
    have hrow : spriteRow p e = row := rfl
    have htile : ((e.tile.toNat / 2 * 2 : Nat) : Int) = (e.tile.toNat : Int) / 2 * 2 := by omega
    unfold spriteAddr
    rw [hrow, tileRow_toNat, htile]
    exact (apply_ite _ _ _ _).symm
  have haddr8 : spriteAddr p e + 8 = BitVec.ofInt 14 (pattern + 8) := by
    rw [haddr, BitVec.ofInt_add]
    rfl
  rw [fetchSprite, haddr8, haddr]
  rfl

/-- At dot 320 of a rendered visible line the sprites found are fetched. -/
theorem fetchSprites_on (c : Cartridge) (p : Ppu) (hd : p.dot = 320) (hv : 0 ≤ p.scanline ∧ p.scanline ≤ 239)
    (hr : renderingEnabled p = true) :
    fetchSprites c p =
      { p with
        sprCount := p.spriteCount
        sprite0Line := p.sprite0Next
        sprites := p.sprites.mapIdx (fun i u => if i < p.spriteCount then fetchSprite c p (secEntry p i) else u) } := by
  have hline := (onVisibleLine_iff p).2 hv
  rw [fetchSprites, if_pos (by simp [hd, hline]), if_pos (by rw [hline, hr]; rfl)]

/-- At dot 320 of the pre-render line, or with rendering disabled, none is. -/
theorem fetchSprites_none (c : Cartridge) (p : Ppu) (hd : p.dot = 320)
    (h : p.scanline = -1 ∨ ((0 ≤ p.scanline ∧ p.scanline ≤ 239) ∧ ¬ renderingEnabled p = true)) :
    fetchSprites c p = { p with sprCount := 0, sprite0Line := false } := by
  rw [fetchSprites, if_pos, if_neg]
  · rw [Bool.and_eq_true, onVisibleLine_iff]
    rintro ⟨hv, hr⟩
    rcases h with h | h
    · omega
    · exact h.2 hr
  · rw [Bool.and_eq_true, Bool.or_eq_true, onVisibleLine_iff, onPreRenderLine_iff, decide_eq_true_eq]
    exact ⟨hd, h.symm.imp_left And.left⟩

/-- At every other dot the fetch does nothing. -/
theorem fetchSprites_off (c : Cartridge) (p : Ppu)
    (h : p.dot ≠ 320 ∨ (p.scanline ≠ -1 ∧ ¬ (0 ≤ p.scanline ∧ p.scanline ≤ 239))) : fetchSprites c p = p := by
  rw [fetchSprites, if_neg]
  rw [Bool.and_eq_true, Bool.or_eq_true, onVisibleLine_iff, onPreRenderLine_iff, decide_eq_true_eq]
  rintro ⟨hd, hl⟩
  rcases h with h | h
  · exact h hd
  · exact hl.elim h.2 h.1

theorem secEntry_eq (p : Ppu) (i : Fin 8) : secEntry p i = p.secOam[i] := by
  rw [secEntry, Vector.getElem?_eq_getElem i.isLt]
  rfl

/-- One dot of a unit, by the value of its counter (R202). -/
theorem advanceUnit_eq (u : SpriteUnit) :
    advanceUnit u =
      if u.x.toNat = 0 then { u with lo := u.lo <<< 1, hi := u.hi <<< 1 }
      else { u with x := BitVec.ofNat 8 (u.x.toNat - 1) } := by
  unfold advanceUnit
  by_cases h : u.x = 0
  · rw [if_pos h, if_pos ((bitVec_eq_zero _).1 h)]
  · have hpred : u.x - 1 = BitVec.ofNat 8 (u.x.toNat - 1) := by
      rw [← bitVec_pred h, BitVec.ofNat_toNat, BitVec.setWidth_eq]
    rw [if_neg h, if_neg (fun h' => h ((bitVec_eq_zero _).2 h')), hpred]

/-- What a dot leaves of the sprites' state, in terms of what evaluation and fetch leave. -/
theorem ppuDot_spriteState (params : Params) (c : Cartridge) (p : Ppu) :
    ∃ r : Ppu,
      (r.secOam = p.secOam ∧ r.spriteCount = p.spriteCount ∧ r.sprite0Next = p.sprite0Next ∧
        r.spriteOverflow = p.spriteOverflow ∧ r.sprite0Line = p.sprite0Line ∧ r.sprCount = p.sprCount) ∧
      (r.scanline = p.scanline ∧ r.dot = p.dot ∧ r.mask = p.mask ∧ r.ctrl = p.ctrl ∧ r.vram = p.vram ∧
        r.palette = p.palette) ∧
      (∀ i : Fin 8, r.sprites[i] =
        if ((0 ≤ p.scanline ∧ p.scanline ≤ 239) ∧ 2 ≤ p.dot ∧ p.dot ≤ 257 ∧ p.mask.getLsbD 4 = true) ∧
          i.val < p.sprCount then advanceUnit p.sprites[i] else p.sprites[i]) ∧
      let q := (ppuDot params c p).2
      let f := fetchSprites c (evaluateSprites r)
      q.secOam = f.secOam ∧ q.spriteCount = f.spriteCount ∧ q.sprite0Next = f.sprite0Next ∧
        q.spriteOverflow = (if f.scanline = -1 ∧ f.dot = 1 then false else f.spriteOverflow) ∧
        q.sprite0Line = f.sprite0Line ∧ q.sprCount = f.sprCount ∧ q.sprites = f.sprites := by
  obtain ⟨r, ⟨k1, k2, k3, k4, k5⟩, k6, k7, k8, k9, k10, k11, k12, hunits, _, _, _, _, e⟩ :=
    ppuDot_sprites params c p
  refine ⟨r, ⟨k1, k2, k3, k4, k5, k6⟩, ⟨k7, k8, k9, k10, k11, k12⟩, fun i => ?_, ?_⟩
  · rw [hunits]
    by_cases hc : (0 ≤ p.scanline ∧ p.scanline ≤ 239) ∧ 2 ≤ p.dot ∧ p.dot ≤ 257 ∧ p.mask.getLsbD 4 = true
    · rw [if_pos (by rwa [and_assoc] at hc)]
      simp only [hc, true_and]
      exact Vector.getElem_mapIdx ..
    · rw [if_neg (by rwa [and_assoc] at hc), if_neg (fun h => hc h.1)]
  · rw [e]
    exact verticalBlank_evaluation _

/-- Evaluation, fetch and units leave each other's results alone. -/
theorem evaluateSprites_units (p : Ppu) :
    (evaluateSprites p).sprCount = p.sprCount ∧ (evaluateSprites p).sprite0Line = p.sprite0Line ∧
      (evaluateSprites p).sprites = p.sprites ∧ (evaluateSprites p).scanline = p.scanline ∧
      (evaluateSprites p).dot = p.dot := by
  obtain ⟨_, _, _, _, h⟩ := evaluateSprites_eq p
  rw [h]
  exact ⟨rfl, rfl, rfl, rfl, rfl⟩

theorem fetchSprites_evaluation (c : Cartridge) (p : Ppu) :
    (fetchSprites c p).secOam = p.secOam ∧ (fetchSprites c p).spriteCount = p.spriteCount ∧
      (fetchSprites c p).sprite0Next = p.sprite0Next ∧ (fetchSprites c p).spriteOverflow = p.spriteOverflow ∧
      (fetchSprites c p).scanline = p.scanline ∧ (fetchSprites c p).dot = p.dot := by
  obtain ⟨_, _, _, h⟩ := fetchSprites_eq c p
  rw [h]
  exact ⟨rfl, rfl, rfl, rfl, rfl, rfl⟩

/-- What evaluation finds at dot 256 of a rendered visible line (R200, D29). -/
theorem evaluateSprites_result (p : Ppu) (h1 : 0 ≤ p.scanline) (h2 : p.scanline ≤ 239) (hd : p.dot = 256)
    (hr : renderingEnabled p = true) :
    let hits := (List.range 64).filter (fun k => spriteInRange p (oamEntry p k))
    let q := evaluateSprites p
    q.spriteCount = min 8 hits.length ∧
      (∀ i, i < 8 → q.secOam[i]? = some
        (match hits[i]? with
        | some k => oamEntry p k
        | none => { y := 0xFF, tile := 0xFF, attr := 0xFF, x := 0xFF })) ∧
      q.sprite0Next = spriteInRange p (oamEntry p 0) ∧
      q.spriteOverflow = (p.spriteOverflow || decide (8 < hits.length)) := by
  intro hits q
  have hq : q = scanOam { p with
      spriteCount := 0, sprite0Next := false
      secOam := Vector.replicate 8 ⟨0xFF, 0xFF, 0xFF, 0xFF⟩ } (List.range 64) := by
    show evaluateSprites p = _
    rw [evaluateSprites_on p h1 h2 hd, if_pos hr]
  obtain ⟨hcount, hsec, hzero, hovf⟩ := scanOam_result (List.range 64)
    { p with spriteCount := 0, sprite0Next := false, secOam := Vector.replicate 8 ⟨0xFF, 0xFF, 0xFF, 0xFF⟩ }
    (Nat.zero_le 8)
  rw [← hq] at hcount hsec hzero hovf
  refine ⟨hcount.trans (by rw [Nat.zero_add]; rfl), fun i hi => ?_, hzero.trans ?_,
    hovf.trans (by rw [Nat.zero_add]; rfl)⟩
  · refine (hsec i hi).trans ?_
    rw [if_neg (Nat.not_lt_zero i), Nat.sub_zero]
    show (match hits[i]? with | some k => some (oamEntry p k) | none => _) = _
    cases hits[i]? with
    | some k => rfl
    | none => simp [hi]
  · rw [Bool.false_or]
    exact take_filter_range_zero _

/-- With rendering disabled evaluation takes no sprite (R200). -/
theorem ppuDot_evaluates_unrendered (params : Params) (c : Cartridge) (p : Ppu) (h1 : 0 ≤ p.scanline)
    (h2 : p.scanline ≤ 239) (hd : p.dot = 256) (h3 : p.mask.getLsbD 3 = false) (h4 : p.mask.getLsbD 4 = false) :
    let q := (ppuDot params c p).2
    q.spriteCount = 0 ∧ q.sprite0Next = false ∧ q.spriteOverflow = p.spriteOverflow ∧ q.secOam = p.secOam := by
  obtain ⟨u, ⟨ksec, _, _, kovf, _⟩, ⟨kline, kdot, kmask, _⟩, _, ⟨f1, f2, f3, f4, _⟩⟩ := ppuDot_spriteState params c p
  have hoff : renderingEnabled u = false := by rw [renderingEnabled, kmask, h3, h4]; rfl
  have heval : evaluateSprites u = { u with spriteCount := 0, sprite0Next := false } := by
    rw [evaluateSprites_on u (by rw [kline]; exact h1) (by rw [kline]; exact h2) (kdot.trans hd), hoff]
    rfl
  obtain ⟨g1, g2, g3, g4, g5, g6⟩ := fetchSprites_evaluation c (evaluateSprites u)
  rw [g1, heval] at f1
  rw [g2, heval] at f2
  rw [g3, heval] at f3
  rw [g4, g5, g6, heval] at f4
  refine ⟨f2, f3, f4.trans ?_, f1.trans ksec⟩
  dsimp only
  rw [kline, kdot, hd, if_neg (by omega), kovf]

/-- Settles O47: evaluation by `evaluateSprites_result`, the fetch sprite by sprite, the units by `advanceUnit_eq`. -/
theorem spriteEvaluation : Obligations.SpriteEvaluation := by
  refine ⟨fun params c p h1 h2 hd => ?_, fun params c p => ?_⟩
  · intro row height hits q
    obtain ⟨r, hoam, hline, hctrl, hmask, hdot, hovf, e1, e2, e3, e4⟩ := ppuDot_evaluates params c p hd
    have hrange (k : Nat) : spriteInRange r (oamEntry r k) = decide (0 ≤ row k ∧ row k < height) := by
      rw [Bool.decide_and, spriteInRange, spriteHeight, oamEntry, hline, hctrl, hoam]
    have hhits : (List.range 64).filter (fun k => spriteInRange r (oamEntry r k)) = hits :=
      List.filter_congr fun k _ => hrange k
    refine ⟨fun hr => ?_, fun h3 h4 => ?_⟩
    · have hr' : renderingEnabled r = true := by rw [renderingEnabled_iff, hmask]; exact hr
      obtain ⟨hcount, hsec, hzero, hover⟩ :=
        evaluateSprites_result r (by rw [hline]; exact h1) (by rw [hline]; exact h2) (hdot.trans hd) hr'
      rw [hhits] at hcount hsec hover
      refine ⟨e1.trans hcount, fun i hi => ?_, ?_, ?_⟩
      · rw [e2, hsec i hi, ← hoam]
        rfl
      · rw [e3, hzero, hrange, decide_eq_true_eq]
      · rw [e4, hover, hovf]
    · exact ppuDot_evaluates_unrendered params c p h1 h2 hd h3 h4
  · intro q visible rendering height row pattern fetched counts
    obtain ⟨r, ⟨ksec, kcount, kzero, kovf, kzero0, kcnt⟩, ⟨kline, kdot, kmask, kctrl, kvram, kpal⟩, kunits,
      ⟨f1, f2, f3, f4, f5, f6, f7⟩⟩ := ppuDot_spriteState params c p
    have heval (h : ¬ (visible ∧ p.dot = 256)) : evaluateSprites r = r :=
      evaluateSprites_off r (by rw [kline, kdot]; exact h)
    refine ⟨fun h => ?_, fun hd hv hr => ?_, fun hd hn => ?_, fun hn => ?_⟩
    · obtain ⟨g1, g2, g3, g4, g5, g6⟩ := fetchSprites_evaluation c (evaluateSprites r)
      rw [g1, heval h] at f1
      rw [g2, heval h] at f2
      rw [g3, heval h] at f3
      rw [g4, g5, g6, heval h, kline, kdot, kovf] at f4
      exact ⟨f1.trans ksec, f2.trans kcount, f3.trans kzero, f4⟩
    · have hfetched (e : SpriteEntry) :
          fetchSprite c r e =
            { lo := fetched e (pattern e), hi := fetched e (pattern e + 8), x := e.x, attr := e.attr } := by
        rw [fetchSprite_eq, kline, kctrl]
        simp only [ppuRead_congr c kvram kpal]
        rfl
      rw [heval (fun h => by omega), fetchSprites_on c r (kdot.trans hd) (by rw [kline]; exact hv)
        (by rw [renderingEnabled_iff, kmask]; exact hr)] at f5 f6 f7
      refine ⟨f6.trans kcount, f5.trans kzero, fun i => ?_⟩
      have hunit : r.sprites[i] = p.sprites[i] := by rw [kunits, if_neg (fun h => by omega)]
      rw [f7, ← hfetched, ← hunit, ← ksec, ← secEntry_eq, ← kcount]
      exact Vector.getElem_mapIdx ..
    · rw [heval (fun h => by omega), fetchSprites_none c r (kdot.trans hd)
        (by rw [kline, renderingEnabled_iff, kmask]; exact hn)] at f5 f6 f7
      refine ⟨f6, f5, f7.trans (Vector.ext fun i hi => ?_)⟩
      exact (kunits ⟨i, hi⟩).trans (if_neg (fun h => by omega))
    · obtain ⟨g1, g2, g3, g4, g5⟩ := evaluateSprites_units r
      rw [fetchSprites_off c _ (by rw [g4, g5, kline, kdot]; exact hn)] at f5 f6 f7
      refine ⟨f6.trans (g1.trans kcnt), f5.trans (g2.trans kzero0), fun i => ?_⟩
      rw [← advanceUnit_eq, f7, g3]
      exact kunits i

end Sys2Proof.Proofs
end

section
/-! PROOFS. Pixel composition and the sprite-0 hit, told from the shifters before the dot (spec/62_ppu.md R203). -/

namespace Sys2Proof.Proofs

open Sys2Proof.Machine Sys2Proof.Claims

/-! The pixel of a dot, told from the PPU before the dot. -/

/-- The bit of a background shifter that the dot puts out. -/
def dotPlane (p : Ppu) (r : BitVec 16) : Nat := (r.getLsbD ((if p.dot = 1 then 15 else 14) - p.fineX.toNat)).toNat

/-- Whether the background is shown at the dot. -/
abbrev ShowsBg (p : Ppu) : Prop := p.mask.getLsbD 3 = true ∧ (p.mask.getLsbD 1 = true ∨ 8 ≤ p.dot - 1)

/-- Whether the sprites are shown at the dot. -/
abbrev ShowsFg (p : Ppu) : Prop := p.mask.getLsbD 4 = true ∧ (p.mask.getLsbD 2 = true ∨ 8 ≤ p.dot - 1)

/-- The background's pixel at the dot. -/
def dotBg (p : Ppu) : Nat := if ShowsBg p then 2 * dotPlane p p.bgHi + dotPlane p p.bgLo else 0

/-- The background's palette at the dot. -/
def dotBgPal (p : Ppu) : Nat := 2 * dotPlane p p.atHi + dotPlane p p.atLo

/-- The first sprite that is opaque at the dot. -/
def dotFg (p : Ppu) : Option (Fin 8) :=
  (List.finRange 8).find? (fun i => decide (ShowsFg p ∧ i.val < p.sprCount ∧ unitDots p p.sprites[i] ≠ 0))

/-- The palette cell of the pixel put out. -/
def dotColour (p : Ppu) : Nat :=
  match dotFg p with
  | none => if dotBg p = 0 then 0 else dotBgPal p * 4 + dotBg p
  | some i =>
    if dotBg p = 0 ∨ p.sprites[i].attr.getLsbD 5 = false then
      (p.sprites[i].attr.toNat % 4 + 4) * 4 + unitDots p p.sprites[i]
    else dotBgPal p * 4 + dotBg p

theorem two_mul_toNat_lt (a b : Bool) : 2 * a.toNat + b.toNat < 4 := by
  cases a <;> cases b <;> decide

theorem dotBg_lt (p : Ppu) : dotBg p < 4 := by
  unfold dotBg
  split
  · exact two_mul_toNat_lt _ _
  · decide

theorem dotBgPal_lt (p : Ppu) : dotBgPal p < 4 := two_mul_toNat_lt _ _

theorem unitDots_lt (p : Ppu) (u : SpriteUnit) : unitDots p u < 4 := by
  unfold unitDots
  dsimp only
  split
  · exact two_mul_toNat_lt _ _
  · decide

/-- A dot that puts out a pixel. -/
abbrev DotVisible (p : Ppu) : Prop := 0 ≤ p.scanline ∧ p.scanline ≤ 239 ∧ 1 ≤ p.dot ∧ p.dot ≤ 256

/-- A bit pair of the shifters as composition sees them. -/
theorem shifterBits_background {p : Ppu} {hi lo hi' lo' : BitVec 16}
    (h : ∀ k, 8 ≤ k → k < 16 →
      hi'.getLsbD k = hi.getLsbD (if p.dot = 1 then k else k - 1) ∧
      lo'.getLsbD k = lo.getLsbD (if p.dot = 1 then k else k - 1)) :
    shifterBits hi' lo' p.fineX = 2 * dotPlane p hi + dotPlane p lo := by
  have hx := p.fineX.isLt
  have hj : (if p.dot = 1 then 15 - p.fineX.toNat else 15 - p.fineX.toNat - 1) =
      (if p.dot = 1 then 15 else 14) - p.fineX.toNat := by
    split <;> omega
  obtain ⟨h1, h2⟩ := h (15 - p.fineX.toNat) (by omega) (by omega)
  rw [shifterBits, h1, h2, hj]
  rfl

/-- The PPU at composition, in a visible dot: what it keeps of the PPU before the dot. -/
theorem atComposition (c : Cartridge) (p : Ppu) :
    let r := advanceSprites (background c p)
    r.sprite0Hit = p.sprite0Hit ∧ r.scanline = p.scanline ∧ r.dot = p.dot ∧ r.mask = p.mask ∧
      r.sprite0Line = p.sprite0Line ∧ r.palette = p.palette ∧ r.fineX = p.fineX ∧ r.framebuffer = p.framebuffer ∧
      r.sprCount = p.sprCount := by
  obtain ⟨_, k1, _, k2, k3, k4, _, k5, _, _, _, k6, _, _, _, k7, _⟩ :=
    advanceSprites_keeps.comp (background_keeps c) p
  obtain ⟨_, hcount, hfb⟩ := background_units c p
  have hadv (p : Ppu) : (advanceSprites p).framebuffer = p.framebuffer ∧ (advanceSprites p).sprCount = p.sprCount := by
    unfold advanceSprites
    split <;> exact ⟨rfl, rfl⟩
  exact ⟨k1, k2, k3, k4, k5, k6, k7, (hadv _).1.trans hfb, (hadv _).2.trans hcount⟩

/-- The background's pixel, and its palette where it is opaque. -/
theorem backgroundPixel_dot (c : Cartridge) (p : Ppu) (hv : DotVisible p) (hr : renderingEnabled p = true) :
    let r := advanceSprites (background c p)
    (backgroundPixel r (p.dot - 1)).1 = dotBg p ∧
      (dotBg p ≠ 0 → (backgroundPixel r (p.dot - 1)).2 = dotBgPal p) := by
  intro r
  obtain ⟨_, _, _, hmask, _, _, hx, _⟩ := atComposition c p
  have hadv (p : Ppu) : (advanceSprites p).bgLo = p.bgLo ∧ (advanceSprites p).bgHi = p.bgHi ∧
      (advanceSprites p).atLo = p.atLo ∧ (advanceSprites p).atHi = p.atHi := by
    unfold advanceSprites
    split <;> exact ⟨rfl, rfl, rfl, rfl⟩
  obtain ⟨h1, h2, h3, h4⟩ := hadv (background c p)
  have hplanes := background_planes c p hv hr
  have hbg : shifterBits r.bgHi r.bgLo p.fineX = 2 * dotPlane p p.bgHi + dotPlane p p.bgLo := by
    rw [h1, h2]
    exact shifterBits_background fun k h h' => ⟨(hplanes k h h').2.1, (hplanes k h h').1⟩
  have hpal : shifterBits r.atHi r.atLo p.fineX = dotBgPal p := by
    rw [h3, h4]
    exact shifterBits_background fun k h h' => ⟨(hplanes k h h').2.2.2, (hplanes k h h').2.2.1⟩
  have hshow : (r.mask.getLsbD 3 && (r.mask.getLsbD 1 || decide (8 ≤ p.dot - 1))) = true ↔ ShowsBg p := by
    rw [hmask, Bool.and_eq_true, Bool.or_eq_true, decide_eq_true_eq]
  rw [backgroundPixel, dotBg]
  simp only [hshow]
  by_cases hs : ShowsBg p
  · rw [if_pos hs, if_pos hs, hx]
    exact ⟨hbg, fun _ => hpal⟩
  · rw [if_neg hs, if_neg hs]
    exact ⟨rfl, fun h => absurd rfl h⟩

/-- The sprites' pixel. -/
theorem spritePixel_dot (c : Cartridge) (p : Ppu) (hv : DotVisible p) :
    spritePixel (advanceSprites (background c p)) (p.dot - 1) =
      (dotFg p).map (fun i => (i.val, unitAtDot p p.sprites[i])) := by
  obtain ⟨_, hline, hdot, hmask, _, _, _, _, hcount⟩ := atComposition c p
  obtain ⟨_, _, _, bline, bdot, bmask, _⟩ := background_keeps c p
  obtain ⟨hsprites, bcount, _⟩ := background_units c p
  have hshow : (p.mask.getLsbD 4 && (p.mask.getLsbD 2 || decide (8 ≤ p.dot - 1))) = true ↔ ShowsFg p := by
    rw [Bool.and_eq_true, Bool.or_eq_true, decide_eq_true_eq]
  unfold spritePixel dotFg
  rw [hmask, hcount]
  simp only [hshow]
  by_cases hs : ShowsFg p
  · have hunits := advanceSprites_units (background c p) (by rw [bline, bdot]; exact hv) (by rw [bmask]; exact hs.1)
    have hat (u : SpriteUnit) : unitAtDot (background c p) u = unitAtDot p u := by
      rw [unitAtDot, bdot]
      rfl
    simp only [hat, hsprites, bcount] at hunits
    rw [if_pos hs, hunits]
    simp only [eq_true hs, true_and]
    exact firstOpaque_units p p.sprCount p.sprites
  · have hnone : (List.finRange 8).find?
        (fun i => decide (ShowsFg p ∧ i.val < p.sprCount ∧ unitDots p p.sprites[i] ≠ 0)) = none := by
      rw [List.find?_eq_none]
      intro i _
      rw [decide_eq_true_eq]
      exact fun h => hs h.1
    rw [if_neg hs, hnone]
    rfl

theorem dotFg_spec {p : Ppu} {i : Fin 8} (h : dotFg p = some i) : ShowsFg p ∧ unitDots p p.sprites[i] ≠ 0 := by
  have hi := List.find?_some h
  rw [decide_eq_true_eq] at hi
  exact ⟨hi.1, hi.2.2⟩

theorem attrPalette_toNat (b : Byte) : (b &&& 3).toNat = b.toNat % 4 := by
  have h : ∀ b : Byte, (b &&& 3).toNat = b.toNat % 4 := by decide
  exact h b

/-- The pixel chosen names the palette cell `dotColour`, and is transparent only as the backdrop. -/
theorem choosePixel_dot (p : Ppu) {pal : Nat} (hpal : dotBg p ≠ 0 → pal = dotBgPal p) :
    let chosen := choosePixel (dotBg p) pal ((dotFg p).map (fun i => (i.val, unitAtDot p p.sprites[i])))
    chosen.2 * 4 + chosen.1 = dotColour p ∧ chosen.1 < 4 ∧ chosen.2 < 8 ∧ (chosen.1 ≠ 0 ∨ chosen.2 = 0) := by
  have hbg := dotBg_lt p
  have hbgPal := dotBgPal_lt p
  unfold dotColour
  cases hfg : dotFg p with
  | none =>
    rw [Option.map_none]
    dsimp only [choosePixel]
    by_cases h0 : dotBg p = 0
    · rw [if_pos h0, if_pos h0]
      exact ⟨rfl, by decide, by decide, .inr rfl⟩
    · rw [if_neg h0, if_neg h0, hpal h0]
      exact ⟨rfl, hbg, by omega, .inl h0⟩
  | some i =>
    have hopaque := (dotFg_spec hfg).2
    have hdots := unitDots_lt p p.sprites[i]
    obtain ⟨hactive, hpixel⟩ := unitAtDot_opaque p p.sprites[i]
    rw [Option.map_some]
    dsimp only [choosePixel]
    rw [hpixel (hactive.2 hopaque).1, unitAtDot_attr, attrPalette_toNat]
    have hfront : (decide (dotBg p = 0) || !p.sprites[i].attr.getLsbD 5) = true ↔
        dotBg p = 0 ∨ p.sprites[i].attr.getLsbD 5 = false := by
      rw [Bool.or_eq_true, decide_eq_true_eq, Bool.not_eq_true']
    simp only [hfront]
    by_cases hf : dotBg p = 0 ∨ p.sprites[i].attr.getLsbD 5 = false
    · rw [if_pos hf, if_pos hf]
      exact ⟨rfl, hdots, by omega, .inl hopaque⟩
    · have h0 : dotBg p ≠ 0 := fun h => hf (.inl h)
      rw [if_neg hf, if_neg hf, hpal h0]
      exact ⟨rfl, hbg, by omega, .inl h0⟩

/-- The dots at which sprite 0 is hit. -/
abbrev DotHits (p : Ppu) : Prop :=
  dotBg p ≠ 0 ∧ dotFg p = some 0 ∧ p.sprite0Line = true ∧ p.mask.getLsbD 3 = true ∧ p.mask.getLsbD 4 = true ∧
    p.dot - 1 ≠ 255 ∧ (8 ≤ p.dot - 1 ∨ (p.mask.getLsbD 1 = true ∧ p.mask.getLsbD 2 = true))

theorem hitsSprite0_dot (c : Cartridge) (p : Ppu) :
    hitsSprite0 (advanceSprites (background c p)) (p.dot - 1) (dotBg p)
      ((dotFg p).map (fun i => (i.val, unitAtDot p p.sprites[i]))) = true ↔ DotHits p := by
  obtain ⟨_, _, _, hmask, hzero, _⟩ := atComposition c p
  unfold hitsSprite0
  cases hfg : dotFg p with
  | none => simp [DotHits, hfg]
  | some i =>
    have hi : i.val = 0 ↔ some i = some 0 := by rw [Option.some_inj, Fin.ext_iff]; rfl
    rw [hmask, hzero, DotHits, hfg, ← hi, Option.map_some]
    simp only [Bool.and_eq_true, Bool.or_eq_true, decide_eq_true_eq, and_assoc]

/-- Without rendering a dot puts out the backdrop and hits nothing. -/
theorem dot_unrendered {p : Ppu} (hr : ¬ renderingEnabled p = true) : dotColour p = 0 ∧ ¬ DotHits p := by
  rw [renderingEnabled_iff, not_or] at hr
  have hbg : dotBg p = 0 := if_neg fun h => hr.1 h.1
  have hfg : dotFg p = none := by
    cases h : dotFg p with
    | none => rfl
    | some i => exact absurd (dotFg_spec h).1.1 hr.2
  exact ⟨by rw [dotColour, hfg, hbg]; rfl, fun h => h.1 hbg⟩

/-- What composition leaves in a visible dot. -/
theorem composePixel_dot (c : Cartridge) (p : Ppu) (hv : DotVisible p) :
    let q := composePixel c (advanceSprites (background c p))
    (q.sprite0Hit = true ↔ p.sprite0Hit = true ∨ DotHits p) ∧
      q.framebuffer = writeCell p.framebuffer (p.scanline.toNat * 256 + (p.dot - 1))
        (outputColour p (readCell p.palette (dotColour p))) := by
  obtain ⟨khit, kline, kdot, kmask, kzero, kpal, kx, kfb, kcount⟩ := atComposition c p
  have hhits := hitsSprite0_dot c p
  have hfg := spritePixel_dot c p hv
  have hbg := backgroundPixel_dot c p hv
  generalize advanceSprites (background c p) = r at *
  intro q
  have hq : q = composePixel c r := rfl
  clear_value q
  have hcolour (x : Ppu) (b : Byte) (hmask : x.mask = p.mask) : outputColour x b = outputColour p b := by
    rw [outputColour, outputColour, hmask]
  have hrender : renderingEnabled r = renderingEnabled p := by rw [renderingEnabled, renderingEnabled, kmask]
  rw [composePixel, if_pos (by simp [onVisibleLine, dotIn, kline, kdot, hv.1, hv.2.1, hv.2.2]), kdot, hrender] at hq
  by_cases hr : renderingEnabled p = true
  · obtain ⟨hpix, hpal⟩ := hbg hr
    obtain ⟨hcell, hpx, hpl, htrans⟩ := choosePixel_dot p hpal
    rw [if_pos hr] at hq
    dsimp only at hq
    rw [hpix, hfg] at hq
    rw [hq]
    dsimp only [putPixel]
    rw [ppuRead_palette _ _ _ _ hpx hpl htrans, hcell, hcolour, kpal, kline, kfb, khit, Bool.or_eq_true, hhits]
    · exact ⟨Iff.rfl, rfl⟩
    · exact kmask
  · obtain ⟨hcell, hnone⟩ := dot_unrendered hr
    rw [if_neg hr] at hq
    rw [hq]
    dsimp only [putPixel]
    rw [hcolour r _ kmask, hcell, kpal, kline, kfb, khit]
    exact ⟨(or_iff_left hnone).symm, rfl⟩

/-- Composition is off outside the visible dots. -/
theorem composePixel_off (c : Cartridge) (p : Ppu) (hv : ¬ DotVisible p) :
    let q := composePixel c (advanceSprites (background c p))
    q.sprite0Hit = p.sprite0Hit ∧ q.framebuffer = p.framebuffer := by
  obtain ⟨khit, kline, kdot, _, _, _, _, kfb, _⟩ := atComposition c p
  have hoff : ¬ (onVisibleLine (advanceSprites (background c p)) &&
      dotIn (advanceSprites (background c p)) 1 256) = true := by
    rw [Bool.and_eq_true, onVisibleLine_iff, dotIn, Bool.and_eq_true, decide_eq_true_eq, decide_eq_true_eq, kline, kdot,
      and_assoc]
    exact hv
  rw [composePixel, if_neg hoff]
  exact ⟨khit, kfb⟩

/-- Settles O48: `dotBg`, `dotFg` and `dotColour` are the statement's own terms. -/
theorem spriteZeroHitConditions : Obligations.SpriteZeroHitConditions := by
  intro params c p
  obtain ⟨hfb, hhit⟩ := ppuDot_composes params c p
  have hspec : ((ppuDot params c p).2.sprite0Hit = true ↔
        (p.sprite0Hit = true ∧ ¬ (p.scanline = -1 ∧ p.dot = 1)) ∨ (DotVisible p ∧ DotHits p)) ∧
      ∀ n, readCell (ppuDot params c p).2.framebuffer n =
        if DotVisible p ∧ n = p.scanline.toNat * 256 + (p.dot - 1) then
          (readCell p.palette (dotColour p)).setWidth 6 &&& (if p.mask.getLsbD 0 then 0x30 else 0x3F)
        else readCell p.framebuffer n := by
    rw [hfb, hhit]
    by_cases hv : DotVisible p
    · obtain ⟨h1, h2⟩ := composePixel_dot c p hv
      have hclear : ¬ (p.scanline = -1 ∧ p.dot = 1) := fun h => by have := hv.1; omega
      rw [if_neg hclear, h1, h2]
      refine ⟨?_, fun n => ?_⟩
      · simp only [hclear, eq_true hv, not_false_eq_true, and_true, true_and]
      · rw [readCell_writeCell, outputColour_eq]
        simp only [eq_true hv, true_and]
    · obtain ⟨h1, h2⟩ := composePixel_off c p hv
      rw [h1, h2]
      refine ⟨?_, fun n => ?_⟩
      · by_cases hclear : p.scanline = -1 ∧ p.dot = 1
        · rw [if_pos hclear]
          simp only [hclear, eq_false hv, false_and, and_self, not_true, and_false, or_false, Bool.false_eq_true]
        · rw [if_neg hclear]
          simp only [hclear, eq_false hv, false_and, not_false_eq_true, and_true, or_false]
      · rw [if_neg (fun h => hv h.1)]
  refine ⟨fun h => ?_, ?_, hspec.2⟩
  · rcases hspec.1.1 h with ⟨hp, _⟩ | ⟨⟨h1, h2, h3, h4⟩, _, _, hline, hm3, hm4, h255, _⟩
    · exact .inl hp
    · exact .inr ⟨h1, h2, h3, by omega, hm3, hm4, hline⟩
  · exact hspec.1

end Sys2Proof.Proofs
end

section
/-! PROOFS. The PPU's address space and PPUDATA (spec/62_ppu.md R182 to R184, R192, R193). -/

namespace Sys2Proof.Proofs

open Sys2Proof.Machine Sys2Proof.Claims

/-! A PPU read and a PPU write, range by range (R182). -/

theorem ppuRead_chr (c : Cartridge) (p : Ppu) {a : PpuAddr} (h : a.toNat < 0x2000) :
    ppuRead c p a = readCell c.chr (chrOffset c a.toNat) := by
  rw [ppuRead, if_pos (by omega), chrRead]

theorem ppuRead_nametable (c : Cartridge) (p : Ppu) {a : PpuAddr} (h : 0x2000 ≤ a.toNat) (h' : a.toNat < 0x3F00) :
    ppuRead c p a = readCell p.vram (ntIndex c.mirror a) := by
  rw [ppuRead, if_neg (by omega), if_pos (by omega)]

theorem ppuRead_paletteCell (c : Cartridge) (p : Ppu) {a : PpuAddr} (h : 0x3F00 ≤ a.toNat) :
    ppuRead c p a = readCell p.palette (palIndex a) := by
  rw [ppuRead, if_neg (by omega), if_neg (by omega)]

theorem ppuWrite_chr (c : Cartridge) (p : Ppu) {a : PpuAddr} (d : Byte) (h : a.toNat < 0x2000) :
    ppuWrite c p a d = (chrWrite c a.toNat d, p) := by
  rw [ppuWrite, if_pos (by omega)]

theorem ppuWrite_nametable (c : Cartridge) (p : Ppu) {a : PpuAddr} (d : Byte) (h : 0x2000 ≤ a.toNat)
    (h' : a.toNat < 0x3F00) :
    ppuWrite c p a d = (c, { p with vram := writeCell p.vram (ntIndex c.mirror a) d }) := by
  rw [ppuWrite, if_neg (by omega), if_pos (by omega)]

theorem ppuWrite_paletteCell (c : Cartridge) (p : Ppu) {a : PpuAddr} (d : Byte) (h : 0x3F00 ≤ a.toNat) :
    ppuWrite c p a d = (c, { p with palette := writeCell p.palette (palIndex a) d }) := by
  rw [ppuWrite, if_neg (by omega), if_neg (by omega)]

/-- The three ranges of the PPU's address space. -/
theorem ppuAddr_cases (a : PpuAddr) :
    a.toNat < 0x2000 ∨ (0x2000 ≤ a.toNat ∧ a.toNat < 0x3F00) ∨ 0x3F00 ≤ a.toNat := by
  omega

/-- A write of CHR memory, by whether it is RAM (R233, D52). -/
theorem chrWrite_spec (c : Cartridge) (a : Nat) (d : Byte) :
    chrWrite c a d = { c with chr := (chrWrite c a d).chr } ∧
      ∀ n, readCell (chrWrite c a d).chr n = if c.chrBanks = 0 ∧ n = chrOffset c a then d else readCell c.chr n := by
  unfold chrWrite
  by_cases h : c.chrBanks = 0
  · rw [if_pos h]
    refine ⟨rfl, fun n => ?_⟩
    simp only [h, true_and]
    exact readCell_writeCell _ _ _ _
  · rw [if_neg h]
    exact ⟨rfl, fun n => (if_neg fun hn => h hn.1).symm⟩

/-- A PPU write changes the one cell that its address names. -/
theorem ppuWrite_spec (c : Cartridge) (p : Ppu) (a : PpuAddr) (d : Byte) :
    let w := ppuWrite c p a d
    w.1 = { c with chr := w.1.chr } ∧ w.2 = { p with vram := w.2.vram, palette := w.2.palette } ∧
      (∀ n, readCell w.1.chr n =
        if a.toNat < 0x2000 ∧ c.chrBanks = 0 ∧ n = chrOffset c a.toNat then d else readCell c.chr n) ∧
      (∀ n, readCell w.2.vram n =
        if 0x2000 ≤ a.toNat ∧ a.toNat < 0x3F00 ∧ n = ntIndex c.mirror a then d else readCell p.vram n) ∧
      (∀ n, readCell w.2.palette n =
        if 0x3F00 ≤ a.toNat ∧ n = palIndex a then d else readCell p.palette n) := by
  rcases ppuAddr_cases a with h | h | h
  · rw [ppuWrite_chr c p d h]
    obtain ⟨hframe, hcells⟩ := chrWrite_spec c a.toNat d
    refine ⟨hframe, rfl, fun n => ?_, fun n => (if_neg (by omega)).symm, fun n => (if_neg (by omega)).symm⟩
    simp only [h, true_and]
    exact hcells n
  · rw [ppuWrite_nametable c p d h.1 h.2]
    refine ⟨rfl, rfl, fun n => (if_neg (by omega)).symm, fun n => ?_, fun n => (if_neg (by omega)).symm⟩
    simp only [h, true_and]
    exact readCell_writeCell _ _ _ _
  · rw [ppuWrite_paletteCell c p d h]
    refine ⟨rfl, rfl, fun n => (if_neg (by omega)).symm, fun n => (if_neg (by omega)).symm, fun n => ?_⟩
    simp only [h, true_and]
    exact readCell_writeCell _ _ _ _

/-- A PPU write is read back at its own address, unless CHR is ROM. -/
theorem ppuRead_ppuWrite_same (c : Cartridge) (p : Ppu) (a : PpuAddr) (d : Byte)
    (h : 0x2000 ≤ a.toNat ∨ c.chrBanks = 0) : ppuRead (ppuWrite c p a d).1 (ppuWrite c p a d).2 a = d := by
  rcases ppuAddr_cases a with ha | ha | ha
  · have hram : c.chrBanks = 0 := h.resolve_left (by omega)
    rw [ppuWrite_chr c p d ha, ppuRead_chr _ _ ha, chrWrite, if_pos hram]
    exact readCell_writeCell_same _ _ _
  · rw [ppuWrite_nametable c p d ha.1 ha.2, ppuRead_nametable _ _ ha.1 ha.2]
    exact readCell_writeCell_same _ _ _
  · rw [ppuWrite_paletteCell c p d ha, ppuRead_paletteCell _ _ ha]
    exact readCell_writeCell_same _ _ _

/-! PPUDATA. -/

theorem vAddr_eq (v : BitVec 15) : BitVec.ofNat 14 v.toNat = vAddr v := BitVec.ofNat_toNat _ _

theorem dataStep_toNat (p : Ppu) :
    (p.v + dataIncrement p).toNat = (p.v.toNat + if p.ctrl.getLsbD 2 then 32 else 1) % 0x8000 := by
  rw [BitVec.toNat_add, dataIncrement, apply_ite BitVec.toNat]
  rfl

theorem busRead_ppuData {a : Word} (h : 0x2000 ≤ a.toNat) (h' : a.toNat ≤ 0x3FFF) (hk : a.toNat % 8 = 7) (s : State) :
    busRead a s = (dataReadValue s.cart s.ppu, { s with ppu := afterDataRead s.cart s.ppu }) := by
  rw [busRead, busReadWith_ppu h h', ppuReg_of_mod (k := 7) hk]
  rfl

theorem busWrite_ppuData {a : Word} (d : Byte) (h : 0x2000 ≤ a.toNat) (h' : a.toNat ≤ 0x3FFF) (hk : a.toNat % 8 = 7)
    (s : State) :
    busWrite a d s =
      let w := ppuWrite s.cart s.ppu (vAddr s.ppu.v) d
      { s with
        cart := w.1, ppu := { w.2 with v := s.ppu.v + dataIncrement s.ppu }
        deviceWrites := (a, d) :: s.deviceWrites } := by
  rw [busWrite_ppu h h', ppuReg_of_mod (k := 7) hk, noteWrite_device (.inl ⟨h, by omega⟩)]
  rfl

/-- Settles O42: the read's and the write's states are explicit, and the PPU write is `ppuWrite_spec`. -/
theorem ppuDataAccess : Obligations.PpuDataAccess := by
  intro a d s h h' hk pa next w
  have hpa : pa = vAddr s.ppu.v := vAddr_eq _
  have hw : w = ppuWrite s.cart s.ppu pa d := rfl
  have hsame := ppuRead_ppuWrite_same s.cart s.ppu pa d
  have hspec := ppuWrite_spec s.cart s.ppu pa d
  rw [busRead_ppuData h h' hk, busWrite_ppuData d h h' hk, ← hpa, ← hw]
  rw [← hw] at hsame hspec
  clear_value w pa
  obtain ⟨hcart, hppu, hcells⟩ := hspec
  have hbuf : w.2.readBuffer = s.ppu.readBuffer := by rw [hppu]
  refine ⟨⟨?_, ?_, dataStep_toNat s.ppu⟩, ⟨dataStep_toNat s.ppu, hbuf, rfl, rfl, rfl, hsame⟩,
    rfl, hcart, hppu, hcells⟩
  · rw [dataReadValue, ← hpa]
  · rw [afterDataRead, ← hpa]

/-! Aliases. -/

/-- Where a palette address falls (R184). -/
theorem palIndex_eq (a : PpuAddr) : palIndex a = if a.toNat % 4 = 0 then a.toNat % 16 else a.toNat % 32 := by
  have hi : (a.extractLsb' 0 5).toNat = a.toNat % 32 := by simp [BitVec.extractLsb'_toNat]
  unfold palIndex
  simp only [hi, Bool.or_eq_true, decide_eq_true_eq]
  split <;> split <;> omega

/-- Where a nametable address falls (R183). -/
theorem ntIndex_eq (m : Mirror) (a : PpuAddr) :
    ntIndex m a = ntPage m (a.toNat / 1024 % 4) * 1024 + a.toNat % 1024 := by
  rw [ntIndex, BitVec.extractLsb'_toNat, BitVec.extractLsb'_toNat, Nat.shiftRight_eq_div_pow]
  simp

theorem palIndex_eq_iff (a b : PpuAddr) :
    palIndex b = palIndex a ↔
      a.toNat % 32 = b.toNat % 32 ∨ (a.toNat % 4 = 0 ∧ b.toNat % 4 = 0 ∧ a.toNat % 16 = b.toNat % 16) := by
  rw [palIndex_eq, palIndex_eq]
  split <;> split <;> omega

/-- The page of a logical nametable, mirror mode by mirror mode (R183). -/
def mirrorPage (m : Mirror) (n : Nat) : Nat :=
  match m with
  | .horizontal => if n < 2 then 0 else 1
  | .vertical => if n = 0 ∨ n = 2 then 0 else 1
  | .oneScreenLow => 0
  | .oneScreenHigh => 1

theorem ntPage_eq (m : Mirror) {n : Nat} (hn : n < 4) : ntPage m n = mirrorPage m n := by
  cases m with
  | horizontal => rw [ntPage, mirrorPage]; split <;> omega
  | vertical => rw [ntPage, mirrorPage]; split <;> omega
  | oneScreenLow => rfl
  | oneScreenHigh => rfl

theorem ntIndex_eq_iff (m : Mirror) (a b : PpuAddr) :
    ntIndex m b = ntIndex m a ↔
      a.toNat % 1024 = b.toNat % 1024 ∧
        mirrorPage m (a.toNat / 1024 % 4) = mirrorPage m (b.toNat / 1024 % 4) := by
  rw [ntIndex_eq, ntIndex_eq, ntPage_eq m (by omega), ntPage_eq m (by omega)]
  omega

/-- A read after a write, at or above 0x2000: the byte written where the two addresses name the same cell of the
same memory. -/
theorem ppuRead_ppuWrite (a b : PpuAddr) (d : Byte) (c : Cartridge) (p : Ppu) (ha : 0x2000 ≤ a.toNat)
    (hb : 0x2000 ≤ b.toNat) :
    ppuRead (ppuWrite c p a d).1 (ppuWrite c p a d).2 b =
      if (0x3F00 ≤ a.toNat ∧ 0x3F00 ≤ b.toNat ∧ palIndex b = palIndex a) ∨
          (a.toNat < 0x3F00 ∧ b.toNat < 0x3F00 ∧ ntIndex c.mirror b = ntIndex c.mirror a) then d
      else ppuRead c p b := by
  by_cases ha' : a.toNat < 0x3F00
  · rw [ppuWrite_nametable c p d ha ha']
    by_cases hb' : b.toNat < 0x3F00
    · rw [ppuRead_nametable _ _ hb hb', ppuRead_nametable _ _ hb hb', readCell_writeCell]
      simp only [ha', hb', Nat.not_le.2 ha', false_and, true_and, false_or]
    · rw [ppuRead_paletteCell _ _ (by omega), ppuRead_paletteCell _ _ (by omega), if_neg (by omega)]
  · rw [ppuWrite_paletteCell c p d (by omega)]
    by_cases hb' : b.toNat < 0x3F00
    · rw [ppuRead_nametable _ _ hb hb', ppuRead_nametable _ _ hb hb', if_neg (by omega)]
    · rw [ppuRead_paletteCell _ _ (by omega), ppuRead_paletteCell _ _ (by omega), readCell_writeCell]
      simp only [ha', Nat.not_lt.1 ha', Nat.not_lt.1 hb', false_and, true_and, or_false]

/-- Settles O43, through `ppuRead_ppuWrite` and the arithmetic of the two indices. -/
theorem ppuMemoryAliases : Obligations.PpuMemoryAliases := by
  intro a b d c p page same ha hb
  have hsame : same ↔ (0x3F00 ≤ a.toNat ∧ 0x3F00 ≤ b.toNat ∧ palIndex b = palIndex a) ∨
      (a.toNat < 0x3F00 ∧ b.toNat < 0x3F00 ∧ ntIndex c.mirror b = ntIndex c.mirror a) := by
    rw [palIndex_eq_iff, ntIndex_eq_iff]
    rfl
  rw [ppuRead_ppuWrite a b d c p ha hb]
  exact ⟨fun h => if_pos (hsame.1 h), fun h => if_neg (fun h' => h (hsame.2 h'))⟩

end Sys2Proof.Proofs
end

section
/-! PROOFS. The control writes of MMC1 and MMC3, and MMC3's counter (spec/64_cartridge.md R238, R243, R246). -/

namespace Sys2Proof.Proofs

open Sys2Proof.Machine Sys2Proof.Claims

/-- The two address bits that select a control register. -/
theorem controlSelect_toNat (addr : Word) : (addr.extractLsb' 13 2).toNat = addr.toNat / 8192 % 4 := by
  rw [BitVec.extractLsb'_toNat, Nat.shiftRight_eq_div_pow]

/-! MMC1's serial port. -/

/-- The shift register after one write: the bit enters at the top. -/
def portShift (shift : BitVec 5) (d : Byte) : BitVec 5 := (shift >>> 1) ||| bitAt 5 4 (d.getLsbD 0)

theorem portShift_toNat (shift : BitVec 5) (d : Byte) :
    (portShift shift d).toNat = shift.toNat / 2 + 16 * (d.getLsbD 0).toNat := by
  have h : ∀ (s : BitVec 5) (b : Bool), ((s >>> 1) ||| bitAt 5 4 b).toNat = s.toNat / 2 + 16 * b.toNat := by decide
  exact h shift _

/-- Five writes put the five bits in, least significant first, and the old ones out. -/
theorem portShift_five (shift : BitVec 5) (d0 d1 d2 d3 d4 : Byte) :
    (portShift (portShift (portShift (portShift (portShift shift d0) d1) d2) d3) d4).toNat =
      (d0.getLsbD 0).toNat + 2 * (d1.getLsbD 0).toNat + 4 * (d2.getLsbD 0).toNat + 8 * (d3.getLsbD 0).toNat +
        16 * (d4.getLsbD 0).toNat := by
  have hs := shift.isLt
  have h0 := Bool.toNat_le (d0.getLsbD 0)
  have h1 := Bool.toNat_le (d1.getLsbD 0)
  have h2 := Bool.toNat_le (d2.getLsbD 0)
  have h3 := Bool.toNat_le (d3.getLsbD 0)
  simp only [portShift_toNat]
  omega

/-- A write with bit 7 clear that does not fill the port moves its bit in and does nothing else. -/
theorem controlWrite_mmc1_shift {c : Cartridge} {m : Mmc1} (hm : c.mapper = .mmc1 m) (addr : Word) {d : Byte}
    (hd : d.getLsbD 7 = false) (hcount : m.count + 1 ≠ 5) :
    controlWrite c addr d =
      { c with mapper := .mmc1 { m with shift := portShift m.shift d, count := m.count + 1 } } := by
  have hload : mmc1LoadsControl m addr d = false := by simp [mmc1LoadsControl, hcount]
  have hwrite : mmc1Write m addr d = { m with shift := portShift m.shift d, count := m.count + 1 } := by
    rw [mmc1Write, hd, if_neg Bool.false_ne_true]
    exact if_neg hcount
  simp only [controlWrite, hm, hload, hwrite]
  rfl

theorem mmc1Mirror_eq (v : BitVec 5) :
    mmc1Mirror v =
      if v.toNat % 4 = 0 then .oneScreenLow else if v.toNat % 4 = 1 then .oneScreenHigh
      else if v.toNat % 4 = 2 then .vertical else .horizontal := by
  revert v
  decide

/-- The fifth write loads the register that its address selects. -/
theorem controlWrite_mmc1_load {c : Cartridge} {m : Mmc1} (hm : c.mapper = .mmc1 m) {addr : Word}
    (ha : 0x8000 ≤ addr.toNat) {d : Byte} (hd : d.getLsbD 7 = false) (hcount : m.count + 1 = 5) :
    let v := portShift m.shift d
    controlWrite c addr d =
      { c with
        mapper := .mmc1
          { shift := 0, count := 0
            control := if addr.toNat < 0xA000 then v else m.control
            chr0 := if 0xA000 ≤ addr.toNat ∧ addr.toNat < 0xC000 then v else m.chr0
            chr1 := if 0xC000 ≤ addr.toNat ∧ addr.toNat < 0xE000 then v else m.chr1
            prg := if 0xE000 ≤ addr.toNat then v else m.prg }
        mirror := if addr.toNat < 0xA000 then mmc1Mirror v else c.mirror } := by
  intro v
  have hlt := addr.isLt
  have hsel := controlSelect_toNat addr
  have hload : mmc1LoadsControl m addr d = decide (addr.toNat < 0xA000) := by
    rw [mmc1LoadsControl, hd, hsel, decide_eq_true hcount, Bool.not_false, Bool.true_and, Bool.true_and,
      decide_eq_decide]
    omega
  have hwrite : mmc1Write m addr d =
      { shift := 0, count := 0
        control := if addr.toNat < 0xA000 then v else m.control
        chr0 := if 0xA000 ≤ addr.toNat ∧ addr.toNat < 0xC000 then v else m.chr0
        chr1 := if 0xC000 ≤ addr.toNat ∧ addr.toNat < 0xE000 then v else m.chr1
        prg := if 0xE000 ≤ addr.toNat then v else m.prg } := by
    rw [mmc1Write, hd, if_neg Bool.false_ne_true]
    dsimp only
    rw [if_pos hcount, hsel]
    rcases (by omega : addr.toNat / 8192 % 4 = 0 ∨ addr.toNat / 8192 % 4 = 1 ∨ addr.toNat / 8192 % 4 = 2 ∨
      addr.toNat / 8192 % 4 = 3) with h | h | h | h
    · rw [h, if_pos (by omega), if_neg (by omega), if_neg (by omega), if_neg (by omega)]
      rfl
    · rw [h, if_neg (by omega), if_pos (by omega), if_neg (by omega), if_neg (by omega)]
      rfl
    · rw [h, if_neg (by omega), if_neg (by omega), if_pos (by omega), if_neg (by omega)]
      rfl
    · rw [h, if_neg (by omega), if_neg (by omega), if_neg (by omega), if_pos (by omega)]
      rfl
  simp only [controlWrite, hm, hload, hwrite, decide_eq_true_eq]
  by_cases hc : addr.toNat < 0xA000
  · simp only [hc, if_true]
  · simp only [hc, if_false]

/-- A write with bit 7 set empties the port. -/
theorem controlWrite_mmc1_clear {c : Cartridge} {m : Mmc1} (hm : c.mapper = .mmc1 m) (addr : Word) {d : Byte}
    (hd : d.getLsbD 7 = true) :
    controlWrite c addr d =
      { c with mapper := .mmc1 { m with shift := 0, count := 0, control := m.control ||| 0x0C } } := by
  have hload : mmc1LoadsControl m addr d = false := by rw [mmc1LoadsControl, hd]; rfl
  have hwrite : mmc1Write m addr d = { m with shift := 0, count := 0, control := m.control ||| 0x0C } := by
    rw [mmc1Write, hd, if_pos rfl]
  simp only [controlWrite, hm, hload, hwrite]
  rfl

/-- Settles O54: four shifts and a load. -/
theorem mmc1SerialLoad : Obligations.Mmc1SerialLoad := by
  intro c m addr d0 d1 d2 d3 d4 hm ha
  refine ⟨fun h0 hd0 hd1 hd2 hd3 hd4 => ?_, fun hd => controlWrite_mmc1_clear hm addr hd⟩
  refine ⟨_, portShift_five m.shift d0 d1 d2 d3 d4, ?_⟩
  simp only [mmc1Writes]
  rw [controlWrite_mmc1_shift hm addr hd0 (by omega), controlWrite_mmc1_shift rfl addr hd1 (by dsimp only; omega),
    controlWrite_mmc1_shift rfl addr hd2 (by dsimp only; omega),
    controlWrite_mmc1_shift rfl addr hd3 (by dsimp only; omega),
    controlWrite_mmc1_load rfl ha hd4 (by dsimp only; omega)]
  simp only [mmc1Mirror_eq]

/-! MMC3's registers. -/

/-- An MMC3 control write: its registers, and the mirror mode where the address is the mirroring register's. -/
theorem controlWrite_mmc3 {c : Cartridge} {m : Mmc3} (hm : c.mapper = .mmc3 m) (addr : Word) (d : Byte) :
    controlWrite c addr d =
      { c with
        mapper := .mmc3 (mmc3Write m addr d)
        mirror := if addr.toNat / 8192 % 4 = 1 ∧ addr.toNat % 2 = 0 then
            (if d.getLsbD 0 then .horizontal else .vertical) else c.mirror } := by
  have hodd : addr.getLsbD 0 = decide (addr.toNat % 2 = 1) := by
    rw [BitVec.getLsbD, Nat.testBit_zero]
  have hmirror : mmc3IsMirroring addr = true ↔ addr.toNat / 8192 % 4 = 1 ∧ addr.toNat % 2 = 0 := by
    rw [mmc3IsMirroring, controlSelect_toNat, hodd, Bool.and_eq_true, decide_eq_true_eq, Bool.not_eq_true',
      decide_eq_false_iff_not]
    omega
  simp only [controlWrite, hm, hmirror]

/-- An MMC3 write depends on its address by the two select bits and bit 0 alone. -/
theorem mmc3Write_congr (m : Mmc3) (d : Byte) {addr addr' : Word}
    (hsel : addr.toNat / 8192 % 4 = addr'.toNat / 8192 % 4) (hodd : addr.toNat % 2 = addr'.toNat % 2) :
    mmc3Write m addr d = mmc3Write m addr' d := by
  have hbit : addr.getLsbD 0 = addr'.getLsbD 0 := by
    rw [BitVec.getLsbD, BitVec.getLsbD, Nat.testBit_zero, Nat.testBit_zero, hodd]
  rw [mmc3Write, mmc3Write, controlSelect_toNat, controlSelect_toNat, hsel, hbit]

/-! MMC3's counter. -/

/-- The counter of an MMC3 reloaded and enabled with latch `n`, after `k` scanline ticks. -/
def CountsDown (m : Mmc3) (k : Nat) (q : Mmc3) : Prop :=
  q.irqLatch = m.irqLatch ∧ q.irqEnable = true ∧ q.irqReload = false ∧
    (k ≤ m.irqLatch.toNat + 1 → q.irqCounter.toNat + k = m.irqLatch.toNat + 1) ∧
    (q.irqLine = true ↔ m.irqLatch.toNat + 1 ≤ k)

/-- A tick with the counter reloaded. -/
theorem mmc3Tick_reload (m : Mmc3) (h : m.irqCounter = 0 ∨ m.irqReload = true) :
    mmc3Tick m =
      { m with
        irqCounter := m.irqLatch, irqReload := false
        irqLine := m.irqLine || (decide (m.irqLatch = 0) && m.irqEnable) } := by
  have hc : (decide (m.irqCounter = 0) || m.irqReload) = true := by rwa [Bool.or_eq_true, decide_eq_true_eq]
  simp only [mmc3Tick, hc, if_true]
  by_cases hz : (decide (m.irqLatch = 0) && m.irqEnable) = true
  · rw [if_pos hz, hz, Bool.or_true]
  · rw [if_neg hz, Bool.eq_false_iff.2 hz, Bool.or_false]

/-- A tick that counts. -/
theorem mmc3Tick_count (m : Mmc3) (h : m.irqCounter ≠ 0) (h' : m.irqReload = false) :
    mmc3Tick m =
      { m with
        irqCounter := m.irqCounter - 1
        irqLine := m.irqLine || (decide (m.irqCounter - 1 = 0) && m.irqEnable) } := by
  have hc : (decide (m.irqCounter = 0) || m.irqReload) = false := by rw [decide_eq_false h, h']; rfl
  simp only [mmc3Tick, hc, Bool.false_eq_true, if_false]
  by_cases hz : (decide (m.irqCounter - 1 = 0) && m.irqEnable) = true
  · rw [if_pos hz, hz, Bool.or_true]
  · rw [if_neg hz, Bool.eq_false_iff.2 hz, Bool.or_false]

theorem countsDown_first {m : Mmc3} (hreload : m.irqReload = true) (henable : m.irqEnable = true)
    (hline : m.irqLine = false) : CountsDown m 1 (mmc3Tick m) := by
  rw [mmc3Tick_reload m (.inr hreload)]
  refine ⟨rfl, henable, rfl, fun _ => rfl, ?_⟩
  rw [hline, henable, Bool.false_or, Bool.and_true, decide_eq_true_eq, bitVec_eq_zero]
  omega

theorem countsDown_succ {m q : Mmc3} {k : Nat} (h : CountsDown m k q) : CountsDown m (k + 1) (mmc3Tick q) := by
  obtain ⟨hlatch, henable, hreload, hcounter, hline⟩ := h
  by_cases hzero : q.irqCounter = 0
  · rw [mmc3Tick_reload q (.inl hzero)]
    have hz := (bitVec_eq_zero _).1 hzero
    have hdone : m.irqLatch.toNat + 1 ≤ k := by omega
    refine ⟨hlatch, henable, rfl, fun _ => by omega, ?_⟩
    rw [hline.2 hdone, Bool.true_or]
    exact ⟨fun _ => by omega, fun _ => rfl⟩
  · rw [mmc3Tick_count q hzero hreload]
    have hpred := bitVec_pred hzero
    have hpos : q.irqCounter.toNat ≠ 0 := fun h => hzero ((bitVec_eq_zero _).2 h)
    refine ⟨hlatch, henable, hreload, fun _ => ?_, ?_⟩
    · dsimp only
      rw [hpred]
      omega
    · rw [henable, Bool.and_true, Bool.or_eq_true, hline, decide_eq_true_eq, bitVec_eq_zero, hpred]
      omega

theorem countsDown_times {m : Mmc3} (hreload : m.irqReload = true) (henable : m.irqEnable = true)
    (hline : m.irqLine = false) (k : Nat) : CountsDown m (k + 1) (times mmc3Tick (k + 1) m) := by
  induction k with
  | zero => exact countsDown_first hreload henable hline
  | succ k ih => exact countsDown_succ ih

/-- Settles O55: each register's write by `mmc3Write_eq`, and the line by the invariant `CountsDown`. -/
theorem mmc3CounterRaisesLine : Obligations.Mmc3CounterRaisesLine := by
  refine ⟨fun c m addr d hm ha => ?_, fun m k hreload henable hline => ?_⟩
  · intro a w becomes
    have hlt := addr.isLt
    have hw : w = _ := controlWrite_mmc3 hm addr d
    have hregs (addr' : Word) (hsel : a / 8192 % 4 = addr'.toNat / 8192 % 4) (hodd : a % 2 = addr'.toNat % 2)
        (hno : ¬ (a / 8192 % 4 = 1 ∧ a % 2 = 0)) : becomes (mmc3Write m addr' d) := by
      show w = _
      rw [hw, if_neg hno, mmc3Write_congr m d hsel hodd]
    have hmirroring : mmc3Write m 0xA000 d = m := rfl
    have hprotect : mmc3Write m 0xA001 d = m := rfl
    refine ⟨fun h1 h2 => ?_, fun h1 h2 => ?_, fun h1 h2 h3 => ?_, fun h1 h2 h3 => ?_, fun h1 h2 h3 => ?_,
      fun h1 h2 h3 => ?_, fun h1 h2 => ?_, fun h1 h2 => ?_⟩
    · have hselect : becomes { m with target := d.extractLsb' 0 3, prgMode := d.getLsbD 6, chrInv := d.getLsbD 7 } :=
        hregs 0x8000 (show _ = 0 by omega) h2 (by omega)
      rwa [lowBits_eq_ofNat] at hselect
    · refine ⟨m.r.setIfInBounds m.target.toNat d, hregs 0x8001 (show _ = 0 by omega) h2 (by omega), fun i => ?_⟩
      simp only [eq_comm (a := i.val)]
      exact Vector.getElem_setIfInBounds ..
    · rw [hw, if_pos ⟨by omega, h3⟩, mmc3Write_congr m d (addr' := 0xA000) (show _ = 1 by omega) h3, hmirroring, ← hm]
    · rw [hw, if_neg (by omega), mmc3Write_congr m d (addr' := 0xA001) (show _ = 1 by omega) h3, hprotect, ← hm]
    · exact hregs 0xC000 (show _ = 2 by omega) h3 (by omega)
    · exact hregs 0xC001 (show _ = 2 by omega) h3 (by omega)
    · exact hregs 0xE000 (show _ = 3 by omega) h2 (by omega)
    · exact hregs 0xE001 (show _ = 3 by omega) h2 (by omega)
  · cases k with
    | zero =>
      rw [show times mmc3Tick 0 m = m from rfl, hline]
      simp
    | succ k => exact (countsDown_times hreload henable hline k).2.2.2.2

end Sys2Proof.Proofs
end

section
/-! PROOFS. The pulse, triangle and noise channels: registers, outputs and timers (spec/63_apu.md R208 to R210,
R215, R222 to R224, R228). -/

namespace Sys2Proof.Proofs

open Sys2Proof.Machine Sys2Proof.Claims

/-! The registers (R208 to R210). -/

/-- A field of a byte, as arithmetic. -/
theorem byteField_eq_ofNat (d : Byte) (k n : Nat) :
    d.extractLsb' k n = BitVec.ofNat n (d.toNat / 2 ^ k % 2 ^ n) := by
  apply BitVec.eq_of_toNat_eq
  simp [BitVec.extractLsb'_toNat, Nat.shiftRight_eq_div_pow]

/-- The length loaded, by the statement's table. -/
theorem loadedLength_eq (enabled : Bool) (l d : Byte) :
    (if enabled then lengthOf d else l) = lengthAfter enabled l d := by
  have htable : ∀ i : Fin 32, lengthTable.getD i.val 0 = BitVec.ofNat 8 (lengths.getD i.val 0) := by decide
  rw [lengthAfter, lengthOf_eq, htable ⟨d.toNat / 8, by have := d.isLt; omega⟩]

theorem pulseWrite0_eq (p : Pulse) (d : Byte) : pulseWrite0 p d = pulseAfter 0 p d := by
  rw [pulseWrite0, lowBits_eq_ofNat, extractLsb'_eq_ofNat]
  rfl

theorem pulseWrite1_eq (p : Pulse) (d : Byte) : pulseWrite1 p d = pulseAfter 1 p d := by
  rw [pulseWrite1, lowBits_eq_ofNat, byteField_eq_ofNat]
  rfl

theorem pulseWrite2_eq (p : Pulse) (d : Byte) : pulseWrite2 p d = pulseAfter 2 p d := by
  rw [pulseWrite2, periodLow_eq]
  rfl

theorem pulseWrite3_eq (p : Pulse) (d : Byte) : pulseWrite3 p d = pulseAfter 3 p d := by
  rw [pulseWrite3, periodHigh_eq, loadedLength_eq]
  rfl

/-- The four registers of the two pulse channels. -/
theorem pulseRegisters (d : Byte) (s : State) {reg : Nat} (hreg : reg < 4) :
    ApuAfter (BitVec.ofNat 16 (0x4000 + reg)) d s { s.apu with pulse1 := pulseAfter reg s.apu.pulse1 d } ∧
      ApuAfter (BitVec.ofNat 16 (0x4004 + reg)) d s { s.apu with pulse2 := pulseAfter reg s.apu.pulse2 d } := by
  rcases (by omega : reg = 0 ∨ reg = 1 ∨ reg = 2 ∨ reg = 3) with rfl | rfl | rfl | rfl
  · rw [← pulseWrite0_eq, ← pulseWrite0_eq]
    exact ⟨apuAfter_of_apuWrite (by decide) rfl, apuAfter_of_apuWrite (by decide) rfl⟩
  · rw [← pulseWrite1_eq, ← pulseWrite1_eq]
    exact ⟨apuAfter_of_apuWrite (by decide) rfl, apuAfter_of_apuWrite (by decide) rfl⟩
  · rw [← pulseWrite2_eq, ← pulseWrite2_eq]
    exact ⟨apuAfter_of_apuWrite (by decide) rfl, apuAfter_of_apuWrite (by decide) rfl⟩
  · rw [← pulseWrite3_eq, ← pulseWrite3_eq]
    exact ⟨apuAfter_of_apuWrite (by decide) rfl, apuAfter_of_apuWrite (by decide) rfl⟩

/-- A write to an APU register that turns the triangle into `m`. -/
theorem apuAfter_triangleWrite {a : Word} {d : Byte} {s : State} {m' m : Triangle} (ha : IsApuRegister a)
    (hw : apuWrite s.apu a d = { s.apu with triangle := m' }) (hm : m' = m) :
    ApuAfter a d s { s.apu with triangle := m } := by
  subst hm
  exact apuAfter_of_apuWrite ha hw

/-- A write to an APU register that turns the noise channel into `m`. -/
theorem apuAfter_noiseWrite {a : Word} {d : Byte} {s : State} {m' m : Noise} (ha : IsApuRegister a)
    (hw : apuWrite s.apu a d = { s.apu with noise := m' }) (hm : m' = m) :
    ApuAfter a d s { s.apu with noise := m } := by
  subst hm
  exact apuAfter_of_apuWrite ha hw

/-! The outputs (R222 to R224). -/

theorem envelopeLevel_le (e : Envelope) : envelopeLevel e ≤ 15 := by
  have hv := e.volume.isLt
  have hd := e.decay.isLt
  unfold envelopeLevel
  split <;> omega

/-- The duty table in the statement's own form. -/
theorem dutyStep_iff (duty : BitVec 2) (seq : BitVec 3) :
    (!((dutyTable.getD duty.toNat []).getD seq.toNat false)) = true ↔
      (duties.getD duty.toNat []).getD seq.toNat 0 = 0 := by
  revert duty seq
  decide

/-- A pulse's output, by its four silencing conditions. -/
theorem pulseOut_putsOut (first : Bool) (p : Pulse) : PulsePutsOut first p (pulseOut first p) := by
  unfold PulsePutsOut
  intro silent
  have hcond : (decide (p.period.toNat < 8) || decide (p.length = 0) || sweepMutes first p ||
      !((dutyTable.getD p.duty.toNat []).getD p.seq.toNat false)) = true ↔ silent := by
    simp only [Bool.or_eq_true, decide_eq_true_eq, bitVec_eq_zero, sweepMutes_iff, dutyStep_iff, or_assoc, silent]
  exact ⟨fun h => if_pos (hcond.2 h), fun h => if_neg (mt hcond.1 h)⟩

/-- A channel that puts out so is silent or in the envelope's range. -/
theorem pulsePutsOut_le {first : Bool} {p : Pulse} {out : Nat} (h : PulsePutsOut first p out) : out ≤ 15 := by
  obtain ⟨hsilent, hsounding⟩ := h
  by_cases hs : p.period.toNat < 8 ∨ p.length.toNat = 0 ∨ Muted first p ∨
      (duties.getD p.duty.toNat []).getD p.seq.toNat 0 = 0
  · rw [hsilent hs]
    exact Nat.zero_le _
  · rw [hsounding hs]
    exact envelopeLevel_le _

theorem triangleOut_eq (t : Triangle) :
    triangleOut t =
      if t.period.toNat < 2 then 0 else if t.seq.toNat < 16 then 15 - t.seq.toNat else t.seq.toNat - 16 := by
  have hseq : ∀ i : BitVec 5, triSeq.getD i.toNat 0 = if i.toNat < 16 then 15 - i.toNat else i.toNat - 16 := by decide
  simp only [triangleOut, triangleSilenced, hseq, decide_eq_true_eq]

theorem triangleOut_le (t : Triangle) : triangleOut t ≤ 15 := by
  have hs := t.seq.isLt
  rw [triangleOut_eq]
  split
  · omega
  · split <;> omega

theorem noiseOut_eq (n : Noise) :
    noiseOut n = if n.length.toNat = 0 ∨ n.lfsr.getLsbD 0 = true then 0 else envelopeLevel n.env := by
  simp only [noiseOut, Bool.or_eq_true, decide_eq_true_eq, bitVec_eq_zero]
  rfl

theorem noiseOut_le (n : Noise) : noiseOut n ≤ 15 := by
  rw [noiseOut_eq]
  split
  · omega
  · exact envelopeLevel_le _

/-! The timers (R215, R222 to R224). -/

theorem pulseTimer_zero {p : Pulse} (h : p.timer.toNat = 0) :
    pulseTimer p = { p with timer := p.period, seq := p.seq + 1 } :=
  if_pos ((bitVec_eq_zero _).2 h)

theorem pulseTimer_count {p : Pulse} (h : p.timer.toNat ≠ 0) : pulseTimer p = { p with timer := p.timer - 1 } :=
  if_neg (mt (bitVec_eq_zero _).1 h)

theorem triangleTimer_zero {t : Triangle} (h : t.timer.toNat = 0) :
    triangleTimer t =
      { t with
        timer := t.period
        seq :=
          if t.length.toNat ≠ 0 ∧ t.linCounter.toNat ≠ 0 ∧ 2 ≤ t.period.toNat then t.seq + 1 else t.seq } := by
  have hcond : (decide (t.length ≠ 0) && decide (t.linCounter ≠ 0) && !triangleSilenced t) = true ↔
      t.length.toNat ≠ 0 ∧ t.linCounter.toNat ≠ 0 ∧ 2 ≤ t.period.toNat := by
    rw [Bool.and_eq_true, Bool.and_eq_true, decide_eq_true_eq, decide_eq_true_eq, ne_eq, ne_eq, bitVec_eq_zero,
      bitVec_eq_zero, triangleSilenced, Bool.not_eq_true', decide_eq_false_iff_not, Nat.not_lt, and_assoc]
  rw [triangleTimer, if_pos ((bitVec_eq_zero _).2 h)]
  simp only [hcond]

theorem triangleTimer_count {t : Triangle} (h : t.timer.toNat ≠ 0) :
    triangleTimer t = { t with timer := t.timer - 1 } :=
  if_neg (mt (bitVec_eq_zero _).1 h)

theorem noiseTimer_zero {n : Noise} (h : n.timer.toNat = 0) :
    noiseTimer n =
      { n with
        timer := BitVec.ofNat 12 (noisePeriod.getD n.periodIndex.toNat 0 / 2 - 1)
        lfsr := lfsrStep n.mode n.lfsr } :=
  if_pos ((bitVec_eq_zero _).2 h)

theorem noiseTimer_count {n : Noise} (h : n.timer.toNat ≠ 0) : noiseTimer n = { n with timer := n.timer - 1 } :=
  if_neg (mt (bitVec_eq_zero _).1 h)

/-- Every noise period fits the timer. -/
theorem noiseReload_toNat (i : BitVec 4) :
    (BitVec.ofNat 12 (noisePeriod.getD i.toNat 0 / 2 - 1)).toNat = noisePeriod.getD i.toNat 0 / 2 - 1 := by
  have hfits : ∀ i : BitVec 4, noisePeriod.getD i.toNat 0 / 2 - 1 < 2 ^ 12 := by decide
  rw [BitVec.toNat_ofNat, Nat.mod_eq_of_lt (hfits i)]

/-- The noise LFSR shifts right, its feedback entering at the top (R224). -/
theorem lfsrStep_toNat (mode : Bool) (l : BitVec 15) :
    (lfsrStep mode l).toNat =
      l.toNat / 2 + if l.getLsbD 0 = l.getLsbD (if mode then 6 else 1) then 0 else 0x4000 := by
  have htap : (if mode then l.getLsbD 6 else l.getLsbD 1) = l.getLsbD (if mode then 6 else 1) := by
    cases mode <;> rfl
  have hlt : (l >>> 1).toNat < 2 ^ 14 := by
    have := l.isLt
    rw [BitVec.toNat_ushiftRight, Nat.shiftRight_eq_div_pow]
    omega
  have hhalf : (l >>> 1).toNat = l.toNat / 2 := by
    rw [BitVec.toNat_ushiftRight, Nat.shiftRight_eq_div_pow]
  rw [lfsrStep, htap]
  generalize l.getLsbD (if mode then 6 else 1) = tap
  generalize l.getLsbD 0 = low
  by_cases h : low = tap
  · have hbit : bitAt 15 14 (low ^^ tap) = 0 := by rw [h, Bool.xor_self]; rfl
    rw [if_pos h, hbit, ← hhalf]
    simp
  · have hbit : bitAt 15 14 (low ^^ tap) = 0x4000 := by
      have hxor : (low ^^ tap) = true := by cases low <;> cases tap <;> simp_all
      rw [hxor]
      rfl
    rw [if_neg h, hbit, BitVec.toNat_or, Nat.or_comm, ← hhalf]
    exact (Nat.two_pow_add_eq_or_of_lt hlt 1).symm.trans (Nat.add_comm _ _)

/-- The timers of one APU tick (D40). -/
theorem apuUnits_timers (a : Apu) :
    let f : Apu := frameStep a
    let second : Bool := decide (a.apuCycle % 2 = 0)
    apuUnits a =
      { f with
        triangle := triangleTimer f.triangle
        pulse1 := if second then pulseTimer f.pulse1 else f.pulse1
        pulse2 := if second then pulseTimer f.pulse2 else f.pulse2
        noise := if second then noiseTimer f.noise else f.noise
        dmc := dmcTimer f.dmc } := by
  intro f second
  have hcycle : f.apuCycle = a.apuCycle := frameStep_apuCycle a
  unfold apuUnits
  dsimp only
  rw [frameStep_apuCycle]
  by_cases h : a.apuCycle % 2 = 0
  · simp only [second, h, decide_true, if_true]
    rfl
  · simp only [second, h, decide_false, Bool.false_eq_true, if_false]
    rfl

/-! The statement. -/

/-- Settles O52: the registers one by one, and each output and timer by its equation. -/
theorem channelOutputRanges : Obligations.ChannelOutputRanges := by
  refine ⟨fun d s => ?_, fun a => ?_⟩
  · refine ⟨fun reg hreg => pulseRegisters d s hreg,
      apuAfter_triangleWrite (by decide) rfl ?_, apuAfter_of_apuWrite (by decide) rfl,
      apuAfter_triangleWrite (by decide) rfl ?_, apuAfter_triangleWrite (by decide) rfl ?_,
      apuAfter_noiseWrite (by decide) rfl ?_, apuAfter_of_apuWrite (by decide) rfl,
      apuAfter_noiseWrite (by decide) rfl ?_, apuAfter_noiseWrite (by decide) rfl ?_⟩
    · rw [triangleWrite0, lowBits_eq_ofNat]
      rfl
    · rw [triangleWrite2, periodLow_eq]
    · rw [triangleWrite3, periodHigh_eq, loadedLength_eq]
    · rw [noiseWrite0, lowBits_eq_ofNat]
      rfl
    · rw [noiseWrite2, lowBits_eq_ofNat]
      rfl
    · rw [noiseWrite3, loadedLength_eq]
  · have h1 := pulseOut_putsOut true a.pulse1
    have h2 := pulseOut_putsOut false a.pulse2
    refine ⟨pulsePutsOut_le h1, pulsePutsOut_le h2, triangleOut_le _, noiseOut_le _, fun h => h1.1 (.inr (.inl h)),
      fun h => h2.1 (.inr (.inl h)), fun h => (noiseOut_eq _).trans (if_pos (.inl h)), fun h => h1.1 (.inl h),
      fun h => h2.1 (.inl h), fun h => (triangleOut_eq _).trans (if_pos h), h1, h2, apuUnits_timers a, rfl,
      triangleOut_eq _, noiseOut_eq _, fun p => ⟨fun h => ?_, fun h => ?_⟩, fun t => ⟨fun h => ?_, fun h => ?_⟩,
      fun n => ⟨fun h => ?_, fun h => ?_⟩⟩
    · exact ⟨_, pulseTimer_zero h, BitVec.toNat_add _ _⟩
    · exact ⟨_, pulseTimer_count h, bitVec_pred (mt (bitVec_eq_zero _).1 h)⟩
    · refine ⟨_, triangleTimer_zero h, ?_⟩
      rw [apply_ite BitVec.toNat, BitVec.toNat_add]
      rfl
    · exact ⟨_, triangleTimer_count h, bitVec_pred (mt (bitVec_eq_zero _).1 h)⟩
    · exact ⟨_, _, noiseTimer_zero h, noiseReload_toNat _, lfsrStep_toNat _ _⟩
    · exact ⟨_, noiseTimer_count h, bitVec_pred (mt (bitVec_eq_zero _).1 h)⟩

end Sys2Proof.Proofs
end
